-- ==== Sys2Proof/Word.lean ====
section
/-! DEFINITION. The word types of the HA-48: bytes, halfwords, 32-bit words and 48-bit hall times. -/

namespace Sys2Proof

/-- A byte of the exchange memory or of a loop frame. -/
abbrev Byte := BitVec 8

/-- A halfword. -/
abbrev Half := BitVec 16

/-- A word of the exchange memory (00_scope.md, Conventions: a word is 32 bits). -/
abbrev Word := BitVec 32

/-- Hall time, a 48-bit count of milliseconds (R17). -/
abbrev HallTime := BitVec 48

end Sys2Proof
end

