-- ==== Sys2Proof/Syntax.lean ====
section
/-! DEFINITION. The commands of the HA-48: one constructor of `Instr` for each row of spec/opcode_table.json. -/

namespace Sys2Proof

/-- What a serial loop brought back in a slot that carried a call (R24, R76). -/
inductive LineInput where
  /-- No reply begun within the slot. -/
  | silent
  /-- A reply begun but not ended within the slot. -/
  | unended
  /-- A reply ended within the slot, its bytes in the order received (R178). -/
  | frame (bytes : List Byte)
deriving DecidableEq, Repr

/-- The nine staging tables (R171), in the order of their codes (R177). -/
inductive TableName where
  | general | concentrators | points | channels | windows | groups | panels | terms | switches
deriving DecidableEq, Repr

/-- What a check of one live settings entry found (R167). -/
inductive CheckFinding where
  /-- No damage. -/
  | sound
  /-- A single damaged bit. -/
  | correctable
  /-- A double error in the live entry; the adopted copy is sound. -/
  | uncorrectable
  /-- The live entry and its adopted copy are both damaged. -/
  | bothCopies
deriving DecidableEq, Repr

/-- How a word is put on the exchange bus (R156): `lanes` are its byte enables (bit i set: byte i is written), `further` marks a word of a
burst write other than its first. -/
structure WriteEnables where
  lanes : BitVec 4
  further : Bool
deriving DecidableEq, Repr

/-- The commands: one constructor for each row of the table of operations and events. An order's parameters stand in the
slot the order engine takes (13.4), so an order row carries none. -/
inductive Instr where
  /-- R170. -/
  | powerOn
  /-- R170. -/
  | resetNPulse
  /-- R19. -/
  | syncPulse
  /-- R159: the SETTINGS key input as it stands after the change. -/
  | settingsKeyChange (enable : Bool)
  /-- R17. -/
  | hallTimeAdvance
  /-- R165. -/
  | maskWrite (value : Word)
  /-- R151. -/
  | releasedThroughWrite (value : Word)
  /-- R160. -/
  | holderReadyWrite (slot : Nat)
  /-- R160. -/
  | holderEmptyWrite (slot : Nat)
  /-- R157: a host write at a byte address, with its byte enables and its place in a burst (R156). -/
  | hostWordWrite (address : BitVec 17) (enables : WriteEnables) (value : Word)
  /-- R172. -/
  | adopt
  /-- R174. -/
  | adoptValidationEnd
  /-- R18. -/
  | setTime
  /-- R83. -/
  | setMode
  /-- R48. -/
  | ackWindows
  /-- R48. -/
  | resetWindows
  /-- R50. -/
  | silence
  /-- R52. -/
  | shelve
  /-- R53. -/
  | unshelve
  /-- R70. -/
  | resetFirstOut
  /-- R12. -/
  | forcePoint
  /-- R13. -/
  | releasePoint
  /-- R115. -/
  | isolate
  /-- R116. -/
  | restore
  /-- R112. -/
  | resetSwitch
  /-- R114. -/
  | tripManual
  /-- R143. -/
  | testCircuit
  /-- R35. -/
  | clearCounters
  /-- R169. -/
  | clearFault
  /-- R170. -/
  | restart
  /-- R162. -/
  | chainOpen
  /-- R162. -/
  | chainContinue
  /-- R163. -/
  | chainClose
  /-- R164. -/
  | chainHoldTimerExpiry
  /-- R22. -/
  | fieldCycleStart
  /-- R23. -/
  | scanCall
  /-- R25. -/
  | repeatCall
  /-- R24: what the field loop brought back in the slot. -/
  | fieldSlotEnd (line : LineInput)
  /-- R28. -/
  | fieldCycleEnd
  /-- R11. -/
  | chatterPeriodBoundary
  /-- R20. -/
  | timeSteppedExpiry
  /-- R135: the 10-bit values of the 16 supervision inputs. -/
  | continuousSample (samples : List (BitVec 10))
  /-- R66. -/
  | settleTimerExpiry (group : Nat)
  /-- R54. -/
  | shelfExpiry
  /-- R51. -/
  | chimeEnd
  /-- R74. -/
  | flashPhaseAdvance
  /-- R75. -/
  | panelCycleStart
  /-- R75. -/
  | lampFrame
  /-- R76: what the panel loop brought back in the slot. -/
  | panelSlotEnd (line : LineInput)
  /-- R78. -/
  | panelCycleEnd
  /-- R90. -/
  | termDelayExpiry (term : Nat)
  /-- R106. -/
  | coilStart
  /-- R106. -/
  | startHistoryExpiry
  /-- R109. -/
  | minPulseExpiry (switch : Nat)
  /-- R109. -/
  | maxPulseExpiry (switch : Nat)
  /-- R113. -/
  | resetPulseEnd (switch : Nat)
  /-- R138: the 10-bit value of the switch's channel at the test end. -/
  | testPulseEnd (switch : Nat) (sample : BitVec 10)
  /-- R137. -/
  | supervisionTick (switch : Nat)
  /-- R167. -/
  | tableCheck (table : TableName) (entry : Nat) (finding : CheckFinding)
  /-- R161. -/
  | badOrder
deriving DecidableEq, Repr

end Sys2Proof
end

