-- ==== Sys2Proof/Decode.lean ====
section
/-! DEFINITION. The table of operations and events gives no row any bits: no word spells a command. -/

namespace Sys2Proof

/-- The command that a word spells by the table's bits: none, since no row of spec/opcode_table.json has bits (the spec's
events arrive at pins, at the host bus and on the loops, not as encoded words). -/
def decodeTableWord (_nbits _w : Nat) : Option Instr := none

end Sys2Proof
end

