-- ==== Sys2Proof/Config.lean ====
section
/-! DEFINITION. What the spec leaves to an implementation or leaves without a value. Each constant is opaque: nothing can be
proved about the value it has. -/

namespace Sys2Proof

/-- How far the silicon revision word lies above 1 (13.3: "revision, from 1"). Log entry 9. -/
opaque Config.revisionAboveOne : Nat

/-- A 16-bit value the spec does not state (log entry 16), fresh for each count. -/
opaque Config.freeHalf : Nat → Half

/-- A byte the spec does not state (log entry 17), fresh for each count. -/
opaque Config.freeByte : Nat → Byte

/-- The silicon revision word (13.3, R159): some fixed number from 1 upward. -/
def Config.revision : Word := BitVec.ofNat 32 (1 + Config.revisionAboveOne % (2 ^ 32 - 1))

end Sys2Proof
end

