-- ==== Sys2Proof/Machine/Types.lean ====
section
/-! DEFINITION. The named values of the HA-48 with their codes (R177), and the settings tables as the part holds them. -/

namespace Sys2Proof

/-- The codes of the staging tables (R177). -/
def TableName.code : TableName → Nat
  | .general => 0
  | .concentrators => 1
  | .points => 2
  | .channels => 3
  | .windows => 4
  | .groups => 5
  | .panels => 6
  | .terms => 7
  | .switches => 8

end Sys2Proof

namespace Sys2Proof.Machine

/-! ## Named values -/

/-- A point's own quality, apart from forcing (R6). -/
inductive LiveQuality where
  | good | lost | wiring
deriving DecidableEq, Repr, Inhabited

/-- The quality of a point as the rest of the part sees it (R6). -/
inductive Quality where
  | good | lost | wiring | forced
deriving DecidableEq, Repr, Inhabited

/-- Link states of concentrators (R27) and panels (R78; a panel has neither SUSPECT nor REGAINING). -/
inductive LinkState where
  | absent | seeking | healthy | suspect | lost | regaining
deriving DecidableEq, Repr, Inhabited

/-- Annunciation sequences (R41, R42, R43). -/
inductive Sequence where
  | lockin | nonlock | ringback
deriving DecidableEq, Repr, Inhabited

/-- Window states (03, 3.3). -/
inductive WindowState where
  | quiet | alert | alertGone | steady | cleared | ringback
deriving DecidableEq, Repr, Inhabited

/-- The four events of a window (03, 3.3). -/
inductive WindowEvent where
  | active | clear | ack | reset
deriving DecidableEq, Repr

/-- First-out marks (R45). -/
inductive Mark where
  | none | first | subsequent
deriving DecidableEq, Repr, Inhabited

/-- Lamp patterns (R46, R74). -/
inductive Pattern where
  | off | steady | slow | fast | first
deriving DecidableEq, Repr, Inhabited

/-- Term states (R88 to R92); `unconfigured` is the code of a term that is in no state. -/
inductive TermState where
  | unconfigured | held | disarmed | idle | timing | active
deriving DecidableEq, Repr, Inhabited

/-- Lost policies (R85). -/
inductive LostPolicy where
  | holdLast | assumeActive | assumeInactive
deriving DecidableEq, Repr, Inhabited

/-- Unit modes (R82). -/
inductive Mode where
  | undeclared | standstill | starting | generating | pumping | condensing | stopping
deriving DecidableEq, Repr, Inhabited

/-- Switch kinds (R98). -/
inductive SwitchKind where
  | breaker | lockout | hold
deriving DecidableEq, Repr, Inhabited

/-- Switch states (R100); `unconfigured` is the code of a switch that is in no state. -/
inductive SwitchState where
  | unconfigured | ready | queued | pulsing | confirmed | failed | unconfirmed | lockedOut
  | resetQueued | resetPulsing | settling | held
deriving DecidableEq, Repr, Inhabited

/-- Kinds of coil queue entries (R105). -/
inductive OpKind where
  | trip | reset | test
deriving DecidableEq, Repr, Inhabited

/-- Successor triggers (R122). -/
inductive Trigger where
  | onStart | onConfirm
deriving DecidableEq, Repr, Inhabited

/-- The source of a trip request (R103, R132). -/
inductive Source where
  | term (n : Nat) | order (slot : Nat) | cascade (predecessor : Nat) | backup (failed : Nat)
deriving DecidableEq, Repr, Inhabited

/-- Supervision states (R136); `off` is a switch that is not supervised. -/
inductive SupervisionState where
  | off | untested | healthy | openCircuit | unverified
deriving DecidableEq, Repr, Inhabited

/-- Channel modes (R134). -/
inductive ChannelMode where
  | continuous | testReturn
deriving DecidableEq, Repr, Inhabited

/-- The condition of the part (R166). -/
inductive Condition where
  | unconfigured | running | degraded | faulted | halted
deriving DecidableEq, Repr, Inhabited

/-- Slot holders (R160). READY is never kept (11.3). -/
inductive Holder where
  | empty | queued | working | done
deriving DecidableEq, Repr, Inhabited

/-- Chain marks (R162). -/
inductive ChainMark where
  | alone | opening | continuing | closing
deriving DecidableEq, Repr, Inhabited

/-- Adoption scopes (R172). -/
inductive Scope where
  | annunciation | full
deriving DecidableEq, Repr, Inhabited

/-- Order outcomes, in the order of their codes (13.4). -/
inductive Result where
  | ok | badOrder | badParameter | notConfigured | busy
  | chainBusy | noChain | notChainable | chainFailed | chainAbandoned
  | forceUnsafe | notShelvable | shelfFull | resetBlocked | restoreForced
  | restoreActive | notSupervised | settingsInvalid | keyLocked | restarted
deriving DecidableEq, Repr, Inhabited

/-- Validation reasons, in the order of their codes from 1 (13.4). -/
inductive Reason where
  | badLoop | badRange | badReference | positionTwice | settleShort | cascadeLoop
  | feedbackMissing | channelMode
deriving DecidableEq, Repr, Inhabited

/-- Journal entry kinds, in the order of their codes from 1 (13.5). -/
inductive EntryKind where
  | point | pointChatter | link | time | window | shelf | firstOut | mode | term | supervision
  | maint | settings | condition | termActive | switch | halt | gap
deriving DecidableEq, Repr, Inhabited

/-- SWITCH marks, in the order of their codes (13.5). -/
inductive SwitchMark where
  | start | confirm | fail | unconfirmed | lateConfirm | reclosed | withheld | foundOperated
  | settled | resetDone | resetFailed | released | cleared
deriving DecidableEq, Repr, Inhabited

/-- SHELF marks, in the order of their codes (13.5). -/
inductive ShelfMark where
  | shelved | reshelved | unshelved | expired | ended
deriving DecidableEq, Repr, Inhabited

/-- The cause of a window's state change (R56). -/
inductive Cause where
  | input | panel (p : Nat) | order (slot : Nat) | settings
deriving DecidableEq, Repr, Inhabited

/-! ## Codes (R177, 13.4, 13.5) -/

def LiveQuality.quality : LiveQuality → Quality
  | .good => .good
  | .lost => .lost
  | .wiring => .wiring

def Quality.code : Quality → Nat
  | .good => 0
  | .lost => 1
  | .wiring => 2
  | .forced => 3

def LinkState.code : LinkState → Nat
  | .absent => 0
  | .seeking => 1
  | .healthy => 2
  | .suspect => 3
  | .lost => 4
  | .regaining => 5

def Sequence.ofCode : Nat → Sequence
  | 1 => .nonlock
  | 2 => .ringback
  | _ => .lockin

def WindowState.code : WindowState → Nat
  | .quiet => 0
  | .alert => 1
  | .alertGone => 2
  | .steady => 3
  | .cleared => 4
  | .ringback => 5

def Mark.code : Mark → Nat
  | .none => 0
  | .first => 1
  | .subsequent => 2

def Pattern.code : Pattern → Nat
  | .off => 0
  | .steady => 1
  | .slow => 2
  | .fast => 3
  | .first => 4

def TermState.code : TermState → Nat
  | .unconfigured => 0
  | .held => 1
  | .disarmed => 2
  | .idle => 3
  | .timing => 4
  | .active => 5

def LostPolicy.ofCode : Nat → LostPolicy
  | 1 => .assumeActive
  | 2 => .assumeInactive
  | _ => .holdLast

def Mode.code : Mode → Nat
  | .undeclared => 0
  | .standstill => 1
  | .starting => 2
  | .generating => 3
  | .pumping => 4
  | .condensing => 5
  | .stopping => 6

/-- The modes in the order of their codes. -/
def Mode.all : List Mode :=
  [.undeclared, .standstill, .starting, .generating, .pumping, .condensing, .stopping]

def Mode.ofCode (n : Nat) : Option Mode := Mode.all[n]?

def SwitchKind.code : SwitchKind → Nat
  | .breaker => 0
  | .lockout => 1
  | .hold => 2

def SwitchKind.ofCode : Nat → SwitchKind
  | 1 => .lockout
  | 2 => .hold
  | _ => .breaker

def SwitchState.code : SwitchState → Nat
  | .unconfigured => 0
  | .ready => 1
  | .queued => 2
  | .pulsing => 3
  | .confirmed => 4
  | .failed => 5
  | .unconfirmed => 6
  | .lockedOut => 7
  | .resetQueued => 8
  | .resetPulsing => 9
  | .settling => 10
  | .held => 11

def OpKind.code : OpKind → Nat
  | .trip => 1
  | .reset => 2
  | .test => 3

def Source.code : Source → Nat
  | .term _ => 0
  | .order _ => 1
  | .cascade _ => 2
  | .backup _ => 3

def Source.number : Source → Nat
  | .term n => n
  | .order n => n
  | .cascade n => n
  | .backup n => n

def Source.isBackup : Source → Bool
  | .backup _ => true
  | .term _ => false
  | .order _ => false
  | .cascade _ => false

def Source.isOrder : Source → Bool
  | .order _ => true
  | .term _ => false
  | .cascade _ => false
  | .backup _ => false

def SupervisionState.code : SupervisionState → Nat
  | .off => 0
  | .untested => 1
  | .healthy => 2
  | .openCircuit => 3
  | .unverified => 4

def ChannelMode.code : ChannelMode → Nat
  | .continuous => 0
  | .testReturn => 1

def Condition.code : Condition → Nat
  | .unconfigured => 0
  | .running => 1
  | .degraded => 2
  | .faulted => 3
  | .halted => 4

def Holder.code : Holder → Nat
  | .empty => 0
  | .queued => 2
  | .working => 3
  | .done => 4

def ChainMark.ofCode : Nat → Option ChainMark
  | 0 => some .alone
  | 1 => some .opening
  | 2 => some .continuing
  | 3 => some .closing
  | _ => none

def Scope.code : Scope → Nat
  | .annunciation => 1
  | .full => 2

def Scope.ofCode : Nat → Option Scope
  | 1 => some .annunciation
  | 2 => some .full
  | _ => none

def Result.code : Result → Nat
  | .ok => 0
  | .badOrder => 1
  | .badParameter => 2
  | .notConfigured => 3
  | .busy => 4
  | .chainBusy => 5
  | .noChain => 6
  | .notChainable => 7
  | .chainFailed => 8
  | .chainAbandoned => 9
  | .forceUnsafe => 10
  | .notShelvable => 11
  | .shelfFull => 12
  | .resetBlocked => 13
  | .restoreForced => 14
  | .restoreActive => 15
  | .notSupervised => 16
  | .settingsInvalid => 17
  | .keyLocked => 18
  | .restarted => 19

def Reason.code : Reason → Nat
  | .badLoop => 1
  | .badRange => 2
  | .badReference => 3
  | .positionTwice => 4
  | .settleShort => 5
  | .cascadeLoop => 6
  | .feedbackMissing => 7
  | .channelMode => 8

def EntryKind.code : EntryKind → Nat
  | .point => 1
  | .pointChatter => 2
  | .link => 3
  | .time => 4
  | .window => 5
  | .shelf => 6
  | .firstOut => 7
  | .mode => 8
  | .term => 9
  | .supervision => 10
  | .maint => 11
  | .settings => 12
  | .condition => 13
  | .termActive => 14
  | .switch => 15
  | .halt => 16
  | .gap => 17

def SwitchMark.code : SwitchMark → Nat
  | .start => 0
  | .confirm => 1
  | .fail => 2
  | .unconfirmed => 3
  | .lateConfirm => 4
  | .reclosed => 5
  | .withheld => 6
  | .foundOperated => 7
  | .settled => 8
  | .resetDone => 9
  | .resetFailed => 10
  | .released => 11
  | .cleared => 12

def ShelfMark.code : ShelfMark → Nat
  | .shelved => 0
  | .reshelved => 1
  | .unshelved => 2
  | .expired => 3
  | .ended => 4

def Cause.code : Cause → Nat
  | .input => 0
  | .panel _ => 1
  | .order _ => 2
  | .settings => 3

/-- The panel or slot of a cause; 0xFF where the cause names none (R177). -/
def Cause.number : Cause → Nat
  | .input => 0xFF
  | .panel p => p
  | .order k => k
  | .settings => 0xFF

/-! ## Settings (R2, R26, R37, R61, R73, R85, R98, R134 and the general table of R171) -/

/-- The number of COMMON among the units (R177). -/
abbrev commonUnit : Nat := 8

/-- The general table (R171, 13.7). Times in the units of 13.7: rate in Mbit/s, cycle and chime in ms, chatter period in s. -/
structure GeneralSettings where
  rate : Nat
  cycle : Nat
  chatterPeriod : Nat
  chimeTime : Nat
  highWater : Nat
  levelJournal : Nat
  levelJournalHigh : Nat
  levelOrder : Nat
  levelCondition : Nat
deriving DecidableEq, Repr, Inhabited

/-- A configured concentrator (R26). -/
structure ConcentratorSettings where
  lostThreshold : Nat
  regainCount : Nat
  errorThreshold : Nat
deriving DecidableEq, Repr, Inhabited

/-- A configured settable point (R2). -/
structure PointSettings where
  activeOpen : Bool
  journal : Bool
  setFilter : Nat
  clearFilter : Nat
  threshold : Nat
  release : Nat
deriving DecidableEq, Repr, Inhabited

/-- A supervision channel (R134). -/
structure ChannelSettings where
  mode : ChannelMode
  hysteresis : Nat
  low : Nat
  high : Nat
deriving DecidableEq, Repr, Inhabited

/-- A configured window (R37). The unit is 0-7 or COMMON (8); the place is a panel and a position. -/
structure WindowSettings where
  sources : List Nat
  sequence : Sequence
  unit : Nat
  group : Option Nat
  place : Option (Nat × Nat)
  horn : Bool
  chime : Bool
  shelvable : Bool
  journal : Bool
deriving DecidableEq, Repr, Inhabited

/-- A configured panel (R73). -/
structure PanelSettings where
  keysAccepted : Bool
deriving DecidableEq, Repr, Inhabited

/-- A configured term (R85). -/
structure TermSettings where
  unit : Nat
  modes : List Mode
  points : List Nat
  vote : Nat
  delay : Nat
  outputs : List Nat
  policy : LostPolicy
deriving DecidableEq, Repr, Inhabited

/-- A configured switch (R98, R122, R136). The supervision is a channel and an interval in s. -/
structure SwitchSettings where
  kind : SwitchKind
  unit : Nat
  cls : Nat
  feedback : Option Nat
  minPulse : Nat
  maxPulse : Nat
  resetPulse : Nat
  successors : List (Nat × Trigger)
  backup : Option Nat
  supervision : Option (Nat × Nat)
deriving DecidableEq, Repr, Inhabited

/-- The nine tables (R171). `none` is an unconfigured entry. -/
structure Tables where
  general : GeneralSettings
  concentrators : Vector (Option ConcentratorSettings) 16
  points : Vector (Option PointSettings) 544
  channels : Vector ChannelSettings 16
  windows : Vector (Option WindowSettings) 384
  groups : Vector Nat 32
  panels : Vector (Option PanelSettings) 16
  terms : Vector (Option TermSettings) 128
  switches : Vector (Option SwitchSettings) 48
deriving DecidableEq, Repr, Inhabited

end Sys2Proof.Machine
end

