-- ==== Sys2Proof/Machine/State.lean ====
section
/-! DEFINITION. The state of the HA-48, block by block, as plain data, with its value after power-on; the reasons a step can
stop. -/

namespace Sys2Proof.Machine

/-- The spec names no undefined behaviour that stops this block: no step faults. -/
inductive Fault where
deriving DecidableEq, Repr

/-- Reasons a command is refused. -/
inductive Refusal where
  /-- Raised by an arm of `exec` for a command that has no meaning yet; safe, since the machine stops there. No arm raises it. -/
  | notModelled (mnemonic : String)
deriving DecidableEq, Repr

/-! ## Hall clock and flash clock -/

/-- The clocks (R17, R20, R74). `elapsed` counts the milliseconds since the reset (log entry 1). -/
structure Clock where
  hall : HallTime
  elapsed : Nat
  flash : BitVec 3
  nextFlash : Nat
  steppedUntil : Option Nat
deriving DecidableEq, Repr, Inhabited

/-! ## Point qualifier -/

/-- A pending change (R3, R4): its start as hall time and as elapsed time, and the filter it is judged by. -/
structure PendingChange where
  start : HallTime
  startElapsed : Nat
  filter : Nat
deriving DecidableEq, Repr, Inhabited

/-- One point (R3, R6, R10, R12, R14, R16, R38, R86). `forced` holds the force value while the point is forced, `frozen` the
frozen value while it is suppressed; `fresh` marks a newly configured point whose next sample is taken directly. -/
structure Point where
  raw : Bool
  qualified : Bool
  live : LiveQuality
  forced : Option Bool
  frozen : Option Bool
  pending : Option PendingChange
  chatter : Nat
  held : Bool
  termHeld : Bool
  fresh : Bool
  rawTime : HallTime
  qualifyTime : HallTime
deriving DecidableEq, Repr, Inhabited

/-- The point qualifier: all 680 points and the next chatter period boundary (R1, R11). -/
structure Points where
  points : Vector Point 680
  nextBoundary : Option Nat
deriving DecidableEq, Repr, Inhabited

/-! ## Field loop controller -/

/-- One concentrator (R27, R28, R30, R33, R34). `history` holds the errors of the last cycles, latest first. -/
structure Concentrator where
  link : LinkState
  failedCount : Nat
  goodCount : Nat
  calls : Nat
  timeouts : Nat
  crcErrors : Nat
  staleEchoes : Nat
  holdOffs : Nat
  wasLost : Bool
  marginal : Bool
  history : List Nat
  lastGood : HallTime
  lostAt : HallTime
deriving DecidableEq, Repr, Inhabited

/-- The field loop cycle in progress (R22 to R25). `call` is the open call: its address and whether it is a REPEAT. `retried`,
`taken` and `errors` list addresses, one for each retry used, reply taken and error of this cycle; `withdrawn` those that an
adoption has made unconfigured since it began, which it serves no more (R36, log entry 25). `thresholds` are the error
thresholds in force at its start (R34, log entry 44). -/
structure FieldCycle where
  count : Byte
  start : HallTime
  startElapsed : Nat
  schedule : List Nat
  slots : Nat
  slot : Nat
  call : Option (Nat × Bool)
  retry : List Nat
  retried : List Nat
  taken : List Nat
  errors : List Nat
  withdrawn : List Nat
  thresholds : Vector Nat 16
deriving DecidableEq, Repr, Inhabited

/-- The field loop controller. `nextAt` is the elapsed time of the next cycle start while the loop runs; `line` is the frame
last sent on FLD_D. -/
structure FieldLoop where
  concentrators : Vector Concentrator 16
  nextAt : Option Nat
  nextCount : Byte
  cycle : Option FieldCycle
  line : List Byte
deriving DecidableEq, Repr, Inhabited

/-! ## Window sequencer and first-out tracker -/

/-- One window (R39, R40, R41 to R43, R45). -/
structure Window where
  state : WindowState
  input : Bool
  doubt : Bool
  mark : Mark
  alarm : HallTime
  standing : Bool
deriving DecidableEq, Repr, Inhabited

/-- One entry of the shelf list (R52, R57). -/
structure ShelfEntry where
  window : Nat
  expiry : Nat
  began : HallTime
  minutes : Nat
deriving DecidableEq, Repr, Inhabited

/-- One first-out group (R63): the first time is present in DECIDING and LATCHED, the settle timer in DECIDING. -/
inductive FirstOut where
  | clear
  | deciding (firstTime : HallTime) (firstSet : List Nat) (timer : Nat)
  | latched (firstTime : HallTime) (firstSet : List Nat)
deriving DecidableEq, Repr, Inhabited

/-- The window sequencer with the first-out tracker (R45, R50, R51, R52, R63). -/
structure Windows where
  windows : Vector Window 384
  groups : Vector FirstOut 32
  shelf : List ShelfEntry
  silence : Bool
  chimeUntil : Option Nat
deriving DecidableEq, Repr, Inhabited

/-! ## Panel loop controller -/

/-- The four keys of a panel module, set while down (R76, R178). -/
structure Keys where
  ack : Bool
  reset : Bool
  silence : Bool
  test : Bool
deriving DecidableEq, Repr, Inhabited

/-- One panel (R76, R78 to R81). -/
structure Panel where
  link : LinkState
  failedCount : Nat
  goodCount : Nat
  timeouts : Nat
  crcErrors : Nat
  keys : Keys
  lampTest : Bool
  lampFaults : Nat
  lastGood : HallTime
  lostAt : HallTime
deriving DecidableEq, Repr, Inhabited

/-- The panel loop cycle in progress (R75, R77). `target` is the panel whose frame is open; `withdrawn` lists the panels that an
adoption has made unconfigured since it began, which it serves no more (R81, log entry 25). -/
structure PanelCycle where
  start : HallTime
  schedule : List Nat
  slot : Nat
  target : Option Nat
  retry : List Nat
  retried : List Nat
  taken : List Nat
  withdrawn : List Nat
deriving DecidableEq, Repr, Inhabited

/-- The panel loop controller. `line` is the frame last sent on PNL_D. -/
structure PanelLoop where
  panels : Vector Panel 16
  nextAt : Option Nat
  cycle : Option PanelCycle
  line : List Byte
deriving DecidableEq, Repr, Inhabited

/-! ## Trip evaluator -/

/-- One term (R88, R90, R91, R94). -/
structure Term where
  state : TermState
  seen : List Bool
  timingStart : HallTime
  deadline : Nat
  lastActive : HallTime
  lastChange : HallTime
  activations : Nat
deriving DecidableEq, Repr, Inhabited

/-- The trip evaluator: the terms and the unit modes (R82). -/
structure Terms where
  terms : Vector Term 128
  modes : Vector Mode 8
deriving DecidableEq, Repr, Inhabited

/-! ## Switch controller -/

/-- One trip switch (R100, R104, R107, R108, R111, R113, R136). -/
structure Switch where
  state : SwitchState
  isolated : Bool
  resetFailed : Bool
  confirmedMark : Bool
  opStart : HallTime
  opStartElapsed : Nat
  seen : Bool
  lastPulse : Nat
  absorbed : Nat
  testStart : Option Nat
  supervision : SupervisionState
  postponed : Nat
  nextTick : Nat
deriving DecidableEq, Repr, Inhabited

/-- One entry of the coil queue (R105). TRIP entries carry the source of the request that queued them (R108). -/
structure QueueEntry where
  switch : Nat
  kind : OpKind
  cls : Nat
  joined : Nat
  joinedHall : HallTime
  source : Source
deriving DecidableEq, Repr, Inhabited

/-- The switch controller: switches, coil queue and start history (R105, R106). -/
structure Switches where
  switches : Vector Switch 48
  queue : List QueueEntry
  starts : List Nat
deriving DecidableEq, Repr, Inhabited

/-! ## Supervision unit -/

/-- One supervision channel (R135, R138, R142). -/
structure Channel where
  value : BitVec 10
  time : HallTime
  low : Bool
  high : Bool
  started : Bool
  lastJudged : Option Nat
  inFlight : Option Nat
deriving DecidableEq, Repr, Inhabited

/-- The supervision unit: channels and the elapsed time of the next CONTINUOUS sampling. -/
structure Supervision where
  channels : Vector Channel 16
  nextSample : Option Nat
deriving DecidableEq, Repr, Inhabited

/-! ## Journal writer -/

/-- A journal entry less its sequence number (R145, 13.5). `flags` are bits 1 to 7 of the flag byte in their places; `a` and `b`
are the halfword fields A and B; `detail` holds d0 onward, bytes beyond its end being 0. -/
structure Entry where
  kind : EntryKind
  trip : Bool
  flags : Nat
  subject : Nat
  time : HallTime
  second : HallTime
  a : Nat
  b : Nat
  detail : List Nat
deriving DecidableEq, Repr, Inhabited

/-- An entry in its place with its sequence number. -/
structure Stored where
  seq : Word
  entry : Entry
deriving DecidableEq, Repr, Inhabited

/-- The journal writer (R145 to R155). `news` lists the values point 672 has taken and not yet handed on in this command, oldest first
(log entry 10). -/
structure Journal where
  places : Vector (Option Stored) 1024
  written : Word
  released : Word
  lostOrdinary : Nat
  lostTrip : Nat
  firstLost : HallTime
  lastLost : HallTime
  latestTrip : Option Word
  news : List Bool
deriving DecidableEq, Repr, Inhabited

/-! ## Exchange port -/

/-- The exchange port (R156 to R160). `mem` holds the bytes of slot words 1 to 31 and of the staging region; unlisted bytes read 0. -/
structure Port where
  mem : List Host.Cell
  holders : Vector Holder 32
  mask : Word
  refusedCount : Nat
  lastRefused : Word
  errorAck : Bool
  key : Bool
deriving DecidableEq, Repr, Inhabited

/-! ## Order engine -/

/-- A member of the open chain, with its failure if it failed its check at intake (R162). -/
structure Member where
  slot : Nat
  failure : Option Result
deriving DecidableEq, Repr, Inhabited

/-- The open chain (R162, R164). -/
structure Chain where
  members : List Member
  deadline : Nat
deriving DecidableEq, Repr, Inhabited

/-- An ADOPT being worked (R172). -/
structure Adopting where
  slot : Nat
  scope : Scope
  since : Nat
deriving DecidableEq, Repr, Inhabited

/-- The order engine (R161 to R164). The staging region is guarded while an ADOPT is worked (R171). -/
structure Engine where
  intake : List Nat
  chain : Option Chain
  working : Option Adopting
deriving DecidableEq, Repr, Inhabited

/-! ## Settings unit and condition monitor -/

/-- The settings unit (R171 to R176). `adopted` says that a FULL adoption has been made since the reset (R166). -/
structure Settings where
  live : Tables
  copy : Tables
  adopted : Bool
  tally : Word
  lastScope : Byte
  lastResult : Byte
deriving DecidableEq, Repr, Inhabited

/-- The condition monitor (R165 to R169). The fault latch holds the table and entry of the first uncorrectable error. -/
structure Monitor where
  shown : Condition
  latch : Option (TableName × Nat)
  haltedAt : Nat
  corrected : Nat
deriving DecidableEq, Repr, Inhabited

/-! ## The whole state -/

/-- The state of the part: one field for each block, the counter of free values (log entry 35) and the commands waiting. -/
structure State where
  clock : Clock
  pts : Points
  field : FieldLoop
  win : Windows
  panel : PanelLoop
  term : Terms
  sw : Switches
  sup : Supervision
  jr : Journal
  port : Port
  engine : Engine
  settings : Settings
  monitor : Monitor
  free : Nat
  pending : List Instr
deriving DecidableEq, Repr

/-! ## Reset -/

/-- The clocks at a reset (R17, R20, R74). -/
def Clock.reset : Clock := { hall := 0, elapsed := 0, flash := 0, nextFlash := 125, steppedUntil := none }

/-- A point at a reset (R14). -/
def Point.reset : Point :=
  { raw := false, qualified := false, live := .lost, forced := none, frozen := none, pending := none, chatter := 0,
    held := false, termHeld := false, fresh := false, rawTime := 0, qualifyTime := 0 }

/-- The point qualifier at a reset (R14): no chatter period runs. -/
def Points.reset : Points := { points := Vector.replicate 680 Point.reset, nextBoundary := none }

/-- A concentrator at a reset (R36). -/
def Concentrator.reset : Concentrator :=
  { link := .absent, failedCount := 0, goodCount := 0, calls := 0, timeouts := 0, crcErrors := 0, staleEchoes := 0,
    holdOffs := 0, wasLost := false, marginal := false, history := [], lastGood := 0, lostAt := 0 }

/-- The field loop at a reset (R36): silent. -/
def FieldLoop.reset : FieldLoop :=
  { concentrators := Vector.replicate 16 Concentrator.reset, nextAt := none, nextCount := 0, cycle := none, line := [] }

/-- A window at a reset (R58). -/
def Window.reset : Window :=
  { state := .quiet, input := false, doubt := false, mark := .none, alarm := 0, standing := false }

/-- The window sequencer and the first-out tracker at a reset (R58, R71). -/
def Windows.reset : Windows :=
  { windows := Vector.replicate 384 Window.reset, groups := Vector.replicate 32 FirstOut.clear, shelf := [], silence := false,
    chimeUntil := none }

/-- A panel at a reset (R81). -/
def Panel.reset : Panel :=
  { link := .absent, failedCount := 0, goodCount := 0, timeouts := 0, crcErrors := 0,
    keys := { ack := false, reset := false, silence := false, test := false },
    lampTest := false, lampFaults := 0, lastGood := 0, lostAt := 0 }

/-- The panel loop at a reset (R81): silent. -/
def PanelLoop.reset : PanelLoop :=
  { panels := Vector.replicate 16 Panel.reset, nextAt := none, cycle := none, line := [] }

/-- A term at a reset (R96). -/
def Term.reset : Term :=
  { state := .unconfigured, seen := [], timingStart := 0, deadline := 0, lastActive := 0, lastChange := 0, activations := 0 }

/-- The trip evaluator at a reset (R96). -/
def Terms.reset : Terms :=
  { terms := Vector.replicate 128 Term.reset, modes := Vector.replicate 8 .undeclared }

/-- A switch at a reset (R120). -/
def Switch.reset : Switch :=
  { state := .unconfigured, isolated := false, resetFailed := false, confirmedMark := false, opStart := 0, opStartElapsed := 0,
    seen := false, lastPulse := 0, absorbed := 0, testStart := none, supervision := .off, postponed := 0, nextTick := 0 }

/-- The switch controller at a reset (R120). -/
def Switches.reset : Switches := { switches := Vector.replicate 48 Switch.reset, queue := [], starts := [] }

/-- A channel at a reset (R144). -/
def Channel.reset : Channel :=
  { value := 0, time := 0, low := false, high := false, started := false, lastJudged := none, inFlight := none }

/-- The supervision unit at a reset (R144): no channel is sampled. -/
def Supervision.reset : Supervision := { channels := Vector.replicate 16 Channel.reset, nextSample := none }

/-- The journal writer at a reset (R155). -/
def Journal.reset : Journal :=
  { places := Vector.replicate 1024 none, written := 0, released := 0, lostOrdinary := 0, lostTrip := 0, firstLost := 0,
    lastLost := 0, latestTrip := none, news := [] }

/-- The exchange port after power-on (R159, R170), the SETTINGS key in its locked position (log entry 8). -/
def Port.reset : Port :=
  { mem := [], holders := Vector.replicate 32 .empty, mask := 0, refusedCount := 0, lastRefused := 0, errorAck := false,
    key := false }

/-- The order engine at a reset (R170). -/
def Engine.reset : Engine := { intake := [], chain := none, working := none }

/-- The live tables before the first FULL adoption: chime time R58, high water R152, levels R165, settle times R61, channels
R144, nothing configured; loop settings and chatter period as log entry 20 says. -/
def Tables.reset : Tables :=
  { general := { rate := 0, cycle := 0, chatterPeriod := 0, chimeTime := 2000, highWater := 1008, levelJournal := 0,
                 levelJournalHigh := 0, levelOrder := 0, levelCondition := 0 },
    concentrators := Vector.replicate 16 none,
    points := Vector.replicate 544 none,
    channels := Vector.replicate 16 { mode := .continuous, hysteresis := 0, low := 0, high := 1023 },
    windows := Vector.replicate 384 none,
    groups := Vector.replicate 32 0,
    panels := Vector.replicate 16 none,
    terms := Vector.replicate 128 none,
    switches := Vector.replicate 48 none }

/-- The settings unit at a reset (R176). -/
def Settings.reset : Settings :=
  { live := Tables.reset, copy := Tables.reset, adopted := false, tally := 0, lastScope := 0, lastResult := 0 }

/-- The condition monitor at a reset (R170). -/
def Monitor.reset : Monitor := { shown := .unconfigured, latch := none, haltedAt := 0, corrected := 0 }

/-- The part right after power-on (R170), with no command waiting. -/
def State.reset : State :=
  { clock := Clock.reset, pts := Points.reset, field := FieldLoop.reset, win := Windows.reset, panel := PanelLoop.reset,
    term := Terms.reset, sw := Switches.reset, sup := Supervision.reset, jr := Journal.reset, port := Port.reset,
    engine := Engine.reset, settings := Settings.reset, monitor := Monitor.reset, free := 0, pending := [] }

end Sys2Proof.Machine
end

