-- ==== Sys2Proof/Machine/Ops.lean ====
section
/-! DEFINITION. The named operations over tables, memory, bytes and frames, and the readings of the state that every block
uses. A block has no exception entry: raising an interrupt line or an error state is part of each command's effect. -/

namespace Sys2Proof.Machine

/-! ## Tables of fixed size -/

/-- The entry of a table at a number; the default beyond its end. -/
def look {α : Type} {n : Nat} [Inhabited α] (v : Vector α n) (i : Nat) : α := v[i]?.getD default

/-- A table with one entry replaced; unchanged beyond its end. -/
def put {α : Type} {n : Nat} (v : Vector α n) (i : Nat) (a : α) : Vector α n := v.setIfInBounds i a

/-- A table with every entry changed, knowing its number. -/
def mapNumbered {α : Type} {n : Nat} (f : Nat → α → α) (v : Vector α n) : Vector α n :=
  ⟨⟨v.toList.zipIdx.map fun x => f x.2 x.1⟩, by simp⟩

/-- The numbers of the entries that satisfy a test, rising. -/
def numbersWhere {α : Type} {n : Nat} (v : Vector α n) (p : α → Bool) : List Nat :=
  v.toList.zipIdx.filterMap fun x => if p x.1 then some x.2 else none

/-- The numbers of the configured entries whose settings satisfy a test, rising. -/
def configuredWhere {α : Type} {n : Nat} (v : Vector (Option α) n) (p : α → Bool) : List Nat :=
  numbersWhere v fun o => match o with
    | some a => p a
    | none => false

/-! ## Bytes and words (R177: little-endian throughout) -/

/-- Byte i of a number, byte 0 the least significant. -/
def byteAt (x i : Nat) : Byte := BitVec.ofNat 8 (x >>> (8 * i))

/-- The low n bytes of a number, least significant first. -/
def bytesOf (n x : Nat) : List Byte := (List.range n).map (byteAt x)

/-- The number whose bytes are given, least significant first. -/
def ofBytes : List Byte → Nat
  | [] => 0
  | b :: bs => b.toNat + 256 * ofBytes bs

/-- A Boolean as a bit. -/
def bit (b : Bool) : Nat := if b then 1 else 0

/-- The number whose bits are given, bit 0 first. -/
def ofBits : List Bool → Nat
  | [] => 0
  | b :: bs => bit b + 2 * ofBits bs

/-- A count that stays at its greatest value (R10, R28, R33, R104, R148, R158). -/
def saturate (greatest x : Nat) : Nat := if x < greatest then x else greatest

/-! ## Exchange memory cells (R157, R170) -/

/-- What the byte at an address reads; a byte nothing has written since power-on reads 0 (R170). -/
def Memory.read : List Host.Cell → Nat → Byte
  | [], _ => 0
  | (k, v) :: m, a => if k = a then v else Memory.read m a

/-- The memory with one byte written, kept in canonical form: addresses strictly rising, no cell holding 0. -/
def Memory.write : List Host.Cell → Nat → Byte → List Host.Cell
  | [], a, b => if b = 0 then [] else [(a, b)]
  | (k, v) :: m, a, b =>
    if a < k then (if b = 0 then (k, v) :: m else (a, b) :: (k, v) :: m)
    else if a = k then (if b = 0 then m else (a, b) :: m)
    else (k, v) :: Memory.write m a b

/-- The canonical form: addresses strictly rising, and no cell equal to what an unlisted address reads as. -/
abbrev Memory.wf (m : List Host.Cell) : Prop := m.Pairwise (fun c d => c.1 < d.1) ∧ ∀ c ∈ m, c.2 ≠ 0

/-- Bytes written at rising addresses. -/
def Memory.writeBytes (m : List Host.Cell) (a : Nat) : List Byte → List Host.Cell
  | [] => m
  | b :: bs => Memory.writeBytes (Memory.write m a b) (a + 1) bs

/-- A word written little-endian (R177). -/
def Memory.writeWord (m : List Host.Cell) (a : Nat) (w : Word) : List Host.Cell :=
  Memory.writeBytes m a (bytesOf 4 w.toNat)

/-- A little-endian number of n bytes (R177). -/
def Memory.readNat (m : List Host.Cell) (a n : Nat) : Nat := ofBytes ((List.range n).map fun i => Memory.read m (a + i))

/-- The address of word w of slot k (13.3). -/
def slotAddress (k w : Nat) : Nat := 0x1000 + 128 * k + 4 * w

/-- Word w (1 to 31) of slot k as a number. -/
def slotWord (p : Port) (k w : Nat) : Nat := Memory.readNat p.mem (slotAddress k w) 4

/-! ## CRC of the loop frames (R23, R178) -/

/-- One bit of the CRC: polynomial 0x1021, most significant bit first. -/
def crcShift (c : BitVec 16) : BitVec 16 := if c.msb then (c <<< 1) ^^^ 0x1021#16 else c <<< 1

/-- One byte of the CRC. -/
def crcByte (c : BitVec 16) (b : Byte) : BitVec 16 :=
  crcShift (crcShift (crcShift (crcShift (crcShift (crcShift (crcShift (crcShift
    (c ^^^ (b.setWidth 16 <<< 8)))))))))

/-- The CRC of a frame's bytes: initial value 0xFFFF, no final inversion. -/
def crc (bs : List Byte) : BitVec 16 := bs.foldl crcByte 0xFFFF#16

/-- A frame closed by its CRC, sent most significant byte first. -/
def withCrc (bs : List Byte) : List Byte := bs ++ [byteAt (crc bs).toNat 1, byteAt (crc bs).toNat 0]

/-- The bytes a received frame carries before its CRC, if the CRC checks. -/
def checkedBody (frame : List Byte) : Option (List Byte) :=
  let body := frame.take (frame.length - 2)
  if 2 ≤ frame.length ∧ withCrc body = frame then some body else none

/-! ## Bits on the loop lines (R178) -/

/-- One bit time on a loop line. The levels of start and stop bits are not modelled (log entry 50). -/
inductive LineBit where
  | start
  | data (value : Bool)
  | stop
deriving DecidableEq, Repr

/-- A byte on the line: one start bit, the eight bits least significant first, one stop bit. -/
def byteBits (b : Byte) : List LineBit :=
  .start :: ((List.range 8).map (fun i => LineBit.data (b.getLsbD i)) ++ [.stop])

/-- A frame on the line: its bytes one after another. -/
def frameBits (frame : List Byte) : List LineBit := frame.flatMap byteBits

/-- The bytes that a run of bits carries; none where a byte is not framed by its start and stop bit. -/
def receivedBytes : List LineBit → Option (List Byte)
  | [] => some []
  | .start :: .data b0 :: .data b1 :: .data b2 :: .data b3 :: .data b4 :: .data b5 :: .data b6 :: .data b7 :: .stop :: rest =>
    (receivedBytes rest).map fun bs => BitVec.ofNat 8 (ofBits [b0, b1, b2, b3, b4, b5, b6, b7]) :: bs
  | _ => none

/-! ## Readings of the state -/

/-- The part is HALTED (R168). -/
def State.halted (s : State) : Bool := s.monitor.shown == .halted

/-- An event due at an elapsed time has come (log entry 2). -/
def State.due (s : State) (t : Nat) : Bool := decide (t ≤ s.clock.elapsed)

def State.pt (s : State) (n : Nat) : Point := look s.pts.points n
def State.conc (s : State) (c : Nat) : Concentrator := look s.field.concentrators c
def State.window (s : State) (w : Nat) : Window := look s.win.windows w
def State.group (s : State) (g : Nat) : FirstOut := look s.win.groups g
def State.pan (s : State) (p : Nat) : Panel := look s.panel.panels p
def State.trm (s : State) (t : Nat) : Term := look s.term.terms t
def State.swi (s : State) (i : Nat) : Switch := look s.sw.switches i
def State.chan (s : State) (c : Nat) : Channel := look s.sup.channels c
def State.holder (s : State) (k : Nat) : Holder := look s.port.holders k

/-- The live settings of a concentrator, point, window, panel, term or switch; none while it is unconfigured. -/
def State.concSet (s : State) (c : Nat) : Option ConcentratorSettings := look s.settings.live.concentrators c
def State.ptSet (s : State) (n : Nat) : Option PointSettings := look s.settings.live.points n
def State.winSet (s : State) (w : Nat) : Option WindowSettings := look s.settings.live.windows w
def State.panSet (s : State) (p : Nat) : Option PanelSettings := look s.settings.live.panels p
def State.termSet (s : State) (t : Nat) : Option TermSettings := look s.settings.live.terms t
def State.swSet (s : State) (i : Nat) : Option SwitchSettings := look s.settings.live.switches i
def State.chanSet (s : State) (c : Nat) : ChannelSettings := look s.settings.live.channels c
def State.settleTime (s : State) (g : Nat) : Nat := look s.settings.live.groups g

/-! ## Updates of one record -/

def State.setPt (s : State) (n : Nat) (p : Point) : State := { s with pts := { s.pts with points := put s.pts.points n p } }
def State.setConc (s : State) (c : Nat) (k : Concentrator) : State :=
  { s with field := { s.field with concentrators := put s.field.concentrators c k } }
def State.setWindow (s : State) (w : Nat) (x : Window) : State :=
  { s with win := { s.win with windows := put s.win.windows w x } }
def State.setGroup (s : State) (g : Nat) (x : FirstOut) : State :=
  { s with win := { s.win with groups := put s.win.groups g x } }
def State.setPan (s : State) (p : Nat) (x : Panel) : State :=
  { s with panel := { s.panel with panels := put s.panel.panels p x } }
def State.setTrm (s : State) (t : Nat) (x : Term) : State := { s with term := { s.term with terms := put s.term.terms t x } }
def State.setSwi (s : State) (i : Nat) (x : Switch) : State := { s with sw := { s.sw with switches := put s.sw.switches i x } }
def State.setChan (s : State) (c : Nat) (x : Channel) : State :=
  { s with sup := { s.sup with channels := put s.sup.channels c x } }
def State.setHolder (s : State) (k : Nat) (h : Holder) : State :=
  { s with port := { s.port with holders := put s.port.holders k h } }

/-! ## Points as their consumers read them -/

/-- A point's quality (R6). -/
def Point.quality (p : Point) : Quality := if p.forced.isSome then .forced else p.live.quality

/-- A point's effective value (1.3): the force value while it is forced, else the qualified value. -/
def Point.effective (p : Point) : Bool := p.forced.getD p.qualified

/-- The window-facing value (R38). -/
def Point.facing (p : Point) : Bool :=
  match p.forced, p.frozen, p.live with
  | some v, _, _ => v
  | none, some v, _ => v
  | none, none, .good => p.qualified
  | none, none, .lost => p.held
  | none, none, .wiring => p.held

/-- The point makes a window doubtful (R39): quality LOST or WIRING. -/
def Point.doubtful (p : Point) : Bool := p.forced.isNone && p.live != .good

/-- The hall time of now as the time of an entry. -/
def State.now (s : State) : HallTime := s.clock.hall

end Sys2Proof.Machine
end

