-- ==== Sys2Proof/Machine/Operands.lean ====
section
/-! DEFINITION. What an order slot holds (13.4): the order with its parameters, the chain mark and the notify flag. -/

namespace Sys2Proof.Machine

/-- The selector of ACK-WINDOWS and RESET-WINDOWS (R48): kind, the word beside it (list length, group, panel or unit), and the
window numbers listed. -/
structure Selector where
  kind : Nat
  subject : Nat
  listed : List Nat
deriving DecidableEq, Repr

/-- An order with its parameters as the slot gives them. -/
inductive Order where
  | adopt (scope : Nat)
  | setTime (lo hi : Nat)
  | setMode (unit mode : Nat)
  | ackWindows (sel : Selector)
  | resetWindows (sel : Selector)
  | silence
  | shelve (window minutes : Nat)
  | unshelve (window : Nat)
  | resetFirstOut (group : Nat)
  | forcePoint (point value : Nat)
  | releasePoint (point : Nat)
  | isolate (switch : Nat)
  | restore (switch : Nat)
  | tripManual (switch : Nat)
  | resetSwitch (switch : Nat)
  | testCircuit (switch : Nat)
  | clearCounters (scope subject : Nat)
  | clearFault
  | restart
deriving DecidableEq, Repr

/-- The order code of a slot: byte 0 of word 2. -/
def orderCode (p : Port) (k : Nat) : Nat := (Memory.read p.mem (slotAddress k 2)).toNat

/-- The chain mark of a slot: byte 1 of word 2; none for an undefined value. -/
def chainMark (p : Port) (k : Nat) : Option ChainMark := ChainMark.ofCode (Memory.read p.mem (slotAddress k 2 + 1)).toNat

/-- The selector of a slot. -/
def selectorIn (p : Port) (k : Nat) : Selector :=
  { kind := slotWord p k 3, subject := slotWord p k 4
    listed := (List.range (min (slotWord p k 4) 16)).map fun i => slotWord p k (5 + i) }

/-- The order a slot holds; none where its code is not one of the defined values. -/
def orderIn (p : Port) (k : Nat) : Option Order :=
  let w3 := slotWord p k 3
  let w4 := slotWord p k 4
  match orderCode p k with
  | 0x01 => some (.adopt w3)
  | 0x02 => some (.setTime w3 w4)
  | 0x03 => some (.setMode w3 w4)
  | 0x04 => some (.ackWindows (selectorIn p k))
  | 0x05 => some (.resetWindows (selectorIn p k))
  | 0x06 => some .silence
  | 0x07 => some (.shelve w3 w4)
  | 0x08 => some (.unshelve w3)
  | 0x09 => some (.resetFirstOut w3)
  | 0x0A => some (.forcePoint w3 w4)
  | 0x0B => some (.releasePoint w3)
  | 0x0C => some (.isolate w3)
  | 0x0D => some (.restore w3)
  | 0x0E => some (.tripManual w3)
  | 0x0F => some (.resetSwitch w3)
  | 0x10 => some (.testCircuit w3)
  | 0x11 => some (.clearCounters w3 w4)
  | 0x12 => some .clearFault
  | 0x13 => some .restart
  | _ => none

/-- The chainable orders (R161). -/
def Order.chainable : Order → Bool
  | .forcePoint _ _ | .releasePoint _ | .ackWindows _ | .resetWindows _ | .shelve _ _ | .unshelve _ | .setMode _ _
  | .isolate _ | .restore _ | .resetSwitch _ => true
  | .adopt _ | .setTime _ _ | .silence | .resetFirstOut _ | .tripManual _ | .testCircuit _ | .clearCounters _ _
  | .clearFault | .restart => false

/-- The orders taken before the first FULL adoption (R161): ADOPT in FULL scope and RESTART. -/
def Order.early : Order → Bool
  | .adopt scope => scope == 2
  | .restart => true
  | .setTime _ _ | .setMode _ _ | .ackWindows _ | .resetWindows _ | .silence | .shelve _ _ | .unshelve _
  | .resetFirstOut _ | .forcePoint _ _ | .releasePoint _ | .isolate _ | .restore _ | .tripManual _ | .resetSwitch _
  | .testCircuit _ | .clearCounters _ _ | .clearFault => false

/-- A selector's parameters lie in range (R48). -/
def Selector.inRange (x : Selector) : Bool :=
  match x.kind with
  | 0 => decide (1 ≤ x.subject ∧ x.subject ≤ 16) && x.listed.all fun w => decide (w < 384)
  | 1 => decide (x.subject < 32)
  | 2 => decide (x.subject < 16)
  | 3 => decide (x.subject ≤ commonUnit)
  | 4 => true
  | _ => false

end Sys2Proof.Machine
end

