-- ==== Sys2Proof/Machine/Journal.lean ====
section
/-! DEFINITION. The journal writer (10_the_journal.md): room, losses, GAP entries, release; the entries the other blocks
request. -/

namespace Sys2Proof.Machine

/-! ## Room (R147) -/

/-- The unreleased count: written-through less released-through, modulo 2^32 (10.2). -/
def Journal.unreleased (j : Journal) : Nat := (j.written - j.released).toNat

/-- The free count: 1,024 less the unreleased count (10.2). -/
def Journal.free (j : Journal) : Nat := 1024 - j.unreleased

/-- Some loss is pending (R148). -/
def Journal.losing (j : Journal) : Bool := decide (0 < j.lostOrdinary ∨ 0 < j.lostTrip)

/-- The free count from which an entry of a class is written while no loss is pending (R147). -/
def roomAlone (trip : Bool) : Nat := if trip then 1 else 17

/-- The free count from which a GAP and an entry of a class are written together (R149). -/
def roomPair (trip : Bool) : Nat := if trip then 2 else 18

/-! ## Writing -/

/-- An entry written into its place and published: it takes the next sequence number n and place (n - 1) mod 1,024 (R146);
a trip-class entry becomes the latest trip sequence (R150). -/
def Journal.append (j : Journal) (e : Entry) : Journal :=
  { j with
    places := put j.places (j.written.toNat % 1024) (some { seq := j.written + 1, entry := e })
    written := j.written + 1
    latestTrip := if e.trip then some (j.written + 1) else j.latestTrip }

/-- The GAP entry that carries the pending losses (R149, 13.5); a count at 65,535 is marked saturated (log entry 15). -/
def Journal.gapEntry (j : Journal) (now : HallTime) : Entry :=
  { kind := .gap, trip := decide (0 < j.lostTrip),
    flags := 4 * bit (j.lostOrdinary == 65535) + 8 * bit (j.lostTrip == 65535),
    subject := 0, time := now, second := j.firstLost, a := j.lostOrdinary, b := j.lostTrip,
    detail := (List.range 6).map fun i => (byteAt j.lastLost.toNat i).toNat }

/-- A GAP written, the pending losses cleared and point 672 made inactive (R149). -/
def Journal.writeGap (j : Journal) (now : HallTime) : Journal :=
  { j.append (j.gapEntry now) with
    lostOrdinary := 0, lostTrip := 0, firstLost := 0, lastLost := 0, news := j.news ++ [false] }

/-- A lost request counted by its class; the loss that makes the counts nonzero makes point 672 active (R148). -/
def Journal.lose (j : Journal) (now : HallTime) (trip : Bool) : Journal :=
  { j with
    lostOrdinary := if trip then j.lostOrdinary else saturate 65535 (j.lostOrdinary + 1)
    lostTrip := if trip then saturate 65535 (j.lostTrip + 1) else j.lostTrip
    firstLost := if j.losing then j.firstLost else now
    lastLost := now
    news := if j.losing then j.news else j.news ++ [true] }

/-- A request taken whole: written, written behind a GAP, or lost (R145, R147, R148, R149). -/
def Journal.request (j : Journal) (now : HallTime) (e : Entry) : Journal :=
  if j.losing then
    if roomPair e.trip ≤ j.free then (j.writeGap now).append e else j.lose now e.trip
  else
    if roomAlone e.trip ≤ j.free then j.append e else j.lose now e.trip

/-- A release write (R151): none where it is refused. A GAP alone is written where its class finds room by R147. -/
def Journal.release (j : Journal) (now : HallTime) (value : Word) : Option Journal :=
  let advance := (value - j.released).toNat
  if j.unreleased < advance then none
  else if advance = 0 then some j
  else
    let k := { j with released := value }
    some (if k.losing ∧ roomAlone (decide (0 < k.lostTrip)) ≤ k.free then k.writeGap now else k)

/-! ## Requests of the blocks -/

/-- A journal request at the present hall time. -/
def State.request (s : State) (e : Entry) : State := { s with jr := s.jr.request s.clock.hall e }

/-- An entry with every field 0, to which each kind adds the fields its rule gives (log entry 18). -/
def Entry.blank (kind : EntryKind) (subject : Nat) (time : HallTime) : Entry :=
  { kind := kind, trip := false, flags := 0, subject := subject, time := time, second := 0, a := 0, b := 0, detail := [] }

/-- The two bytes of a halfword in a detail. -/
def halfBytes (x : Nat) : List Nat := [x % 256, x / 256 % 256]

/-- The flags a qualified change carries (R5). -/
structure ChangeFlags where
  standing : Bool
  afterLoss : Bool
  forcedRelease : Bool
  settings : Bool
deriving DecidableEq, Repr

/-- A POINT entry of a change (R5, 13.5). -/
def pointEntry (n : Nat) (value : Bool) (q : Quality) (rawTime qualifyTime : HallTime) (f : ChangeFlags) : Entry :=
  { Entry.blank .point n rawTime with
    flags := ofBits [false, f.standing, f.afterLoss, f.forcedRelease, f.settings]
    second := qualifyTime, detail := [bit value, q.code] }

/-- A POINT entry with the quality flag (R6, log entry 31). -/
def qualityEntry (n : Nat) (value : Bool) (q : Quality) (time : HallTime) : Entry :=
  { Entry.blank .point n time with flags := 32, second := time, detail := [bit value, q.code] }

/-- A POINT-CHATTER entry (R10, R11). -/
def chatterEntry (n : Nat) (released : Bool) (count : Nat) (value : Bool) (time : HallTime) : Entry :=
  { Entry.blank .pointChatter n time with flags := 2 * bit released, a := count, detail := [bit value] }

/-- A LINK entry (R29 to R31, R78). -/
def linkEntry (panel : Bool) (subject mark : Nat) (time second : HallTime) (count : Nat) : Entry :=
  { Entry.blank .link subject time with flags := 2 * bit panel, second := second, a := count, detail := [mark] }

/-- A TIME entry (R18, R19). -/
def timeEntry (bySync : Bool) (old new : HallTime) : Entry :=
  { Entry.blank .time 0 new with flags := 2 * bit bySync, second := old }

/-- A WINDOW entry (R56). -/
def windowEntry (w : Nat) (before after : WindowState) (x : Window) (cause : Cause) (now : HallTime) : Entry :=
  { Entry.blank .window w now with
    flags := 2 * bit x.doubt + 4 * bit x.standing, second := x.alarm
    detail := [before.code, after.code, cause.code, cause.number] }

/-- A SHELF entry of a shelving (R52, R56). -/
def shelvedEntry (w : Nat) (mark : ShelfMark) (minutes : Nat) (now : HallTime) : Entry :=
  { Entry.blank .shelf w now with a := minutes, detail := [mark.code] }

/-- A SHELF entry of the end of a shelving (R55, R56). -/
def unshelvedEntry (w : Nat) (mark : ShelfMark) (x : Window) (now : HallTime) : Entry :=
  { Entry.blank .shelf w now with flags := 2 * bit x.doubt, second := x.alarm, detail := [mark.code, x.state.code] }

/-- A FIRST-OUT entry (R66). -/
def firstOutEntry (g : Nat) (firstTime : HallTime) (firstSet : List Nat) (now : HallTime) : Entry :=
  { Entry.blank .firstOut g now with
    second := firstTime, a := firstSet.length
    detail := (List.range 4).flatMap fun i => halfBytes (firstSet[i]?.getD 0xFFFF) }

/-- A MODE entry (R83). -/
def modeEntry (u : Nat) (before after : Mode) (slot count : Nat) (now : HallTime) : Entry :=
  { Entry.blank .mode u now with a := count, detail := [before.code, after.code, slot] }

/-- A TERM entry marked ABORT (0) or CLEAR (2) (R93). -/
def termEndEntry (t mark unit count : Nat) (second now : HallTime) : Entry :=
  { Entry.blank .term t now with second := second, a := count, detail := [mark, unit] }

/-- A TERM entry marked DISARM (R93). -/
def termDisarmEntry (t unit : Nat) (left : TermState) (mode : Mode) (second now : HallTime) : Entry :=
  { Entry.blank .term t now with second := second, detail := [1, unit, left.code, mode.code] }

/-- A TERM-ACTIVE entry (R91): the points that count active and, for each listed position, whether it counts by policy. Flag bit 1 + k
speaks of position k of the point list, while d0 to d7 hold the active points packed (log entry 55). -/
def termActiveEntry (t unit outputs : Nat) (active : List Nat) (byPolicy : List Bool) (start now : HallTime) : Entry :=
  { Entry.blank .termActive t now with
    trip := true, flags := 2 * ofBits byPolicy, second := start, a := outputs, b := unit
    detail := (List.range 4).flatMap fun i => halfBytes (active[i]?.getD 0xFFFF) }

/-- A SWITCH entry (R118) with the fields its mark gives. `cls`, `source`, `a` and `last` (quality or state entered) are 0
where the mark gives none. -/
def switchEntry (i : Nat) (mark : SwitchMark) (unit : Nat) (isolated : Bool) (source : Option Source) (cls a last : Nat)
    (second now : HallTime) : Entry :=
  { Entry.blank .switch i now with
    trip := true, flags := 2 * bit isolated, second := second, a := a
    detail := [mark.code, unit, (source.map Source.code).getD 0, cls] ++ halfBytes ((source.map Source.number).getD 0) ++ [last] }

/-- A SUPERVISION entry (R141). -/
def supervisionEntry (i channel : Nat) (before after : SupervisionState) (count sample limit : Nat) (now : HallTime) : Entry :=
  { Entry.blank .supervision i now with
    a := count, detail := [channel, before.code, after.code, 0] ++ halfBytes sample ++ halfBytes limit }

/-- A MAINT entry (R12, R13, R35, R115, R116). -/
def maintEntry (subject order mark value quality : Nat) (now : HallTime) : Entry :=
  { Entry.blank .maint subject now with detail := [order, mark, value, quality] }

/-- A CONDITION entry (R166, R167); table and entry are 0 but for a change to FAULTED (log entry 37). -/
def conditionEntry (before after : Condition) (causes : Nat) (damaged : Option (TableName × Nat)) (now : HallTime) : Entry :=
  { Entry.blank .condition 0 now with
    detail := [before.code, after.code, causes, (damaged.map fun d => d.1.code).getD 0]
      ++ halfBytes ((damaged.map fun d => d.2).getD 0) }

/-- A HALT entry (R168). -/
def haltEntry (first second : TableName × Nat) (now : HallTime) : Entry :=
  { Entry.blank .halt 0 now with
    trip := true
    detail := [first.1.code, 0] ++ halfBytes first.2 ++ [second.1.code, 0] ++ halfBytes second.2 }

/-- The changed entries of each table (R176). -/
structure ChangeCounts where
  general : Nat
  concentrators : Nat
  points : Nat
  channels : Nat
  windows : Nat
  groups : Nat
  panels : Nat
  terms : Nat
  switches : Nat
deriving DecidableEq, Repr

/-- A SETTINGS entry (R176, 13.5). -/
def settingsEntry (c : ChangeCounts) (scope : Scope) (tally : Word) (now : HallTime) : Entry :=
  { Entry.blank .settings 0 now with
    second := tally.setWidth 48, a := c.points, b := c.windows
    detail := [c.general, c.concentrators, c.channels, c.groups, c.panels, c.terms, c.switches, scope.code] }

/-- The 32 bytes of a stored entry (13.5). -/
def Stored.bytes (x : Stored) : List Byte :=
  bytesOf 4 x.seq.toNat
    ++ [BitVec.ofNat 8 x.entry.kind.code, BitVec.ofNat 8 (x.entry.flags + bit x.entry.trip)]
    ++ bytesOf 2 x.entry.subject
    ++ bytesOf 6 x.entry.time.toNat ++ bytesOf 2 x.entry.a
    ++ bytesOf 6 x.entry.second.toNat ++ bytesOf 2 x.entry.b
    ++ (List.range 8).map fun i => BitVec.ofNat 8 (x.entry.detail[i]?.getD 0)

end Sys2Proof.Machine
end

