-- ==== Sys2Proof/Machine/Flags.lean ====
section
/-! DEFINITION. What follows from the state at every moment: terms' counts, switch feedback and places, lamp patterns and HORN,
the notices with LVL and IRQ_N, the causes of degradation, the output pins. -/

namespace Sys2Proof.Machine

/-! ## Trip terms: counting the points (R86) -/

/-- A listed point counts active for a term of this lost policy (R86). -/
def countsActive (policy : LostPolicy) (p : Point) : Bool :=
  match p.quality, policy with
  | .good, _ => p.effective
  | .forced, _ => p.effective
  | .lost, .holdLast => p.termHeld
  | .lost, .assumeActive => true
  | .lost, .assumeInactive => false
  | .wiring, .holdLast => p.termHeld
  | .wiring, .assumeActive => true
  | .wiring, .assumeInactive => false

/-- Which listed positions of a term count active, in list order (R86). -/
def State.positions (s : State) (c : TermSettings) : List Bool := c.points.map fun n => countsActive c.policy (s.pt n)

/-- Which listed positions count active by lost policy rather than by value (R91), numbered by their place in the point list (log
entry 55). -/
def State.policyPositions (s : State) (c : TermSettings) : List Bool :=
  c.points.map fun n => (s.pt n).doubtful && countsActive c.policy (s.pt n)

/-- A term's count (R86). -/
def State.termCount (s : State) (c : TermSettings) : Nat := (s.positions c).count true

/-- A term is satisfied (R86). -/
def State.satisfied (s : State) (c : TermSettings) : Bool := decide (c.vote ≤ s.termCount c)

/-- A term is armed: it belongs to COMMON, or its unit's mode is in its mode set (R85, R89). -/
def State.armed (s : State) (c : TermSettings) : Bool :=
  decide (c.unit = commonUnit ∨ look s.term.modes c.unit ∈ c.modes)

/-- A term is TIMING or ACTIVE (R95). -/
def Term.acting (x : Term) : Bool := x.state == .timing || x.state == .active

/-- Some configured term that lists a switch as output is TIMING or ACTIVE (R95), the states of terms being those of `live`. -/
def actingOn (live : State) (i : Nat) : Bool :=
  (configuredWhere live.settings.live.terms fun c => c.outputs.contains i).any fun t => (live.trm t).acting

/-- Some configured term that lists a switch as output lists a point of quality FORCED (R95). -/
def forcedFeeds (s : State) (i : Nat) : Bool :=
  !(configuredWhere s.settings.live.terms fun c =>
      c.outputs.contains i && c.points.any fun n => (s.pt n).forced.isSome).isEmpty

/-- The configured terms that list a point and have a switch in their output list that is not isolated (R12, R95), rising. -/
def unsafeTerms (s : State) (n : Nat) : List Nat :=
  configuredWhere s.settings.live.terms fun c =>
    c.points.contains n && c.outputs.any fun i => !(s.swi i).isolated

/-! ## Switches: feedback and the coil driver -/

/-- A switch has operated feedback: its feedback point is GOOD with an active effective value (R101). -/
def State.operated (s : State) (c : SwitchSettings) : Bool :=
  match c.feedback with
  | some n => (s.pt n).quality == .good && (s.pt n).effective
  | none => false

/-- A switch's feedback point is GOOD and inactive (R110, R113). -/
def State.restingFeedback (s : State) (c : SwitchSettings) : Bool :=
  match c.feedback with
  | some n => (s.pt n).quality == .good && !(s.pt n).effective
  | none => false

/-- The quality of a switch's feedback point; LOST where it has none. -/
def State.feedbackQuality (s : State) (c : SwitchSettings) : Quality :=
  match c.feedback with
  | some n => (s.pt n).quality
  | none => .lost

/-- A switch takes a place of the coil driver: a trip pulse, a reset pulse or a test in flight (R106). A HOLD never is PULSING. -/
def Switch.energized (x : Switch) : Bool := x.state == .pulsing || x.state == .resetPulsing || x.testStart.isSome

/-- The places taken: the switches whose coil is energized (R106). -/
def State.places (s : State) : List Nat := numbersWhere s.sw.switches Switch.energized

/-- The number of starts counted now: those made less than 20 ms ago (R106). -/
def State.counted (s : State) : Nat := (s.sw.starts.filter fun t => decide (s.clock.elapsed - t < 20)).length

/-- A start is possible (R106). -/
def State.startPossible (s : State) : Bool := decide (s.places.length < 6 ∧ s.counted < 4)

/-- The switch is operated for system point 544 + s (R117). -/
def Switch.shownOperated (x : Switch) : Bool :=
  x.state == .confirmed || x.state == .lockedOut || x.state == .held || x.state == .failed || x.state == .unconfirmed

/-- The switch is faulted for system point 592 + s (R117). -/
def Switch.shownFault (x : Switch) : Bool :=
  x.state == .failed || x.state == .unconfirmed || x.resetFailed
    || x.supervision == .openCircuit || x.supervision == .unverified

/-- COIL[i]: the trip coil at full or test level, or the hold output (13.1, R106, R107, R111). -/
def State.coilPin (s : State) (i : Nat) : Bool :=
  (s.swi i).state == .pulsing || (s.swi i).state == .held || (s.swi i).testStart.isSome

/-- RCOIL[i]: the reset coil (13.1, R113). -/
def State.resetCoilPin (s : State) (i : Nat) : Bool := (s.swi i).state == .resetPulsing

/-! ## Windows: input, doubt, patterns, sounds -/

/-- A window's input (R39). -/
def State.inputOf (s : State) (c : WindowSettings) : Bool := c.sources.any fun n => (s.pt n).facing

/-- A window's doubt flag (R39). -/
def State.doubtOf (s : State) (c : WindowSettings) : Bool := c.sources.any fun n => (s.pt n).doubtful

/-- A window is on the shelf list (R52). -/
def State.shelved (s : State) (w : Nat) : Bool := s.win.shelf.any fun e => e.window == w

/-- The pattern a window's state and mark give while it is not shelved (R46). -/
def Window.pattern (x : Window) : Pattern :=
  match x.state, x.mark with
  | .quiet, _ => .off
  | .alert, .first => .first
  | .alert, .none => .fast
  | .alert, .subsequent => .fast
  | .alertGone, .first => .first
  | .alertGone, .none => .fast
  | .alertGone, .subsequent => .fast
  | .steady, _ => .steady
  | .cleared, _ => .slow
  | .ringback, _ => .slow

/-- The lamp pattern given for a window, apart from lamp test (R46, R57); for a window without a panel position the pattern that
its state and mark would give (log entry 46). -/
def State.windowPattern (s : State) (w : Nat) : Pattern :=
  if (s.winSet w).isNone || s.shelved w then .off else (s.window w).pattern

/-- The lamp pattern of a position of a panel (R46). -/
def State.pattern (s : State) (panel position : Nat) : Pattern :=
  if (s.pan panel).lampTest then .steady
  else match (configuredWhere s.settings.live.windows fun c => c.place == some (panel, position)).head? with
    | some w => s.windowPattern w
    | none => .off

/-- The window stands on a panel held in lamp test (R46). -/
def State.underLampTest (s : State) (w : Nat) : Bool :=
  match (s.winSet w).bind fun c => c.place with
  | some (p, _) => (s.pan p).lampTest
  | none => false

/-- The pattern the window image shows: STEADY while the window's panel is held in lamp test, else the pattern given for the window
(R46, R57). -/
def State.shownPattern (s : State) (w : Nat) : Pattern := if s.underLampTest w then .steady else s.windowPattern w

/-- A configured, unshelved horn window is in ALERT or ALERT-GONE (R49). -/
def State.alarming (s : State) : Bool :=
  (configuredWhere s.settings.live.windows fun c => c.horn).any fun w =>
    ((s.window w).state == .alert || (s.window w).state == .alertGone) && !s.shelved w

/-- The HORN output (R49). -/
def State.hornPin (s : State) : Bool := s.alarming && !s.win.silence

/-- The CHIME output (R51). -/
def State.chimePin (s : State) : Bool := s.win.chimeUntil.isSome

/-! ## Causes of degradation and the condition (R166) -/

/-- Some configured concentrator is not HEALTHY or SUSPECT, or is marginal. -/
def State.causeConcentrator (s : State) : Bool :=
  (configuredWhere s.settings.live.concentrators fun _ => true).any fun c =>
    (s.conc c).marginal || !((s.conc c).link == .healthy || (s.conc c).link == .suspect)

/-- Some configured panel is not HEALTHY. -/
def State.causePanel (s : State) : Bool :=
  (configuredWhere s.settings.live.panels fun _ => true).any fun p => (s.pan p).link != .healthy

/-- Some switch is FAILED or UNCONFIRMED. -/
def State.causeSwitch (s : State) : Bool :=
  s.sw.switches.toList.any fun x => x.state == .failed || x.state == .unconfirmed

/-- Some supervision state is OPEN or UNVERIFIED. -/
def State.causeSupervision (s : State) : Bool :=
  s.sw.switches.toList.any fun x => x.supervision == .openCircuit || x.supervision == .unverified

/-- The kinds of cause reported, as the bits of a CONDITION entry (13.5). -/
def State.causes (s : State) : Nat :=
  ofBits [s.causeConcentrator, s.causePanel, s.jr.losing, s.causeSwitch, s.causeSupervision]

/-- The condition of the part: the first that holds (R166). -/
def State.conditionNow (s : State) : Condition :=
  if !s.settings.adopted then .unconfigured
  else if s.halted then .halted
  else if s.monitor.latch.isSome then .faulted
  else if s.causes ≠ 0 then .degraded
  else .running

/-! ## Notices (R165) -/

/-- Some DONE slot has its notify flag set (R161). -/
def State.orderNotice (s : State) : Bool :=
  (numbersWhere s.port.holders fun h => h == .done).any fun k => Memory.read s.port.mem (slotAddress k 2 + 2) != 0

/-- The trip notice (R153). -/
def Journal.tripNotice (j : Journal) : Bool :=
  match j.latestTrip with
  | some l => decide (1 ≤ (l - j.released).toNat ∧ (l - j.released).toNat ≤ j.unreleased)
  | none => false

/-- The six notice sources in the order of the pending summary, each with its pending flag and level (R165, 13.3). -/
def State.notices (s : State) : List (Bool × Nat) :=
  let g := s.settings.live.general
  [ (decide (0 < s.jr.unreleased), g.levelJournal),
    (decide (g.highWater ≤ s.jr.unreleased), g.levelJournalHigh),
    (s.orderNotice, g.levelOrder),
    (s.monitor.shown == .degraded || s.monitor.shown == .faulted, g.levelCondition),
    (s.jr.tripNotice, 5),
    (s.monitor.shown == .halted, 5) ]

/-- LVL[2:0]: the highest level among the pending sources (R165). -/
def State.levelPins (s : State) : Nat := ((s.notices.filter fun x => x.1).map fun x => x.2).foldl max 0

/-- IRQ_N asserted (R165). -/
def State.irqPin (s : State) : Bool := decide (s.port.mask.toNat < s.levelPins ∨ s.levelPins = 5)

/-- The pending summary word (13.3): four bits for each source, its level below its pending flag. The level is shown whether or not the
source is pending, so that the word after a reset holds the two levels 5 with every flag clear (log entry 56). -/
def State.pendingSummary (s : State) : Nat :=
  s.notices.foldr (fun x acc => (x.2 % 8 + 8 * bit x.1) + 16 * acc) 0

end Sys2Proof.Machine
end

