-- ==== Sys2Proof/Machine/Windows.lean ====
section
/-! DEFINITION. The window sequencer and the first-out tracker (03_windows_and_annunciation_sequences.md,
04_first_out_groups.md), and system points as the windows take them (R9). -/

namespace Sys2Proof.Machine

/-! ## First-out groups -/

/-- The members of a group: the configured windows whose group it is, rising (R61). -/
def State.members (s : State) (g : Nat) : List Nat := configuredWhere s.settings.live.windows fun c => c.group == some g

/-- A number put into a rising list. -/
def insertRising (w : Nat) : List Nat → List Nat
  | [] => [w]
  | x :: xs => if w ≤ x then w :: x :: xs else x :: insertRising w xs

/-- A window's mark set (R45, R63). -/
def setMark (w : Nat) (m : Mark) (s : State) : State := s.setWindow w { s.window w with mark := m }

/-- A group without a window in its first set (R68, R69). -/
def FirstOut.without (w : Nat) : FirstOut → FirstOut
  | .clear => .clear
  | .deciding t ws d => .deciding t (ws.filter (· != w)) d
  | .latched t ws => .latched t (ws.filter (· != w))

/-- The group becomes LATCHED with its FIRST-OUT entry (R66). -/
def latch (g : Nat) (firstTime : HallTime) (firstSet : List Nat) (s : State) : State :=
  (s.setGroup g (.latched firstTime firstSet)).request (firstOutEntry g firstTime firstSet s.now)

/-- The settle timer runs out (R66). -/
def settleEnd (g : Nat) (s : State) : State :=
  match s.group g with
  | .deciding t ws _ => latch g t ws s
  | .clear => s
  | .latched _ _ => s

/-- A member's entry into ALERT, judged by the group's state and the entry's standing mark (R64, R65, R67, R68). Its mark has been
cleared by the window sequencer (R45). -/
def judgeAlert (g w : Nat) (s : State) : State :=
  let s := s.setGroup g ((s.group g).without w)
  let x := s.window w
  if x.standing then s
  else
    match s.group g with
    | .clear =>
      let s := setMark w .first s
      if s.settleTime g = 0 then latch g x.alarm [w] s
      else s.setGroup g (.deciding x.alarm [w] (s.clock.elapsed + s.settleTime g))
    | .deciding t ws d =>
      if x.alarm < t then
        setMark w .first ((ws.foldl (fun s v => setMark v .subsequent s) s).setGroup g (.deciding x.alarm [w] d))
      else if x.alarm = t then setMark w .first (s.setGroup g (.deciding t (insertRising w ws) d))
      else setMark w .subsequent s
    | .latched t _ => if t ≤ x.alarm then setMark w .subsequent s else s

/-- A member's return to QUIET: it leaves the first set, and the group becomes CLEAR when every member is QUIET (R69). -/
def judgeQuiet (g w : Nat) (s : State) : State :=
  let s := s.setGroup g ((s.group g).without w)
  if (s.members g).all fun v => (s.window v).state == .quiet then s.setGroup g .clear else s

/-- A group set CLEAR with every member's mark cleared (R70, R72). -/
def clearGroup (g : Nat) (s : State) : State :=
  ((s.members g).foldl (fun s v => setMark v .none s) s).setGroup g .clear

/-- The number of members of a group that carry a mark (R70). -/
def markedMembers (g : Nat) (s : State) : Nat := ((s.members g).filter fun v => (s.window v).mark != .none).length

/-! ## Sequences (R41, R42, R43, R44) -/

/-- The transition a sequence gives for an event in a state; none where it gives none (R44). -/
def Sequence.next : Sequence → WindowState → WindowEvent → Option WindowState
  | _, .quiet, .active => some .alert
  | .lockin, .alert, .clear => some .alertGone
  | .lockin, .alert, .ack => some .steady
  | .lockin, .alertGone, .active => some .alert
  | .lockin, .alertGone, .ack => some .cleared
  | .lockin, .steady, .clear => some .cleared
  | .lockin, .cleared, .active => some .alert
  | .lockin, .cleared, .reset => some .quiet
  | .nonlock, .alert, .clear => some .quiet
  | .nonlock, .alert, .ack => some .steady
  | .nonlock, .steady, .clear => some .quiet
  | .ringback, .alert, .clear => some .alertGone
  | .ringback, .alert, .ack => some .steady
  | .ringback, .alertGone, .active => some .alert
  | .ringback, .alertGone, .ack => some .ringback
  | .ringback, .steady, .clear => some .ringback
  | .ringback, .ringback, .active => some .alert
  | .ringback, .ringback, .reset => some .quiet
  | _, _, _ => none

/-! ## Moving a window -/

/-- Silence set; a chime in progress ends (R50, R51). -/
def setSilence (s : State) : State := { s with win := { s.win with silence := true, chimeUntil := none } }

/-- Silence cleared (R50). -/
def clearSilence (s : State) : State := { s with win := { s.win with silence := false } }

/-- The chime started, or started again, for the chime time of the general table (R51). -/
def startChime (s : State) : State :=
  { s with win := { s.win with chimeUntil := some (s.clock.elapsed + s.settings.live.general.chimeTime) } }

/-- A window entering a state: its mark cleared on entry into QUIET or ALERT (R45), its WINDOW entry unless it is shelved (R56),
silence and chime (R50, R51), and its report to the first-out tracker (R45). -/
def enterWindow (w : Nat) (c : WindowSettings) (new : WindowState) (cause : Cause) (s : State) : State :=
  let old := s.window w
  let s := s.setWindow w
    { old with state := new, mark := if new = .quiet ∨ new = .alert then Mark.none else old.mark }
  let s := if c.journal && !s.shelved w then s.request (windowEntry w old.state new (s.window w) cause s.now) else s
  let s := if new = .alert ∧ c.horn ∧ !s.shelved w then clearSilence s else s
  let s := if new = .ringback ∧ c.chime ∧ !s.shelved w then startChime s else s
  match c.group with
  | none => s
  | some g => if new = .alert then judgeAlert g w s else if new = .quiet then judgeQuiet g w s else s

/-- An event offered to a window: moved as its sequence says, or left as it is (R44). -/
def offer (w : Nat) (ev : WindowEvent) (cause : Cause) (s : State) : State :=
  match s.winSet w with
  | none => s
  | some c =>
    match c.sequence.next (s.window w).state ev with
    | none => s
    | some new => enterWindow w c new cause s

/-- An offer that would change the window's state (R48). -/
def offerMoves (w : Nat) (ev : WindowEvent) (s : State) : Bool :=
  match s.winSet w with
  | none => false
  | some c => (c.sequence.next (s.window w).state ev).isSome

/-- Offers made one after another, and the number of them that changed a state (R48). -/
def offerAll (ev : WindowEvent) (cause : Cause) : List Nat → State → State × Nat
  | [], s => (s, 0)
  | w :: ws, s =>
    let r := offerAll ev cause ws (offer w ev cause s)
    (r.1, r.2 + bit (offerMoves w ev s))

/-! ## The window input (R38, R39, R40) -/

/-- A window's input as worked out at an event that carries a time and a standing mark: it is put with the doubt flag, and the window is
activated or cleared where it passes (R39, R40). -/
def putInput (input : Bool) (time : HallTime) (standing : Bool) (cause : Cause) (c : WindowSettings) (w : Nat) (s : State) : State :=
  let old := s.window w
  let s := s.setWindow w { old with input := input, doubt := s.doubtOf c }
  if !old.input && input then
    offer w .active cause (s.setWindow w { s.window w with alarm := time, standing := standing })
  else if old.input && !input then offer w .clear cause s
  else s

/-- One window takes an event of one of its sources: input and doubt are worked out again. -/
def takeInput (time : HallTime) (standing : Bool) (cause : Cause) (s : State) (w : Nat) : State :=
  match s.winSet w with
  | none => s
  | some c => putInput (s.inputOf c) time standing cause c w s

/-- The configured windows that name a point as a source, rising (R39). -/
def State.windowsOn (s : State) (n : Nat) : List Nat := configuredWhere s.settings.live.windows fun c => c.sources.contains n

/-- An event of a point taken by its windows in rising number (R38, R39); none is taken in HALTED (R60). -/
def windowsTake (n : Nat) (time : HallTime) (standing : Bool) (s : State) : State :=
  if s.halted then s else (s.windowsOn n).foldl (takeInput time standing .input) s

/-! ## Events of points that were changed together (R163) -/

/-- Events of points still to come, in order: each with its point and the window-facing value the point had before it. -/
abbrev Awaited := List (Nat × Bool)

/-- The window-facing value of a point as the events taken so far leave it: what its next event found, or what it has. -/
def State.facingAwaiting (s : State) (await : Awaited) (n : Nat) : Bool :=
  match await.find? fun x => x.1 == n with
  | some x => x.2
  | none => (s.pt n).facing

/-- A window's input is active as the events taken so far leave it, and stays so through the events still to come. -/
def State.inputThrough (s : State) (c : WindowSettings) : Awaited → Bool
  | [] => s.inputOf c
  | x :: xs => c.sources.any (s.facingAwaiting (x :: xs)) && s.inputThrough c xs

/-- One window takes an event of a source while others are still to come. The event activates it where the input is active from this event
on, so that the time and the standing mark it keeps are those of the event that activated it (R40; log entry 51). -/
def takeInputAwaiting (await : Awaited) (time : HallTime) (standing : Bool) (cause : Cause) (s : State) (w : Nat) : State :=
  match s.winSet w with
  | none => s
  | some c => putInput (if (s.window w).input then s.inputOf c else s.inputThrough c await) time standing cause c w s

/-- An event of a point taken by its windows in rising number while others are still to come; none is taken in HALTED (R60). -/
def windowsTakeAwaiting (await : Awaited) (n : Nat) (time : HallTime) (standing : Bool) (s : State) : State :=
  if s.halted then s else (s.windowsOn n).foldl (takeInputAwaiting await time standing .input) s

/-! ## System points (R9) -/

/-- A system point's value set by its block at the present moment: the change is tagged with that moment and handed to the windows.
Before the first FULL adoption system points are inactive (R9). -/
def setSystemPoint (n : Nat) (value : Bool) (s : State) : State :=
  if !s.settings.adopted || (s.pt n).qualified == value then s
  else
    windowsTake n s.now false
      (s.setPt n { s.pt n with raw := value, qualified := value, rawTime := s.now, qualifyTime := s.now })

/-! ## Shelving (R52 to R55) -/

/-- The shelf list with an entry placed by expiry, behind any entry with the same expiry (R52). -/
def insertShelf (e : ShelfEntry) : List ShelfEntry → List ShelfEntry
  | [] => [e]
  | x :: xs => if e.expiry < x.expiry then e :: x :: xs else x :: insertShelf e xs

/-- A window's entry removed from the shelf list. -/
def dropShelf (w : Nat) (s : State) : State :=
  { s with win := { s.win with shelf := s.win.shelf.filter fun e => e.window != w } }

/-- A window shelved, or shelved anew, for a time in minutes (R52, step 4). Shelved anew, its shelving began at the new order (log
entry 46). -/
def shelveWindow (w minutes : Nat) (s : State) : State :=
  let mark := if s.shelved w then ShelfMark.reshelved else ShelfMark.shelved
  let s := dropShelf w s
  let e : ShelfEntry :=
    { window := w, expiry := s.clock.elapsed + 60000 * minutes, began := s.now, minutes := minutes }
  { s with win := { s.win with shelf := insertShelf e s.win.shelf } }.request (shelvedEntry w mark minutes s.now)

/-- A window's shelving ended: its entry leaves the list, the SHELF entry is requested, and silence is cleared where it is in ALERT
with the horn flag (R50, R55). -/
def endShelving (w : Nat) (mark : ShelfMark) (s : State) : State :=
  let s := (dropShelf w s).request (unshelvedEntry w mark (s.window w) s.now)
  match s.winSet w with
  | some c => if c.horn && (s.window w).state == .alert then clearSilence s else s
  | none => s

/-! ## Keys and selectors (R47, R48) -/

/-- The configured, unshelved windows of a panel, rising (R47). -/
def State.panelWindows (s : State) (p : Nat) : List Nat :=
  (configuredWhere s.settings.live.windows fun c =>
      match c.place with
      | some (q, _) => q == p
      | none => false).filter fun w => !s.shelved w

/-- The windows a selector chooses (R48): LIST 0, GROUP 1, PANEL 2, UNIT 3, ALL 4; a listed number as often as it is listed. -/
def State.selected (s : State) (kind subject : Nat) (listed : List Nat) : List Nat :=
  match kind with
  | 0 => (List.range 384).flatMap fun w => List.replicate (listed.count w) w
  | 1 => configuredWhere s.settings.live.windows fun c => c.group == some subject
  | 2 => configuredWhere s.settings.live.windows fun c =>
      match c.place with
      | some (q, _) => q == subject
      | none => false
  | 3 => configuredWhere s.settings.live.windows fun c => c.unit == subject
  | _ => configuredWhere s.settings.live.windows fun _ => true

end Sys2Proof.Machine
end

