-- ==== Sys2Proof/Machine/Condition.lean ====
section
/-! DEFINITION. The condition of the part (R166 to R169), and what closes every command: point 672 and the condition handed on
(log entry 10). -/

namespace Sys2Proof.Machine

/-- The condition worked out again; a change is shown and requests a CONDITION entry with the causes reported after it (R166). -/
def updateCondition (damaged : Option (TableName × Nat)) (s : State) : State :=
  if s.conditionNow = s.monitor.shown then s
  else
    { s with monitor := { s.monitor with shown := s.conditionNow } }.request
      (conditionEntry s.monitor.shown s.conditionNow s.causes damaged s.now)

/-- The changes of point 672 handed on in the order they came about (R148, R149). -/
def handNews (s : State) : State :=
  s.jr.news.foldl (fun s v => setSystemPoint 672 v s) { s with jr := { s.jr with news := [] } }

/-- Point 672 and the condition handed on, again while that itself brings a change. -/
def settleRounds : Nat → State → State
  | 0, s => s
  | n + 1, s =>
    if s.jr.news = [] ∧ s.conditionNow = s.monitor.shown then s
    else settleRounds n (updateCondition none (handNews s))

/-- What closes a command whose step may have written to the journal or changed a cause. -/
def finish (s : State) : State := settleRounds 8 s

/-! ## Table checks (R167, R168) -/

/-- The live entry mended from the adopted copy (R167). -/
def mendEntry (table : TableName) (e : Nat) (s : State) : State :=
  let live := s.settings.live
  let copy := s.settings.copy
  let mended : Tables :=
    match table with
    | .general => { live with general := copy.general }
    | .concentrators => { live with concentrators := put live.concentrators e (look copy.concentrators e) }
    | .points => { live with points := put live.points e (look copy.points e) }
    | .channels => { live with channels := put live.channels e (look copy.channels e) }
    | .windows => { live with windows := put live.windows e (look copy.windows e) }
    | .groups => { live with groups := put live.groups e (look copy.groups e) }
    | .panels => { live with panels := put live.panels e (look copy.panels e) }
    | .terms => { live with terms := put live.terms e (look copy.terms e) }
    | .switches => { live with switches := put live.switches e (look copy.switches e) }
  { s with settings := { s.settings with live := mended } }

/-- The part becomes HALTED: the HALT entry is requested, the loops abandon their cycles and the coil queue is emptied; the blocks
stop by their own rules (R168, R36, R81, R120). -/
def haltPart (first second : TableName × Nat) (s : State) : State :=
  let s := s.request (haltEntry first second s.now)
  { s with
    monitor := { s.monitor with shown := .halted, haltedAt := s.clock.elapsed }
    field := { s.field with nextAt := none, cycle := none }
    panel := { s.panel with nextAt := none, cycle := none }
    sw := { s.sw with queue := [] } }

/-- One uncorrectable error (R167): the latch is set and the condition becomes FAULTED; with the latch set, the part halts. -/
def uncorrectable (table : TableName) (e : Nat) (s : State) : State :=
  if s.halted then s
  else
    match s.monitor.latch with
    | none => updateCondition (some (table, e)) { s with monitor := { s.monitor with latch := some (table, e) } }
    | some first => haltPart first (table, e) s

/-- A check of one live entry (R167): made from the first FULL adoption on and not in HALTED (R168). -/
def checkEntry (table : TableName) (e : Nat) (finding : CheckFinding) (s : State) : State :=
  if !s.settings.adopted || s.halted then s
  else
    match finding with
    | .sound => s
    | .correctable => { s with monitor := { s.monitor with corrected := saturate 65535 (s.monitor.corrected + 1) } }
    | .uncorrectable => uncorrectable table e (mendEntry table e s)
    | .bothCopies => uncorrectable table e (uncorrectable table e s)

/-- CLEAR-FAULT (R169): the outcome's detail. -/
def clearFaultLatch (s : State) : State × Nat :=
  match s.monitor.latch with
  | none => (s, 0)
  | some _ => (updateCondition none { s with monitor := { s.monitor with latch := none } }, 1)

/-- A check of a settings entry (TABLE_CHECK, R167). -/
def execTableCheck (table : TableName) (e : Nat) (finding : CheckFinding) (s : State) :
    Host.Outcome State Fault Refusal :=
  .next (finish (checkEntry table e finding s))

end Sys2Proof.Machine
end

