-- ==== Sys2Proof/Machine/Switches.lean ====
section
/-! DEFINITION. The switch controller with breaker failure and cascades (07_trip_switches_and_the_coil_driver.md,
08_breaker_failure_and_trip_cascades.md), and the supervision unit's part in tests (09_circuit_supervision.md). -/

namespace Sys2Proof.Machine

/-! ## Records -/

/-- The two system points of a switch brought to its state (R117), 544 + i handed on before 592 + i where both change (log entry 54). An
unconfigured switch's points are inactive (R9). -/
def syncSwitchPoints (i : Nat) (s : State) : State :=
  let shown := (s.swSet i).isSome
  let s := setSystemPoint (544 + i) (shown && (s.swi i).shownOperated) s
  setSystemPoint (592 + i) (shown && (s.swi i).shownFault) s

/-- A SWITCH entry of a switch requested (R118), at each event before the switch's system points are handed on (log entry 54). -/
def requestSwitch (i : Nat) (c : SwitchSettings) (mark : SwitchMark) (isolated : Bool) (source : Option Source)
    (cls a last : Nat) (second : HallTime) (s : State) : State :=
  s.request (switchEntry i mark c.unit isolated source cls a last second s.now)

/-- A switch's state changed. -/
def setSwitchState (i : Nat) (x : SwitchState) (s : State) : State := s.setSwi i { s.swi i with state := x }

/-! ## Coil queue (R104, R105) -/

/-- A queue entry put behind every entry of its own or a better class (R105). -/
def insertEntry (e : QueueEntry) : List QueueEntry → List QueueEntry
  | [] => [e]
  | x :: xs => if e.cls < x.cls then e :: x :: xs else x :: insertEntry e xs

/-- An entry raised to class 1 put among the class-1 entries by age (R104). -/
def insertByAge (e : QueueEntry) : List QueueEntry → List QueueEntry
  | [] => [e]
  | x :: xs => if x.cls = 1 ∧ x.joined ≤ e.joined then x :: insertByAge e xs else e :: x :: xs

/-- The queue entry of a switch (R105). -/
def State.entryOf (s : State) (i : Nat) : Option QueueEntry := s.sw.queue.find? fun e => e.switch == i

/-- A switch's entry removed from the queue. -/
def dropEntry (i : Nat) (s : State) : State :=
  { s with sw := { s.sw with queue := s.sw.queue.filter fun e => e.switch != i } }

/-- An entry joins the queue now (R105). -/
def joinQueue (i : Nat) (kind : OpKind) (cls : Nat) (source : Source) (s : State) : State :=
  let e : QueueEntry :=
    { switch := i, kind := kind, cls := cls, joined := s.clock.elapsed, joinedHall := s.now, source := source }
  { s with sw := { s.sw with queue := insertEntry e s.sw.queue } }

/-- A switch's TRIP entry raised to class 1, keeping its entry time (R104). -/
def raiseEntry (i : Nat) (s : State) : State :=
  match s.entryOf i with
  | none => s
  | some e =>
    let s := dropEntry i s
    { s with sw := { s.sw with queue := insertByAge { e with cls := 1 } s.sw.queue } }

/-! ## Supervision of a switch (R138 to R141) -/

/-- The channel that supervises a switch (R136). -/
def SwitchSettings.channel (c : SwitchSettings) : Option Nat := c.supervision.map fun x => x.1

/-- The supervision state changed, with its SUPERVISION entry (R141) and behind it the fault point (R117;
log entry 54). -/
def changeSupervision (i : Nat) (c : SwitchSettings) (new : SupervisionState) (count sample limit : Nat) (s : State) : State :=
  let old := (s.swi i).supervision
  let s := s.setSwi i { s.swi i with supervision := new }
  syncSwitchPoints i
    (s.request (supervisionEntry i (c.channel.getD 0) old new count sample limit s.now))

/-- A test of a switch is lost: the postponement count rises, and at 8 the switch enters UNVERIFIED (R140). -/
def loseTest (i : Nat) (s : State) : State :=
  match s.swSet i with
  | none => s
  | some c =>
    if c.supervision.isNone then s
    else
      let n := saturate 255 ((s.swi i).postponed + 1)
      let s := s.setSwi i { s.swi i with postponed := n }
      if n = 8 then changeSupervision i c .unverified 8 0 0 s else s

/-- The channel of a switch marked free of its test (R138). -/
def freeChannel (i : Nat) (s : State) : State :=
  match (s.swSet i).bind SwitchSettings.channel with
  | none => s
  | some c => s.setChan c { s.chan c with inFlight := none }

/-- A test in flight ended early: no result is taken (R107, R138). -/
def cutTest (i : Nat) (s : State) : State := freeChannel i (s.setSwi i { s.swi i with testStart := none })

/-- A switch loses its waiting TEST entry or its test in flight, which counts as a lost test (R101, R103, R138). -/
def giveUpTest (i : Nat) (s : State) : State :=
  if (s.swi i).testStart.isSome then loseTest i (cutTest i s)
  else
    match s.entryOf i with
    | some e => if e.kind = .test then loseTest i (dropEntry i s) else s
    | none => s

/-! ## The coil driver (R106, R107) -/

/-- A queue entry is eligible, given that a start is possible (R106, R107). -/
def State.eligible (s : State) (e : QueueEntry) : Bool :=
  match e.kind with
  | .trip => true
  | .reset => true
  | .test =>
    (s.sw.queue.all fun x => x.kind == .test) && decide (s.counted ≤ 1) &&
      (match (s.swSet e.switch).bind SwitchSettings.channel with
        | some c => (s.chan c).inFlight.isNone
        | none => true)

/-- The entry the coil driver starts next: the first eligible one while a start is possible (R106). -/
def State.nextStart (s : State) : Option QueueEntry :=
  if s.startPossible then s.sw.queue.find? s.eligible else none

/-- The outcome of a trip request, as TRIP-MANUAL reports it (R114). -/
inductive TripOutcome where
  | queued | requeued | withheld | absorbed
deriving DecidableEq, Repr

/-- What becomes of a trip request by the state of the switch (R103). -/
def tripOutcome (x : Switch) (source : Source) : TripOutcome :=
  if x.isolated then .withheld
  else
    match x.state with
    | .ready | .settling | .resetQueued | .resetPulsing => .queued
    | .failed | .unconfirmed => if source.isOrder then .requeued else .absorbed
    | .unconfigured | .queued | .pulsing | .confirmed | .lockedOut | .held => .absorbed

/-- The class a request's TRIP entry takes (R103, R124). -/
def requestClass (c : SwitchSettings) (source : Source) : Nat := if source.isBackup then 1 else c.cls

/-- A request absorbed (R104). -/
def absorbRequest (i : Nat) (c : SwitchSettings) (source : Source) (s : State) : State :=
  let x := s.swi i
  let s := s.setSwi i { x with absorbed := saturate 65535 (x.absorbed + 1) }
  match s.entryOf i with
  | some e => if x.state = .queued ∧ e.kind = .trip ∧ e.cls = 2 ∧ requestClass c source = 1 then raiseEntry i s else s
  | none => s

/-- A request's TRIP entry joins the queue and the switch goes to QUEUED; a waiting or running test is given up, a waiting RESET
entry is replaced, a running reset pulse is cut by the change of state (R103, R113). A place that a cut frees is looked at when the new
entry has joined (log entry 53). -/
def queueTrip (i : Nat) (c : SwitchSettings) (source : Source) (s : State) : State :=
  let s := dropEntry i (giveUpTest i s)
  syncSwitchPoints i (setSwitchState i .queued (joinQueue i .trip (requestClass c source) source s))

/-- A trip request taken whole (R103, R124); `again` looks at the queue once more. No request is taken in HALTED (R120), nor for an
unconfigured switch (R98). -/
def tripRequest (again : State → State) (source : Source) (i : Nat) (s : State) : State :=
  match s.swSet i with
  | none => s
  | some c =>
    if s.halted then s
    else
      match tripOutcome (s.swi i) source with
      | .withheld => requestSwitch i c .withheld false (some source) 0 0 0 0 s
      | .queued => again (queueTrip i c source s)
      | .requeued => again (queueTrip i c source s)
      | .absorbed => absorbRequest i c source s

/-- Successors of the given triggers requested in list order (R125, R126); none from an isolated switch or in HALTED (R127). -/
def requestSuccessors (again : State → State) (i : Nat) (c : SwitchSettings) (wanted : Trigger → Bool) (s : State) : State :=
  if (s.swi i).isolated || s.halted then s
  else (c.successors.filter fun x => wanted x.2).foldl (fun s x => tripRequest again (.cascade i) x.1 s) s

/-- A HOLD confirmed in HELD (R111), with its ON-CONFIRM successors (R126); its CONFIRM entry gives no length (R118). -/
def confirmHold (again : State → State) (i : Nat) (c : SwitchSettings) (s : State) : State :=
  let s := s.setSwi i { s.swi i with confirmedMark := true }
  requestSuccessors again i c (· == .onConfirm)
    (requestSwitch i c .confirm (s.swi i).isolated none 0 0 0 0 s)

/-- A TRIP entry started: PULSING for a BREAKER or LOCKOUT (R108), HELD for a HOLD (R111), with the START entry and the ON-START
successors (R125) behind the system points (log entry 54). A HOLD whose feedback is already operated confirms after its ON-START successors are requested (log entry 53). -/
def startTrip (again : State → State) (e : QueueEntry) (c : SwitchSettings) (s : State) : State :=
  let i := e.switch
  let hold : Bool := c.kind == .hold
  let s := s.setSwi i { s.swi i with
    state := if hold then .held else .pulsing
    opStart := s.now, opStartElapsed := s.clock.elapsed, seen := s.operated c, confirmedMark := false }
  let s := syncSwitchPoints i (requestSwitch i c .start false (some e.source) e.cls 0 0 e.joinedHall s)
  let s := requestSuccessors again i c (fun t => t == .onStart || (hold && c.feedback.isNone)) s
  if hold && (s.swi i).state == .held && s.operated c then confirmHold again i c s else s

/-- A RESET entry started: the reset coil is energized (R113). -/
def startReset (i : Nat) (s : State) : State :=
  syncSwitchPoints i
    (s.setSwi i { s.swi i with state := .resetPulsing, opStart := s.now, opStartElapsed := s.clock.elapsed })

/-- A TEST entry started: the coil at test level, the channel busy with the switch's test (R107, R138). -/
def startTest (i : Nat) (s : State) : State :=
  let s := s.setSwi i { s.swi i with testStart := some s.clock.elapsed }
  match (s.swSet i).bind SwitchSettings.channel with
  | none => s
  | some c => s.setChan c { s.chan c with inFlight := some i }

/-- A queue entry started: it leaves the queue and its time joins the start history (R106). -/
def startEntry (again : State → State) (e : QueueEntry) (s : State) : State :=
  let s := dropEntry e.switch s
  let s := { s with sw := { s.sw with starts := s.clock.elapsed :: s.sw.starts } }
  match e.kind with
  | .trip =>
    match s.swSet e.switch with
    | some c => startTrip again e c s
    | none => s
  | .reset => startReset e.switch s
  | .test => startTest e.switch s

/-- The controller looks at the queue: while a start is possible it starts the first eligible entry and looks again (R106); no
start is made in HALTED (R120). The number bounds the depth: at most four starts are counted at one elapsed time, so five looks
reach the end. -/
def lookAtQueue : Nat → State → State
  | 0, s => s
  | n + 1, s =>
    if s.halted then s
    else
      match s.nextStart with
      | none => s
      | some e => lookAtQueue n (startEntry (lookAtQueue n) e s)

/-- A look at the queue, deep enough to be whole. -/
def runQueue (s : State) : State := lookAtQueue 5 s

/-- A trip request from outside the coil driver. -/
def requestTrip (source : Source) (i : Nat) (s : State) : State := tripRequest runQueue source i s

/-! ## The trip pulse (R108 to R110) -/

/-- A CONFIRMED breaker whose feedback is GOOD and inactive goes to READY (R110). -/
def recloseBreaker (i : Nat) (c : SwitchSettings) (s : State) : State :=
  if (s.swi i).state == .confirmed && s.restingFeedback c then
    syncSwitchPoints i (requestSwitch i c .reclosed false none 0 0 0 0 (setSwitchState i .ready s))
  else s

/-- The state a confirmed trip leads to (R109, R110). -/
def confirmedState (c : SwitchSettings) : SwitchState := if c.kind = .lockout then .lockedOut else .confirmed

/-- A trip pulse ends in confirmation (R109), its ON-CONFIRM successors are requested (R126), a breaker already reclosed goes on to
READY (R110), and the freed place is looked at (R106), in this order (log entry 53); the system points are handed on before the successors
are requested (log entry 54). -/
def confirmPulse (i : Nat) (c : SwitchSettings) (s : State) : State :=
  let x := s.swi i
  let length := s.clock.elapsed - x.opStartElapsed
  let s := s.setSwi i { x with state := confirmedState c, lastPulse := length }
  let s := syncSwitchPoints i (requestSwitch i c .confirm x.isolated none 0 length 0 0 s)
  runQueue (recloseBreaker i c (requestSuccessors runQueue i c (· == .onConfirm) s))

/-- A trip pulse ends at max pulse: FAILED with GOOD feedback, and then the backup (R128); UNCONFIRMED otherwise (R129). -/
def failPulse (i : Nat) (c : SwitchSettings) (s : State) : State :=
  let x := s.swi i
  let q := s.feedbackQuality c
  let failed : Bool := q == .good
  let s := s.setSwi i { x with state := if failed then .failed else .unconfirmed, lastPulse := c.maxPulse }
  let s := syncSwitchPoints i
    (requestSwitch i c (if failed then .fail else .unconfirmed) (failed && x.isolated) none 0 0 q.code x.opStart s)
  let s :=
    match c.backup with
    | some b => if failed && !x.isolated && !s.halted then requestTrip (.backup i) b s else s
    | none => s
  runQueue s

/-- The time from the start of a pulse as a LATE-CONFIRM entry gives it: 16 bits hold it up to 65,535 ms; beyond that the spec
states no value (log entry 16). -/
def timeFromStart (x : Switch) (s : State) : Nat :=
  if s.clock.elapsed - x.opStartElapsed < 65536 then s.clock.elapsed - x.opStartElapsed
  else (Config.freeHalf s.free).toNat

/-- A FAILED or UNCONFIRMED switch gains operated feedback (R110): its system points are handed on before the ON-CONFIRM successors are
requested (log entry 54). -/
def lateConfirm (i : Nat) (c : SwitchSettings) (s : State) : State :=
  let x := s.swi i
  let t := timeFromStart x s
  let s := { s with free := s.free + 1 }
  let s := s.setSwi i { x with state := confirmedState c }
  let s := syncSwitchPoints i (requestSwitch i c .lateConfirm x.isolated none 0 t 0 x.opStart s)
  requestSuccessors runQueue i c (· == .onConfirm) s

/-- A LOCKOUT enters LOCKED-OUT with its FOUND-OPERATED entry (R101). -/
def enterLockedOut (i : Nat) (c : SwitchSettings) (s : State) : State :=
  requestSwitch i c .foundOperated false none 0 0 SwitchState.lockedOut.code 0 (setSwitchState i .lockedOut s)

/-- A LOCKOUT in READY found operated (R101): it enters LOCKED-OUT, its system points are handed on, then it loses its
test with the SUPERVISION entry that can bring (log entry 54), and the place of a cut test is looked at last (log entry 53). -/
def foundOperated (i : Nat) (c : SwitchSettings) (s : State) : State :=
  runQueue (giveUpTest i (syncSwitchPoints i (enterLockedOut i c s)))

/-- A LOCKOUT in SETTLING whose feedback point has a quality other than LOST leaves it (R102). -/
def settleSwitch (i : Nat) (c : SwitchSettings) (s : State) : State :=
  if (s.swi i).state == .settling && s.feedbackQuality c != .lost then
    let new : SwitchState := if s.operated c then .lockedOut else .ready
    syncSwitchPoints i (requestSwitch i c .settled false none 0 0 new.code 0 (setSwitchState i new s))
  else s

/-- The min pulse of a running trip pulse has run (R109). -/
def State.minRun (s : State) (i : Nat) (c : SwitchSettings) : Bool := s.due ((s.swi i).opStartElapsed + c.minPulse)

/-- A switch takes an event of its feedback point by its state (R101). -/
def takeFeedback (s : State) (i : Nat) : State :=
  match s.swSet i with
  | none => s
  | some c =>
    match (s.swi i).state with
    | .pulsing =>
      if s.operated c then
        let s := s.setSwi i { s.swi i with seen := true }
        if s.minRun i c then confirmPulse i c s else s
      else s
    | .failed => if s.operated c then lateConfirm i c s else s
    | .unconfirmed => if s.operated c then lateConfirm i c s else s
    | .confirmed => recloseBreaker i c s
    | .held => if !(s.swi i).confirmedMark && s.operated c then confirmHold runQueue i c s else s
    | .settling => settleSwitch i c s
    | .ready => if c.kind = .lockout ∧ s.operated c then foundOperated i c s else s
    | .unconfigured => s
    | .queued => s
    | .lockedOut => s
    | .resetQueued => s
    | .resetPulsing => s

/-- The configured switches whose feedback point is n, rising (R98): several that share it take its event in rising number (log entry
45). -/
def State.switchesOn (s : State) (n : Nat) : List Nat :=
  configuredWhere s.settings.live.switches fun c => c.feedback == some n

/-- An event of a point taken by the switches it is the feedback of (R101). -/
def switchesTake (n : Nat) (s : State) : State := (s.switchesOn n).foldl takeFeedback s

/-- The reset pulse of a relay ends (R113); the freed place is looked at behind the entry and the system points (log entry 53). -/
def endReset (i : Nat) (c : SwitchSettings) (s : State) : State :=
  let x := s.swi i
  let q := s.feedbackQuality c
  let done : Bool := s.restingFeedback c
  let s := s.setSwi i { x with state := if done then .ready else .lockedOut, resetFailed := !done }
  runQueue (syncSwitchPoints i
    (requestSwitch i c (if done then .resetDone else .resetFailed) false none 0 0 q.code x.opStart s))

/-! ## Tests (R107, R137 to R139) -/

/-- A test request is taken (R107): the switch is READY with no queue entry and no test in flight. -/
def State.testTaken (s : State) (i : Nat) : Bool :=
  (s.swi i).state == .ready && (s.entryOf i).isNone && (s.swi i).testStart.isNone

/-- The TEST entry of a taken request joins the queue (R105, R107). Its source is not used. -/
def queueTest (i : Nat) (s : State) : State := runQueue (joinQueue i .test 4 (.order 0) s)

/-- An interval tick of a supervised switch (R137). -/
def tick (i : Nat) (c : SwitchSettings) (s : State) : State :=
  let s := s.setSwi i { s.swi i with nextTick := (s.swi i).nextTick + 1000 * (c.supervision.map fun x => x.2).getD 0 }
  if s.testTaken i then queueTest i s else loseTest i s

/-- A test judged by the channel's low limit as it stands (R139). -/
def judgeTest (i : Nat) (c : SwitchSettings) (channel : Nat) (sample : BitVec 10) (s : State) : State :=
  let limit := (s.chanSet channel).low
  let new : SupervisionState := if limit ≤ sample.toNat then .healthy else .openCircuit
  let s := s.setSwi i { s.swi i with postponed := 0 }
  if (s.swi i).supervision = new then s else changeSupervision i c new 0 sample.toNat limit s

/-- A test pulse ends: the place and the channel are freed, the sample is taken and, unless the part is HALTED, judged (R138, R144). The
queue is looked at when the test has been judged (log entry 53). -/
def endTest (i : Nat) (c : SwitchSettings) (channel : Nat) (sample : BitVec 10) (s : State) : State :=
  let s := s.setSwi i { s.swi i with testStart := none }
  let s := s.setChan channel
    { s.chan channel with value := sample, time := s.now, lastJudged := some i, inFlight := none }
  if s.halted then s else runQueue (judgeTest i c channel sample s)

/-! ## Events of the coil driver and of the pulses -/

/-- COIL_START (R106). -/
def execCoilStart (s : State) : Host.Outcome State Fault Refusal := .next (finish (runQueue s))

/-- START_HISTORY_EXPIRY (R106): starts that are no longer counted leave the history, and the queue is looked at. -/
def execStartHistoryExpiry (s : State) : Host.Outcome State Fault Refusal :=
  .next (finish (runQueue
    { s with sw := { s.sw with starts := s.sw.starts.filter fun t => decide (s.clock.elapsed - t < 20) } }))

/-- A switch whose trip pulse runs, with its settings. -/
def State.pulsing (s : State) (i : Nat) : Option SwitchSettings :=
  if (s.swi i).state == .pulsing then s.swSet i else none

/-- MIN_PULSE_EXPIRY (R109). -/
def execMinPulseExpiry (i : Nat) (s : State) : Host.Outcome State Fault Refusal :=
  match s.pulsing i with
  | none => .next s
  | some c => if (s.swi i).seen && s.minRun i c then .next (finish (confirmPulse i c s)) else .next s

/-- MAX_PULSE_EXPIRY (R109). -/
def execMaxPulseExpiry (i : Nat) (s : State) : Host.Outcome State Fault Refusal :=
  match s.pulsing i with
  | none => .next s
  | some c =>
    if !(s.swi i).seen && s.due ((s.swi i).opStartElapsed + c.maxPulse) then .next (finish (failPulse i c s)) else .next s

/-- RESET_PULSE_END (R113). -/
def execResetPulseEnd (i : Nat) (s : State) : Host.Outcome State Fault Refusal :=
  match s.swSet i with
  | none => .next s
  | some c =>
    if (s.swi i).state == .resetPulsing && s.due ((s.swi i).opStartElapsed + c.resetPulse) then
      .next (finish (endReset i c s))
    else .next s

/-- TEST_PULSE_END (R138): 2 ms after the test start. -/
def execTestPulseEnd (i : Nat) (sample : BitVec 10) (s : State) : Host.Outcome State Fault Refusal :=
  match s.swSet i, (s.swi i).testStart with
  | some c, some t =>
    match c.channel with
    | some channel => if s.due (t + 2) then .next (finish (endTest i c channel sample s)) else .next s
    | none => .next s
  | _, _ => .next s

/-- SUPERVISION_TICK (R137): not acted on in HALTED (R144). -/
def execSupervisionTick (i : Nat) (s : State) : Host.Outcome State Fault Refusal :=
  match s.swSet i with
  | none => .next s
  | some c =>
    if c.supervision.isSome && !s.halted && s.due (s.swi i).nextTick then .next (finish (tick i c s)) else .next s

/-! ## Orders of the switch controller -/

/-- A HOLD in HELD released by RESET-SWITCH (R112). -/
def releaseHold (i : Nat) (c : SwitchSettings) (s : State) : State :=
  requestSwitch i c .released false none 0 0 SwitchState.ready.code 0
    (s.setSwi i { s.swi i with state := .ready, confirmedMark := false })

/-- A FAILED or UNCONFIRMED switch cleared by RESET-SWITCH (R112). -/
def clearFailed (i : Nat) (c : SwitchSettings) (s : State) : State :=
  let new : SwitchState := if s.operated c then confirmedState c else .ready
  requestSwitch i c .cleared false none 0 0 new.code 0 (setSwitchState i new s)

/-- The RESET entry of a LOCKOUT joins the queue (R112). -/
def queueReset (i : Nat) (s : State) : State := setSwitchState i .resetQueued (joinQueue i .reset 3 (.order 0) s)

/-- RESET-SWITCH, step 4 (R112). -/
def resetSwitch (i : Nat) (s : State) : State × Nat :=
  match s.swSet i with
  | none => (s, 0)
  | some c =>
    match (s.swi i).state with
    | .lockedOut =>
      (runQueue (syncSwitchPoints i (queueReset i s)), 1)
    | .held => (syncSwitchPoints i (releaseHold i c s), 1)
    | .failed | .unconfirmed => (syncSwitchPoints i (clearFailed i c s), 1)
    | .unconfigured | .ready | .queued | .pulsing | .confirmed | .resetQueued | .resetPulsing | .settling => (s, 0)

/-- TRIP-MANUAL (R114): the request and its detail. -/
def tripManual (i slot : Nat) (s : State) : State × Nat :=
  let detail :=
    match tripOutcome (s.swi i) (.order slot) with
    | .queued => 0
    | .requeued => 1
    | .withheld => 2
    | .absorbed => 3
  (requestTrip (.order slot) i s, detail)

/-- The isolated flag set, with its MAINT entry (R115). -/
def markIsolated (i : Nat) (s : State) : State :=
  (s.setSwi i { s.swi i with isolated := true }).request (maintEntry i 0x0C 0 0 0 s.now)

/-- The waiting TRIP entry of a switch that is isolated leaves the queue as WITHHELD, and the switch goes to READY (R115). -/
def withdrawTrip (i : Nat) (c : SwitchSettings) (e : QueueEntry) (s : State) : State :=
  setSwitchState i .ready (requestSwitch i c .withheld false (some e.source) 0 0 0 0 (dropEntry i s))

/-- ISOLATE (R115). -/
def isolateSwitch (i : Nat) (s : State) : State × Nat :=
  if (s.swi i).isolated then (s, 0)
  else
    let s := markIsolated i s
    match s.swSet i, s.entryOf i with
    | some c, some e =>
      if e.kind = .trip then
        let s := syncSwitchPoints i (withdrawTrip i c e s)
        let s := if c.kind = .lockout ∧ s.operated c then foundOperated i c s else s
        (runQueue s, 1)
      else (s, 1)
    | _, _ => (s, 1)

/-- RESTORE, step 5 (R116); a switch that is not isolated is left as it is (step 2). -/
def restoreSwitch (i : Nat) (s : State) : State × Nat :=
  if (s.swi i).isolated then
    ((s.setSwi i { s.swi i with isolated := false }).request (maintEntry i 0x0D 1 0 0 s.now), 1)
  else (s, 0)

/-- TEST-CIRCUIT (R143): PENDING where a test waits or runs, else QUEUED. -/
def testCircuit (i : Nat) (s : State) : State × Nat :=
  if s.testTaken i then (queueTest i s, 0) else (s, 1)

end Sys2Proof.Machine
end

