-- ==== Sys2Proof/Machine/Terms.lean ====
section
/-! DEFINITION. The trip evaluator (06_units_modes_and_trip_terms.md). -/

namespace Sys2Proof.Machine

/-- A term's state changed at the present moment (R94). -/
def setTermState (t : Nat) (x : TermState) (s : State) : State :=
  s.setTrm t { s.trm t with state := x, lastChange := s.now }

/-- A term's own part of an entry into ACTIVE: the activation count rises and TERM-ACTIVE is requested (R91). -/
def becomeActive (t : Nat) (c : TermSettings) (start : HallTime) (s : State) : State :=
  let s := setTermState t .active s
  let s := s.setTrm t { s.trm t with
    timingStart := start, lastActive := s.now, activations := saturate 65535 ((s.trm t).activations + 1) }
  let active := (c.points.zip (s.positions c)).filterMap fun x => if x.2 then some x.1 else none
  s.request (termActiveEntry t c.unit c.outputs.length active (s.policyPositions c) start s.now)

/-- A term enters ACTIVE, and then a trip of each output switch is requested in list order (R91). -/
def enterActive (t : Nat) (c : TermSettings) (start : HallTime) (s : State) : State :=
  c.outputs.foldl (fun s i => requestTrip (.term t) i s) (becomeActive t c start s)

/-- A term enters TIMING, or ACTIVE at once when its delay is 0 (R89, R90). -/
def enterTiming (t : Nat) (c : TermSettings) (s : State) : State :=
  if c.delay = 0 then enterActive t c s.now s
  else
    let s := setTermState t .timing s
    s.setTrm t { s.trm t with timingStart := s.now, deadline := s.clock.elapsed + c.delay }

/-- A term enters IDLE, and goes on at once if it is satisfied (R89). -/
def enterIdle (t : Nat) (c : TermSettings) (s : State) : State :=
  let s := setTermState t .idle s
  if s.satisfied c then enterTiming t c s else s

/-- The seen marks of a HELD term with those given by the present qualities (R88). -/
def seenNow (c : TermSettings) (old : List Bool) (s : State) : List Bool :=
  (List.range c.points.length).map fun k => old[k]?.getD false || (s.pt (c.points[k]?.getD 0)).quality != .lost

/-- A HELD term gives its seen marks and leaves HELD when every position has one (R88). -/
def lookWhileHeld (t : Nat) (c : TermSettings) (s : State) : State :=
  let s := s.setTrm t { s.trm t with seen := seenNow c (s.trm t).seen s }
  if (s.trm t).seen.all id then
    if s.armed c then enterIdle t c s else setTermState t .disarmed s
  else s

/-- A term takes an event of one of its points by its state (R87 to R92). -/
def takePoint (s : State) (t : Nat) : State :=
  match s.termSet t with
  | none => s
  | some c =>
    let x := s.trm t
    match x.state with
    | .unconfigured => s
    | .held => lookWhileHeld t c s
    | .disarmed => s
    | .idle => if s.satisfied c then enterTiming t c s else s
    | .timing =>
      if s.satisfied c then s
      else enterIdle t c (s.request (termEndEntry t 0 c.unit (s.termCount c) x.timingStart s.now))
    | .active =>
      if s.satisfied c then s
      else enterIdle t c (s.request (termEndEntry t 2 c.unit (s.termCount c) x.lastActive s.now))

/-- The configured terms that list a point, rising (R87). -/
def State.termsOn (s : State) (n : Nat) : List Nat := configuredWhere s.settings.live.terms fun c => c.points.contains n

/-- An event of a point taken by the terms that list it, in rising number (R87); none is taken in HALTED (R96). -/
def termsTake (n : Nat) (s : State) : State := if s.halted then s else (s.termsOn n).foldl takePoint s

/-- A term takes a change of its unit's mode (R84). -/
def takeMode (s : State) (t : Nat) : State :=
  match s.termSet t with
  | none => s
  | some c =>
    let x := s.trm t
    let mode := look s.term.modes c.unit
    if s.armed c then
      if x.state = .disarmed then enterIdle t c s else s
    else
      match x.state with
      | .idle => setTermState t .disarmed s
      | .timing =>
        (setTermState t .disarmed s).request (termDisarmEntry t c.unit .timing mode x.timingStart s.now)
      | .active =>
        (setTermState t .disarmed s).request (termDisarmEntry t c.unit .active mode x.lastActive s.now)
      | .unconfigured => s
      | .held => s
      | .disarmed => s

/-- The configured terms of a unit, rising (R84). -/
def State.termsOf (s : State) (u : Nat) : List Nat := configuredWhere s.settings.live.terms fun c => c.unit == u

/-- SET-MODE, steps 2 and 3 (R83): the MODE entry is requested before the terms take the change by `take`; the detail is the number of
terms it moves from TIMING or ACTIVE to DISARMED. -/
def setModeBy (take : State → Nat → State) (u : Nat) (mode : Mode) (slot : Nat) (s : State) : State × Nat :=
  let old := look s.term.modes u
  if old = mode then (s, 0)
  else
    let terms := s.termsOf u
    let disarmed := terms.filter fun t =>
      (s.trm t).acting &&
        match s.termSet t with
        | some c => !c.modes.contains mode
        | none => false
    let s := { s with term := { s.term with modes := put s.term.modes u mode } }
    let s := s.request (modeEntry u old mode slot disarmed.length s.now)
    (terms.foldl take s, disarmed.length)

/-- SET-MODE (R83). -/
def setMode (u : Nat) (mode : Mode) (slot : Nat) (s : State) : State × Nat := setModeBy takeMode u mode slot s

/-- A term takes a change of its unit's mode without a trip request: those of a term that enters ACTIVE are left (R163). -/
def takeModeAlone (s : State) (t : Nat) : State :=
  match s.termSet t with
  | none => s
  | some c =>
    if s.armed c ∧ (s.trm t).state = .disarmed then
      let s := setTermState t .idle s
      if s.satisfied c then (if c.delay = 0 then becomeActive t c s.now s else enterTiming t c s) else s
    else takeMode s t

/-- The trips owed by the terms of a unit that went from DISARMED to ACTIVE between two states: each with its term, the terms rising
and the switches in list order (R91). -/
def tripsOwed (u : Nat) (before after : State) : List (Nat × Nat) :=
  (after.termsOf u).flatMap fun t =>
    if (before.trm t).state = .disarmed ∧ (after.trm t).state = .active then
      match after.termSet t with
      | some c => c.outputs.map fun i => (t, i)
      | none => []
    else []

/-- TERM_DELAY_EXPIRY (R90, R91): not acted on in HALTED (R96). -/
def execTermDelayExpiry (t : Nat) (s : State) : Host.Outcome State Fault Refusal :=
  match s.termSet t with
  | none => .next s
  | some c =>
    if (s.trm t).state == .timing && s.due (s.trm t).deadline && !s.halted then
      .next (finish (enterActive t c (s.trm t).timingStart s))
    else .next s

end Sys2Proof.Machine
end

