-- ==== Sys2Proof/Machine/Points.lean ====
section
/-! DEFINITION. The point qualifier and the hall clock (01_hall_points_and_their_qualification.md). -/

namespace Sys2Proof.Machine

/-! ## Handing on (R5, R6) -/

/-- A point event handed to the trip evaluator, the switch controller and the windows, in this order (log entry 11). -/
def handOn (n : Nat) (time : HallTime) (standing : Bool) (s : State) : State :=
  windowsTake n time standing (switchesTake n (termsTake n s))

/-- A point whose live quality becomes q: the held values are set when its quality enters LOST or WIRING from GOOD (R38, R86).
While it is forced its quality stays FORCED and they are left. -/
def Point.withQuality (p : Point) (q : LiveQuality) : Point :=
  if p.forced.isNone ∧ p.live = .good ∧ q ≠ .good then
    { p with live := q, held := p.qualified, termHeld := p.qualified }
  else { p with live := q }

/-- A change between GOOD and WIRING (R6). -/
def wiringChange (a b : LiveQuality) : Bool := (a == .good && b == .wiring) || (a == .wiring && b == .good)

/-- The live quality of a settable point changed (R6): the POINT entry of a change between GOOD and WIRING, and the change handed
on as a standing event (R38) unless the point is forced (R12). The entry shows the quality entered, for a forced point too (log
entry 31). -/
def setQuality (n : Nat) (c : PointSettings) (q : LiveQuality) (time : HallTime) (s : State) : State :=
  let p := s.pt n
  if p.live = q then s
  else
    let s := s.setPt n (p.withQuality q)
    let s := if c.journal && wiringChange p.live q then s.request (qualityEntry n p.qualified q.quality time) else s
    if p.forced.isSome then s else handOn n time true s

/-! ## Qualified changes (R5, R10) -/

/-- A change counted for chatter (R10): the count rises, and above a nonzero threshold the point becomes suppressed with the
window-facing value it had before. -/
def Point.counted (p : Point) (c : PointSettings) (before : Bool) : Point :=
  let n := saturate 255 (p.chatter + 1)
  { p with
    chatter := n
    frozen := if p.frozen.isNone ∧ c.threshold ≠ 0 ∧ c.threshold < n then some before else p.frozen }

/-- The entry of a qualified change, if it writes one: POINT-CHATTER where it suppresses the point (R10), POINT where the journal
flag is set and the point is not suppressed (R5). `p` is the point before the chatter count, `q` after it. -/
def changeEntry (n : Nat) (c : PointSettings) (p q : Point) (f : ChangeFlags) : Option Entry :=
  if p.frozen.isNone ∧ q.frozen.isSome then some (chatterEntry n false q.chatter q.qualified q.rawTime)
  else if c.journal ∧ q.frozen.isNone then some (pointEntry n q.qualified q.quality q.rawTime q.qualifyTime f)
  else none

/-- The point's own part of a qualified change: counted or not (R10), and with the entry it writes (R5). -/
def recordChange (n : Nat) (c : PointSettings) (p : Point) (before : Bool) (counted : Bool) (f : ChangeFlags) (s : State) : State :=
  let q := if counted then p.counted c before else p
  match changeEntry n c p q f with
  | some e => (s.setPt n q).request e
  | none => s.setPt n q

/-- A qualified change made (R5): `p` is the point with its new qualified value, times and quality and the chatter count and
suppression it had; `before` is the window-facing value it had just before. While the point is forced the change is neither
handed on, nor counted, nor journaled (R12). -/
def makeChange (n : Nat) (c : PointSettings) (p : Point) (before : Bool) (counted : Bool) (f : ChangeFlags)
    (windowStanding : Bool) (s : State) : State :=
  if p.forced.isSome then s.setPt n p else handOn n p.rawTime windowStanding (recordChange n c p before counted f s)

/-- No flag. -/
def ChangeFlags.plain : ChangeFlags := { standing := false, afterLoss := false, forcedRelease := false, settings := false }

/-! ## Samples (R3, R7, R8, R16) -/

/-- The raw value of a sample: the contact or comparator with the point's sense applied (R3). -/
def rawValue (c : PointSettings) (closed : Bool) : Bool := closed != c.activeOpen

/-- The filter a pending change begins with (R3). -/
def PointSettings.filterFor (c : PointSettings) (value : Bool) : Nat := if value then c.setFilter else c.clearFilter

/-- A sample qualified by its filter (R3). The elapsed time since the pending change began runs from sample to sample; for a field
point a sample's moment is the start of its cycle (log entry 27). -/
def samplePoint (n : Nat) (c : PointSettings) (value : Bool) (time : HallTime) (elapsed : Nat) (s : State) : State :=
  let p := { s.pt n with raw := value }
  if value = p.qualified then s.setPt n { p with pending := none }
  else
    let d := p.pending.getD { start := time, startElapsed := elapsed, filter := c.filterFor value }
    if d.filter ≤ elapsed - d.startElapsed then
      makeChange n c { p with qualified := value, pending := none, rawTime := d.start, qualifyTime := time } p.facing true
        .plain false s
    else s.setPt n { p with pending := some d }

/-- A sample taken directly as the qualified value: standing, not counted, without POINT entry (R7 from SEEKING, R16). -/
def takeDirect (n : Nat) (value : Bool) (q : LiveQuality) (time : HallTime) (s : State) : State :=
  let p := s.pt n
  let s := s.setPt n
    { p with raw := value, qualified := value, live := q, pending := none, fresh := false, rawTime := time, qualifyTime := time }
  if p.forced.isSome then s else handOn n time true s

/-- A good reply's sample of one field point in HEALTHY or SUSPECT (R3, R6): the quality first, then the value (log entry 12); a
newly configured point takes it directly (R16). -/
def sampleField (n : Nat) (closed fault : Bool) (time : HallTime) (elapsed : Nat) (s : State) : State :=
  match s.ptSet n with
  | none => s
  | some c =>
    let q : LiveQuality := if fault then .wiring else .good
    if (s.pt n).fresh then takeDirect n (rawValue c closed) q time s
    else samplePoint n c (rawValue c closed) time elapsed (setQuality n c q time s)

/-- The reply that brings a concentrator from SEEKING to HEALTHY, at one point (R7). -/
def foundField (n : Nat) (closed fault : Bool) (time : HallTime) (s : State) : State :=
  match s.ptSet n with
  | none => s
  | some c => takeDirect n (rawValue c closed) (if fault then .wiring else .good) time s

/-- The reply that completes a regain, at one point (R7, R31): a change is after-loss, standing when it is an activation, counted
and journaled; the return of quality makes a standing event (R38). -/
def regainField (n : Nat) (closed fault : Bool) (time : HallTime) (s : State) : State :=
  match s.ptSet n with
  | none => s
  | some c =>
    let value := rawValue c closed
    let q : LiveQuality := if fault then .wiring else .good
    let p := s.pt n
    if value = p.qualified then
      setQuality n c q time (s.setPt n { p with raw := value, pending := none, fresh := false })
    else
      makeChange n c
        { p with raw := value, qualified := value, live := q, pending := none, fresh := false, rawTime := time, qualifyTime := time }
        p.facing true { ChangeFlags.plain with standing := value, afterLoss := true } true s

/-- A point of a concentrator that leaves HEALTHY and SUSPECT (R7): its pending change is dropped, its quality becomes LOST. A newly
configured point that still awaited its first reply (R16) is then as any lost point (log entry 48). -/
def loseField (s : State) (n : Nat) : State :=
  match s.ptSet n with
  | none => s
  | some c => setQuality n c .lost s.now (s.setPt n { s.pt n with pending := none, fresh := false })

/-- A comparator result of a supervision point (R8): the first is taken directly (R16), later ones are qualified by R3. -/
def sampleSupervision (n : Nat) (value : Bool) (s : State) : State :=
  match s.ptSet n with
  | none => s
  | some c =>
    if (s.pt n).live = .lost then takeDirect n value .good s.now s
    else samplePoint n c value s.now s.clock.elapsed s

/-! ## Chatter period (R11) -/

/-- A suppressed point released at a period boundary or by an adoption (R11, R16). -/
def releaseChatter (s : State) (n : Nat) : State :=
  let p := s.pt n
  let s := (s.setPt n { p with frozen := none }).request (chatterEntry n true p.chatter p.effective s.now)
  windowsTake n s.now true s

/-- The settable points that a boundary releases: suppressed with a count of at most their release count (R11). -/
def State.calmPoints (s : State) : List Nat :=
  (List.range 544).filter fun n =>
    (s.pt n).frozen.isSome &&
      match s.ptSet n with
      | some c => decide ((s.pt n).chatter ≤ c.release)
      | none => false

/-- Every point's chatter count set to 0 (R11, R16); a system point has none and keeps 0 (R9). -/
def clearChatter (s : State) : State :=
  { s with pts := { s.pts with points := mapNumbered (fun _ p => { p with chatter := 0 }) s.pts.points } }

/-- CHATTER_PERIOD_BOUNDARY (R11): not acted on in HALTED (R15). The points released at one boundary are taken in rising number, each
with its entry and its window events before the next (log entry 45). -/
def execChatterPeriodBoundary (s : State) : Host.Outcome State Fault Refusal :=
  match s.pts.nextBoundary with
  | none => .next s
  | some b =>
    if s.due b && !s.halted then
      let s := clearChatter (s.calmPoints.foldl releaseChatter s)
      .next (finish
        { s with pts := { s.pts with nextBoundary := some (b + 1000 * s.settings.live.general.chatterPeriod) } })
    else .next s

/-! ## Forcing (R12, R13) -/

/-- The point's own part of FORCE-POINT, step 3 (R12). The raw and the qualify time kept for the point stay as they are (log entry
14). -/
def markForced (n : Nat) (value : Bool) (s : State) : State :=
  let p := s.pt n
  let s := s.setPt n { p with forced := some value, frozen := none, chatter := 0 }
  let s := if p.frozen.isSome then s.request (chatterEntry n true p.chatter value s.now) else s
  s.request (maintEntry n 0x0A 2 (bit value) p.quality.code s.now)

/-- FORCE-POINT, step 3 (R12), with the change handed on. -/
def forcePoint (n : Nat) (value : Bool) (s : State) : State × Nat := (handOn n s.now false (markForced n value s), 0)

/-- A point no longer forced, its live quality becoming its quality: the held values are set when that is LOST or WIRING (R13,
R38, R86). -/
def Point.unforced (p : Point) : Point :=
  if p.live = .good then { p with forced := none }
  else { p with forced := none, held := p.qualified, termHeld := p.qualified }

/-- The point's own part of RELEASE-POINT up to its MAINT entry (R13). -/
def markUnforced (n : Nat) (value : Bool) (s : State) : State :=
  (s.setPt n (s.pt n).unforced).request (maintEntry n 0x0B 3 (bit value) 0 s.now)

/-- A released point as its change to the live value is recorded: both times are the execution time (R13). -/
def Point.released (p : Point) (now : HallTime) : Point := { p.unforced with rawTime := now, qualifyTime := now }

/-- The flags of the change that a release makes to this live value (R13). -/
def ChangeFlags.ofRelease (value : Bool) : ChangeFlags := { ChangeFlags.plain with standing := value, forcedRelease := true }

/-- RELEASE-POINT (R13). -/
def releasePoint (n : Nat) (s : State) : State × Nat :=
  let p := s.pt n
  match p.forced, s.ptSet n with
  | some value, some c =>
    let s := markUnforced n value s
    if p.qualified = value then (handOn n s.now true s, 0)
    else (makeChange n c (p.released s.now) value true (.ofRelease p.qualified) p.qualified s, 0)
  | _, _ => (s, 0)

/-! ## Hall clock (R17 to R20) -/

/-- A step of hall time activates point 673, or restarts its 10 s (R20). -/
def markStepped (s : State) : State :=
  if s.settings.adopted then
    setSystemPoint 673 true { s with clock := { s.clock with steppedUntil := some (s.clock.elapsed + 10000) } }
  else s

/-- Hall time stepped with a TIME entry (R18, R19). -/
def stepTime (bySync : Bool) (new : HallTime) (s : State) : State :=
  let old := s.clock.hall
  let s := { s with clock := { s.clock with hall := new } }
  markStepped (s.request (timeEntry bySync old new))

/-- SET-TIME with a value below 2^48 (R18). -/
def setTime (lo hi : Nat) (s : State) : State × Nat := (stepTime false (BitVec.ofNat 48 (lo + 2 ^ 32 * hi)) s, 0)

/-- Hall time snapped to the nearest whole second (R19). -/
def snapped (t : HallTime) : HallTime :=
  let m := t.toNat % 1000
  if m < 500 then t - BitVec.ofNat 48 m else t + BitVec.ofNat 48 (1000 - m)

/-- A snap of this remainder writes a TIME entry (R19). -/
def snapRecorded (m : Nat) : Bool := decide (20 < m ∧ m < 980)

/-- SYNC_PULSE (R19). -/
def execSyncPulse (s : State) : Host.Outcome State Fault Refusal :=
  if snapRecorded (s.clock.hall.toNat % 1000) then .next (finish (stepTime true (snapped s.clock.hall) s))
  else .next { s with clock := { s.clock with hall := snapped s.clock.hall } }

/-- HALL_TIME_ADVANCE (R17): in every condition; a millisecond of elapsed time passes with it (log entry 1). -/
def execHallTimeAdvance (s : State) : Host.Outcome State Fault Refusal :=
  .next { s with clock := { s.clock with hall := s.clock.hall + 1, elapsed := s.clock.elapsed + 1 } }

/-- TIME_STEPPED_EXPIRY (R20): in every condition (R15). -/
def execTimeSteppedExpiry (s : State) : Host.Outcome State Fault Refusal :=
  match s.clock.steppedUntil with
  | none => .next s
  | some t =>
    if s.due t then
      .next (finish (setSystemPoint 673 false { s with clock := { s.clock with steppedUntil := none } }))
    else .next s

/-- FLASH_PHASE_ADVANCE (R74): in every condition. -/
def execFlashPhaseAdvance (s : State) : Host.Outcome State Fault Refusal :=
  if s.due s.clock.nextFlash then
    .next { s with clock := { s.clock with flash := s.clock.flash + 1, nextFlash := s.clock.nextFlash + 125 } }
  else .next s

end Sys2Proof.Machine
end

