-- ==== Sys2Proof/Machine/FieldLoop.lean ====
section
/-! DEFINITION. The field loop controller (02_the_field_loop.md): cycles, calls, judgement of replies, link states, counters. -/

namespace Sys2Proof.Machine

/-! ## Schedule (R21, R22) -/

/-- The slots of a cycle for a loop rate and a cycle length (R21). -/
def fieldSlots (rate cycle : Nat) : Nat :=
  if (rate = 4 ∧ cycle = 1) ∨ (rate = 2 ∧ cycle = 2) then 12 else 25

/-- The configured concentrators, rising (R22). -/
def Tables.callOrder (t : Tables) : List Nat := configuredWhere t.concentrators fun _ => true

/-- The error thresholds of the concentrators, 0 for one that is not configured (R26). -/
def Tables.errorThresholds (t : Tables) : Vector Nat 16 := t.concentrators.map fun c => (c.map fun c => c.errorThreshold).getD 0

/-- FIELD_CYCLE_START (R22): due at each cycle length of elapsed time once the cycle before has ended. -/
def execFieldCycleStart (s : State) : Host.Outcome State Fault Refusal :=
  match s.field.nextAt, s.field.cycle with
  | some t, none =>
    if s.due t && !s.halted then
      let g := s.settings.live.general
      let cycle : FieldCycle :=
        { count := s.field.nextCount, start := s.now, startElapsed := s.clock.elapsed,
          schedule := s.settings.live.callOrder, slots := fieldSlots g.rate g.cycle, slot := 0, call := none,
          retry := [], retried := [], taken := [], errors := [], withdrawn := []
          thresholds := s.settings.live.errorThresholds }
      .next { s with field := { s.field with
        cycle := some cycle, nextCount := s.field.nextCount + 1, nextAt := some (t + g.cycle) } }
    else .next s
  | _, _ => .next s

/-! ## Calls (R23, R25, R178) -/

/-- The bytes of a SCAN CALL: SCAN 0x01 or REPEAT 0x02 (R23, R178). -/
def callFrame (address : Nat) (isRepeat : Bool) (count : Byte) : List Byte :=
  withCrc [BitVec.ofNat 8 address, if isRepeat then 0x02#8 else 0x01#8, count]

/-- The cycle in progress replaced. -/
def State.setFieldCycle (s : State) (y : FieldCycle) : State := { s with field := { s.field with cycle := some y } }

/-- The settings of a concentrator that the cycle in progress serves: none for one withdrawn from it, even if it has been newly
configured since, for its call slot comes with the next cycle start (R27, R36, log entry 25). -/
def FieldCycle.serves (y : FieldCycle) (s : State) (address : Nat) : Option ConcentratorSettings :=
  if y.withdrawn.contains address then none else s.concSet address

/-- A call sent in the present slot; a concentrator that the cycle no longer serves is not called and the slot stays silent (R27,
R36, log entry 25). -/
def sendCall (y : FieldCycle) (address : Nat) (isRepeat : Bool) (s : State) : State :=
  if (y.serves s address).isSome then
    { s with field := { s.field with
        cycle := some { y with call := some (address, isRepeat) }
        line := callFrame address isRepeat y.count } }
  else s.setFieldCycle { y with slot := y.slot + 1 }

/-- SCAN_CALL (R22, R23): the present slot is a call slot. -/
def execScanCall (s : State) : Host.Outcome State Fault Refusal :=
  match s.field.cycle with
  | none => .next s
  | some y =>
    match y.call, y.schedule[y.slot]? with
    | none, some address => .next (sendCall y address false s)
    | _, _ => .next s

/-- REPEAT_CALL (R22, R25): the present slot is a retry slot; it stays silent when the retry list is empty. -/
def execRepeatCall (s : State) : Host.Outcome State Fault Refusal :=
  match s.field.cycle with
  | none => .next s
  | some y =>
    if y.call.isNone ∧ y.schedule.length ≤ y.slot ∧ y.slot < y.slots then
      match y.retry with
      | [] => .next (s.setFieldCycle { y with slot := y.slot + 1 })
      | address :: rest => .next (sendCall { y with retry := rest, retried := address :: y.retried } address true s)
    else .next s

/-! ## Judgement (R24, R178) -/

/-- What a slot that carried a call is judged as (R24). -/
inductive FieldJudgement where
  | taken (contacts wiring : Nat)
  | holdOff
  | timeout
  | crcError
  | stale
deriving DecidableEq, Repr

/-- The judgement of what came back for a call to an address in a cycle with this count (R24, R178, log entry 26). -/
def judgeField (address : Nat) (count : Byte) : LineInput → FieldJudgement
  | .silent => .timeout
  | .unended => .crcError
  | .frame bytes =>
    match checkedBody bytes with
    | none => .crcError
    | some body =>
      match body with
      | a :: kind :: echo :: rest =>
        if a ≠ BitVec.ofNat 8 address then .crcError
        else if kind = 0x81#8 ∧ rest.length = 8 then
          if echo = count then .taken (ofBytes (rest.take 4)) (ofBytes (rest.drop 4)) else .stale
        else if kind = 0x82#8 ∧ rest = [] then
          if echo = count then .holdOff else .stale
        else .crcError
      | _ => .crcError

/-- The judgement is an error of the marginal check (R24): a failed call, not a hold-off. -/
def FieldJudgement.isError : FieldJudgement → Bool
  | .taken _ _ => false
  | .holdOff => false
  | .timeout => true
  | .crcError => true
  | .stale => true

/-- A counter of the loops raised (R33, R76). -/
def bump (x : Nat) : Nat := saturate 65535 (x + 1)

/-- The five counters after a judged call (R24, R33). -/
def Concentrator.countCall (k : Concentrator) (j : FieldJudgement) : Concentrator :=
  let k := { k with calls := bump k.calls }
  match j with
  | .taken _ _ => k
  | .holdOff => { k with holdOffs := bump k.holdOffs }
  | .timeout => { k with timeouts := bump k.timeouts }
  | .crcError => { k with crcErrors := bump k.crcErrors }
  | .stale => { k with staleEchoes := bump k.staleEchoes }

/-- A concentrator's failed or held-off call joins the retry list while it has used fewer than 2 retries (R25). -/
def FieldCycle.afterFailure (y : FieldCycle) (address : Nat) (isError : Bool) : FieldCycle :=
  { y with
    retry := if y.retried.count address < 2 then y.retry ++ [address] else y.retry
    errors := if isError then address :: y.errors else y.errors }

/-! ## Good and failed cycles (R28 to R31) -/

/-- The configured points of a concentrator, rising (R1): the order in which the points of one reply are sampled, or of one loss
taken, each handed to its consumers before the next (log entry 45). -/
def State.pointsOf (s : State) (c : Nat) : List Nat :=
  ((List.range 32).map fun n => 32 * c + n).filter fun n => (s.ptSet n).isSome

/-- Channel bit of a point in a 4-byte field (R178). -/
def channelBit (field n : Nat) : Bool := field.testBit (n % 32)

/-- The value a point would take from a reply (R3). -/
def State.replyValue (s : State) (contacts n : Nat) : Bool :=
  match s.ptSet n with
  | some c => rawValue c (channelBit contacts n)
  | none => false

/-- The counts of a good cycle (R28). -/
def Concentrator.good (k : Concentrator) (start : HallTime) : Concentrator :=
  { k with failedCount := 0, goodCount := saturate 255 (k.goodCount + 1), lastGood := start }

/-- The counts of a failed cycle (R28). -/
def Concentrator.failed (k : Concentrator) : Concentrator :=
  { k with goodCount := 0, failedCount := saturate 255 (k.failedCount + 1) }

/-- A sample set handed to the point qualifier (R24, R32). -/
def handSamples (c contacts wiring : Nat) (time : HallTime) (elapsed : Nat) (s : State) : State :=
  (s.pointsOf c).foldl (fun s n => sampleField n (channelBit contacts n) (channelBit wiring n) time elapsed s) s

/-- A concentrator found (R29): LINK FOUND, then the reply taken directly (R7). -/
def foundConcentrator (c contacts wiring : Nat) (k : Concentrator) (time : HallTime) (s : State) : State :=
  let s := s.setConc c { k with link := .healthy }
  let s := s.request (linkEntry false c 0 time 0 ((s.pointsOf c).filter (s.replyValue contacts)).length)
  (s.pointsOf c).foldl (fun s n => foundField n (channelBit contacts n) (channelBit wiring n) time s) s

/-- A concentrator regained (R31): LINK REGAINED, its lost point inactive, then the after-loss changes (R7). -/
def regainConcentrator (c contacts wiring : Nat) (k : Concentrator) (time : HallTime) (s : State) : State :=
  let s := s.setConc c { k with link := .healthy }
  let differ := (s.pointsOf c).filter fun n => s.replyValue contacts n != (s.pt n).qualified
  let s := s.request (linkEntry false c 2 time k.lostAt differ.length)
  let s := setSystemPoint (640 + c) false s
  (s.pointsOf c).foldl (fun s n => regainField n (channelBit contacts n) (channelBit wiring n) time s) s

/-- A good cycle of a concentrator, taken when its SCAN REPLY is taken (R28). -/
def goodCycle (c : Nat) (set : ConcentratorSettings) (contacts wiring : Nat) (y : FieldCycle) (s : State) : State :=
  let k := (s.conc c).good y.start
  match (s.conc c).link with
  | .absent => s
  | .seeking => foundConcentrator c contacts wiring k y.start s
  | .healthy | .suspect =>
    handSamples c contacts wiring y.start y.startElapsed (s.setConc c { k with link := .healthy })
  | .lost | .regaining =>
    if set.regainCount ≤ k.goodCount then regainConcentrator c contacts wiring k y.start s
    else s.setConc c { k with link := .regaining }

/-- A concentrator enters LOST (R30): LINK LOST, the was-lost flag, its lost point active, its points LOST (R7). -/
def loseConcentrator (c : Nat) (set : ConcentratorSettings) (k : Concentrator) (s : State) : State :=
  let s := s.setConc c { k with link := .lost, wasLost := true, lostAt := s.now }
  let s := s.request (linkEntry false c 1 s.now k.lastGood set.lostThreshold)
  let s := setSystemPoint (640 + c) true s
  (s.pointsOf c).foldl loseField s

/-- A failed cycle of a concentrator, taken at the end of the cycle (R28). -/
def failedCycle (c : Nat) (set : ConcentratorSettings) (s : State) : State :=
  let k := (s.conc c).failed
  match (s.conc c).link with
  | .absent => s
  | .seeking | .lost => s.setConc c k
  | .healthy => s.setConc c { k with link := .suspect }
  | .suspect =>
    if set.lostThreshold ≤ k.failedCount then loseConcentrator c set k s else s.setConc c k
  | .regaining => s.setConc c { k with link := .lost }

/-! ## Slot end and cycle end -/

/-- FIELD_SLOT_END (R24, R25, R28, R33). A call to a concentrator withdrawn meanwhile is not counted (log entry 25). -/
def execFieldSlotEnd (line : LineInput) (s : State) : Host.Outcome State Fault Refusal :=
  match s.field.cycle with
  | none => .next s
  | some y =>
    match y.call with
    | none => .next s
    | some (address, _) =>
      let y := { y with call := none, slot := y.slot + 1 }
      match y.serves s address with
      | none => .next (s.setFieldCycle y)
      | some set =>
        let j := judgeField address y.count line
        let s := s.setConc address ((s.conc address).countCall j)
        match j with
        | .taken contacts wiring =>
          .next (finish (goodCycle address set contacts wiring y
            (s.setFieldCycle { y with taken := address :: y.taken })))
        | _ => .next (s.setFieldCycle (y.afterFailure address j.isError))

/-- The error history and the marginal flag of a concentrator at the end of a cycle with this error threshold (R34). -/
def Concentrator.endCycle (k : Concentrator) (threshold errors : Nat) : Concentrator :=
  let history := (errors :: k.history).take 1000
  { k with history := history, marginal := decide (threshold ≠ 0 ∧ threshold < history.sum) }

/-- The error count of a concentrator over its last 1,000 cycles (R34). -/
def Concentrator.errorCount (k : Concentrator) : Nat := k.history.sum

/-- One scheduled concentrator at the end of a cycle: a failed cycle where no reply was taken (R28), then its error history by the
threshold in force at the start of the cycle (R34, log entry 44). -/
def endCycleOf (y : FieldCycle) (s : State) (c : Nat) : State :=
  match y.serves s c with
  | none => s
  | some set =>
    let s := if y.taken.contains c then s else failedCycle c set s
    s.setConc c ((s.conc c).endCycle (look y.thresholds c) (y.errors.count c))

/-- FIELD_CYCLE_END (R25, R28, R34): when the last slot has ended; the retry list is dropped with the cycle. The concentrators are
taken in rising address, each whole (log entry 45). -/
def execFieldCycleEnd (s : State) : Host.Outcome State Fault Refusal :=
  match s.field.cycle with
  | none => .next s
  | some y =>
    if y.call.isNone ∧ y.slots ≤ y.slot then
      .next (finish (y.schedule.foldl (endCycleOf y) { s with field := { s.field with cycle := none } }))
    else .next s

/-! ## CLEAR-COUNTERS (R35) -/

/-- The counters and the was-lost flag of a concentrator cleared (R35). -/
def Concentrator.clearCounters (k : Concentrator) : Concentrator :=
  { k with calls := 0, timeouts := 0, crcErrors := 0, staleEchoes := 0, holdOffs := 0, wasLost := false }

/-- A subject names a number: the number itself or ALL, 0xFF (R35, 13.4). -/
def subjectNames (subject i : Nat) : Bool := subject == 0xFF || subject == i

/-- CLEAR-COUNTERS (R35): scope FIELD-LOOP 0, PANEL-LOOP 1, PORT 2. PORT names no subject (log entry 18). -/
def clearCounters (scope subject : Nat) (s : State) : State × Nat :=
  let cleared : State :=
    match scope with
    | 0 => { s with field := { s.field with
        concentrators := mapNumbered (fun i k => if subjectNames subject i then k.clearCounters else k) s.field.concentrators } }
    | 1 => { s with panel := { s.panel with
        panels := mapNumbered (fun i p => if subjectNames subject i then { p with timeouts := 0, crcErrors := 0 } else p)
          s.panel.panels } }
    | _ => { s with port := { s.port with refusedCount := 0, lastRefused := 0 } }
  (cleared.request (maintEntry (if scope < 2 then subject else 0) 0x11 4 scope 0 s.now), 0)

end Sys2Proof.Machine
end

