-- ==== Sys2Proof/Machine/PanelLoop.lean ====
section
/-! DEFINITION. The panel loop controller (05_the_panel_loop.md): lamp frames, key replies, panel states, key presses, lamp
test. -/

namespace Sys2Proof.Machine

/-! ## Cycle and frames (R75, R77, R178) -/

/-- The configured panels, rising (R75). -/
def Tables.panelOrder (t : Tables) : List Nat := configuredWhere t.panels fun _ => true

/-- PANEL_CYCLE_START (R75): due every 20 ms of elapsed time once the cycle before has ended. -/
def execPanelCycleStart (s : State) : Host.Outcome State Fault Refusal :=
  match s.panel.nextAt, s.panel.cycle with
  | some t, none =>
    if s.due t && !s.halted then
      let cycle : PanelCycle :=
        { start := s.now, schedule := s.settings.live.panelOrder, slot := 0, target := none, retry := [], retried := [],
          taken := [], withdrawn := [] }
      .next { s with panel := { s.panel with cycle := some cycle, nextAt := some (t + 20) } }
    else .next s
  | _, _ => .next s

/-- The 12 pattern bytes of a panel: even positions in the low nibble, odd ones in the high nibble (R178). -/
def State.patternBytes (s : State) (p : Nat) : List Byte :=
  (List.range 12).map fun i =>
    BitVec.ofNat 8 ((s.pattern p (2 * i)).code + 16 * (s.pattern p (2 * i + 1)).code)

/-- The LAMP FRAME of a panel (R75, R178). -/
def State.lampFrame (s : State) (p : Nat) : List Byte :=
  withCrc ([BitVec.ofNat 8 p, s.clock.flash.setWidth 8] ++ s.patternBytes p)

/-- The panel cycle in progress replaced. -/
def State.setPanelCycle (s : State) (y : PanelCycle) : State := { s with panel := { s.panel with cycle := some y } }

/-- The settings of a panel that the cycle in progress serves: none for one withdrawn from it, even if it has been newly configured
since, for its call slot comes with the next cycle start (R81, log entry 25). -/
def PanelCycle.serves (y : PanelCycle) (s : State) (p : Nat) : Option PanelSettings :=
  if y.withdrawn.contains p then none else s.panSet p

/-- A LAMP FRAME sent in the present slot; a panel that the cycle no longer serves is not called (R73, R81, log entry 25). -/
def sendFrame (y : PanelCycle) (p : Nat) (s : State) : State :=
  if (y.serves s p).isSome then
    { s with panel := { s.panel with cycle := some { y with target := some p }, line := s.lampFrame p } }
  else s.setPanelCycle { y with slot := y.slot + 1 }

/-- LAMP_FRAME (R75, R77): the present slot's frame; a call slot beyond the configured panels and a retry slot with an empty retry
list stay silent. -/
def execLampFrame (s : State) : Host.Outcome State Fault Refusal :=
  match s.panel.cycle with
  | none => .next s
  | some y =>
    if y.target.isSome ∨ 20 ≤ y.slot then .next s
    else if y.slot < 16 then
      match y.schedule[y.slot]? with
      | some p => .next (sendFrame y p s)
      | none => .next (s.setPanelCycle { y with slot := y.slot + 1 })
    else
      match y.retry with
      | p :: rest => .next (sendFrame { y with retry := rest, retried := p :: y.retried } p s)
      | [] => .next (s.setPanelCycle { y with slot := y.slot + 1 })

/-! ## Judgement (R76, R178) -/

/-- What a slot that carried a LAMP FRAME is judged as (R76). -/
inductive PanelJudgement where
  | taken (keys : Keys) (lampFaults : Nat)
  | timeout
  | crcError
deriving DecidableEq, Repr

/-- The keys of a key byte (R178). -/
def Keys.ofByte (b : Byte) : Keys :=
  { ack := b.getLsbD 0, reset := b.getLsbD 1, silence := b.getLsbD 2, test := b.getLsbD 3 }

/-- All four keys up. -/
def Keys.up : Keys := { ack := false, reset := false, silence := false, test := false }

/-- The judgement of what came back for a frame to a panel (R76, R178, log entry 26). -/
def judgePanel (p : Nat) : LineInput → PanelJudgement
  | .silent => .timeout
  | .unended => .crcError
  | .frame bytes =>
    match checkedBody bytes with
    | some [a, kind, keys, faults] =>
      if a = BitVec.ofNat 8 p ∧ kind = 0x91#8 ∧ faults.toNat ≤ 24 then .taken (Keys.ofByte keys) faults.toNat else .crcError
    | _ => .crcError

/-! ## States, presses and lamp test (R47, R78 to R80) -/

/-- An ACK or RESET press acts on the configured, unshelved windows of its panel as one event (R47). -/
def pressKey (p : Nat) (ev : WindowEvent) (s : State) : State := (offerAll ev (.panel p) (s.panelWindows p) s).1

/-- The presses of a reply in the order ACK, RESET, SILENCE (R79). -/
def pressKeys (p : Nat) (old new : Keys) (s : State) : State :=
  let s := if new.ack && !old.ack then pressKey p .ack s else s
  let s := if new.reset && !old.reset then pressKey p .reset s else s
  if new.silence && !old.silence then setSilence s else s

/-- The state of a panel after a good cycle (R78). -/
def Panel.afterGood (x : Panel) : LinkState :=
  match x.link with
  | .seeking | .lost => if 2 ≤ saturate 255 (x.goodCount + 1) then .healthy else x.link
  | .absent | .healthy | .suspect | .regaining => x.link

/-- The lamp-test flag after a reply (R80): set by TEST going down on a HEALTHY panel whose keys are accepted, cleared by TEST up. -/
def Panel.lampTestAfter (x : Panel) (accepted : Bool) (keys : Keys) : Bool :=
  if !keys.test then false
  else if x.link == .healthy && accepted && !x.keys.test then true
  else x.lampTest

/-- A KEY REPLY taken (R76, R78, R79, R80): the good cycle, the lamp fault count, the presses and the lamp test. The LINK REGAINED entry
is requested before point 656 + p is handed on (log entry 54). -/
def takeKeyReply (p : Nat) (set : PanelSettings) (keys : Keys) (faults : Nat) (start : HallTime) (s : State) : State :=
  let x := s.pan p
  let new := x.afterGood
  let s := s.setPan p { x with
    link := new, failedCount := 0, goodCount := saturate 255 (x.goodCount + 1), lampFaults := faults, keys := keys,
    lampTest := x.lampTestAfter set.keysAccepted keys, lastGood := start }
  let s :=
    match x.link, new with
    | .seeking, .healthy => s.request (linkEntry true p 0 start 0 0)
    | .lost, .healthy => setSystemPoint (656 + p) false (s.request (linkEntry true p 2 start x.lostAt 0))
    | _, _ => s
  if x.link == .healthy && set.keysAccepted then pressKeys p x.keys keys s else s

/-- PANEL_SLOT_END (R76, R77). -/
def execPanelSlotEnd (line : LineInput) (s : State) : Host.Outcome State Fault Refusal :=
  match s.panel.cycle with
  | none => .next s
  | some y =>
    match y.target with
    | none => .next s
    | some p =>
      let y := { y with target := none, slot := y.slot + 1 }
      match y.serves s p with
      | none => .next (s.setPanelCycle y)
      | some set =>
        let failed : PanelCycle :=
          { y with retry := if y.retried.contains p then y.retry else y.retry ++ [p] }
        match judgePanel p line with
        | .taken keys faults =>
          .next (finish (takeKeyReply p set keys faults y.start (s.setPanelCycle { y with taken := p :: y.taken })))
        | .timeout => .next ((s.setPan p { s.pan p with timeouts := bump (s.pan p).timeouts }).setPanelCycle failed)
        | .crcError => .next ((s.setPan p { s.pan p with crcErrors := bump (s.pan p).crcErrors }).setPanelCycle failed)

/-- A panel enters LOST (R78, R80): its LINK entry is requested before point 656 + p is handed on (log entry 54). -/
def losePanel (p : Nat) (s : State) : State :=
  let x := s.pan p
  let s := s.setPan p { x with link := .lost, lampTest := false, lostAt := s.now }
  setSystemPoint (656 + p) true (s.request (linkEntry true p 1 s.now x.lastGood 3))

/-- A failed cycle of a panel (R78). -/
def failedPanelCycle (p : Nat) (s : State) : State :=
  let x := s.pan p
  let n := saturate 255 (x.failedCount + 1)
  let s := s.setPan p { x with goodCount := 0, failedCount := n }
  if x.link == .healthy && decide (3 ≤ n) then losePanel p s else s

/-- One scheduled panel at the end of a cycle (R78). A panel newly configured during the cycle is not of its schedule and takes no
failed cycle here (log entry 25). -/
def endPanelCycleOf (y : PanelCycle) (s : State) (p : Nat) : State :=
  if (y.serves s p).isNone || y.taken.contains p then s else failedPanelCycle p s

/-- PANEL_CYCLE_END (R77, R78): when the last slot has ended; the panels are taken in rising number, each whole (log entry 45). -/
def execPanelCycleEnd (s : State) : Host.Outcome State Fault Refusal :=
  match s.panel.cycle with
  | none => .next s
  | some y =>
    if y.target.isNone ∧ 20 ≤ y.slot then
      .next (finish (y.schedule.foldl (endPanelCycleOf y) { s with panel := { s.panel with cycle := none } }))
    else .next s

end Sys2Proof.Machine
end

