-- ==== Sys2Proof/Machine/Supervision.lean ====
section
/-! DEFINITION. CONTINUOUS sampling of the supervision channels (R135), and the timed events of the window sequencer and the
first-out tracker (R51, R54, R66). -/

namespace Sys2Proof.Machine

/-! ## Comparators (R135) -/

/-- LOW after a sample; at the first sample of a channel without hysteresis. -/
def lowAfter (first old : Bool) (c : ChannelSettings) (v : Nat) : Bool :=
  if !first && old then !decide (c.low + c.hysteresis < v) else decide (v < c.low)

/-- HIGH after a sample; at the first sample of a channel without hysteresis. -/
def highAfter (first old : Bool) (c : ChannelSettings) (v : Nat) : Bool :=
  if !first && old then !decide (v + c.hysteresis < c.high) else decide (c.high < v)

/-- A channel's record after a CONTINUOUS sample. -/
def Channel.sampled (ch : Channel) (c : ChannelSettings) (v : BitVec 10) (now : HallTime) : Channel :=
  { ch with
    value := v, time := now, started := true
    low := lowAfter (!ch.started) ch.low c v.toNat
    high := highAfter (!ch.started) ch.high c v.toNat }

/-- One CONTINUOUS channel sampled, both comparator states handed to the point qualifier. -/
def sampleChannel (samples : List (BitVec 10)) (s : State) (c : Nat) : State :=
  match samples[c]? with
  | none => s
  | some v =>
    if (s.chanSet c).mode = .continuous then
      let ch := (s.chan c).sampled (s.chanSet c) v s.now
      sampleSupervision (513 + 2 * c) ch.high (sampleSupervision (512 + 2 * c) ch.low (s.setChan c ch))
    else s

/-- CONTINUOUS_SAMPLE (R135): each 10 ms from 10 ms after the first FULL adoption; not in HALTED (R144). The channels of one common
sampling are taken in rising number, the points of each handed to every consumer before the next channel (log entry 45). -/
def execContinuousSample (samples : List (BitVec 10)) (s : State) : Host.Outcome State Fault Refusal :=
  match s.sup.nextSample with
  | none => .next s
  | some t =>
    if s.due t && !s.halted then
      .next (finish ((List.range 16).foldl (sampleChannel samples)
        { s with sup := { s.sup with nextSample := some (t + 10) } }))
    else .next s

/-! ## Timed events of the windows and the groups -/

/-- SETTLE_TIMER_EXPIRY (R66): not acted on in HALTED (R71). -/
def execSettleTimerExpiry (g : Nat) (s : State) : Host.Outcome State Fault Refusal :=
  match s.group g with
  | .deciding _ _ d => if s.due d && !s.halted then .next (finish (settleEnd g s)) else .next s
  | .clear => .next s
  | .latched _ _ => .next s

/-- SHELF_EXPIRY (R54): the entry at the head of the shelf list; not acted on in HALTED (R60). -/
def execShelfExpiry (s : State) : Host.Outcome State Fault Refusal :=
  match s.win.shelf with
  | [] => .next s
  | e :: _ =>
    if s.due e.expiry && !s.halted then .next (finish (endShelving e.window .expired s)) else .next s

/-- CHIME_END (R51): in HALTED too (R60). -/
def execChimeEnd (s : State) : Host.Outcome State Fault Refusal :=
  match s.win.chimeUntil with
  | none => .next s
  | some t => if s.due t then .next { s with win := { s.win with chimeUntil := none } } else .next s

end Sys2Proof.Machine
end

