-- ==== Sys2Proof/Machine/Orders.lean ====
section
/-! DEFINITION. The order engine (11.3): taking a slot, the checks of an order, its effect, its publication; the orders marked
ALONE. -/

namespace Sys2Proof.Machine

/-! ## Checks -/

/-- A switch number names a configured switch. -/
def State.namesSwitch (s : State) (i : Nat) : Bool := decide (i < 48) && (s.swSet i).isSome

/-- The parameters of an order are refused BAD-PARAMETER: out of range, or naming a point, window or switch that is not configured
where the order's rule refuses it (R12, R13, R18, R35, R48, R52, R53, R70, R83, R112, R114, R115, R116, R143, R172). -/
def Order.badParameters (s : State) : Order → Bool
  | .adopt scope => (Scope.ofCode scope).isNone
  | .setTime _ hi => decide (65536 ≤ hi)
  | .setMode u m => decide (8 ≤ u) || (Mode.ofCode m).isNone
  | .ackWindows sel => !sel.inRange
  | .resetWindows sel => !sel.inRange
  | .shelve w minutes => !(decide (w < 384) && (s.winSet w).isSome && decide (1 ≤ minutes ∧ minutes ≤ 480))
  | .unshelve w => decide (384 ≤ w)
  | .resetFirstOut g => decide (32 ≤ g)
  | .forcePoint n v => !(decide (n < 544) && (s.ptSet n).isSome && decide (v ≤ 1))
  | .releasePoint n => decide (544 ≤ n)
  | .isolate i => !s.namesSwitch i
  | .restore i => !s.namesSwitch i
  | .tripManual i => !s.namesSwitch i
  | .resetSwitch i => !s.namesSwitch i
  | .testCircuit i => !s.namesSwitch i
  | .clearCounters scope subject => decide (3 ≤ scope ∨ scope < 2 ∧ 16 ≤ subject ∧ subject ≠ 0xFF)
  | .silence | .clearFault | .restart => false

/-- A TEST entry of the switch waits, or its test is in flight (R143). -/
def State.testPending (s : State) (i : Nat) : Bool :=
  (s.swi i).testStart.isSome ||
    match s.entryOf i with
    | some e => e.kind == .test
    | none => false

/-- SHELVE, steps 2 and 3 (R52). -/
def shelveRefusal (w : Nat) (s : State) : Option (Result × Nat) :=
  match s.winSet w with
  | none => none
  | some c =>
    if !c.shelvable then some (.notShelvable, 0)
    else if !s.shelved w && decide (64 ≤ s.win.shelf.length) then some (.shelfFull, 0)
    else none

/-- The states in which RESET-SWITCH is refused BUSY (R112). -/
def SwitchState.resetBusy : SwitchState → Bool
  | .queued | .pulsing | .resetQueued | .resetPulsing | .settling => true
  | .unconfigured | .ready | .confirmed | .failed | .unconfirmed | .lockedOut | .held => false

/-- The state-dependent steps of an order (R12, R52, R112, R116, R143), with the detail of the refusal. The states of terms are
those of `live` (R95, log entry 24). -/
def Order.refusal (live s : State) : Order → Option (Result × Nat)
  | .shelve w _ => shelveRefusal w s
  | .forcePoint n _ => (unsafeTerms s n).head?.map fun t => (.forceUnsafe, t)
  | .restore i =>
    if !(s.swi i).isolated then none
    else if forcedFeeds s i then some (.restoreForced, 0)
    else if actingOn live i then some (.restoreActive, 0)
    else none
  | .resetSwitch i =>
    if actingOn live i then some (.resetBlocked, 0)
    else if (s.swi i).state.resetBusy then some (.busy, 0)
    else none
  | .testCircuit i =>
    if ((s.swSet i).bind SwitchSettings.supervision).isNone then some (.notSupervised, 0)
    else if s.testPending i || s.testTaken i then none
    else some (.busy, 0)
  | .adopt _ | .setTime _ _ | .setMode _ _ | .ackWindows _ | .resetWindows _ | .silence | .unshelve _ | .resetFirstOut _
  | .releasePoint _ | .isolate _ | .tripManual _ | .clearCounters _ _ | .clearFault | .restart => none

/-! ## Effects -/

/-- UNSHELVE (R53). -/
def unshelveWindow (w : Nat) (s : State) : State × Nat :=
  if s.shelved w then (endShelving w .unshelved s, 1) else (s, 0)

/-- The effect of an order that has passed its checks, with the detail of its OK (13.4). ADOPT and RESTART have meanings of their
own. -/
def applyOrder (k : Nat) (s : State) : Order → State × Nat
  | .adopt _ => (s, 0)
  | .setTime lo hi => setTime lo hi s
  | .setMode u m =>
    match Mode.ofCode m with
    | some mode => setMode u mode k s
    | none => (s, 0)
  | .ackWindows sel => offerAll .ack (.order k) (s.selected sel.kind sel.subject sel.listed) s
  | .resetWindows sel => offerAll .reset (.order k) (s.selected sel.kind sel.subject sel.listed) s
  | .silence => (setSilence s, 0)
  | .shelve w minutes => (shelveWindow w minutes s, 0)
  | .unshelve w => unshelveWindow w s
  | .resetFirstOut g => (clearGroup g s, markedMembers g s)
  | .forcePoint n v => forcePoint n (v == 1) s
  | .releasePoint n => releasePoint n s
  | .isolate i => isolateSwitch i s
  | .restore i => restoreSwitch i s
  | .tripManual i => tripManual i k s
  | .resetSwitch i => resetSwitch i s
  | .testCircuit i => testCircuit i s
  | .clearCounters scope subject => clearCounters scope subject s
  | .clearFault => clearFaultLatch s
  | .restart => (s, 0)

/-! ## Taking and publishing (R161) -/

/-- The slot the engine takes next, if it takes one: not in HALTED (R168), nor while an ADOPT is worked. -/
def State.nextSlot (s : State) : Option Nat :=
  if s.halted || s.engine.working.isSome then none else s.engine.intake.head?

/-- The slot at the head of the intake list taken: WORKING, and off the list. -/
def takeHead (k : Nat) (s : State) : State :=
  { s with engine := { s.engine with intake := s.engine.intake.tail } }.setHolder k .working

/-- The scope byte of the last adoption outcome; a value the spec does not state where the ADOPT names no scope (log entry 17). -/
def publishedScope (k : Nat) (s : State) : Byte :=
  match Scope.ofCode (slotWord s.port k 3) with
  | some scope => BitVec.ofNat 8 scope.code
  | none => Config.freeByte s.free

/-- The last adoption outcome after a publication (R176): changed by a published ADOPT only. -/
def recordAdoption (k : Nat) (r : Result) (s : State) : State :=
  if orderCode s.port k = 0x01 then
    { s with
      settings := { s.settings with lastScope := publishedScope k s, lastResult := BitVec.ofNat 8 r.code }
      free := s.free + 1 }
  else s

/-- The outcome words 27 to 30 written (13.4). -/
def outcomeWords (k : Nat) (r : Result) (detail : Nat) (done : HallTime) (m : List Host.Cell) : List Host.Cell :=
  Memory.writeWord (Memory.writeWord (Memory.writeWord (Memory.writeWord m
    (slotAddress k 27) (BitVec.ofNat 32 r.code))
    (slotAddress k 28) (BitVec.ofNat 32 detail))
    (slotAddress k 29) (done.setWidth 32))
    (slotAddress k 30) ((done >>> 32).setWidth 32)

/-- An order published (R161): outcome, detail, done time and the holder DONE at one instant. -/
def publish (k : Nat) (r : Result) (detail : Nat) (s : State) : State :=
  let s := recordAdoption k r s
  { s with port := { s.port with mem := outcomeWords k r detail s.now s.port.mem } }.setHolder k .done

/-- An order before the first FULL adoption that must wait for it (R161). -/
def tooEarly (o : Order) (s : State) : Bool := !s.settings.adopted && !o.early

/-- The refusal of an order marked ALONE: NOT-CONFIGURED, then its own checks (R161). -/
def Order.refused (s : State) (o : Order) : Option (Result × Nat) :=
  if tooEarly o s then some (.notConfigured, 0)
  else if o.badParameters s then some (.badParameter, 0)
  else o.refusal s s

/-- An order marked ALONE taken, executed and published (R161). -/
def runAlone (k : Nat) (o : Order) (s : State) : State :=
  let s := takeHead k s
  match o.refused s with
  | some r => finish (publish k r.1 r.2 s)
  | none => finish (publish k .ok (applyOrder k s o).2 (applyOrder k s o).1)

/-- The order marked ALONE that the engine takes next, with its slot. -/
def State.nextAlone (s : State) : Option (Nat × Order) :=
  match s.nextSlot with
  | none => none
  | some k =>
    match chainMark s.port k, orderIn s.port k with
    | some .alone, some o => some (k, o)
    | _, _ => none

/-! ## The orders -/

/-- ADOPT (R161, R172): a refusal is published at once; otherwise validation begins and the staging region is guarded. -/
def execAdopt (s : State) : Host.Outcome State Fault Refusal :=
  match s.nextAlone with
  | some (k, .adopt code) =>
    let t := takeHead k s
    match (Order.adopt code).refused t, Scope.ofCode code with
    | none, some scope =>
      .next { t with engine := { t.engine with working := some { slot := k, scope := scope, since := t.clock.elapsed } } }
    | some r, _ => .next (finish (publish k r.1 r.2 t))
    | none, none => .next s
  | _ => .next s

/-- SET-TIME (R18). -/
def execSetTime (s : State) : Host.Outcome State Fault Refusal :=
  match s.nextAlone with
  | some (k, .setTime lo hi) => .next (runAlone k (.setTime lo hi) s)
  | _ => .next s

/-- SET-MODE (R83). -/
def execSetMode (s : State) : Host.Outcome State Fault Refusal :=
  match s.nextAlone with
  | some (k, .setMode u m) => .next (runAlone k (.setMode u m) s)
  | _ => .next s

/-- ACK-WINDOWS (R48). -/
def execAckWindows (s : State) : Host.Outcome State Fault Refusal :=
  match s.nextAlone with
  | some (k, .ackWindows sel) => .next (runAlone k (.ackWindows sel) s)
  | _ => .next s

/-- RESET-WINDOWS (R48). -/
def execResetWindows (s : State) : Host.Outcome State Fault Refusal :=
  match s.nextAlone with
  | some (k, .resetWindows sel) => .next (runAlone k (.resetWindows sel) s)
  | _ => .next s

/-- SILENCE (R50). -/
def execSilence (s : State) : Host.Outcome State Fault Refusal :=
  match s.nextAlone with
  | some (k, .silence) => .next (runAlone k .silence s)
  | _ => .next s

/-- SHELVE (R52). -/
def execShelve (s : State) : Host.Outcome State Fault Refusal :=
  match s.nextAlone with
  | some (k, .shelve w minutes) => .next (runAlone k (.shelve w minutes) s)
  | _ => .next s

/-- UNSHELVE (R53). -/
def execUnshelve (s : State) : Host.Outcome State Fault Refusal :=
  match s.nextAlone with
  | some (k, .unshelve w) => .next (runAlone k (.unshelve w) s)
  | _ => .next s

/-- RESET-FIRST-OUT (R70). -/
def execResetFirstOut (s : State) : Host.Outcome State Fault Refusal :=
  match s.nextAlone with
  | some (k, .resetFirstOut g) => .next (runAlone k (.resetFirstOut g) s)
  | _ => .next s

/-- FORCE-POINT (R12). -/
def execForcePoint (s : State) : Host.Outcome State Fault Refusal :=
  match s.nextAlone with
  | some (k, .forcePoint n v) => .next (runAlone k (.forcePoint n v) s)
  | _ => .next s

/-- RELEASE-POINT (R13). -/
def execReleasePoint (s : State) : Host.Outcome State Fault Refusal :=
  match s.nextAlone with
  | some (k, .releasePoint n) => .next (runAlone k (.releasePoint n) s)
  | _ => .next s

/-- ISOLATE (R115). -/
def execIsolate (s : State) : Host.Outcome State Fault Refusal :=
  match s.nextAlone with
  | some (k, .isolate i) => .next (runAlone k (.isolate i) s)
  | _ => .next s

/-- RESTORE (R116). -/
def execRestore (s : State) : Host.Outcome State Fault Refusal :=
  match s.nextAlone with
  | some (k, .restore i) => .next (runAlone k (.restore i) s)
  | _ => .next s

/-- RESET-SWITCH (R112). -/
def execResetSwitch (s : State) : Host.Outcome State Fault Refusal :=
  match s.nextAlone with
  | some (k, .resetSwitch i) => .next (runAlone k (.resetSwitch i) s)
  | _ => .next s

/-- TRIP-MANUAL (R114). -/
def execTripManual (s : State) : Host.Outcome State Fault Refusal :=
  match s.nextAlone with
  | some (k, .tripManual i) => .next (runAlone k (.tripManual i) s)
  | _ => .next s

/-- TEST-CIRCUIT (R143). -/
def execTestCircuit (s : State) : Host.Outcome State Fault Refusal :=
  match s.nextAlone with
  | some (k, .testCircuit i) => .next (runAlone k (.testCircuit i) s)
  | _ => .next s

/-- CLEAR-COUNTERS (R35). -/
def execClearCounters (s : State) : Host.Outcome State Fault Refusal :=
  match s.nextAlone with
  | some (k, .clearCounters scope subject) => .next (runAlone k (.clearCounters scope subject) s)
  | _ => .next s

/-- CLEAR-FAULT (R169). -/
def execClearFault (s : State) : Host.Outcome State Fault Refusal :=
  match s.nextAlone with
  | some (k, .clearFault) => .next (runAlone k .clearFault s)
  | _ => .next s

/-- BAD_ORDER (R161): the head slot has an order code or chain mark that is not one of the defined values. -/
def execBadOrder (s : State) : Host.Outcome State Fault Refusal :=
  match s.nextSlot with
  | none => .next s
  | some k =>
    if (orderIn s.port k).isNone || (chainMark s.port k).isNone then
      .next (finish (publish k .badOrder 0 (takeHead k s)))
    else .next s

end Sys2Proof.Machine
end

