-- ==== Sys2Proof/WellFormed.lean ====
section
/-! DEFINITION. Which operands a command may carry: numbers inside the ranges of R1 and 00_scope.md. A command whose operand
lies outside names nothing the part has. -/

namespace Sys2Proof

/-- The number of entries of each staging table (R171). -/
def TableName.entries : TableName → Nat
  | .general => 1
  | .concentrators => 16
  | .points => 544
  | .channels => 16
  | .windows => 384
  | .groups => 32
  | .panels => 16
  | .terms => 128
  | .switches => 48

/-- The operands of a command lie in the ranges the spec gives them. -/
def Instr.wellFormed : Instr → Bool
  | .holderReadyWrite k => decide (k < 32)
  | .holderEmptyWrite k => decide (k < 32)
  | .continuousSample vs => vs.length == 16
  | .settleTimerExpiry g => decide (g < 32)
  | .termDelayExpiry t => decide (t < 128)
  | .minPulseExpiry i => decide (i < 48)
  | .maxPulseExpiry i => decide (i < 48)
  | .resetPulseEnd i => decide (i < 48)
  | .testPulseEnd i _ => decide (i < 48)
  | .supervisionTick i => decide (i < 48)
  | .tableCheck t e _ => decide (e < t.entries)
  | .powerOn | .resetNPulse | .syncPulse | .settingsKeyChange _ | .hallTimeAdvance
  | .maskWrite _ | .releasedThroughWrite _ | .hostWordWrite _ _ _
  | .adopt | .adoptValidationEnd | .setTime | .setMode | .ackWindows | .resetWindows | .silence
  | .shelve | .unshelve | .resetFirstOut | .forcePoint | .releasePoint | .isolate | .restore
  | .resetSwitch | .tripManual | .testCircuit | .clearCounters | .clearFault | .restart
  | .chainOpen | .chainContinue | .chainClose | .chainHoldTimerExpiry
  | .fieldCycleStart | .scanCall | .repeatCall | .fieldSlotEnd _ | .fieldCycleEnd
  | .chatterPeriodBoundary | .timeSteppedExpiry | .shelfExpiry | .chimeEnd | .flashPhaseAdvance
  | .panelCycleStart | .lampFrame | .panelSlotEnd _ | .panelCycleEnd
  | .coilStart | .startHistoryExpiry | .badOrder => true

end Sys2Proof
end

