-- ==== Sys2Proof/Machine/Staging.lean ====
section
/-! DEFINITION. The staging region read as tables (13.7), and their validation in the order of R172 (log entry 22 for the points that
order leaves open). -/

namespace Sys2Proof.Machine

/-! ## Reading staged entries (13.7) -/

/-- A table made from its entries. -/
def tabulate {α : Type} (n : Nat) (f : Nat → α) : Vector α n := ⟨⟨(List.range n).map f⟩, by simp⟩

/-- A staged byte. -/
def stagedByte (m : List Host.Cell) (a : Nat) : Nat := (Memory.read m a).toNat

/-- A staged halfword. -/
def stagedHalf (m : List Host.Cell) (a : Nat) : Nat := Memory.readNat m a 2

def concentratorPlace (e : Nat) : Nat := 0x10100 + 16 * e
def pointPlace (e : Nat) : Nat := 0x10200 + 8 * e
def channelPlace (e : Nat) : Nat := 0x11300 + 8 * e
def windowPlace (e : Nat) : Nat := 0x11400 + 32 * e
def groupPlace (e : Nat) : Nat := 0x14400 + 4 * e
def panelPlace (e : Nat) : Nat := 0x14500 + 4 * e
def termPlace (e : Nat) : Nat := 0x14600 + 32 * e
def switchPlace (e : Nat) : Nat := 0x15600 + 32 * e

/-- An entry whose configured byte is 1. -/
def whenConfigured {α : Type} (m : List Host.Cell) (place : Nat) (x : α) : Option α :=
  if stagedByte m place = 1 then some x else none

/-- A byte or halfword field that can name nothing (R177). -/
def named (nothing x : Nat) : Option Nat := if x = nothing then none else some x

/-- The staged general table; an ANNUNCIATION adoption keeps the live loop settings (R171). -/
def stagedGeneral (m : List Host.Cell) (scope : Scope) (live : GeneralSettings) : GeneralSettings :=
  { rate := if scope = .full then stagedByte m 0x10000 else live.rate
    cycle := if scope = .full then stagedByte m 0x10001 else live.cycle
    chatterPeriod := stagedByte m 0x10002
    chimeTime := stagedHalf m 0x10004, highWater := stagedHalf m 0x10006
    levelJournal := stagedByte m 0x10008, levelJournalHigh := stagedByte m 0x10009
    levelOrder := stagedByte m 0x1000A, levelCondition := stagedByte m 0x1000B }

/-- A value whose code 0 selects another (R26). -/
def selecting (other x : Nat) : Nat := if x = 0 then other else x

def stagedConcentrator (m : List Host.Cell) (e : Nat) : Option ConcentratorSettings :=
  let a := concentratorPlace e
  whenConfigured m a
    { lostThreshold := selecting 8 (stagedByte m (a + 1)), regainCount := selecting 16 (stagedByte m (a + 2))
      errorThreshold := stagedHalf m (a + 4) }

/-- A staged point; supervision points are always ACTIVE-CLOSED (R2). -/
def stagedPoint (m : List Host.Cell) (e : Nat) : Option PointSettings :=
  let a := pointPlace e
  whenConfigured m a
    { activeOpen := decide (e < 512) && stagedByte m (a + 1) == 1, journal := stagedByte m (a + 2) == 1
      setFilter := stagedByte m (a + 4), clearFilter := stagedByte m (a + 5)
      threshold := stagedByte m (a + 6), release := stagedByte m (a + 7) }

/-- A staged channel; an ANNUNCIATION adoption keeps live modes and TEST-RETURN limits (R134). -/
def stagedChannel (m : List Host.Cell) (scope : Scope) (live : ChannelSettings) (e : Nat) : ChannelSettings :=
  let a := channelPlace e
  let staged : ChannelSettings :=
    { mode := if stagedByte m a = 0 then .continuous else .testReturn, hysteresis := stagedByte m (a + 1)
      low := stagedHalf m (a + 2), high := stagedHalf m (a + 4) }
  match scope, live.mode with
  | .full, _ => staged
  | .annunciation, .continuous => { staged with mode := .continuous }
  | .annunciation, .testReturn => live

/-- A staged window: its panel position is none only where both bytes are 0xFF; where one of them is, the other names no place, and the
entry is refused BAD-RANGE (log entry 22). -/
def stagedWindow (m : List Host.Cell) (e : Nat) : Option WindowSettings :=
  let a := windowPlace e
  let flags := stagedByte m (a + 6)
  whenConfigured m a
    { sources := (List.range (min (stagedByte m (a + 7)) 8)).map fun i => stagedHalf m (a + 8 + 2 * i)
      sequence := Sequence.ofCode (stagedByte m (a + 1)), unit := stagedByte m (a + 2)
      group := named 0xFF (stagedByte m (a + 3))
      place :=
        if stagedByte m (a + 4) = 0xFF ∧ stagedByte m (a + 5) = 0xFF then none
        else some (stagedByte m (a + 4), stagedByte m (a + 5))
      horn := flags.testBit 0, chime := flags.testBit 1, shelvable := flags.testBit 2, journal := flags.testBit 3 }

def stagedPanel (m : List Host.Cell) (e : Nat) : Option PanelSettings :=
  whenConfigured m (panelPlace e) { keysAccepted := stagedByte m (panelPlace e + 1) == 1 }

/-- A staged term; bit 7 of the mode set byte names no mode and is not read (log entry 22). -/
def stagedTerm (m : List Host.Cell) (e : Nat) : Option TermSettings :=
  let a := termPlace e
  whenConfigured m a
    { unit := stagedByte m (a + 1)
      modes := Mode.all.filter fun x => (stagedByte m (a + 2)).testBit x.code
      points := (List.range (min (stagedByte m (a + 4)) 4)).map fun i => stagedHalf m (a + 8 + 2 * i)
      vote := stagedByte m (a + 5), delay := stagedHalf m (a + 6)
      outputs := (List.range (min (stagedByte m (a + 16)) 8)).map fun i => stagedByte m (a + 20 + i)
      policy := LostPolicy.ofCode (stagedByte m (a + 3)) }

def stagedSwitch (m : List Host.Cell) (e : Nat) : Option SwitchSettings :=
  let a := switchPlace e
  whenConfigured m a
    { kind := SwitchKind.ofCode (stagedByte m (a + 1)), unit := stagedByte m (a + 2), cls := stagedByte m (a + 3)
      feedback := named 0xFFFF (stagedHalf m (a + 4))
      minPulse := stagedHalf m (a + 6), maxPulse := stagedHalf m (a + 8), resetPulse := stagedHalf m (a + 10)
      successors := (List.range (min (stagedByte m (a + 12)) 3)).map fun i =>
        (stagedByte m (a + 16 + 2 * i), if stagedByte m (a + 17 + 2 * i) = 0 then Trigger.onStart else .onConfirm)
      backup := named 0xFF (stagedByte m (a + 13))
      supervision := (named 0xFF (stagedByte m (a + 14))).map fun c => (c, stagedByte m (a + 15)) }

/-- The tables being adopted (R172): the staged entries of the scope, the live tables for everything outside it. -/
def stagedTables (m : List Host.Cell) (scope : Scope) (live : Tables) : Tables :=
  { general := stagedGeneral m scope live.general
    concentrators := if scope = .full then tabulate 16 (stagedConcentrator m) else live.concentrators
    points := tabulate 544 (stagedPoint m)
    channels := tabulate 16 fun e => stagedChannel m scope (look live.channels e) e
    windows := tabulate 384 (stagedWindow m)
    groups := tabulate 32 fun e => stagedHalf m (groupPlace e)
    panels := tabulate 16 (stagedPanel m)
    terms := if scope = .full then tabulate 128 (stagedTerm m) else live.terms
    switches := if scope = .full then tabulate 48 (stagedSwitch m) else live.switches }

/-! ## Checks of one entry -/

/-- The reason of the first fault that is present. -/
def firstFault (faults : List (Bool × Reason)) : Option Reason := (faults.find? fun x => x.1).map fun x => x.2

/-- The checks of an entry by its configured byte: neither 0 nor 1 is BAD-RANGE, 1 is checked further. -/
def checkConfigured (m : List Host.Cell) (place : Nat) (faults : List (Bool × Reason)) : Option Reason :=
  match stagedByte m place with
  | 0 => none
  | 1 => firstFault faults
  | _ => some .badRange

/-- A value outside a range. -/
def outside (lo hi x : Nat) : Bool := decide (x < lo ∨ hi < x)

/-- Some element stands twice. -/
def repeated (l : List Nat) : Bool := l.any fun x => decide (1 < l.count x)

/-- The loop combinations with the most concentrators each allows (R21). -/
def loopAllowance (g : GeneralSettings) : Option Nat :=
  match g.rate, g.cycle with
  | 4, 1 => some 12
  | 4, 2 => some 16
  | 2, 2 => some 12
  | 2, 4 => some 16
  | _, _ => none

/-- The general table (R21, R37, R152, R172). -/
def checkGeneral (scope : Scope) (g : GeneralSettings) : Option Reason :=
  firstFault
    [ (scope == .full && (loopAllowance g).isNone, .badLoop),
      (outside 1 60 g.chatterPeriod, .badRange),
      (outside 500 5000 g.chimeTime, .badRange),
      (outside 1 1023 g.highWater, .badRange),
      (outside 0 4 g.levelJournal || outside 0 4 g.levelJournalHigh || outside 0 4 g.levelOrder
        || outside 0 4 g.levelCondition, .badRange) ]

/-- A concentrator (R26); the one beyond the loop's allowance (R21). -/
def checkConcentrator (m : List Host.Cell) (t : Tables) (e : Nat) : Option Reason :=
  let a := concentratorPlace e
  checkConfigured m a
    [ (stagedByte m (a + 1) != 0 && outside 2 32 (stagedByte m (a + 1)), .badRange),
      (outside 0 64 (stagedByte m (a + 2)), .badRange),
      (outside 0 999 (stagedHalf m (a + 4)), .badRange),
      (decide ((loopAllowance t.general).getD 16 < (t.callOrder.filter fun c => decide (c ≤ e)).length), .badLoop) ]

/-- A point is listed by a live term or is the feedback of a live switch. -/
def liveNames (live : Tables) (n : Nat) : Bool :=
  !(configuredWhere live.terms fun c => c.points.contains n).isEmpty
    || !(configuredWhere live.switches fun c => c.feedback == some n).isEmpty

/-- A point (R2, R26; for an ANNUNCIATION adoption R85 and R99 at the points live terms and switches name). -/
def checkPoint (m : List Host.Cell) (scope : Scope) (live t : Tables) (e : Nat) : Option Reason :=
  let a := pointPlace e
  let threshold := stagedByte m (a + 6)
  let fault := checkConfigured m a
    [ (decide (512 ≤ e) && (look t.channels ((e - 512) / 2)).mode != .continuous, .channelMode),
      (threshold == 1 || threshold == 255 || (threshold != 0 && decide (threshold ≤ stagedByte m (a + 7))), .badRange),
      (outside 0 253 (stagedByte m (a + 7)), .badRange),
      (outside 0 1 (stagedByte m (a + 1)) || outside 0 1 (stagedByte m (a + 2)), .badRange),
      (decide (e < 512) && (look t.concentrators (e / 32)).isNone, .badReference) ]
  match fault with
  | some r => some r
  | none => if scope = .annunciation ∧ (look t.points e).isNone ∧ liveNames live e then some .badReference else none

/-- A channel (R134); an ANNUNCIATION adoption reads the entries of live CONTINUOUS channels only. -/
def checkChannel (m : List Host.Cell) (scope : Scope) (live t : Tables) (e : Nat) : Option Reason :=
  let c := look t.channels e
  if scope = .annunciation ∧ (look live.channels e).mode = .testReturn then none
  else
    firstFault
      [ (scope == .full && outside 0 1 (stagedByte m (channelPlace e)), .badRange),
        (outside 0 1023 c.low, .badRange),
        (c.mode == .continuous && (outside 0 1023 c.high || outside 0 63 c.hysteresis), .badRange),
        (c.mode == .continuous && decide (c.high ≤ c.low + 2 * c.hysteresis), .badRange),
        (c.mode == .testReturn && c.low == 0, .badRange) ]

/-- The configured windows below a number that satisfy a test. -/
def earlierWindows (t : Tables) (e : Nat) (p : WindowSettings → Bool) : List Nat :=
  (configuredWhere t.windows p).filter fun w => decide (w < e)

/-- The configured setting of a point number; system points always count as configured (R37). -/
def sourceMissing (t : Tables) (n : Nat) : Bool := decide (n < 544) && (look t.points n).isNone

/-- A window (R37). -/
def checkWindow (m : List Host.Cell) (t : Tables) (e : Nat) : Option Reason :=
  let a := windowPlace e
  match look t.windows e with
  | none => checkConfigured m a []
  | some c =>
    firstFault
      [ (outside 1 8 (stagedByte m (a + 7)) || repeated c.sources, .badRange),
        (c.sources.any fun n => decide (679 < n), .badReference),
        (c.sources.any (sourceMissing t), .badReference),
        ((match c.place with
          | some (p, _) => decide (p < 16) && (look t.panels p).isNone
          | none => false), .badReference),
        (outside 0 2 (stagedByte m (a + 1)) || outside 0 commonUnit c.unit
          || (match c.group with
              | some g => outside 0 31 g
              | none => false)
          || (match c.place with
              | some (p, n) => outside 0 15 p || outside 0 23 n
              | none => false), .badRange),
        (c.place.isSome && !(earlierWindows t e fun d => d.place == c.place).isEmpty, .positionTwice),
        (c.group.isSome && decide (64 ≤ (earlierWindows t e fun d => d.group == c.group).length), .badRange) ]

/-- The set filter of a settable point; 0 for any other (R62). -/
def setFilterOf (t : Tables) (n : Nat) : Nat :=
  match look t.points n with
  | some c => if n < 544 then c.setFilter else 0
  | none => 0

/-- The longest set filter among the sources of a group's configured members (R62). -/
def longestFilter (t : Tables) (g : Nat) : Nat :=
  ((configuredWhere t.windows fun c => c.group == some g).flatMap fun w =>
      match look t.windows w with
      | some c => c.sources.map (setFilterOf t)
      | none => []).foldl max 0

/-- A group (R62). -/
def checkGroup (t : Tables) (e : Nat) : Option Reason :=
  let settle := look t.groups e
  firstFault
    [ (outside 0 1000 settle, .badRange),
      (!(configuredWhere t.windows fun c => c.group == some e).isEmpty && decide (settle < longestFilter t e + 12),
        .settleShort) ]

/-- A panel (R73). -/
def checkPanel (m : List Host.Cell) (e : Nat) : Option Reason :=
  checkConfigured m (panelPlace e) [(outside 0 1 (stagedByte m (panelPlace e + 1)), .badRange)]

/-- A term (R85). An output above 47 names no configured switch and is BAD-REFERENCE (log entry 22). -/
def checkTerm (m : List Host.Cell) (t : Tables) (e : Nat) : Option Reason :=
  let a := termPlace e
  match look t.terms e with
  | none => checkConfigured m a []
  | some c =>
    firstFault
      [ (outside 1 4 (stagedByte m (a + 4)) || outside 1 8 (stagedByte m (a + 16)) || repeated c.outputs, .badRange),
        (outside 1 c.points.length c.vote, .badRange),
        (outside 0 10000 c.delay || outside 0 commonUnit c.unit || outside 0 2 (stagedByte m (a + 3)), .badRange),
        (c.unit != commonUnit && c.modes.isEmpty, .badRange),
        (c.points.any fun n => decide (543 < n), .badReference),
        (c.points.any fun n => (look t.points n).isNone, .badReference),
        (c.outputs.any fun i => (look t.switches i).isNone, .badReference) ]

/-- A switch (R99, then R123, then R136). -/
def checkSwitch (m : List Host.Cell) (t : Tables) (e : Nat) : Option Reason :=
  let a := switchPlace e
  match look t.switches e with
  | none => checkConfigured m a []
  | some c =>
    let pulsed : Bool := c.kind != .hold
    firstFault
      [ (outside 0 2 (stagedByte m (a + 1)) || outside 0 commonUnit c.unit || outside 1 2 c.cls, .badRange),
        (pulsed && c.feedback.isNone, .feedbackMissing),
        ((match c.feedback with
          | some n => decide (543 < n) || (look t.points n).isNone
          | none => false), .badReference),
        (pulsed && (outside 10 100 c.minPulse || outside 40 500 c.maxPulse || decide (c.maxPulse < c.minPulse + 20)),
          .badRange),
        (c.kind == .lockout && outside 20 200 c.resetPulse, .badRange),
        (outside 0 3 (stagedByte m (a + 12)) || (c.successors.any fun x => decide (47 < x.1))
          || ((List.range c.successors.length).any fun i => outside 0 1 (stagedByte m (a + 17 + 2 * i)))
          || repeated (c.successors.map fun x => x.1), .badRange),
        (pulsed && (match c.backup with
          | some b => decide (47 < b)
          | none => false), .badRange),
        ((c.successors.any fun x => (look t.switches x.1).isNone)
          || (pulsed && (match c.backup with
              | some b => (look t.switches b).isNone
              | none => false)), .badReference),
        ((match c.supervision with
          | some (channel, interval) => outside 0 15 channel || outside 1 60 interval
          | none => false), .badRange),
        ((match c.supervision with
          | some (channel, _) => (look t.channels channel).mode == .continuous
          | none => false), .channelMode) ]

/-! ## The cascade graph (R123) -/

/-- The edges of the graph from a switch. -/
def cascadeEdges (t : Tables) (i : Nat) : List Nat :=
  match look t.switches i with
  | none => []
  | some c =>
    (c.successors.map fun x => x.1) ++
      match c.kind, c.backup with
      | .hold, _ => []
      | _, some b => [b]
      | _, none => []

/-- The nodes reached in at most n further steps. -/
def reached (t : Tables) (nodes : List Nat) : Nat → List Nat → List Nat
  | 0, seen => seen
  | n + 1, seen =>
    reached t nodes n (nodes.filter fun j => seen.contains j || seen.any fun i => (cascadeEdges t i).contains j)

/-- The lowest switch that lies on a cycle. -/
def cascadeLoop (t : Tables) : Option Nat :=
  let nodes := configuredWhere t.switches fun _ => true
  nodes.find? fun i => (reached t nodes nodes.length (cascadeEdges t i)).contains i

/-! ## The whole validation (R172) -/

/-- The first failing entry of a table. -/
def firstBad (table : TableName) (check : Nat → Option Reason) : Option (TableName × Nat × Reason) :=
  (List.range table.entries).findSome? fun e => (check e).map fun r => (table, e, r)

/-- The tables validated in order; the first failure found ends the validation. -/
def validate (m : List Host.Cell) (scope : Scope) (live : Tables) : Option (TableName × Nat × Reason) :=
  let t := stagedTables m scope live
  let full : Bool := scope == .full
  firstBad .general (fun _ => checkGeneral scope t.general)
    |>.or (if full then firstBad .concentrators (checkConcentrator m t) else none)
    |>.or (firstBad .points (checkPoint m scope live t))
    |>.or (firstBad .channels (checkChannel m scope live t))
    |>.or (firstBad .windows (checkWindow m t))
    |>.or (firstBad .groups (checkGroup t))
    |>.or (firstBad .panels (checkPanel m))
    |>.or (if full then firstBad .terms (checkTerm m t) else none)
    |>.or (if full then firstBad .switches (checkSwitch m t) else none)
    |>.or (if full then (cascadeLoop t).map fun i => (TableName.switches, i, Reason.cascadeLoop) else none)

/-- The detail of SETTINGS-INVALID (13.4). -/
def invalidDetail (x : TableName × Nat × Reason) : Nat := x.1.code + 256 * x.2.1 + 16777216 * x.2.2.code

end Sys2Proof.Machine
end

