-- ==== Sys2Proof/Machine/Adoption.lean ====
section
/-! DEFINITION. The end of an adoption (12_settings_and_adoption.md): key, live checks, swap, and what each block does with the
changes. Log entry 41 gives the order in which the blocks act. -/

namespace Sys2Proof.Machine

/-- The FULL scope. -/
def Scope.isFull : Scope → Bool
  | .annunciation => false
  | .full => true

/-! ## What changes -/

/-- The numbers of the entries of a table that differ. -/
def changedIn {α : Type} {n : Nat} [Inhabited α] [DecidableEq α] (a b : Vector α n) : List Nat :=
  (List.range n).filter fun i => decide (look a i ≠ look b i)

/-- The changed entries of each table (R176). -/
def countChanges (a b : Tables) : ChangeCounts :=
  { general := bit (decide (a.general ≠ b.general))
    concentrators := (changedIn a.concentrators b.concentrators).length
    points := (changedIn a.points b.points).length
    channels := (changedIn a.channels b.channels).length
    windows := (changedIn a.windows b.windows).length
    groups := (changedIn a.groups b.groups).length
    panels := (changedIn a.panels b.panels).length
    terms := (changedIn a.terms b.terms).length
    switches := (changedIn a.switches b.switches).length }

/-- The channels whose mode changes. -/
def modeChanges (a b : Tables) : List Nat :=
  (List.range 16).filter fun c => decide ((look a.channels c).mode ≠ (look b.channels c).mode)

/-- The adoption changes the trip side: terms, switches, a channel mode or the loop settings (R174; log entry 32). -/
def changesTripSide (a b : Tables) : Bool :=
  !(changedIn a.terms b.terms).isEmpty || !(changedIn a.switches b.switches).isEmpty || !(modeChanges a b).isEmpty
    || a.general.rate != b.general.rate || a.general.cycle != b.general.cycle

/-! ## The live checks (R174) -/

/-- The states of a switch that refuse a change of the trip side. -/
def SwitchState.inOperation : SwitchState → Bool
  | .queued | .pulsing | .resetQueued | .resetPulsing => true
  | .unconfigured | .ready | .confirmed | .failed | .unconfirmed | .lockedOut | .settling | .held => false

/-- The detail of BUSY: the lowest term TIMING or ACTIVE, else the lowest switch in operation with bit 16 set. -/
def busyDetail (s : State) : Option Nat :=
  ((numbersWhere s.term.terms Term.acting).head?).or
    (((numbersWhere s.sw.switches fun x => x.state.inOperation).head?).map fun i => i + 65536)

/-- A switch counts as isolated after the swap: isolated now and still configured. -/
def isolatedAfter (s : State) (t : Tables) (i : Nat) : Bool := (s.swi i).isolated && (look t.switches i).isSome

/-- The terms being adopted that list a point which stays forced and have a switch that is not isolated in their output list. -/
def unsafeAfter (s : State) (t : Tables) : List Nat :=
  configuredWhere t.terms fun c =>
    (c.points.any fun n => (s.pt n).forced.isSome && (look t.points n).isSome)
      && c.outputs.any fun i => !isolatedAfter s t i

/-- What refuses an adoption at its end, with the detail: validation (R172), the key (R173), BUSY and FORCE-UNSAFE (R174). -/
def adoptionRefusal (scope : Scope) (t : Tables) (s : State) : Option (Result × Nat) :=
  match validate s.port.mem scope s.settings.live with
  | some x => some (.settingsInvalid, invalidDetail x)
  | none =>
    if scope = .full ∧ s.settings.adopted ∧ !s.port.key then some (.keyLocked, 0)
    else
      match (if changesTripSide s.settings.live t then busyDetail s else none), (unsafeAfter s t).head? with
      | some d, _ => some (.busy, d)
      | none, some n => some (.forceUnsafe, n)
      | none, none => none

/-! ## Points (R16) -/

/-- A settable point made unconfigured: as after a reset, the times of a change of its value being the swap's. Its term held value
stays where the point was LOST or WIRING, and takes the qualified value, now inactive, where it was GOOD or FORCED (R86). -/
def Point.unconfigured (p : Point) (now : HallTime) : Point :=
  { Point.reset with
    termHeld := p.forced.isNone && p.live != .good && p.termHeld
    rawTime := if p.effective then now else p.rawTime
    qualifyTime := if p.effective then now else p.qualifyTime }

/-- A point whose normal sense changes: raw, qualified and frozen values invert, a pending change is kept. A point that has had no
sample yet inverts too (log entry 48). -/
def Point.inverted (p : Point) (now : HallTime) : Point :=
  { p with raw := !p.raw, qualified := !p.qualified, frozen := p.frozen.map not, rawTime := now, qualifyTime := now }

/-- The sense of a kept point changes: the POINT entry with the settings flag. -/
def invertPoint (n : Nat) (c : PointSettings) (s : State) : State :=
  let p := (s.pt n).inverted s.now
  let s := s.setPt n p
  if c.journal && p.frozen.isNone && p.forced.isNone then
    s.request (pointEntry n p.qualified p.quality p.rawTime p.qualifyTime
      { ChangeFlags.plain with standing := p.qualified, settings := true })
  else s

/-- A suppressed point whose threshold becomes 0 is released as at a period boundary (R11), the hand-on following with the others. -/
def unsuppressPoint (n : Nat) (s : State) : State :=
  let p := s.pt n
  (s.setPt n { p with frozen := none }).request (chatterEntry n true p.chatter p.effective s.now)

/-- A field point's next good reply is taken directly: its concentrator is HEALTHY or SUSPECT now. -/
def linkUp (s : State) (n : Nat) : Bool :=
  decide (n < 512) && ((s.conc (n / 32)).link == .healthy || (s.conc (n / 32)).link == .suspect)

/-- One settable point at the swap (R16); a newly configured point passes from LOST to LOST and keeps its term held value (R86). Of a
suppressed point whose sense and threshold both change the sense changes first, so that it writes no POINT entry (log entry 41). -/
def swapPoint (old new : Tables) (s : State) (n : Nat) : State :=
  match look old.points n, look new.points n with
  | none, none => s
  | none, some _ => s.setPt n { Point.reset with fresh := linkUp s n, termHeld := (s.pt n).termHeld }
  | some _, none => s.setPt n ((s.pt n).unconfigured s.now)
  | some a, some b =>
    let s := if a.activeOpen = b.activeOpen then s else invertPoint n b s
    if (s.pt n).frozen.isSome ∧ b.threshold = 0 then unsuppressPoint n s else s

/-- At the first FULL adoption every system point takes quality GOOD (R9). -/
def wakeSystemPoints (s : State) : State :=
  { s with pts := { s.pts with points := mapNumbered (fun n p => if n < 544 then p else { p with live := .good }) s.pts.points } }

/-- The chatter period restarts and every chatter count is set to 0 (R16). -/
def restartChatter (s : State) : State :=
  let s := clearChatter s
  { s with pts := { s.pts with
      nextBoundary := some (s.clock.elapsed + 1000 * s.settings.live.general.chatterPeriod) } }

/-- What the swap changed at a point is handed on (R16, R175): an event of its value or quality to every consumer, an event of its
window-facing value alone to the windows. -/
def handSwapChange (before : State) (s : State) (n : Nat) : State :=
  let p := before.pt n
  let q := s.pt n
  if p.effective ≠ q.effective ∨ p.quality ≠ q.quality then handOn n s.now true s
  else if p.facing ≠ q.facing then windowsTake n s.now true s
  else s

/-! ## Windows and groups (R59, R72) -/

/-- Step 1: the shelving of a window no longer configured or no longer shelvable ends. -/
def swapShelving (s : State) (w : Nat) : State :=
  let keeps : Bool :=
    match s.winSet w with
    | some c => c.shelvable
    | none => false
  if s.shelved w && !keeps then endShelving w .ended s else s

/-- Step 2: a changed window is put to QUIET and, if it is configured, its input is worked out afresh. -/
def swapWindow (old : Tables) (s : State) (w : Nat) : State :=
  let s := s.setWindow w { s.window w with state := .quiet, mark := .none, input := false, doubt := false }
  let s :=
    match (look old.windows w).bind fun c => c.group with
    | some g => judgeQuiet g w s
    | none => s
  match s.winSet w with
  | none => s
  | some c =>
    let input := s.inputOf c
    let s := s.setWindow w { s.window w with input := input, doubt := s.doubtOf c }
    if input then offer w .active .settings (s.setWindow w { s.window w with alarm := s.now, standing := true }) else s

/-- The windows at the swap (R59). -/
def swapWindows (old new : Tables) (s : State) : State :=
  (changedIn old.windows new.windows).foldl (swapWindow old) ((List.range 384).foldl swapShelving s)

/-- The members of a group in a set of tables. -/
def Tables.members (t : Tables) (g : Nat) : List Nat := configuredWhere t.windows fun c => c.group == some g

/-- The groups whose membership or settle time changes (R72). -/
def changedGroups (old new : Tables) : List Nat :=
  (List.range 32).filter fun g => decide (old.members g ≠ new.members g) || look old.groups g != look new.groups g

/-- The groups at the swap (R72). -/
def swapGroups (old new : Tables) (s : State) : State := (changedGroups old new).foldl (fun s g => clearGroup g s) s

/-! ## Loops (R36, R81) -/

/-- The concentrator made unconfigured is served no more by the cycle in progress (R36). -/
def withdrawConcentrator (c : Nat) (s : State) : State :=
  { s with field := { s.field with cycle := s.field.cycle.map fun y => { y with withdrawn := c :: y.withdrawn } } }

/-- The panel made unconfigured is served no more by the cycle in progress (R81). -/
def withdrawPanel (p : Nat) (s : State) : State :=
  { s with panel := { s.panel with cycle := s.panel.cycle.map fun y => { y with withdrawn := p :: y.withdrawn } } }

/-- One concentrator at the swap (R36). -/
def swapConcentrator (old new : Tables) (s : State) (c : Nat) : State :=
  match look old.concentrators c, look new.concentrators c with
  | none, some _ => s.setConc c { Concentrator.reset with link := .seeking }
  | some _, none => setSystemPoint (640 + c) false (withdrawConcentrator c (s.setConc c Concentrator.reset))
  | none, none => s
  | some _, some _ => s

/-- One panel at the swap (R81). A panel made unconfigured keeps its key reference, which R79 has only a reply, a reset and a new
configuration change; its record is otherwise as after a reset (log entry 36). -/
def swapPanel (old new : Tables) (s : State) (p : Nat) : State :=
  match look old.panels p, look new.panels p with
  | none, some _ => s.setPan p { Panel.reset with link := .seeking }
  | some _, none => setSystemPoint (656 + p) false (withdrawPanel p (s.setPan p { Panel.reset with keys := (s.pan p).keys }))
  | some _, some b => if b.keysAccepted then s else s.setPan p { s.pan p with lampTest := false }
  | none, none => s

/-- At the first FULL adoption the loops and the sampling begin (R36, R75, R135, R175). -/
def startLoops (s : State) : State :=
  { s with
    field := { s.field with nextAt := some s.clock.elapsed }
    panel := { s.panel with nextAt := some s.clock.elapsed }
    sup := { s.sup with nextSample := some (s.clock.elapsed + 10) } }

/-! ## Switches and supervision (R121, R144) -/

/-- The first state of a switch kind (R121). -/
def SwitchKind.first : SwitchKind → SwitchState
  | .breaker => .ready
  | .hold => .ready
  | .lockout => .settling

/-- A changed switch loses its TEST entry or its test in flight, uncounted (R121, R140). -/
def dropTest (i : Nat) (s : State) : State :=
  let s := dropEntry i (s.setSwi i { s.swi i with testStart := none })
  { s with sup := { s.sup with
      channels := mapNumbered (fun _ ch => if ch.inFlight = some i then { ch with inFlight := none } else ch) s.sup.channels } }

/-- A changed switch's supervision set up afresh (R144). -/
def Switch.supervised (x : Switch) (c : SwitchSettings) (elapsed : Nat) : Switch :=
  match c.supervision with
  | some (_, interval) => { x with supervision := .untested, postponed := 0, nextTick := elapsed + 1000 * interval }
  | none => { x with supervision := .off, postponed := 0, nextTick := 0 }

/-- A switch's record after a change of its entry (R121). -/
def Switch.changed (x : Switch) (old : Option SwitchSettings) (c : SwitchSettings) : Switch :=
  match old with
  | none => { Switch.reset with state := c.kind.first }
  | some a =>
    if a.kind = .hold ∧ c.kind = .hold ∧ x.state = .held then { x with absorbed := 0, resetFailed := false }
    else { x with state := c.kind.first, resetFailed := false, absorbed := 0, confirmedMark := false, seen := false }

/-- One changed switch at the swap (R121, R144, R102). A HOLD that stays HELD and whose new feedback point is already operated is
confirmed at the next event of that point, not at the swap (log entry 53). -/
def swapSwitch (old : Tables) (s : State) (i : Nat) : State :=
  let s := dropTest i s
  match s.swSet i with
  | none => syncSwitchPoints i (s.setSwi i Switch.reset)
  | some c =>
    let x := ((s.swi i).changed (look old.switches i) c).supervised c s.clock.elapsed
    settleSwitch i c (syncSwitchPoints i (s.setSwi i x))

/-- A channel whose mode changes (R144): its image names no switch judged last any more, and keeps the last sample value and its time
until the next sample (log entry 52). -/
def swapChannel (s : State) (c : Nat) : State :=
  s.setChan c { s.chan c with low := false, high := false, started := false, lastJudged := none }

/-- The switches and the channels at the swap, the changed switches in rising number, each whole (log entry 41). Where a switch changes, a place or channel it frees is looked at (R106); an adoption
that does not change switches leaves every queue entry as it was (R121). -/
def swapSwitches (old new : Tables) (s : State) : State :=
  let changed := changedIn old.switches new.switches
  let s := (modeChanges old new).foldl swapChannel (changed.foldl (swapSwitch old) s)
  if changed.isEmpty then s else runQueue s

/-! ## Terms (R97) -/

/-- One changed term at the swap (R97, R88), whole: it can leave HELD and go on to ACTIVE with its trip requests before the next changed
term is taken (log entry 41). A term made unconfigured keeps its activation count and its last entry into ACTIVE for its
image, and a term newly configured keeps the latter (log entry 52). -/
def swapTerm (s : State) (t : Nat) : State :=
  let x := s.trm t
  match s.termSet t with
  | none => s.setTrm t { x with state := .unconfigured, seen := [], lastChange := s.now }
  | some c =>
    lookWhileHeld t c (s.setTrm t { x with state := .held, seen := [], activations := 0, lastChange := s.now })

/-! ## The swap (R175, R176) -/

/-- The live tables replaced, the adopted copy kept, the tally raised and the SETTINGS entry requested. -/
def swapTables (scope : Scope) (t : Tables) (s : State) : State :=
  let counts := countChanges s.settings.live t
  let s := { s with settings := { s.settings with
    live := t, copy := t, adopted := s.settings.adopted || scope.isFull, tally := s.settings.tally + 1 } }
  s.request (settingsEntry counts scope s.settings.tally s.now)

/-- The change rules of the blocks, in the order of log entry 41; the changed entries of a table are taken in rising number. -/
def applyChanges (first : Bool) (old new : Tables) (s : State) : State :=
  let before := s
  let points := changedIn old.points new.points
  let s := points.foldl (swapPoint old new) (if first then wakeSystemPoints s else s)
  let s := restartChatter s
  let s := swapGroups old new (swapWindows old new s)
  let s := (changedIn old.concentrators new.concentrators).foldl (swapConcentrator old new) s
  let s := (changedIn old.panels new.panels).foldl (swapPanel old new) s
  let s := if first then startLoops s else s
  let s := swapSwitches old new s
  let s := (changedIn old.terms new.terms).foldl swapTerm s
  points.foldl (handSwapChange before) s

/-- The swap of an adoption. -/
def swap (scope : Scope) (t : Tables) (s : State) : State :=
  applyChanges (!s.settings.adopted && scope.isFull) s.settings.live t (swapTables scope t s)

/-- The guard lifted and the engine free (R171, R161). -/
def endAdopting (s : State) : State := { s with engine := { s.engine with working := none } }

/-- An ADOPT whose validation has ended (R172 to R176). -/
def endAdoption (a : Adopting) (s : State) : State :=
  let t := stagedTables s.port.mem a.scope s.settings.live
  match adoptionRefusal a.scope t s with
  | some r => publish a.slot r.1 r.2 (endAdopting s)
  | none => publish a.slot .ok (swap a.scope t s).settings.tally.toNat (endAdopting (swap a.scope t s))

/-- ADOPT_VALIDATION_END (R174): an ADOPT WORKING at the halt stays WORKING (R168). -/
def execAdoptValidationEnd (s : State) : Host.Outcome State Fault Refusal :=
  match s.engine.working with
  | none => .next s
  | some a => if s.halted then .next s else .next (finish (endAdoption a s))

end Sys2Proof.Machine
end

