-- ==== Sys2Proof/Machine/Chains.lean ====
section
/-! DEFINITION. Chains (11.4): opening, joining, closing, abandonment. -/

namespace Sys2Proof.Machine

/-- The order with a chain mark that the engine takes next, with its slot. -/
def State.nextMarked (s : State) (mark : ChainMark) : Option (Nat × Order) :=
  match s.nextSlot with
  | none => none
  | some k =>
    match chainMark s.port k, orderIn s.port k with
    | some m, some o => if m = mark then some (k, o) else none
    | _, _ => none

/-- The check of a member on joining (R162): chainable, and its parameters in range. -/
def intakeFailure (o : Order) (s : State) : Option Result :=
  if !o.chainable then some .notChainable
  else if o.badParameters s then some .badParameter
  else none

/-- The open chain replaced. -/
def State.setChain (s : State) (c : Option Chain) : State := { s with engine := { s.engine with chain := c } }

/-- Slots published one after another (R163). -/
def publishAll (outcomes : List (Nat × Result × Nat)) (s : State) : State :=
  outcomes.foldl (fun s x => publish x.1 x.2.1 x.2.2 s) s

/-- Every member published with one outcome. -/
def publishMembers (r : Result) (ms : List Member) (s : State) : State := publishAll (ms.map fun m => (m.slot, r, 0)) s

/-! ## Checking and applying at CLOSE (R163) -/

/-- The failure of a member at CLOSE: its mark, or its checks against the state the members before it leave. -/
def memberFailure (live sim : State) (m : Member) : Option (Result × Nat) :=
  match m.failure, orderIn sim.port m.slot with
  | some r, _ => some (r, 0)
  | none, some o => if o.badParameters sim then some (.badParameter, 0) else o.refusal live sim
  | none, none => some (.badOrder, 0)

/-- What a member of a chain leaves to other blocks until every member is applied (R163; log entry 51). -/
inductive Following where
  /-- A point event, for every consumer, with the window-facing value the point had before its member. -/
  | point (n : Nat) (time : HallTime) (standing : Bool) (before : Bool)
  /-- A trip request of a term. -/
  | trip (term switch : Nat)
  /-- The two system points of a switch. -/
  | shown (switch : Nat)
  /-- The test of a switch that entered LOCKED-OUT. -/
  | test (switch : Nat)
  /-- The coil driver's look at its queue. -/
  | look
deriving DecidableEq, Repr

/-- The point event that the windows await here, if this is one. -/
def Following.awaited : Following → Option (Nat × Bool)
  | .point n _ _ before => some (n, before)
  | .trip _ _ | .shown _ | .test _ | .look => none

/-- What is left, taken by its block, with the rest still to come. A point event goes to its consumers in the order of `handOn`; its windows
tell which event activates them (R40). -/
def Following.act (rest : List Following) (s : State) : Following → State
  | .point n time standing _ => windowsTakeAwaiting (rest.filterMap Following.awaited) n time standing (switchesTake n (termsTake n s))
  | .trip t i => requestTrip (.term t) i s
  | .shown i => syncSwitchPoints i s
  | .test i => giveUpTest i s
  | .look => runQueue s

/-- What the members leave, taken in their order. -/
def follow : List Following → State → State
  | [], s => s
  | f :: fs, s => follow fs (f.act fs s)

/-- What a member does: its own state changes and entries, its detail, and what it leaves to other blocks. -/
structure Applied where
  state : State
  detail : Nat
  left : List Following

/-- RELEASE-POINT as a member (R13). -/
def releaseMember (n : Nat) (s : State) : Applied :=
  let p := s.pt n
  match p.forced, s.ptSet n with
  | some value, some c =>
    let s := markUnforced n value s
    if p.qualified = value then ⟨s, 0, [.point n s.now true p.facing]⟩
    else
      ⟨recordChange n c (p.released s.now) value true (.ofRelease p.qualified) s, 0, [.point n s.now p.qualified p.facing]⟩
  | _, _ => ⟨s, 0, []⟩

/-- SET-MODE as a member (R83): the terms take each change as it comes, the trips they request are left. -/
def modeMember (u : Nat) (mode : Mode) (slot : Nat) (s : State) : Applied :=
  let r := setModeBy takeModeAlone u mode slot s
  ⟨r.1, r.2, (tripsOwed u s r.1).map fun x => .trip x.1 x.2⟩

/-- ISOLATE as a member (R115). -/
def isolateMember (i : Nat) (s : State) : Applied :=
  if (s.swi i).isolated then ⟨s, 0, []⟩
  else
    let s := markIsolated i s
    match s.swSet i, s.entryOf i with
    | some c, some e =>
      if e.kind = .trip then
        let s := withdrawTrip i c e s
        if c.kind = .lockout ∧ s.operated c then ⟨enterLockedOut i c s, 1, [.shown i, .test i, .look]⟩
        else ⟨s, 1, [.shown i, .look]⟩
      else ⟨s, 1, []⟩
    | _, _ => ⟨s, 1, []⟩

/-- RESET-SWITCH as a member, step 4 (R112). -/
def resetMember (i : Nat) (s : State) : Applied :=
  match s.swSet i with
  | none => ⟨s, 0, []⟩
  | some c =>
    match (s.swi i).state with
    | .lockedOut => ⟨queueReset i s, 1, [.shown i, .look]⟩
    | .held => ⟨releaseHold i c s, 1, [.shown i]⟩
    | .failed | .unconfirmed => ⟨clearFailed i c s, 1, [.shown i]⟩
    | .unconfigured | .ready | .queued | .pulsing | .confirmed | .resetQueued | .resetPulsing | .settling => ⟨s, 0, []⟩

/-- An order that has passed its checks, applied as a member of a chain (R163): its rule's state changes and entries now, what other
blocks take of them left. The orders that reach no other block act as they do alone. -/
def applyInChain (k : Nat) (s : State) (o : Order) : Applied :=
  match o with
  | .forcePoint n v => ⟨markForced n (v == 1) s, 0, [.point n s.now false (s.pt n).facing]⟩
  | .releasePoint n => releaseMember n s
  | .setMode u m =>
    match Mode.ofCode m with
    | some mode => modeMember u mode k s
    | none => ⟨s, 0, []⟩
  | .isolate i => isolateMember i s
  | .resetSwitch i => resetMember i s
  | o => ⟨(applyOrder k s o).1, (applyOrder k s o).2, []⟩

/-- A member applied: the order its slot holds. -/
def applyMember (m : Member) (sim : State) : Applied :=
  match orderIn sim.port m.slot with
  | some o => applyInChain m.slot sim o
  | none => ⟨sim, 0, []⟩

/-- What the check of a chain finds: every member passes, with the state they leave, their details and what they leave to other
blocks, or the first failing one. -/
inductive ChainVerdict where
  | passed (after : State) (details : List (Nat × Nat)) (left : List Following)
  | failed (slot : Nat) (outcome : Result) (detail : Nat)

/-- The members checked in intake order, each against the state as changed by the members before it. -/
def judgeMembers (live : State) : List Member → State → ChainVerdict
  | [], sim => .passed sim [] []
  | m :: ms, sim =>
    match memberFailure live sim m with
    | some r => .failed m.slot r.1 r.2
    | none =>
      let a := applyMember m sim
      match judgeMembers live ms a.state with
      | .passed after details left => .passed after ((m.slot, a.detail) :: details) (a.left ++ left)
      | .failed k r d => .failed k r d

/-- A chain closed with these members (R163): all applied, and then what they leave taken by the other blocks in the order of the
members; or none applied. -/
def closeChain (ms : List Member) (s : State) : State :=
  match judgeMembers s ms s with
  | .passed after details left => publishAll (details.map fun x => (x.1, Result.ok, x.2)) (follow left after)
  | .failed k r d =>
    publishAll (ms.map fun m => if m.slot = k then (k, r, d) else (m.slot, Result.chainFailed, 0)) s

/-! ## Joining (R162) -/

/-- A slot that would be the 17th member: it is published BAD-PARAMETER and the chain is gone. -/
def overflowChain (k : Nat) (ms : List Member) (s : State) : State :=
  publish k .badParameter 0 (publishMembers .chainFailed ms s)

/-- A slot marked OPEN taken (R162). -/
def openChain (k : Nat) (o : Order) (s : State) : State :=
  if tooEarly o s then publish k .notConfigured 0 s
  else
    match s.engine.chain with
    | some _ => publish k .chainBusy 0 s
    | none =>
      s.setChain (some { members := [{ slot := k, failure := intakeFailure o s }], deadline := s.clock.elapsed + 2000 })

/-- A slot marked CONTINUE or CLOSE taken (R162): `joined` says what becomes of the chain with its new member. -/
def joinChain (k : Nat) (o : Order) (joined : Chain → State → State) (s : State) : State :=
  if tooEarly o s then publish k .notConfigured 0 s
  else
    match s.engine.chain with
    | none => publish k .noChain 0 s
    | some c =>
      if 16 ≤ c.members.length then overflowChain k c.members (s.setChain none)
      else joined { c with members := c.members ++ [{ slot := k, failure := intakeFailure o s }] } s

/-- CHAIN_OPEN (R162, R164). -/
def execChainOpen (s : State) : Host.Outcome State Fault Refusal :=
  match s.nextMarked .opening with
  | some (k, o) => .next (finish (openChain k o (takeHead k s)))
  | none => .next s

/-- CHAIN_CONTINUE (R162). -/
def execChainContinue (s : State) : Host.Outcome State Fault Refusal :=
  match s.nextMarked .continuing with
  | some (k, o) => .next (finish (joinChain k o (fun c s => s.setChain (some c)) (takeHead k s)))
  | none => .next s

/-- CHAIN_CLOSE (R162, R163). -/
def execChainClose (s : State) : Host.Outcome State Fault Refusal :=
  match s.nextMarked .closing with
  | some (k, o) => .next (finish (joinChain k o (fun c s => closeChain c.members (s.setChain none)) (takeHead k s)))
  | none => .next s

/-- CHAIN_HOLD_TIMER_EXPIRY (R164): in every condition but HALTED, and while an ADOPT holds the engine. -/
def execChainHoldTimerExpiry (s : State) : Host.Outcome State Fault Refusal :=
  match s.engine.chain with
  | none => .next s
  | some c =>
    if s.due c.deadline && !s.halted then .next (finish (publishMembers .chainAbandoned c.members (s.setChain none)))
    else .next s

end Sys2Proof.Machine
end

