-- ==== Sys2Proof/Machine/Port.lean ====
section
/-! DEFINITION. The exchange port and its write watch (11.1 to 11.3): how a host write is judged. -/

namespace Sys2Proof.Machine

/-- A refused write (R158): error acknowledge, count and last refused address; the memory is left as it is. -/
def refuseWrite (a : Nat) (s : State) : State :=
  { s with port := { s.port with
      refusedCount := saturate 65535 (s.port.refusedCount + 1), lastRefused := BitVec.ofNat 32 a, errorAck := true } }

/-- A write taken. -/
def ackWrite (s : State) : State := { s with port := { s.port with errorAck := false } }

/-- A word written into slots or staging. -/
def storeWord (a : Nat) (v : Word) (s : State) : State :=
  ackWrite { s with port := { s.port with mem := Memory.writeWord s.port.mem a v } }

/-- A write to the mask word (R165). -/
def writeMask (a : Nat) (v : Word) (s : State) : State :=
  if v.toNat ≤ 4 then ackWrite { s with port := { s.port with mask := v } } else refuseWrite a s

/-- A write to the released-through word (R151). -/
def writeReleased (a : Nat) (v : Word) (s : State) : State :=
  match s.jr.release s.now v with
  | some j => ackWrite { s with jr := j }
  | none => refuseWrite a s

/-- The station computer owns a slot (R160). -/
def Holder.hostOwned : Holder → Bool
  | .empty => true
  | .done => true
  | .queued => false
  | .working => false

/-- A write to word w of slot k (R160). -/
def writeSlot (a k w : Nat) (v : Word) (s : State) : State :=
  if (s.holder k).hostOwned then
    if w = 0 then
      if v = 1 then
        ackWrite ({ s with engine := { s.engine with intake := s.engine.intake ++ [k] } }.setHolder k .queued)
      else if v = 0 then ackWrite (s.setHolder k .empty)
      else refuseWrite a s
    else storeWord a v s
  else refuseWrite a s

/-- A whole word written at a word address, judged by its region (R157). -/
def writeWordAt (a : Nat) (v : Word) (s : State) : State :=
  if a = 0x0C then writeMask a v s
  else if a = 0x14 then writeReleased a v s
  else if 0x1000 ≤ a ∧ a < 0x2000 then writeSlot a (a / 128 - 32) (a % 128 / 4) v s
  else if 0x10000 ≤ a ∧ a < 0x20000 then
    if s.engine.working.isSome then refuseWrite a s else storeWord a v s
  else refuseWrite a s

/-- A host write (R156, R157): one with any byte enable off is a byte or halfword write and is refused. -/
def hostWrite (address : Nat) (enables : BitVec 4) (v : Word) (s : State) : State :=
  let a := address / 4 * 4
  if enables = 0xF#4 then writeWordAt a v s else refuseWrite a s

/-- MASK_WRITE (R165). -/
def execMaskWrite (v : Word) (s : State) : Host.Outcome State Fault Refusal := .next (writeMask 0x0C v s)

/-- RELEASED_THROUGH_WRITE (R151). -/
def execReleasedThroughWrite (v : Word) (s : State) : Host.Outcome State Fault Refusal :=
  .next (finish (writeReleased 0x14 v s))

/-- HOLDER_READY_WRITE (R160): READY, code 1, written to a holder. -/
def execHolderReadyWrite (k : Nat) (s : State) : Host.Outcome State Fault Refusal :=
  .next (hostWrite (slotAddress k 0) 0xF#4 1 s)

/-- HOLDER_EMPTY_WRITE (R160): EMPTY, code 0, written to a holder. -/
def execHolderEmptyWrite (k : Nat) (s : State) : Host.Outcome State Fault Refusal :=
  .next (hostWrite (slotAddress k 0) 0xF#4 0 s)

/-- The answer to a further word of a burst: an error acknowledge given to an earlier word of the burst stands (R156). -/
def keepError (error : Bool) (s : State) : State :=
  { s with port := { s.port with errorAck := s.port.errorAck || error } }

/-- HOST_WORD_WRITE (R157): a single write or one word of a burst write, each word judged on its own (R156, log entry 49). -/
def execHostWordWrite (address : BitVec 17) (enables : WriteEnables) (v : Word) (s : State) : Host.Outcome State Fault Refusal :=
  .next (finish (keepError (enables.further && s.port.errorAck) (hostWrite address.toNat enables.lanes v s)))

/-- SETTINGS_KEY_CHANGE (R159). -/
def execSettingsKeyChange (enable : Bool) (s : State) : Host.Outcome State Fault Refusal :=
  .next { s with port := { s.port with key := enable } }

end Sys2Proof.Machine
end

