-- ==== Sys2Proof/Machine/Reset.lean ====
section
/-! DEFINITION. The resets of the part (R170). -/

namespace Sys2Proof.Machine

/-- Every reset: each block as its own chapter gives for a reset. Slot words 1 to 31, the staging region and the SETTINGS key input
stay (R159, R170); so do the model's free counter and the commands waiting (log entry 35). -/
def resetPart (s : State) : State :=
  { State.reset with
    port := { Port.reset with mem := s.port.mem, key := s.port.key }, free := s.free, pending := s.pending }

/-- Power-on: the exchange memory is cleared before the rest of the reset (R170). -/
def powerOn (s : State) : State := resetPart { s with port := { s.port with mem := [] } }

/-- POWER_ON (R170). -/
def execPowerOn (s : State) : Host.Outcome State Fault Refusal := .next (powerOn s)

/-- RESET_N_PULSE (R170). -/
def execResetNPulse (s : State) : Host.Outcome State Fault Refusal := .next (resetPart s)

/-- RESTART (R170): the reset, and then the order's own slot published RESTARTED with done time 0. -/
def execRestart (s : State) : Host.Outcome State Fault Refusal :=
  match s.nextAlone with
  | some (k, .restart) => .next (publish k .restarted 0 (resetPart s))
  | _ => .next s

end Sys2Proof.Machine
end

