-- ==== Sys2Proof/Machine/Dispatch.lean ====
section
/-! DEFINITION. One arm for each command: the direct call of its meaning. -/

namespace Sys2Proof.Machine

/-- The effect of a command on everything but the commands waiting. -/
def exec (i : Instr) (s : State) : Host.Outcome State Fault Refusal :=
  match i with
  | .powerOn => Sys2Proof.Machine.execPowerOn s
  | .resetNPulse => Sys2Proof.Machine.execResetNPulse s
  | .syncPulse => Sys2Proof.Machine.execSyncPulse s
  | .settingsKeyChange enable => Sys2Proof.Machine.execSettingsKeyChange enable s
  | .hallTimeAdvance => Sys2Proof.Machine.execHallTimeAdvance s
  | .maskWrite value => Sys2Proof.Machine.execMaskWrite value s
  | .releasedThroughWrite value => Sys2Proof.Machine.execReleasedThroughWrite value s
  | .holderReadyWrite slot => Sys2Proof.Machine.execHolderReadyWrite slot s
  | .holderEmptyWrite slot => Sys2Proof.Machine.execHolderEmptyWrite slot s
  | .hostWordWrite address enables value => Sys2Proof.Machine.execHostWordWrite address enables value s
  | .adopt => Sys2Proof.Machine.execAdopt s
  | .adoptValidationEnd => Sys2Proof.Machine.execAdoptValidationEnd s
  | .setTime => Sys2Proof.Machine.execSetTime s
  | .setMode => Sys2Proof.Machine.execSetMode s
  | .ackWindows => Sys2Proof.Machine.execAckWindows s
  | .resetWindows => Sys2Proof.Machine.execResetWindows s
  | .silence => Sys2Proof.Machine.execSilence s
  | .shelve => Sys2Proof.Machine.execShelve s
  | .unshelve => Sys2Proof.Machine.execUnshelve s
  | .resetFirstOut => Sys2Proof.Machine.execResetFirstOut s
  | .forcePoint => Sys2Proof.Machine.execForcePoint s
  | .releasePoint => Sys2Proof.Machine.execReleasePoint s
  | .isolate => Sys2Proof.Machine.execIsolate s
  | .restore => Sys2Proof.Machine.execRestore s
  | .resetSwitch => Sys2Proof.Machine.execResetSwitch s
  | .tripManual => Sys2Proof.Machine.execTripManual s
  | .testCircuit => Sys2Proof.Machine.execTestCircuit s
  | .clearCounters => Sys2Proof.Machine.execClearCounters s
  | .clearFault => Sys2Proof.Machine.execClearFault s
  | .restart => Sys2Proof.Machine.execRestart s
  | .chainOpen => Sys2Proof.Machine.execChainOpen s
  | .chainContinue => Sys2Proof.Machine.execChainContinue s
  | .chainClose => Sys2Proof.Machine.execChainClose s
  | .chainHoldTimerExpiry => Sys2Proof.Machine.execChainHoldTimerExpiry s
  | .fieldCycleStart => Sys2Proof.Machine.execFieldCycleStart s
  | .scanCall => Sys2Proof.Machine.execScanCall s
  | .repeatCall => Sys2Proof.Machine.execRepeatCall s
  | .fieldSlotEnd line => Sys2Proof.Machine.execFieldSlotEnd line s
  | .fieldCycleEnd => Sys2Proof.Machine.execFieldCycleEnd s
  | .chatterPeriodBoundary => Sys2Proof.Machine.execChatterPeriodBoundary s
  | .timeSteppedExpiry => Sys2Proof.Machine.execTimeSteppedExpiry s
  | .continuousSample samples => Sys2Proof.Machine.execContinuousSample samples s
  | .settleTimerExpiry group => Sys2Proof.Machine.execSettleTimerExpiry group s
  | .shelfExpiry => Sys2Proof.Machine.execShelfExpiry s
  | .chimeEnd => Sys2Proof.Machine.execChimeEnd s
  | .flashPhaseAdvance => Sys2Proof.Machine.execFlashPhaseAdvance s
  | .panelCycleStart => Sys2Proof.Machine.execPanelCycleStart s
  | .lampFrame => Sys2Proof.Machine.execLampFrame s
  | .panelSlotEnd line => Sys2Proof.Machine.execPanelSlotEnd line s
  | .panelCycleEnd => Sys2Proof.Machine.execPanelCycleEnd s
  | .termDelayExpiry term => Sys2Proof.Machine.execTermDelayExpiry term s
  | .coilStart => Sys2Proof.Machine.execCoilStart s
  | .startHistoryExpiry => Sys2Proof.Machine.execStartHistoryExpiry s
  | .minPulseExpiry switch => Sys2Proof.Machine.execMinPulseExpiry switch s
  | .maxPulseExpiry switch => Sys2Proof.Machine.execMaxPulseExpiry switch s
  | .resetPulseEnd switch => Sys2Proof.Machine.execResetPulseEnd switch s
  | .testPulseEnd switch sample => Sys2Proof.Machine.execTestPulseEnd switch sample s
  | .supervisionTick switch => Sys2Proof.Machine.execSupervisionTick switch s
  | .tableCheck table entry finding => Sys2Proof.Machine.execTableCheck table entry finding s
  | .badOrder => Sys2Proof.Machine.execBadOrder s

end Sys2Proof.Machine
end

