-- ==== Sys2Proof/Machine/Views.lean ====
section
/-! DEFINITION. What the station computer reads (11.2, 13.3 to 13.6): header, slots, images, journal and staging as views of the
state (log entry 5). No command is a read, and a read changes nothing (R156). -/

namespace Sys2Proof.Machine

/-- A word made of a low and a high halfword. -/
def pair (lo hi : Nat) : Nat := lo % 65536 + 65536 * (hi % 65536)

/-- A word made of four bytes, byte 0 first. -/
def bytes4 (b0 b1 b2 b3 : Nat) : Nat := b0 % 256 + 256 * (b1 % 256) + 65536 * (b2 % 256) + 16777216 * (b3 % 256)

/-- A byte made of two nibbles. -/
def nibbles (lo hi : Nat) : Nat := lo % 16 + 16 * (hi % 16)

/-- The low 32 bits of a hall time, as the images hold it (R177). -/
def low32 (t : HallTime) : Nat := t.toNat % 4294967296

/-! ## Header (R159, 13.3) -/

/-- The word of the header at an offset. -/
def State.headerWord (s : State) (offset : Nat) : Nat :=
  match offset with
  | 0x00 => 0x00480A30
  | 0x04 => Config.revision.toNat
  | 0x08 => s.monitor.shown.code
  | 0x0C => s.port.mask.toNat
  | 0x10 => s.jr.written.toNat
  | 0x14 => s.jr.released.toNat
  | 0x18 => pair s.jr.lostOrdinary s.jr.lostTrip
  | 0x1C => s.pendingSummary
  | 0x20 => low32 s.clock.hall
  | 0x24 => s.clock.hall.toNat / 4294967296
  | 0x28 => s.port.refusedCount
  | 0x2C => s.port.lastRefused.toNat
  | 0x30 => s.monitor.corrected
  | 0x34 => s.settings.tally.toNat
  | 0x38 => bytes4 s.settings.lastScope.toNat s.settings.lastResult.toNat 0 0
  | 0x3C => s.term.modes.toList.foldr (fun m acc => m.code + 16 * acc) 0
  | 0x40 => ofBits [s.hornPin, s.chimePin, s.win.silence]
  | 0x44 => bit s.port.key
  | _ => 0

/-! ## Images (13.6) -/

/-- The point image (R5, R12, 13.6): its quality byte shows the live quality of a forced point (log entry 43), and the start of a
pending change, the force value and the frozen value read 0 where the point has none (log entry 47). A system point, which has no
settings, shows its configured bit 0 (log entry 47). -/
def State.pointImage (s : State) (n : Nat) : List Nat :=
  let p := s.pt n
  let configured : Bool := if n < 544 then (s.ptSet n).isSome else false
  [ bytes4 (ofBits [p.raw, p.qualified, p.effective, p.forced.getD false]) p.live.quality.code
      (ofBits [configured, p.pending.isSome, p.frozen.isSome, p.forced.isSome, p.frozen.getD false]) p.chatter,
    (p.pending.map fun d => low32 d.start).getD 0, low32 p.rawTime, low32 p.qualifyTime ]

/-- The window image (R57, 13.6). The shelving start and the minutes of a window that is not shelved read 0 (log entry 47). -/
def State.windowImage (s : State) (w : Nat) : List Nat :=
  let x := s.window w
  let shelving := s.win.shelf.find? fun e => e.window == w
  [ bytes4 x.state.code x.mark.code (s.shownPattern w).code
      (ofBits [(s.winSet w).isSome, x.input, x.doubt, x.standing, shelving.isSome]),
    low32 x.alarm, (shelving.map fun e => low32 e.began).getD 0, (shelving.map fun e => e.minutes).getD 0 ]

/-- The switch image (R119, 13.6). Kind, class and unit of an unconfigured switch, and class and entry time of a switch without a queue
entry, read 0 (log entry 47). -/
def State.switchImage (s : State) (i : Nat) : List Nat :=
  let x := s.swi i
  let entry := s.sw.queue.find? fun e => e.switch == i
  let c := s.swSet i
  [ bytes4 x.state.code
      (nibbles ((c.map fun c => c.kind.code).getD 0) ((c.map fun c => c.cls).getD 0))
      (nibbles ((c.map fun c => c.unit).getD 0) x.supervision.code)
      (ofBits [c.isSome, x.isolated, x.testStart.isSome, x.resetFailed, x.confirmedMark]),
    bytes4 (nibbles ((entry.map fun e => e.kind.code).getD 0) ((entry.map fun e => e.cls).getD 0)) x.postponed 0 0
      + 65536 * ((entry.map fun e => e.joined % 65536).getD 0),
    low32 x.opStart, pair x.lastPulse x.absorbed ]

/-- The elapsed time left to a TIMING term (R94); it stands still from a halt on (R96), and reads 0 in every other
state (log entry 47). -/
def State.timeLeft (s : State) (t : Nat) : Nat :=
  let now := if s.halted then s.monitor.haltedAt else s.clock.elapsed
  if (s.trm t).state = .timing then (s.trm t).deadline - now else 0

/-- The term image (R94, 13.6). The seen marks of a term that is not HELD, and unit, count and positions of an unconfigured one, read 0
(log entry 47). -/
def State.termImage (s : State) (t : Nat) : List Nat :=
  let x := s.trm t
  let held : Bool := x.state == .held
  [ match s.termSet t with
    | some c =>
      bytes4 x.state.code c.unit (s.termCount c) (nibbles (ofBits (s.positions c)) (if held then ofBits x.seen else 0))
    | none => 0,
    low32 x.lastChange, pair (s.timeLeft t) x.activations, low32 x.lastActive ]

/-- The concentrator image (R33, 13.6). -/
def State.concentratorImage (s : State) (c : Nat) : List Nat :=
  let k := s.conc c
  [ bytes4 (k.link.code + 16 * bit k.wasLost + 32 * bit k.marginal) (nibbles (min k.failedCount 15) (min k.goodCount 15)) 0 0
      + 65536 * (k.history.sum % 65536),
    pair k.calls k.timeouts, pair k.crcErrors k.staleEchoes, pair k.holdOffs k.lastGood.toNat ]

/-- The panel image (R81, 13.6). The keys-accepted bit of an unconfigured panel reads 0, whatever was staged (log entry 47). -/
def State.panelImage (s : State) (p : Nat) : List Nat :=
  let x := s.pan p
  let c := s.panSet p
  [ bytes4 x.link.code x.failedCount x.goodCount
      (ofBits [x.keys.ack, x.keys.reset, x.keys.silence, x.keys.test, c.isSome,
        (c.map fun c => c.keysAccepted).getD false, x.lampTest]),
    pair x.timeouts x.crcErrors, x.lampFaults, low32 x.lastGood ]

/-- The channel image (R142, 13.6). -/
def State.channelImage (s : State) (c : Nat) : List Nat :=
  let ch := s.chan c
  [ bytes4 (s.chanSet c).mode.code (ofBits [ch.low, ch.high, ch.inFlight.isSome]) (ch.lastJudged.getD 0xFF)
      (ch.inFlight.getD 0xFF),
    ch.value.toNat, low32 ch.time, 0 ]

/-! ## The loop lines (R178) -/

/-- The bits of the frame last sent on FLD_D. -/
def State.fieldLineBits (s : State) : List LineBit := frameBits s.field.line

/-- The bits of the frame last sent on PNL_D. -/
def State.panelLineBits (s : State) : List LineBit := frameBits s.panel.line

/-! ## Reading (R156, R157) -/

/-- A word of the image region, of 16-byte records of which number 0 stands at line `first` of the memory. -/
def imageWord (image : Nat → List Nat) (first a : Nat) : Nat := (image (a / 16 - first))[a % 16 / 4]?.getD 0

/-- The 32 bytes of a journal place (R146, R155): zeros where no entry has been written. -/
def State.journalBytes (s : State) (i : Nat) : List Byte :=
  match look s.jr.places i with
  | some e => e.bytes
  | none => List.replicate 32 0

/-- The word at a word address, as it stands. -/
def State.readWord (s : State) (a : Nat) : Word :=
  BitVec.ofNat 32
    (if a < 0x100 then s.headerWord a
    else if a < 0x1000 then 0
    else if a < 0x2000 then
      if a % 128 = 0 then (s.holder (a / 128 - 32)).code else Memory.readNat s.port.mem a 4
    else if a < 0x3800 then imageWord s.windowImage 0x200 a
    else if a < 0x6280 then imageWord s.pointImage 0x380 a
    else if a < 0x6300 then 0
    else if a < 0x6600 then imageWord s.switchImage 0x630 a
    else if a < 0x6E00 then imageWord s.termImage 0x660 a
    else if a < 0x6F00 then imageWord s.concentratorImage 0x6E0 a
    else if a < 0x7000 then imageWord s.panelImage 0x6F0 a
    else if a < 0x7100 then imageWord s.channelImage 0x700 a
    else if a < 0x8000 then 0
    else if a < 0x10000 then ofBytes (((s.journalBytes (a / 32 - 1024)).drop (a % 32)).take 4)
    else Memory.readNat s.port.mem a 4)

/-- The byte at an address: the host takes it from the aligned word that holds it (R156). -/
def State.readByte (s : State) (a : Nat) : Byte := byteAt (s.readWord (a / 4 * 4)).toNat (a % 4)

/-- A burst of four words aligned on 16 bytes: one line at one instant (R156). -/
def State.readLine (s : State) (a : Nat) : List Word := (List.range 4).map fun i => s.readWord (a / 16 * 16 + 4 * i)

end Sys2Proof.Machine
end

