-- ==== Sys2Proof/Safety.lean ====
section
/-! DEFINITION. The laws that the spec states in italics, as decidable properties of a state, and what a step can do. -/

namespace Sys2Proof.Machine

/-- Law of R147: the unreleased count is never greater than 1,024. -/
abbrev State.journalLaw (s : State) : Prop := s.jr.unreleased ≤ 1024

/-- The cells of the exchange memory are in canonical form. -/
abbrev State.memoryLaw (s : State) : Prop := Memory.wf s.port.mem

/-- Law of R160: the intake list holds every QUEUED slot once and no other slot. -/
abbrev State.intakeLaw (s : State) : Prop :=
  s.engine.intake.Nodup ∧ (∀ k ∈ s.engine.intake, k < 32) ∧
    ∀ k, k < 32 → (s.holder k = .queued ↔ k ∈ s.engine.intake)

/-- Law 1 (R12): a FORCED point is never listed in a term whose output list contains a switch that is not isolated. -/
abbrev State.forceLaw (s : State) : Prop :=
  ∀ n, n < 544 → (s.pt n).quality = .forced → unsafeTerms s n = []

/-- Law of R84: a term in TIMING or ACTIVE belongs to COMMON or to a unit whose mode is in its mode set. -/
abbrev State.modeLaw (s : State) : Prop :=
  ∀ t, t < 128 → ∀ c ∈ s.termSet t, (s.trm t).acting = true → s.armed c = true

/-- A term in IDLE, TIMING or ACTIVE is armed (R84, R89). -/
abbrev State.armedAt (s : State) (t : Nat) : Prop :=
  ∀ c, s.termSet t = some c →
    ((s.trm t).state = .idle ∨ (s.trm t).state = .timing ∨ (s.trm t).state = .active) → s.armed c = true

/-- R89 with the law of R84: every term in IDLE, TIMING or ACTIVE is armed. -/
abbrev State.armedLaw (s : State) : Prop := ∀ t, t < 128 → s.armedAt t

/-- Law of R105: the coil queue holds at most one entry for any switch. -/
abbrev State.queueLaw (s : State) : Prop := (s.sw.queue.map fun e => e.switch).Nodup

/-- Law of R106: never more than 6 coils energized, and no span of 20 ms with more than 4 starts. -/
abbrev State.coilLaw (s : State) : Prop := s.places.length ≤ 6 ∧ s.counted ≤ 4

/-- Law of R63: the windows marked FIRST in a group share one alarm time, and no window marked SUBSEQUENT carries an earlier one. -/
abbrev State.firstOutLaw (s : State) : Prop :=
  ∀ g, g < 32 → ∀ v ∈ s.members g, ∀ w ∈ s.members g,
    ((s.window v).mark = .first → (s.window w).mark = .first → (s.window v).alarm = (s.window w).alarm) ∧
    ((s.window v).mark = .first → (s.window w).mark = .subsequent → (s.window v).alarm ≤ (s.window w).alarm)

/-- R52: the shelf list never holds a window twice, and never more than 64 windows. -/
abbrev State.shelfLaw (s : State) : Prop :=
  (s.win.shelf.map fun e => e.window).Nodup ∧ s.win.shelf.length ≤ 64

/-- An entry of the coil queue fits its switch: a TRIP entry waits in QUEUED, a RESET entry in RESET-QUEUED, a TEST entry in READY, and
no test is in flight beside it (R100, R105, R107). -/
abbrev QueueEntry.fits (e : QueueEntry) (x : Switch) : Prop :=
  x.testStart = none ∧
    match e.kind with
    | .trip => x.state = .queued
    | .reset => x.state = .resetQueued
    | .test => x.state = .ready

/-- The law of R105 with what it rests on: every entry fits its switch, and a test is in flight in READY only (R107). -/
abbrev State.waitLaw (s : State) : Prop :=
  s.queueLaw ∧ (∀ e ∈ s.sw.queue, e.fits (s.swi e.switch)) ∧ ∀ i, (s.swi i).testStart ≠ none → (s.swi i).state = .ready

/-- The first time and the first set of a group that is not CLEAR (R63). -/
def FirstOut.lead : FirstOut → Option (HallTime × List Nat)
  | .clear => none
  | .deciding t ws _ => some (t, ws)
  | .latched t ws => some (t, ws)

/-- The law of R63 of one group with what it rests on: no member in QUIET carries a mark, none does while the group is CLEAR, and else the
members marked FIRST are the first set, at the first time, and those marked SUBSEQUENT carry none earlier. -/
abbrev State.groupLaw (s : State) (g : Nat) : Prop :=
  (∀ v ∈ s.members g, (s.window v).state = .quiet → (s.window v).mark = .none) ∧
    (s.group g = .clear → ∀ v ∈ s.members g, (s.window v).mark = .none) ∧
    ∀ t ws, (s.group g).lead = some (t, ws) →
      (∀ v ∈ ws, v ∈ s.members g ∧ (s.window v).mark = .first) ∧
      ∀ v ∈ s.members g, ((s.window v).mark = .first → v ∈ ws ∧ (s.window v).alarm = t) ∧
        ((s.window v).mark = .subsequent → t ≤ (s.window v).alarm)

/-- A configured window's input is active in ALERT and STEADY, and in every other state it can be in an activation brings ALERT (R41 to
R43). -/
abbrev State.inputLaw (s : State) (w : Nat) : Prop :=
  ∀ c, s.winSet w = some c →
    ((s.window w).input = true → (s.window w).state = .alert ∨ (s.window w).state = .steady) ∧
      ((s.window w).input = false → c.sequence.next (s.window w).state .active = some .alert)

/-- The laws of R63 and of the window inputs. -/
abbrev State.alarmLaw (s : State) : Prop := (∀ g, g < 32 → s.groupLaw g) ∧ ∀ w, s.inputLaw w

/-- The laws of the coil queue (R105), of the shelf list (R52) and of the first-out groups (R63), with what they rest on. -/
abbrev State.listLaws (s : State) : Prop := s.waitLaw ∧ s.shelfLaw ∧ s.alarmLaw

/-- R165: the mask holds 0 to 4. -/
abbrev State.maskLaw (s : State) : Prop := s.port.mask.toNat ≤ 4

/-- R148, R149, R166: every change of point 672 has been handed on, and the condition shown is the one R166 gives. -/
abbrev State.settledLaw (s : State) : Prop := s.jr.news = [] ∧ s.conditionNow = s.monitor.shown

/-- R160, R162, R172: an open chain's slots and the slot of an ADOPT being worked are WORKING, and the latter is no member. -/
abbrev State.workingLaw (s : State) : Prop :=
  (∀ c ∈ s.engine.chain, ∀ m ∈ c.members, m.slot < 32 ∧ s.holder m.slot = .working) ∧
  (∀ a ∈ s.engine.working, a.slot < 32 ∧ s.holder a.slot = .working) ∧
  (∀ a ∈ s.engine.working, ∀ c ∈ s.engine.chain, ∀ m ∈ c.members, m.slot ≠ a.slot)

/-- R167, R175: the adopted copy holds what the live tables hold (log entry 20). -/
abbrev State.copyLaw (s : State) : Prop := s.settings.copy = s.settings.live

/-- R2, R121: an unconfigured settable point is not forced, and an unconfigured switch is not isolated. -/
abbrev State.bareLaw (s : State) : Prop :=
  (∀ n, n < 544 → s.ptSet n = none → (s.pt n).forced = none) ∧ (∀ i, s.swSet i = none → (s.swi i).isolated = false)

/-- The state a step leads to, if it leads to one. -/
def next (s : State) : Option State :=
  match step s with
  | .next t => some t
  | .fault _ => none
  | .refused _ => none

end Sys2Proof.Machine
end

