-- ==== Sys2Proof/Certificates/Slice0/Obligations.lean ====
section
/-! DEFINITION. The statements for the provers. Sources: the numbered rules of spec/; a clause that rests on a log entry of
notes/assumptions names it in its docstring. -/

namespace Sys2Proof.Machine

/-! ## Words the statements share -/

/-- The order engine is free, the part is not HALTED, and slot k stands at the head of the intake list with this chain mark and this
order in it (R161, R168). The exchange memory is in its canonical form. -/
abbrev Offered (s : State) (k : Nat) (mark : ChainMark) (o : Order) : Prop :=
  k < 32 ∧ s.memoryLaw ∧ s.halted = false ∧ s.engine.working = none ∧ s.engine.intake.head? = some k ∧
    chainMark s.port k = some mark ∧ orderIn s.port k = some o

/-- The outcome words of slot k hold this outcome, this detail and this hall time, the holder is DONE, and every other byte and
every other holder is as in s (R161, 13.4). -/
abbrev Answered (k : Nat) (r : Result) (detail : Nat) (done : HallTime) (s u : State) : Prop :=
  u.holder k = .done ∧ (∀ j, j ≠ k → u.holder j = s.holder j) ∧
    slotWord u.port k 27 = r.code ∧ slotWord u.port k 28 = detail % 2 ^ 32 ∧
    slotWord u.port k 29 + 2 ^ 32 * slotWord u.port k 30 = done.toNat ∧
    (∀ a, a < slotAddress k 27 ∨ slotAddress k 31 ≤ a → Memory.read u.port.mem a = Memory.read s.port.mem a) ∧
    u.port = { s.port with mem := u.port.mem, holders := u.port.holders }

/-- The slot at the head of the intake list is taken and published at the hall time u shows (R161). -/
abbrev Published (k : Nat) (r : Result) (detail : Nat) (s u : State) : Prop :=
  Answered k r detail u.clock.hall s u ∧ u.engine = { s.engine with intake := s.engine.intake.tail }

/-- What a block's event leaves alone: clocks, settings, orders, exchange memory and slots, commands waiting, released-through,
which points are forced and which switches are isolated. -/
abbrev Aside (s u : State) : Prop :=
  u.clock = s.clock ∧ u.settings = s.settings ∧ u.engine = s.engine ∧ u.port = s.port ∧ u.pending = s.pending ∧
    u.jr.released = s.jr.released ∧ (∀ n, (u.pt n).forced = (s.pt n).forced) ∧
    ∀ i, (u.swi i).isolated = (s.swi i).isolated

end Sys2Proof.Machine

open Sys2Proof Sys2Proof.Machine

/-! ## The machine -/

/-- O1. A step runs the command at the front of the queue on the state with the rest of the queue. -/
def Obligations.StepRunsFrontCommand : Prop :=
  ∀ (c : Instr) (s : State) (q : List Instr), step (s.withPending (c :: q)) = exec c (s.withPending q)

/-- O2. Every command, in every state, leads to a next state and leaves the commands waiting as they are; on an empty queue a step
changes nothing (log entry 3). -/
def Obligations.EveryStepLeadsOn : Prop :=
  (∀ (c : Instr) (s : State), ∃ t, exec c s = .next t ∧ t.pending = s.pending) ∧
    ∀ s : State, s.pending = [] → step s = .next s

namespace Sys2Proof.Machine

/-- What closes a command (log entry 10): while changes of point 672 wait or the condition has changed, the changes are handed on in
their order (R148, R149, R9), and then a change of the condition is shown with its CONDITION entry (R166). -/
inductive Closes : State → State → Prop where
  | settled (s : State) : s.settledLaw → Closes s s
  | round (s t v u : State) : ¬ s.settledLaw →
      t = s.jr.news.foldl (fun z value => setSystemPoint 672 value z) { s with jr := { s.jr with news := [] } } →
      (t.conditionNow = t.monitor.shown → v = t) →
      (t.conditionNow ≠ t.monitor.shown → v = { t with
        monitor := { t.monitor with shown := t.conditionNow }
        jr := t.jr.request t.clock.hall (conditionEntry t.monitor.shown t.conditionNow t.causes none t.clock.hall) }) →
      Closes v u → Closes s u

end Sys2Proof.Machine

/-- O3. What closes a command (log entry 10): every change of point 672 has been handed on, in order, to the point and its windows, and
the condition shown is the one of R166 with its CONDITION entries; point 672 ends active exactly while losses are pending (R148, R149); a
settled state stays as it is; beside windows and groups, journal, point 672 and the condition shown, nothing changes. -/
def Obligations.ClosingSettles : Prop :=
  (∀ (z : State) (value : Bool), setSystemPoint 672 value z =
    if z.settings.adopted = false ∨ (z.pt 672).qualified = value then z
    else windowsTake 672 z.clock.hall false (z.setPt 672
      { z.pt 672 with raw := value, qualified := value, rawTime := z.clock.hall, qualifyTime := z.clock.hall })) ∧
  ∀ s : State, Closes s (finish s) ∧ (finish s).settledLaw ∧ (s.settledLaw → finish s = s) ∧ Aside s (finish s) ∧
    (s.settings.adopted = true → s.jr.news.getLast?.getD (s.pt 672).qualified = s.jr.losing →
      ((finish s).pt 672).qualified = (finish s).jr.losing) ∧
    (∀ n, n ≠ 672 → (finish s).pt n = s.pt n) ∧
    finish s = { s with
      pts := (finish s).pts, win := (finish s).win, jr := (finish s).jr
      monitor := { s.monitor with shown := (finish s).monitor.shown } }

/-! ## Resets -/

/-- O4. Power-on and RESET_N: every block as its chapter gives for a reset; power-on clears the exchange memory, RESET_N leaves slot words 1
to 31 and the staging region as they are (R170; reset values of the model's choice: log entries 20, 33; the key input, the counter of free
values and the commands waiting stay: log entry 35). -/
def Obligations.PowerOnAndResetNReset : Prop :=
  ∀ s : State,
    exec .powerOn s = .next { State.reset with
      port := { Port.reset with key := s.port.key }, free := s.free, pending := s.pending } ∧
    exec .resetNPulse s = .next { State.reset with
      port := { Port.reset with mem := s.port.mem, key := s.port.key }, free := s.free, pending := s.pending }

/-- O5. RESTART: the reset of RESET_N, and then its own slot published RESTARTED, detail 0, done time 0; all other holders EMPTY (R170;
reset values of the model's choice: log entries 20, 33, 35; the detail: 13.4). -/
def Obligations.RestartResetsAndPublishes : Prop :=
  ∀ (s : State) (k : Nat), Offered s k .alone .restart →
    ∃ t, exec .restart s = .next t ∧
      t = { State.reset with port := t.port, free := s.free, pending := s.pending } ∧
      Answered k .restarted 0 0 { s with port := { Port.reset with mem := s.port.mem, key := s.port.key } } t

/-- O6. R155: the journal after every reset (the times of the first and the latest loss, of which R155 gives no value, are 0: log entry
33). -/
def Obligations.JournalAfterReset : Prop :=
  ∀ (c : Instr) (s : State), c = .powerOn ∨ c = .resetNPulse ∨ (c = .restart ∧ ∃ k, Offered s k .alone .restart) →
    ∃ t, exec c s = .next t ∧
      t.jr.written = 0 ∧ t.jr.released = 0 ∧ t.readWord 0x10 = 0 ∧ t.readWord 0x14 = 0 ∧
      (∀ a, 0x8000 ≤ a → a < 0x10000 → t.readWord a = 0) ∧
      t.jr.lostOrdinary = 0 ∧ t.jr.lostTrip = 0 ∧ t.jr.firstLost = 0 ∧ t.jr.lastLost = 0 ∧ t.readWord 0x18 = 0 ∧
      t.jr.latestTrip = none ∧
      (∀ i, i = 0 ∨ i = 1 ∨ i = 4 → (t.notices[i]?.map fun x => x.1) = some false) ∧
      t.settings.live.general.highWater = 1008 ∧
      (t.pt 672).effective = false ∧ (t.pt 672).quality = .lost ∧
      ∀ e, (t.request e).jr.written = 1 ∧ look (t.request e).jr.places 0 = some { seq := 1, entry := e }

/-- O7. R14: every point and every point image after every reset (the raw value, the times and what the image shows of a point
without pending change, force or suppression: log entries 33 and 47; its quality byte: log entry 43). -/
def Obligations.PointsAfterReset : Prop :=
  ∀ (c : Instr) (s : State), c = .powerOn ∨ c = .resetNPulse ∨ (c = .restart ∧ ∃ k, Offered s k .alone .restart) →
    ∃ t, exec c s = .next t ∧ t.pts.nextBoundary = none ∧ ∀ n, n < 680 →
      (n < 544 → t.ptSet n = none) ∧ (t.pt n).effective = false ∧ (t.pt n).quality = .lost ∧
      (t.pt n).pending = none ∧ (t.pt n).chatter = 0 ∧ (t.pt n).frozen = none ∧ (t.pt n).forced = none ∧
      t.pointImage n = [256, 0, 0, 0]

/-! ## Clocks -/

/-- O8. R17: hall time advances by one each millisecond modulo 2^48 in every condition, is 0 after every reset, and stands in the two
header words, which an aligned burst reads as of one instant. -/
def Obligations.HallTimeAdvances : Prop :=
  (∀ s : State, ∃ t, exec .hallTimeAdvance s = .next t ∧ t.clock.hall.toNat = (s.clock.hall.toNat + 1) % 2 ^ 48 ∧
      t = { s with clock := { s.clock with hall := t.clock.hall, elapsed := t.clock.elapsed } }) ∧
    (∀ (c : Instr) (s : State), c = .powerOn ∨ c = .resetNPulse ∨ (c = .restart ∧ ∃ k, Offered s k .alone .restart) →
      ∃ t, exec c s = .next t ∧ t.clock.hall = 0) ∧
    ∀ s : State, (s.readWord 0x20).toNat + 2 ^ 32 * (s.readWord 0x24).toNat = s.clock.hall.toNat ∧
      s.readLine 0x20 = [s.readWord 0x20, s.readWord 0x24, s.readWord 0x28, s.readWord 0x2C]

/-- O9. Steps of hall time. R19 with R20: at a SYNC pulse hall time snaps to the nearest whole second; a snap by more than 20 ms requests a
TIME entry with the old and the new value and then makes point 673 active, once a FULL adoption has been made. SET-TIME (R18): hall time
becomes the value given, a TIME entry with the old and the new value is requested, point 673 is made active for 10 s of elapsed time (R20),
and the outcome is OK with detail 0 (13.4). -/
def Obligations.SyncPulseSnaps : Prop :=
  (∀ (s : State) (k lo hi : Nat), Offered s k .alone (.setTime lo hi) → s.settings.adopted = true → hi < 2 ^ 16 →
    ∃ (new : HallTime) (v w u : State), exec .setTime s = .next (finish u) ∧ Published k .ok 0 s u ∧
      new.toNat = lo + 2 ^ 32 * hi ∧
      v = { takeHead k s with
        clock := { s.clock with hall := new, steppedUntil := some (s.clock.elapsed + 10000) }
        jr := s.jr.request new (timeEntry false s.clock.hall new) } ∧
      w = setSystemPoint 673 true v ∧ (w.pt 673).qualified = true ∧ (∀ n, n ≠ 673 → w.pt n = s.pt n) ∧ w.clock = v.clock ∧
      u = { w with port := u.port, engine := u.engine }) ∧
  ∀ s : State, ∃ new : HallTime,
    (s.clock.hall.toNat % 1000 < 500 → new.toNat = s.clock.hall.toNat - s.clock.hall.toNat % 1000) ∧
    (500 ≤ s.clock.hall.toNat % 1000 →
      new.toNat = (s.clock.hall.toNat + (1000 - s.clock.hall.toNat % 1000)) % 2 ^ 48) ∧
    (s.clock.hall.toNat % 1000 ≤ 20 ∨ 980 ≤ s.clock.hall.toNat % 1000 →
      exec .syncPulse s = .next { s with clock := { s.clock with hall := new } }) ∧
    (21 ≤ s.clock.hall.toNat % 1000 ∧ s.clock.hall.toNat % 1000 ≤ 979 →
      ∃ v u, exec .syncPulse s = .next (finish u) ∧
        v = { s with clock := { s.clock with hall := new }, jr := s.jr.request new (timeEntry true s.clock.hall new) } ∧
        u = markStepped v ∧ (s.settings.adopted = true → (u.pt 673).qualified = true) ∧
        u.clock.hall = new ∧ ∀ n, n ≠ 673 → u.pt n = s.pt n)

/-- O11. Elapsed time; the end of the 10 s of point 673 (R20); the flash clock counts phases of 125 ms of elapsed time 0 to 7 and then 0 again,
and it and a chime in progress go on in every condition (R74, R51, R60; elapsed time: log entry 1; due events: log entry 2). -/
def Obligations.ClocksAndTimersRun : Prop :=
  ∀ s : State,
    (∃ t, exec .hallTimeAdvance s = .next t ∧ t.clock.elapsed = s.clock.elapsed + 1) ∧
    (s.clock.nextFlash ≤ s.clock.elapsed → ∃ t, exec .flashPhaseAdvance s = .next t ∧
      t.clock.flash.toNat = (s.clock.flash.toNat + 1) % 8 ∧ t.clock.nextFlash = s.clock.nextFlash + 125 ∧
      t = { s with clock := { s.clock with flash := t.clock.flash, nextFlash := t.clock.nextFlash } }) ∧
    (∀ e, s.win.chimeUntil = some e → e ≤ s.clock.elapsed →
      exec .chimeEnd s = .next { s with win := { s.win with chimeUntil := none } }) ∧
    ∀ e, s.clock.steppedUntil = some e → e ≤ s.clock.elapsed →
      ∃ u, exec .timeSteppedExpiry s = .next (finish u) ∧ u.clock = { s.clock with steppedUntil := none } ∧
        (s.settings.adopted = true → (u.pt 673).qualified = false) ∧ (∀ n, n ≠ 673 → u.pt n = s.pt n) ∧
        u = { s with clock := u.clock, pts := u.pts, win := u.win, jr := u.jr }


/-! ## The exchange port -/

namespace Sys2Proof.Machine

/-- A write refused at an address: error acknowledge, the count up to 65,535 and the last refused address (R158). -/
abbrev WriteRefused (a : Nat) (s : State) : State :=
  { s with port := { s.port with
      refusedCount := min (s.port.refusedCount + 1) 65535, lastRefused := BitVec.ofNat 32 a, errorAck := true } }

/-- A word written at a word address and nothing else changed but the acknowledge. -/
abbrev WordStored (a : Nat) (v : Word) (s u : State) : Prop :=
  Memory.readNat u.port.mem a 4 = v.toNat ∧
    (∀ b, b < a ∨ a + 4 ≤ b → Memory.read u.port.mem b = Memory.read s.port.mem b) ∧
    u = { s with port := { s.port with mem := u.port.mem, errorAck := false } }

/-- The holder of slot k becomes h, and every other holder stays. -/
abbrev HolderBecomes (k : Nat) (h : Holder) (s u : State) : Prop :=
  u.holder k = h ∧ (∀ j, j ≠ k → u.holder j = s.holder j) ∧
    u.port = { s.port with holders := u.port.holders, errorAck := false }

end Sys2Proof.Machine

/-- O12. A host write of 0 to 4 to the mask word is taken, any greater value is refused and the mask kept (R165, R158). -/
def Obligations.MaskWriteJudged : Prop :=
  ∀ (s : State) (v : Word),
    (v.toNat ≤ 4 → exec (.maskWrite v) s = .next { s with port := { s.port with mask := v, errorAck := false } }) ∧
    (4 < v.toNat → exec (.maskWrite v) s = .next (WriteRefused 0x0C s))

/-- O13. A released-through write is judged by its advance; after an advance from 1 to the unreleased count a GAP alone is written where its
class finds room (R151). -/
def Obligations.ReleaseWriteJudged : Prop :=
  ∀ (s : State) (v : Word), s.journalLaw →
    (s.jr.unreleased < (v - s.jr.released).toNat →
      exec (.releasedThroughWrite v) s = .next (finish (WriteRefused 0x14 s))) ∧
    (v = s.jr.released →
      exec (.releasedThroughWrite v) s = .next (finish { s with port := { s.port with errorAck := false } })) ∧
    (1 ≤ (v - s.jr.released).toNat ∧ (v - s.jr.released).toNat ≤ s.jr.unreleased →
      ∃ u, exec (.releasedThroughWrite v) s = .next (finish u) ∧
        u = { s with jr := u.jr, port := { s.port with errorAck := false } } ∧ u.jr.released = v ∧
        (u.readWord 0x14 = v) ∧
        (s.jr.losing = false → u.jr = { s.jr with released := v } ∧
          u.jr.unreleased + (v - s.jr.released).toNat = s.jr.unreleased) ∧
        (0 < s.jr.lostTrip → u.jr = ({ s.jr with released := v } : Journal).writeGap s.clock.hall) ∧
        (0 < s.jr.lostOrdinary → s.jr.lostTrip = 0 →
          (17 ≤ ({ s.jr with released := v } : Journal).free →
            u.jr = ({ s.jr with released := v } : Journal).writeGap s.clock.hall) ∧
          (({ s.jr with released := v } : Journal).free ≤ 16 → u.jr = { s.jr with released := v })))

/-- O14. READY written to a holder that is EMPTY or DONE makes it QUEUED and puts the slot at the end of the intake list; EMPTY makes it EMPTY;
in QUEUED and WORKING both are refused (R160, R158). -/
def Obligations.HolderWritesJudged : Prop :=
  ∀ (s : State) (k : Nat), k < 32 →
    (s.holder k = .empty ∨ s.holder k = .done →
      (∃ t, exec (.holderReadyWrite k) s = .next t ∧ HolderBecomes k .queued s t ∧
        t = { s with port := t.port, engine := { s.engine with intake := s.engine.intake ++ [k] } }) ∧
      ∃ t, exec (.holderEmptyWrite k) s = .next t ∧ HolderBecomes k .empty s t ∧ t = { s with port := t.port }) ∧
    (s.holder k = .queued ∨ s.holder k = .working →
      exec (.holderReadyWrite k) s = .next (WriteRefused (0x1000 + 128 * k) s) ∧
      exec (.holderEmptyWrite k) s = .next (WriteRefused (0x1000 + 128 * k) s))

/-- O15. A host write is judged by the region of its word address, whole words only (R156, R157, R158, R160, R171; a write to the mask word,
the released-through word or a holder acts as the row of its own: log entry 34). A further word of a burst write is judged on its own too,
and an error acknowledge already given to the burst stands (R156; bursts as single writes: log entry 49). -/
def Obligations.HostWordWriteJudgedByRegion : Prop :=
  ∀ (s : State) (address : BitVec 17) (enables : BitVec 4) (v : Word) (a : Nat), s.memoryLaw →
    a = address.toNat / 4 * 4 →
    ∃ u, exec (.hostWordWrite address ⟨enables, false⟩ v) s = .next (finish u) ∧
      exec (.hostWordWrite address ⟨enables, true⟩ v) s =
        .next (finish { u with port := { u.port with errorAck := u.port.errorAck || s.port.errorAck } }) ∧
      (enables ≠ 0xF#4 → u = WriteRefused a s) ∧
      (enables = 0xF#4 →
        (a = 0x0C → exec (.maskWrite v) s = .next u) ∧
        (a = 0x14 → exec (.releasedThroughWrite v) s = .next (finish u)) ∧
        (a < 0x1000 → a ≠ 0x0C → a ≠ 0x14 → u = WriteRefused a s) ∧
        (∀ k w, k < 32 → w < 32 → a = slotAddress k w →
          (s.holder k = .queued ∨ s.holder k = .working → u = WriteRefused a s) ∧
          (s.holder k = .empty ∨ s.holder k = .done →
            (w = 0 → v = 1 → exec (.holderReadyWrite k) s = .next u) ∧
            (w = 0 → v = 0 → exec (.holderEmptyWrite k) s = .next u) ∧
            (w = 0 → v ≠ 1 → v ≠ 0 → u = WriteRefused a s) ∧
            (w ≠ 0 → WordStored a v s u))) ∧
        (0x2000 ≤ a → a < 0x10000 → u = WriteRefused a s) ∧
        (0x10000 ≤ a → s.engine.working = none → WordStored a v s u) ∧
        (0x10000 ≤ a → s.engine.working ≠ none → u = WriteRefused a s))

/-- O16. The key input state is brought up to date at each change of the SETTINGS key input and shown in the header (R159, 13.3). -/
def Obligations.SettingsKeyShown : Prop :=
  ∀ (s : State) (enable : Bool), ∃ t, exec (.settingsKeyChange enable) s = .next t ∧
    t = { s with port := { s.port with key := enable } } ∧ t.readWord 0x44 = if enable then 1 else 0

/-! ## Outputs and the journal -/

/-- O17. R49: HORN, and the horn and silence word of the header. -/
def Obligations.HornFollowsWindows : Prop :=
  ∀ s : State,
    (s.hornPin = true ↔
      (∃ w c, s.winSet w = some c ∧ c.horn = true ∧ s.shelved w = false ∧
        ((s.window w).state = .alert ∨ (s.window w).state = .alertGone)) ∧ s.win.silence = false) ∧
    (s.readWord 0x40).toNat = (if s.hornPin then 1 else 0) + (if s.chimePin then 2 else 0) + if s.win.silence then 4 else 0

/-- O18. The six notice sources with their levels, LVL[2:0] as the highest pending level, and IRQ_N (R165, with R152, R153 and the order
notice of R161). -/
def Obligations.InterruptFollowsNotices : Prop :=
  ∀ s : State,
    s.notices =
      [ (decide (0 < s.jr.unreleased), s.settings.live.general.levelJournal),
        (decide (s.settings.live.general.highWater ≤ s.jr.unreleased), s.settings.live.general.levelJournalHigh),
        (s.orderNotice, s.settings.live.general.levelOrder),
        (decide (s.monitor.shown = .degraded ∨ s.monitor.shown = .faulted), s.settings.live.general.levelCondition),
        (s.jr.tripNotice, 5),
        (decide (s.monitor.shown = .halted), 5) ] ∧
    (s.orderNotice = true ↔ ∃ k, k < 32 ∧ s.holder k = .done ∧ Memory.read s.port.mem (slotAddress k 2 + 2) ≠ 0) ∧
    (s.jr.tripNotice = true ↔ ∃ l, s.jr.latestTrip = some l ∧ 1 ≤ (l - s.jr.released).toNat ∧
      (l - s.jr.released).toNat ≤ s.jr.unreleased) ∧
    (∀ l, (true, l) ∈ s.notices → l ≤ s.levelPins) ∧ (s.levelPins = 0 ∨ (true, s.levelPins) ∈ s.notices) ∧
    (s.irqPin = true ↔ s.port.mask.toNat < s.levelPins ∨ s.levelPins = 5)

namespace Sys2Proof.Machine

/-- An entry written next: number written-through plus 1 in its place, every other place as it was (R146); released-through, the
pending losses and the changes of point 672 not yet handed on stay. -/
abbrev EntryWritten (e : Entry) (j k : Journal) : Prop :=
  look k.places (j.written.toNat % 1024) = some { seq := j.written + 1, entry := e } ∧
    (∀ i, i ≠ j.written.toNat % 1024 → look k.places i = look j.places i) ∧
    k = { j with places := k.places, written := j.written + 1
                 latestTrip := if e.trip then some (j.written + 1) else j.latestTrip }

/-- A request lost: counted by its class up to 65,535, with the times of the first and the latest loss; the loss that makes the counts
nonzero makes point 672 active (R148; handed on at the end of the command: log entry 10). -/
abbrev RequestLost (e : Entry) (now : HallTime) (j k : Journal) : Prop :=
  k = { j with
    lostOrdinary := if e.trip then j.lostOrdinary else min (j.lostOrdinary + 1) 65535
    lostTrip := if e.trip then min (j.lostTrip + 1) 65535 else j.lostTrip
    firstLost := if j.losing then j.firstLost else now
    lastLost := now
    news := if j.losing then j.news else j.news ++ [true] }

/-- The GAP entry that reports the pending losses: its class, its times, the counts with the marks of those that stand saturated, and
the time of the latest loss in d0 to d5 (R149, 13.5; a count at 65,535 counts as saturated: log entry 15). -/
abbrev GapReports (gap : Entry) (now : HallTime) (j : Journal) : Prop :=
  gap.kind = .gap ∧ gap.trip = decide (0 < j.lostTrip) ∧ gap.time = now ∧ gap.second = j.firstLost ∧
    gap.a = j.lostOrdinary ∧ gap.b = j.lostTrip ∧
    gap.flags = (if j.lostOrdinary = 65535 then 4 else 0) + (if j.lostTrip = 65535 then 8 else 0) ∧
    gap.detail.length = 6 ∧ ∀ i, i < 6 → gap.detail[i]? = some (j.lastLost.toNat / 256 ^ i % 256)

/-- The losses reported: none is pending, and point 672 is made inactive (R149; the times left, of which the spec gives no value, are
0: log entry 33). -/
abbrev LossesReported (j : Journal) : Journal :=
  { j with lostOrdinary := 0, lostTrip := 0, firstLost := 0, lastLost := 0, news := j.news ++ [false] }

end Sys2Proof.Machine

/-- O19. Room, losses and GAP entries: what becomes of a request by its class and the free count (R146 to R149), what a GAP carries, and
point 672, active exactly while losses are pending, once the command has closed (log entry 10). -/
def Obligations.JournalRoomLossesAndGaps : Prop :=
  (∀ (s : State) (e : Entry), s.settings.adopted = true → s.settledLaw → (s.pt 672).qualified = s.jr.losing →
    (s.request e).jr = s.jr.request s.clock.hall e ∧
      ((finish (s.request e)).pt 672).qualified = (finish (s.request e)).jr.losing) ∧
  ∀ (j : Journal) (now : HallTime) (e : Entry),
    (j.losing = true ↔ 0 < j.lostOrdinary ∨ 0 < j.lostTrip) ∧
    (j.losing = false →
      ((if e.trip then 1 else 17) ≤ j.free → EntryWritten e j (j.request now e)) ∧
      (j.free < (if e.trip then 1 else 17) → RequestLost e now j (j.request now e))) ∧
    (j.losing = true →
      ((if e.trip then 2 else 18) ≤ j.free →
        ∃ (gap : Entry) (g : Journal), GapReports gap now j ∧ EntryWritten gap j g ∧
          EntryWritten e (LossesReported g) (j.request now e)) ∧
      (j.free < (if e.trip then 2 else 18) → RequestLost e now j (j.request now e)))

/-! ## Windows -/

namespace Sys2Proof.Machine

/-- An event takes a window to a state, whatever its cause. -/
abbrev Moves (s : State) (w : Nat) (ev : WindowEvent) (x : WindowState) : Prop :=
  ∀ cause, ((offer w ev cause s).window w).state = x

/-- An event leaves the window, and with it the whole part, as it is. -/
abbrev Stays (s : State) (w : Nat) (ev : WindowEvent) : Prop := ∀ cause, offer w ev cause s = s

end Sys2Proof.Machine

namespace Sys2Proof.Machine

/-- A window that enters a state, before its report to the first-out tracker: the state, the mark cleared on entry into QUIET or ALERT
(R45), its WINDOW entry with this cause (R56), silence cleared (R50) and the chime started (R51), these three while it is not shelved. -/
abbrev WindowEnters (s : State) (w : Nat) (c : WindowSettings) (new : WindowState) (cause : Cause) (x : State) : Prop :=
  ∃ v : Window, v = { s.window w with
      state := new, mark := if new = .quiet ∨ new = .alert then .none else (s.window w).mark } ∧
    x = { s with
      win := { s.win with
        windows := put s.win.windows w v
        silence := if new = .alert ∧ c.horn = true ∧ s.shelved w = false then false else s.win.silence
        chimeUntil := if new = .ringback ∧ c.chime = true ∧ s.shelved w = false then
          some (s.clock.elapsed + s.settings.live.general.chimeTime) else s.win.chimeUntil }
      jr := if c.journal = true ∧ s.shelved w = false then
          s.jr.request s.clock.hall (windowEntry w (s.window w).state new v cause s.clock.hall) else s.jr }

end Sys2Proof.Machine

/-- O20. The three sequences (R41, R42, R43), with the mark cleared on entry into QUIET (R45) and the chime on entry into RINGBACK (R43, R51);
what entering a state does (R45, R50, R51, R56), and an event of a source at a window (R38, R39, R40). -/
def Obligations.SequencesMoveWindows : Prop :=
  ∀ (s : State) (w : Nat) (c : WindowSettings), s.winSet w = some c →
    (c.sequence = .lockin →
      ((s.window w).state = .quiet → Moves s w .active .alert ∧ Stays s w .clear ∧ Stays s w .ack ∧ Stays s w .reset) ∧
      ((s.window w).state = .alert → Stays s w .active ∧ Moves s w .clear .alertGone ∧ Moves s w .ack .steady ∧ Stays s w .reset) ∧
      ((s.window w).state = .alertGone → Moves s w .active .alert ∧ Stays s w .clear ∧ Moves s w .ack .cleared ∧ Stays s w .reset) ∧
      ((s.window w).state = .steady → Stays s w .active ∧ Moves s w .clear .cleared ∧ Stays s w .ack ∧ Stays s w .reset) ∧
      ((s.window w).state = .cleared → Moves s w .active .alert ∧ Stays s w .clear ∧ Stays s w .ack ∧ Moves s w .reset .quiet)) ∧
    (c.sequence = .nonlock →
      ((s.window w).state = .quiet → Moves s w .active .alert ∧ Stays s w .clear ∧ Stays s w .ack ∧ Stays s w .reset) ∧
      ((s.window w).state = .alert → Stays s w .active ∧ Moves s w .clear .quiet ∧ Moves s w .ack .steady ∧ Stays s w .reset) ∧
      ((s.window w).state = .steady → Stays s w .active ∧ Moves s w .clear .quiet ∧ Stays s w .ack ∧ Stays s w .reset)) ∧
    (c.sequence = .ringback →
      ((s.window w).state = .quiet → Moves s w .active .alert ∧ Stays s w .clear ∧ Stays s w .ack ∧ Stays s w .reset) ∧
      ((s.window w).state = .alert → Stays s w .active ∧ Moves s w .clear .alertGone ∧ Moves s w .ack .steady ∧ Stays s w .reset) ∧
      ((s.window w).state = .alertGone → Moves s w .active .alert ∧ Stays s w .clear ∧ Moves s w .ack .ringback ∧ Stays s w .reset) ∧
      ((s.window w).state = .steady → Stays s w .active ∧ Moves s w .clear .ringback ∧ Stays s w .ack ∧ Stays s w .reset) ∧
      ((s.window w).state = .ringback → Moves s w .active .alert ∧ Stays s w .clear ∧ Stays s w .ack ∧ Moves s w .reset .quiet)) ∧
    (∀ ev cause, ((offer w ev cause s).window w).state = .quiet → (s.window w).state ≠ .quiet →
      ((offer w ev cause s).window w).mark = .none) ∧
    (∀ ev cause, ((offer w ev cause s).window w).state = .ringback → (s.window w).state ≠ .ringback →
      c.chime = true → s.shelved w = false →
      (offer w ev cause s).win.chimeUntil = some (s.clock.elapsed + s.settings.live.general.chimeTime)) ∧
    (∀ ev cause new, c.sequence.next (s.window w).state ev = some new → ∃ x : State, WindowEnters s w c new cause x ∧
      (c.group = none → offer w ev cause s = x) ∧
      ∀ g, c.group = some g →
        (new = .alert → offer w ev cause s = judgeAlert g w x) ∧ (new = .quiet → offer w ev cause s = judgeQuiet g w x) ∧
        (new ≠ .alert → new ≠ .quiet → offer w ev cause s = x)) ∧
    ∀ (time : HallTime) (standing : Bool) (cause : Cause), ∃ (input doubt : Bool) (set : Window → State),
      (input = true ↔ ∃ n ∈ c.sources, (s.pt n).facing = true) ∧ (doubt = true ↔ ∃ n ∈ c.sources, (s.pt n).doubtful = true) ∧
      (∀ v, set v = { s with win := { s.win with windows := put s.win.windows w v } }) ∧
      ((s.window w).input = false → input = true → takeInput time standing cause s w =
        offer w .active cause (set { s.window w with input := true, doubt := doubt, alarm := time, standing := standing })) ∧
      ((s.window w).input = true → input = false → takeInput time standing cause s w =
        offer w .clear cause (set { s.window w with input := false, doubt := doubt })) ∧
      ((s.window w).input = input → takeInput time standing cause s w = set { s.window w with doubt := doubt })

/-- O21. R44: an event without a transition leaves everything as it is and is not counted; of two acknowledges or two resets the second does
nothing; an activation after an ack in QUIET goes to ALERT; an ack and a clear that reach an ALERT window end in the same state in either
order. -/
def Obligations.EventsWithoutTransition : Prop :=
  (∀ q : Sequence, q.next .quiet .ack = none ∧ q.next .steady .ack = none ∧ q.next .alert .reset = none ∧ q.next .alert .active = none) ∧
  ∀ (s : State) (w : Nat) (c : WindowSettings), s.winSet w = some c →
    (∀ ev cause, c.sequence.next (s.window w).state ev = none →
      offer w ev cause s = s ∧ offerAll ev cause [w] s = (s, 0)) ∧
    (∀ cause cause', offer w .ack cause' (offer w .ack cause s) = offer w .ack cause s ∧
      offer w .reset cause' (offer w .reset cause s) = offer w .reset cause s) ∧
    ((s.window w).state = .quiet → ∀ cause cause', ((offer w .active cause' (offer w .ack cause s)).window w).state = .alert) ∧
    ((s.window w).state = .alertGone → c.sequence ≠ .nonlock → ∀ cause,
      ((offer w .ack cause s).window w).state = if c.sequence = .lockin then .cleared else .ringback) ∧
    ((s.window w).state = .alert → ∀ cause cause',
      ((offer w .ack cause s).window w).state = .steady ∧
      ((offer w .clear cause' s).window w).state = (if c.sequence = .nonlock then .quiet else .alertGone) ∧
      ((offer w .clear cause' (offer w .ack cause s)).window w).state =
        ((offer w .ack cause (offer w .clear cause' s)).window w).state ∧
      ((offer w .clear cause' (offer w .ack cause s)).window w).state =
        match c.sequence with
        | .lockin => .cleared
        | .nonlock => .quiet
        | .ringback => .ringback)

/-! ## Orders -/

namespace Sys2Proof.Machine

/-- The state with one point's record replaced. -/
abbrev WithPoint (n : Nat) (p : Point) (s : State) : State := { s with pts := { s.pts with points := put s.pts.points n p } }

/-- The state with one switch's record replaced. -/
abbrev WithSwitch (i : Nat) (x : Switch) (s : State) : State := { s with sw := { s.sw with switches := put s.sw.switches i x } }

/-- A qualified change recorded at its point (R10, R5): `p` is the point with its new value and times, `before` its window-facing value
just before. A counted change raises the chatter count; the count going above a nonzero threshold suppresses the point, with a POINT-CHATTER
entry in place of the POINT entry; a suppressed point writes no POINT entry. -/
abbrev ChangeRecorded (n : Nat) (c : PointSettings) (p : Point) (before counted : Bool) (f : ChangeFlags) (s u : State) : Prop :=
  ∃ (count : Nat) (suppresses : Prop) (q : Point),
    (counted = true → count = min (p.chatter + 1) 255) ∧ (counted = false → count = p.chatter) ∧
    (suppresses ↔ counted = true ∧ p.frozen = none ∧ c.threshold ≠ 0 ∧ c.threshold < count) ∧
    (suppresses → q = { p with chatter := count, frozen := some before }) ∧ (¬ suppresses → q = { p with chatter := count }) ∧
    (suppresses → u = { WithPoint n q s with
      jr := s.jr.request s.clock.hall (chatterEntry n false count p.qualified p.rawTime) }) ∧
    (¬ suppresses → c.journal = true → p.frozen = none → u = { WithPoint n q s with
      jr := s.jr.request s.clock.hall (pointEntry n p.qualified p.quality p.rawTime p.qualifyTime f) }) ∧
    (¬ suppresses → c.journal = false ∨ p.frozen ≠ none → u = WithPoint n q s)

/-- The order of slot k is carried out and published with this outcome and detail; but for the answer the state is as in x. -/
abbrev Ordered (c : Instr) (k : Nat) (r : Result) (detail : Nat) (s x : State) : Prop :=
  ∃ u, exec c s = .next (finish u) ∧ Published k r detail s u ∧ u = { x with port := u.port, engine := u.engine }

/-- The command that stands for an order marked ALONE. -/
abbrev Order.command : Order → Instr
  | .adopt _ => .adopt
  | .setTime _ _ => .setTime
  | .setMode _ _ => .setMode
  | .ackWindows _ => .ackWindows
  | .resetWindows _ => .resetWindows
  | .silence => .silence
  | .shelve _ _ => .shelve
  | .unshelve _ => .unshelve
  | .resetFirstOut _ => .resetFirstOut
  | .forcePoint _ _ => .forcePoint
  | .releasePoint _ => .releasePoint
  | .isolate _ => .isolate
  | .restore _ => .restore
  | .tripManual _ => .tripManual
  | .resetSwitch _ => .resetSwitch
  | .testCircuit _ => .testCircuit
  | .clearCounters _ _ => .clearCounters
  | .clearFault => .clearFault
  | .restart => .restart

/-- A selector that is refused (R48). -/
abbrev Selector.refused (x : Selector) : Prop :=
  5 ≤ x.kind ∨ (x.kind = 0 ∧ (x.subject = 0 ∨ 16 < x.subject ∨ ∃ w ∈ x.listed, 384 ≤ w)) ∨
    (x.kind = 1 ∧ 32 ≤ x.subject) ∨ (x.kind = 2 ∧ 16 ≤ x.subject) ∨ (x.kind = 3 ∧ 9 ≤ x.subject)

/-- Parameters that the order's rule refuses BAD-PARAMETER. -/
abbrev Order.outOfRange (s : State) : Order → Prop
  | .adopt scope => scope ≠ 1 ∧ scope ≠ 2
  | .setTime _ hi => 2 ^ 16 ≤ hi
  | .setMode u m => 8 ≤ u ∨ 7 ≤ m
  | .ackWindows x => x.refused
  | .resetWindows x => x.refused
  | .shelve w minutes => 384 ≤ w ∨ s.winSet w = none ∨ minutes < 1 ∨ 480 < minutes
  | .unshelve w => 384 ≤ w
  | .resetFirstOut g => 32 ≤ g
  | .forcePoint n v => 544 ≤ n ∨ s.ptSet n = none ∨ 2 ≤ v
  | .releasePoint n => 544 ≤ n
  | .isolate i => 48 ≤ i ∨ s.swSet i = none
  | .restore i => 48 ≤ i ∨ s.swSet i = none
  | .tripManual i => 48 ≤ i ∨ s.swSet i = none
  | .resetSwitch i => 48 ≤ i ∨ s.swSet i = none
  | .testCircuit i => 48 ≤ i ∨ s.swSet i = none
  | .clearCounters scope subject => 3 ≤ scope ∨ (scope < 2 ∧ 16 ≤ subject ∧ subject ≠ 0xFF)
  | .silence => False
  | .clearFault => False
  | .restart => False

/-- Some term in TIMING or ACTIVE names the switch as an output (R95). -/
abbrev ActingOn (s : State) (i : Nat) : Prop :=
  ∃ t c, s.termSet t = some c ∧ i ∈ c.outputs ∧ ((s.trm t).state = .timing ∨ (s.trm t).state = .active)

/-- Some term that names the switch as an output lists a point of quality FORCED (R95). -/
abbrev ForcedFeeds (s : State) (i : Nat) : Prop :=
  ∃ t c, s.termSet t = some c ∧ i ∈ c.outputs ∧ ∃ n ∈ c.points, (s.pt n).quality = .forced

/-- A term that lists the point and has an output that is not isolated (R12). -/
abbrev UnsafeTerm (s : State) (n t : Nat) : Prop :=
  ∃ c, s.termSet t = some c ∧ n ∈ c.points ∧ ∃ i ∈ c.outputs, (s.swi i).isolated = false

/-- What the state-dependent steps of an order refuse, with the detail (R12, R52, R112, R116, R143). The states of terms are those of
`live` (R95, R163). -/
abbrev Order.turnedAway (live s : State) (r : Result) (d : Nat) : Order → Prop
  | .forcePoint n _ => r = .forceUnsafe ∧ UnsafeTerm s n d ∧ ∀ t, t < d → ¬ UnsafeTerm s n t
  | .shelve w _ => d = 0 ∧ ∃ c, s.winSet w = some c ∧
      ((r = .notShelvable ∧ c.shelvable = false) ∨
        (r = .shelfFull ∧ c.shelvable = true ∧ (∀ e ∈ s.win.shelf, e.window ≠ w) ∧ 64 ≤ s.win.shelf.length))
  | .restore i => d = 0 ∧ (s.swi i).isolated = true ∧
      ((r = .restoreForced ∧ ForcedFeeds s i) ∨ (r = .restoreActive ∧ ¬ ForcedFeeds s i ∧ ActingOn live i))
  | .resetSwitch i => d = 0 ∧
      ((r = .resetBlocked ∧ ActingOn live i) ∨
        (r = .busy ∧ ¬ ActingOn live i ∧
          ((s.swi i).state = .queued ∨ (s.swi i).state = .pulsing ∨ (s.swi i).state = .resetQueued ∨
            (s.swi i).state = .resetPulsing ∨ (s.swi i).state = .settling)))
  | .testCircuit i => d = 0 ∧ ∃ c, s.swSet i = some c ∧
      ((r = .notSupervised ∧ c.supervision = none) ∨
        (r = .busy ∧ c.supervision ≠ none ∧ (s.swi i).testStart = none ∧
          (∀ e, s.entryOf i = some e → e.kind ≠ .test) ∧ ((s.swi i).state ≠ .ready ∨ s.entryOf i ≠ none)))
  | _ => False

end Sys2Proof.Machine

/-- O22. An order marked ALONE that is refused NOT-CONFIGURED or BAD-PARAMETER is published so, with detail 0 (13.4), and has no
other effect (R161 and the rules of the orders). An ADOPT also changes the last adoption outcome (R176): O43. -/
def Obligations.RefusedParametersHaveNoEffect : Prop :=
  ∀ (s : State) (k : Nat) (o : Order), Offered s k .alone o → (∀ c, o ≠ .adopt c) →
    (s.settings.adopted = false → o ≠ .restart → Ordered o.command k .notConfigured 0 s s) ∧
    (s.settings.adopted = true → o.outOfRange s → Ordered o.command k .badParameter 0 s s)

/-- O23. An order marked ALONE that its state-dependent steps refuse is published with that outcome and detail and has no other effect:
FORCE-UNSAFE with the first such term (R12), NOT-SHELVABLE and SHELF-FULL (R52), RESTORE-FORCED and RESTORE-ACTIVE (R116), RESET-BLOCKED
and BUSY (R112), NOT-SUPERVISED and BUSY (R143); every other detail is 0 (13.4). -/
def Obligations.StateRefusalsHaveNoEffect : Prop :=
  ∀ (s : State) (k : Nat) (o : Order) (r : Result) (d : Nat), Offered s k .alone o → s.settings.adopted = true →
    ¬ o.outOfRange s → o.turnedAway s s r d → Ordered o.command k r d s s

/-- O24. BAD-ORDER: an order code or a chain mark that is not one of the defined values (R161; detail 0: 13.4). -/
def Obligations.UndefinedOrdersPublished : Prop :=
  ∀ (s : State) (k : Nat), k < 32 → s.memoryLaw → s.halted = false → s.engine.working = none →
    s.engine.intake.head? = some k →
    ((Memory.read s.port.mem (slotAddress k 2)).toNat = 0 ∨ 0x13 < (Memory.read s.port.mem (slotAddress k 2)).toNat ∨
      3 < (Memory.read s.port.mem (slotAddress k 2 + 1)).toNat) →
    ∃ u, exec .badOrder s = .next (finish u) ∧ Published k .badOrder 0 s u ∧
      (orderCode s.port k ≠ 1 → u = { s with port := u.port, engine := u.engine }) ∧
      u = { s with port := u.port, engine := u.engine, free := u.free,
                   settings := { s.settings with lastScope := u.settings.lastScope, lastResult := u.settings.lastResult } }

/-- O25. SET-MODE (R83, R84): the MODE entry, and then what each term of the unit does. A term lists settable points (R85). -/
def Obligations.ModeChangeReachesTerms : Prop :=
  ∀ (s : State) (k u m : Nat) (mode : Mode), Offered s k .alone (.setMode u m) → s.settings.adopted = true → u < 8 →
    Mode.ofCode m = some mode →
    (look s.term.modes u = mode → Ordered .setMode k .ok 0 s s) ∧
    (look s.term.modes u ≠ mode →
      ∃ (d : Nat) (x y : State), Ordered .setMode k .ok d s y ∧
        d = ((List.range 128).filter fun t => (s.trm t).acting && (y.trm t).state == .disarmed).length ∧
        look y.term.modes u = mode ∧ (∀ v, v ≠ u → look y.term.modes v = look s.term.modes v) ∧
        x = { takeHead k s with
          term := { s.term with modes := put s.term.modes u mode }
          jr := s.jr.request s.clock.hall (modeEntry u (look s.term.modes u) mode k d s.clock.hall) } ∧
        y = (x.termsOf u).foldl takeMode x ∧
        (∀ n, n < 544 → y.pt n = s.pt n) ∧ y.clock = s.clock ∧ y.settings = s.settings ∧ y.field = s.field ∧
        y.panel = s.panel ∧ y.monitor = s.monitor ∧
        ∀ t c, s.termSet t = some c →
          (c.unit ≠ u → y.trm t = s.trm t) ∧
          (c.unit = u → mode ∈ c.modes →
            ((s.trm t).state ≠ .disarmed → y.trm t = s.trm t) ∧
            ((s.trm t).state = .disarmed → (∀ n ∈ c.points, n < 544) → (y.trm t).state =
              if s.satisfied c then (if c.delay = 0 then .active else .timing) else .idle)) ∧
          (c.unit = u → mode ∉ c.modes → (y.trm t).state =
            match (s.trm t).state with
            | .idle => .disarmed
            | .timing => .disarmed
            | .active => .disarmed
            | z => z))

/-- O26. ACK-WINDOWS and RESET-WINDOWS (R48): the windows the selector chooses, in rising number, each offered the event, and as detail the
number of windows whose state changed. -/
def Obligations.SelectorsOfferWindows : Prop :=
  ∀ (s : State) (k : Nat) (x : Selector) (c : Instr) (o : Order) (ev : WindowEvent),
    (c = .ackWindows ∧ o = .ackWindows x ∧ ev = .ack) ∨ (c = .resetWindows ∧ o = .resetWindows x ∧ ev = .reset) →
    Offered s k .alone o → s.settings.adopted = true → ¬ x.refused →
    ∃ (chosen : List Nat) (y : State), chosen.Pairwise (· ≤ ·) ∧
      (∀ w, chosen.count w =
        match x.kind, s.winSet w with
        | 0, _ => if w < 384 then x.listed.count w else 0
        | _, none => 0
        | 1, some c => if c.group = some x.subject then 1 else 0
        | 2, some c => if (c.place.map fun q => q.1) = some x.subject then 1 else 0
        | 3, some c => if c.unit = x.subject then 1 else 0
        | _, some _ => 1) ∧
      y = chosen.foldl (fun z w => offer w ev (.order k) z) (takeHead k s) ∧
      (∀ w, w ∉ chosen → (y.window w).state = (s.window w).state) ∧
      (∀ w c, w ∈ chosen → s.winSet w = some c →
        (y.window w).state = (c.sequence.next (s.window w).state ev).getD (s.window w).state) ∧
      Ordered c k .ok ((List.range 384).filter fun w => (y.window w).state != (s.window w).state).length s y ∧
      ∃ j, y = { takeHead k s with win := y.win, jr := j }

/-- O27. SILENCE (R50): silence set whatever it was, a chime in progress ended, no entry. -/
def Obligations.SilenceSetsSilence : Prop :=
  ∀ (s : State) (k : Nat), Offered s k .alone .silence → s.settings.adopted = true →
    Ordered .silence k .ok 0 s { s with win := { s.win with silence := true, chimeUntil := none } }

/-- O28. SHELVE, step 4 (R52): a window already listed leaves its old place, and the entry goes behind any entry with the same expiry. That
the shelving of a window shelved anew began at the new order is the model's choice (log entry 46). -/
def Obligations.ShelvingListsWindow : Prop :=
  ∀ (s : State) (k w minutes : Nat) (c : WindowSettings), Offered s k .alone (.shelve w minutes) → s.settings.adopted = true →
    s.winSet w = some c → c.shelvable = true → 1 ≤ minutes → minutes ≤ 480 →
    ((∃ e ∈ s.win.shelf, e.window = w) ∨ s.win.shelf.length < 64) →
    ∃ (e : ShelfEntry) (before behind : List ShelfEntry) (mark : ShelfMark),
      e = { window := w, expiry := s.clock.elapsed + 60000 * minutes, began := s.clock.hall, minutes := minutes } ∧
      before ++ behind = s.win.shelf.filter (fun x => x.window != w) ∧ (∀ x ∈ before, x.expiry ≤ e.expiry) ∧
      (∀ x ∈ behind.head?, e.expiry < x.expiry) ∧
      ((∃ x ∈ s.win.shelf, x.window = w) → mark = .reshelved) ∧ ((∀ x ∈ s.win.shelf, x.window ≠ w) → mark = .shelved) ∧
      Ordered .shelve k .ok 0 s { s with
        win := { s.win with shelf := before ++ e :: behind }
        jr := s.jr.request s.clock.hall (shelvedEntry w mark minutes s.clock.hall) }

/-- O29. UNSHELVE (R53, R55, R50). -/
def Obligations.UnshelvingEndsShelving : Prop :=
  ∀ (s : State) (k w : Nat), Offered s k .alone (.unshelve w) → s.settings.adopted = true → w < 384 →
    ((∀ x ∈ s.win.shelf, x.window ≠ w) → Ordered .unshelve k .ok 0 s s) ∧
    ((∃ x ∈ s.win.shelf, x.window = w) → ∃ silence : Bool,
      ((∃ c, s.winSet w = some c ∧ c.horn = true) ∧ (s.window w).state = .alert → silence = false) ∧
      (¬ ((∃ c, s.winSet w = some c ∧ c.horn = true) ∧ (s.window w).state = .alert) → silence = s.win.silence) ∧
      Ordered .unshelve k .ok 1 s { s with
        win := { s.win with shelf := s.win.shelf.filter (fun x => x.window != w), silence := silence }
        jr := s.jr.request s.clock.hall (unshelvedEntry w .unshelved (s.window w) s.clock.hall) })

/-- O30. RESET-FIRST-OUT (R70). -/
def Obligations.FirstOutGroupCleared : Prop :=
  ∀ (s : State) (k g : Nat), Offered s k .alone (.resetFirstOut g) → s.settings.adopted = true → g < 32 →
    ∃ y : State, y = { s with win := { s.win with windows := y.win.windows, groups := put s.win.groups g .clear } } ∧
      y.group g = .clear ∧ (∀ h, h ≠ g → y.group h = s.group h) ∧
      (∀ w, w ∈ s.members g → y.window w = { s.window w with mark := .none }) ∧
      (∀ w, w ∉ s.members g → y.window w = s.window w) ∧
      Ordered .resetFirstOut k .ok ((List.range 384).filter fun w => (s.window w).mark != (y.window w).mark).length s y

/-- O31. FORCE-POINT, step 3 (R12): force value, quality, suppression, chatter count and MAINT entry, and then the change handed on
(as not standing, and the count and value of the released POINT-CHATTER entry: log entry 14; the order of the consumers: log entry 11). -/
def Obligations.ForcingTakesEffect : Prop :=
  ∀ (s : State) (k n v : Nat), Offered s k .alone (.forcePoint n v) → s.settings.adopted = true → n < 544 →
    s.ptSet n ≠ none → v ≤ 1 → (∀ t, ¬ UnsafeTerm s n t) →
    ∃ (p : Point) (j : Journal) (x y : State), Ordered .forcePoint k .ok 0 s y ∧
      p = { s.pt n with forced := some (v == 1), frozen := none, chatter := 0 } ∧
      j = (if (s.pt n).frozen.isSome then
          s.jr.request s.clock.hall (chatterEntry n true (s.pt n).chatter (v == 1) s.clock.hall) else s.jr) ∧
      x = { takeHead k s with
        pts := { s.pts with points := put s.pts.points n p }
        jr := j.request s.clock.hall (maintEntry n 0x0A 2 v (s.pt n).quality.code s.clock.hall) } ∧
      y = handOn n s.clock.hall false x ∧
      (y.pt n).quality = .forced ∧ (y.pt n).effective = (v == 1) ∧ (y.pt n).frozen = none ∧ (y.pt n).chatter = 0 ∧
      (∀ m, m < 544 → m ≠ n → y.pt m = s.pt m) ∧ y.clock = s.clock ∧ y.settings = s.settings ∧ y.field = s.field ∧
      y.panel = s.panel ∧ y.monitor = s.monitor

/-- O32. RELEASE-POINT (R13). A change of the quality alone is handed on as standing, and the release gives the times of a change of the value
(log entry 14); the order of the consumers: log entry 11. -/
def Obligations.ReleasingTakesEffect : Prop :=
  ∀ (s : State) (k n : Nat), Offered s k .alone (.releasePoint n) → s.settings.adopted = true → n < 544 →
    ((s.pt n).forced = none → Ordered .releasePoint k .ok 0 s s) ∧
    ∀ (value : Bool) (c : PointSettings), (s.pt n).forced = some value → s.ptSet n = some c →
      ∃ (x y : State), Ordered .releasePoint k .ok 0 s y ∧
        x = { takeHead k s with
          pts := { s.pts with points := put s.pts.points n (s.pt n).unforced }
          jr := s.jr.request s.clock.hall (maintEntry n 0x0B 3 (bit value) 0 s.clock.hall) } ∧
        ((s.pt n).qualified = value → y = handOn n s.clock.hall true x) ∧
        ((s.pt n).qualified ≠ value → y = makeChange n c
          { (s.pt n).unforced with rawTime := s.clock.hall, qualifyTime := s.clock.hall } value true
          { ChangeFlags.plain with standing := (s.pt n).qualified, forcedRelease := true } (s.pt n).qualified x) ∧
        (y.pt n).forced = none ∧ (y.pt n).quality = (s.pt n).live.quality ∧ (y.pt n).effective = (s.pt n).qualified ∧
        (∀ m, m < 544 → m ≠ n → y.pt m = s.pt m) ∧ y.clock = s.clock ∧ y.settings = s.settings ∧ y.field = s.field ∧
        y.panel = s.panel ∧ y.monitor = s.monitor

/-- O33. ISOLATE (R115): a switch already isolated is left; else the flag, the MAINT entry, and a waiting TRIP entry withheld.
That the entry comes before the system points and the look at the queue is last is the model's choice (log entries 53, 54). -/
def Obligations.IsolatingWithholdsTrips : Prop :=
  ∀ (s : State) (k i : Nat) (c : SwitchSettings), Offered s k .alone (.isolate i) → s.settings.adopted = true → s.swSet i = some c →
    ((s.swi i).isolated = true → Ordered .isolate k .ok 0 s s) ∧
    ((s.swi i).isolated = false →
      ((∀ e, s.entryOf i = some e → e.kind ≠ .trip) → Ordered .isolate k .ok 1 s { s with
        sw := { s.sw with switches := put s.sw.switches i { s.swi i with isolated := true } }
        jr := s.jr.request s.clock.hall (maintEntry i 0x0C 0 0 0 s.clock.hall) }) ∧
      ∀ e, s.entryOf i = some e → e.kind = .trip → ∃ x y : State, Ordered .isolate k .ok 1 s y ∧
        x = { takeHead k s with
          sw := { s.sw with
            switches := put s.sw.switches i { s.swi i with isolated := true, state := .ready }
            queue := s.sw.queue.filter fun e => e.switch != i }
          jr := (s.jr.request s.clock.hall (maintEntry i 0x0C 0 0 0 s.clock.hall)).request s.clock.hall
            (switchEntry i .withheld c.unit false (some e.source) 0 0 0 0 s.clock.hall) } ∧
        (¬ (c.kind = .lockout ∧ (syncSwitchPoints i x).operated c = true) → y = runQueue (syncSwitchPoints i x)) ∧
        (c.kind = .lockout → (syncSwitchPoints i x).operated c = true →
          y = runQueue (foundOperated i c (syncSwitchPoints i x))) ∧
        (y.swi i).isolated = true ∧ ∀ j, j ≠ i → (y.swi j).isolated = (s.swi j).isolated)

/-- O34. RESTORE (R116). -/
def Obligations.RestoringClearsIsolation : Prop :=
  ∀ (s : State) (k i : Nat), Offered s k .alone (.restore i) → s.settings.adopted = true → i < 48 → s.swSet i ≠ none →
    ((s.swi i).isolated = false → Ordered .restore k .ok 0 s s) ∧
    ((s.swi i).isolated = true → ¬ ForcedFeeds s i → ¬ ActingOn s i → Ordered .restore k .ok 1 s { s with
      sw := { s.sw with switches := put s.sw.switches i { s.swi i with isolated := false } }
      jr := s.jr.request s.clock.hall (maintEntry i 0x0D 1 0 0 s.clock.hall) })

/-- O35. RESET-SWITCH, step 4 (R112): by state; the system points of the switch follow (R117; the entry before them: log
entry 54), and the queue is looked at (R106). -/
def Obligations.ResetSwitchByState : Prop :=
  ∀ (s : State) (k i : Nat) (c : SwitchSettings), Offered s k .alone (.resetSwitch i) → s.settings.adopted = true →
    s.swSet i = some c → ¬ ActingOn s i →
    ((s.swi i).state = .lockedOut → ∃ (e : QueueEntry) (x : State), Ordered .resetSwitch k .ok 1 s (runQueue (syncSwitchPoints i x)) ∧
      e.switch = i ∧ e.kind = .reset ∧ e.cls = 3 ∧ e.joined = s.clock.elapsed ∧ e.joinedHall = s.clock.hall ∧
      x = { takeHead k s with sw := { s.sw with
        switches := put s.sw.switches i { s.swi i with state := .resetQueued }
        queue := insertEntry e s.sw.queue } }) ∧
    ((s.swi i).state = .held → Ordered .resetSwitch k .ok 1 s (syncSwitchPoints i { takeHead k s with
      sw := { s.sw with switches := put s.sw.switches i { s.swi i with state := .ready, confirmedMark := false } }
      jr := s.jr.request s.clock.hall (switchEntry i .released c.unit false none 0 0 1 0 s.clock.hall) })) ∧
    ((s.swi i).state = .failed ∨ (s.swi i).state = .unconfirmed → ∃ new : SwitchState,
      (s.operated c = true → c.kind = .lockout → new = .lockedOut) ∧
      (s.operated c = true → c.kind ≠ .lockout → new = .confirmed) ∧ (s.operated c = false → new = .ready) ∧
      Ordered .resetSwitch k .ok 1 s (syncSwitchPoints i { takeHead k s with
        sw := { s.sw with switches := put s.sw.switches i { s.swi i with state := new } }
        jr := s.jr.request s.clock.hall (switchEntry i .cleared c.unit false none 0 0 new.code 0 s.clock.hall) })) ∧
    ((s.swi i).state = .ready ∨ (s.swi i).state = .confirmed → Ordered .resetSwitch k .ok 0 s s)

namespace Sys2Proof.Machine

/-- A request absorbed (R104): the absorbed count, and a waiting class-2 TRIP entry raised by a class-1 request to its place by age. -/
abbrev RequestAbsorbed (src : Source) (i : Nat) (c : SwitchSettings) (s u : State) : Prop :=
  u = { s with sw := { s.sw with
    switches := put s.sw.switches i { s.swi i with absorbed := min ((s.swi i).absorbed + 1) 65535 }, queue := u.sw.queue } } ∧
  ∃ raised : QueueEntry → Prop,
    (∀ e, raised e ↔ s.entryOf i = some e ∧ (s.swi i).state = .queued ∧ e.kind = .trip ∧ e.cls = 2 ∧
      ((∃ f, src = .backup f) ∨ c.cls = 1)) ∧
    ((∀ e, ¬ raised e) → u.sw.queue = s.sw.queue) ∧
    ∀ e, raised e → ∃ front behind : List QueueEntry, front ++ behind = s.sw.queue.filter (fun x => x.switch != i) ∧
      u.sw.queue = front ++ { e with cls := 1 } :: behind ∧ (∀ x ∈ front, x.cls = 1 ∧ x.joined ≤ e.joined) ∧
      ∀ x ∈ behind.head?, ¬ (x.cls = 1 ∧ x.joined ≤ e.joined)

/-- The TRIP entry of a request queued (R103, R105): the switch's test is given up, a waiting RESET entry replaced, and the entry stands
behind every entry of its own or a better class; the switch is QUEUED and its system points follow (R117). -/
abbrev TripQueued (src : Source) (i : Nat) (c : SwitchSettings) (s u : State) : Prop :=
  ∃ (v : State) (e : QueueEntry) (front behind : List QueueEntry), v = giveUpTest i s ∧
    e = { switch := i, kind := .trip, cls := e.cls, joined := s.clock.elapsed, joinedHall := s.clock.hall, source := src } ∧
    ((∃ f, src = .backup f) → e.cls = 1) ∧ ((∀ f, src ≠ .backup f) → e.cls = c.cls) ∧
    front ++ behind = v.sw.queue.filter (fun x => x.switch != i) ∧ (∀ x ∈ front, x.cls ≤ e.cls) ∧
    (∀ x ∈ behind.head?, e.cls < x.cls) ∧
    u = syncSwitchPoints i { v with sw := { v.sw with
      switches := put v.sw.switches i { v.swi i with state := .queued }, queue := front ++ e :: behind } }

/-- A trip request taken from any source (R103, R104): none in HALTED (R120); withheld where the switch is isolated, queued or absorbed by
its state; only TRIP-MANUAL queues a FAILED or UNCONFIRMED switch. `again` looks at the queue once more. -/
abbrev RequestTaken (again : State → State) (src : Source) (i : Nat) (c : SwitchSettings) (s u : State) : Prop :=
  (s.halted = true → u = s) ∧
  (s.halted = false →
    ((s.swi i).isolated = true → u = { s with
      jr := s.jr.request s.clock.hall (switchEntry i .withheld c.unit false (some src) 0 0 0 0 s.clock.hall) }) ∧
    ((s.swi i).isolated = false →
      ((s.swi i).state = .ready ∨ (s.swi i).state = .settling ∨ (s.swi i).state = .resetQueued ∨ (s.swi i).state = .resetPulsing →
        u = again (queueTrip i c src s)) ∧
      ((s.swi i).state = .failed ∨ (s.swi i).state = .unconfirmed →
        ((∃ k, src = .order k) → u = again (queueTrip i c src s)) ∧ ((∀ k, src ≠ .order k) → RequestAbsorbed src i c s u)) ∧
      ((s.swi i).state = .queued ∨ (s.swi i).state = .pulsing ∨ (s.swi i).state = .confirmed ∨ (s.swi i).state = .lockedOut ∨
        (s.swi i).state = .held → RequestAbsorbed src i c s u)))

end Sys2Proof.Machine

/-- O36. Trip requests of terms, orders, cascades and backups (R103, R104, R124; none for a switch that is not configured: R98), where a TRIP
entry is put (R105), and TRIP-MANUAL (R114): the four details, and what becomes of the request. A raised entry keeps its source: log entry
42; a place that a cut frees is looked at when the new entry has joined: log entry 53; the order of system points: log entry 54. -/
def Obligations.ManualTripsByState : Prop :=
  (∀ (again : State → State) (src : Source) (i : Nat) (s : State),
    (s.swSet i = none → tripRequest again src i s = s) ∧
    (∀ c, s.swSet i = some c → RequestTaken again src i c s (tripRequest again src i s)) ∧
    (∀ c, TripQueued src i c s (queueTrip i c src s)) ∧ requestTrip src i s = tripRequest runQueue src i s) ∧
  ∀ (s : State) (k i : Nat) (c : SwitchSettings), Offered s k .alone (.tripManual i) → s.settings.adopted = true → s.swSet i = some c →
    ((s.swi i).isolated = true → Ordered .tripManual k .ok 2 s { s with
      jr := s.jr.request s.clock.hall (switchEntry i .withheld c.unit false (some (.order k)) 0 0 0 0 s.clock.hall) }) ∧
    ((s.swi i).isolated = false →
      ((s.swi i).state = .ready ∨ (s.swi i).state = .settling ∨ (s.swi i).state = .resetQueued ∨ (s.swi i).state = .resetPulsing →
        Ordered .tripManual k .ok 0 s (runQueue (queueTrip i c (.order k) (takeHead k s)))) ∧
      ((s.swi i).state = .failed ∨ (s.swi i).state = .unconfirmed →
        Ordered .tripManual k .ok 1 s (runQueue (queueTrip i c (.order k) (takeHead k s)))) ∧
      ((s.swi i).state = .queued ∨ (s.swi i).state = .pulsing ∨ (s.swi i).state = .confirmed ∨ (s.swi i).state = .lockedOut ∨
          (s.swi i).state = .held →
        ∃ x : State, Ordered .tripManual k .ok 3 s x ∧ x = { s with sw := { s.sw with
            switches := put s.sw.switches i { s.swi i with absorbed := min ((s.swi i).absorbed + 1) 65535 }, queue := x.sw.queue } } ∧
          (c.cls ≠ 1 → x.sw.queue = s.sw.queue) ∧
          ((s.swi i).state ≠ .queued → x.sw.queue = s.sw.queue) ∧
          ((∀ e, s.entryOf i = some e → e.kind ≠ .trip ∨ e.cls ≠ 2) → x.sw.queue = s.sw.queue) ∧
          ∀ e, s.entryOf i = some e → (s.swi i).state = .queued → e.kind = .trip → e.cls = 2 → c.cls = 1 →
            x.sw.queue = insertByAge { e with cls := 1 } (s.sw.queue.filter fun e => e.switch != i))) ∧
    ∀ src t, i < 48 → ((queueTrip i c src t).swi i).state = .queued ∧
      ∃ e ∈ (queueTrip i c src t).sw.queue, e.switch = i ∧ e.kind = .trip ∧ e.source = src ∧ e.joined = t.clock.elapsed ∧
        e.cls = (if src.isBackup then 1 else c.cls)

/-- O37. TEST-CIRCUIT (R143): PENDING 1 where a test waits or runs, else QUEUED 0 with the TEST entry queued and looked at. -/
def Obligations.TestOrdersQueueTests : Prop :=
  ∀ (s : State) (k i : Nat) (c : SwitchSettings), Offered s k .alone (.testCircuit i) → s.settings.adopted = true → s.swSet i = some c →
    c.supervision ≠ none →
    ((s.swi i).testStart ≠ none ∨ (∃ e, s.entryOf i = some e ∧ e.kind = .test) → Ordered .testCircuit k .ok 1 s s) ∧
    ((s.swi i).testStart = none → s.entryOf i = none → (s.swi i).state = .ready →
      ∃ e : QueueEntry, e.switch = i ∧ e.kind = .test ∧ e.cls = 4 ∧ e.joined = s.clock.elapsed ∧
        Ordered .testCircuit k .ok 0 s (runQueue { takeHead k s with sw := { s.sw with queue := insertEntry e s.sw.queue } }))

/-- O38. CLEAR-COUNTERS (R35): what each scope sets to 0, and the MAINT entry; PORT names no subject (log entry 18). -/
def Obligations.CountersCleared : Prop :=
  ∀ (s : State) (k scope subject : Nat), Offered s k .alone (.clearCounters scope subject) → s.settings.adopted = true → scope < 3 →
    (scope < 2 → subject < 16 ∨ subject = 0xFF) →
    ∃ y : State, (scope < 2 → Ordered .clearCounters k .ok 0 s y) ∧
      y.jr = s.jr.request s.clock.hall (maintEntry (if scope < 2 then subject else 0) 0x11 4 scope 0 s.clock.hall) ∧
      (scope = 0 → y = { s with jr := y.jr, field := { s.field with concentrators := y.field.concentrators } } ∧
        ∀ c, c < 16 → y.conc c = if subject = 0xFF ∨ subject = c then { s.conc c with
          calls := 0, timeouts := 0, crcErrors := 0, staleEchoes := 0, holdOffs := 0, wasLost := false } else s.conc c) ∧
      (scope = 1 → y = { s with jr := y.jr, panel := { s.panel with panels := y.panel.panels } } ∧
        ∀ p, p < 16 → y.pan p = if subject = 0xFF ∨ subject = p then { s.pan p with timeouts := 0, crcErrors := 0 } else s.pan p) ∧
      (scope = 2 → ∃ u, exec .clearCounters s = .next (finish u) ∧
        Published k .ok 0 { s with port := { s.port with refusedCount := 0, lastRefused := 0 } } u ∧
        u = { s with jr := y.jr, port := u.port, engine := u.engine })

/-- O39. CLEAR-FAULT (R169): the latch cleared, the condition worked out again with its CONDITION entry, detail 1; with the latch clear
detail 0 and nothing changed; it is not chainable. -/
def Obligations.FaultLatchCleared : Prop :=
  Order.chainable .clearFault = false ∧ ∀ (s : State) (k : Nat), Offered s k .alone .clearFault → s.settings.adopted = true →
    (s.monitor.latch = none → Ordered .clearFault k .ok 0 s s) ∧
    (∀ x, s.monitor.latch = some x → ∃ (new : Condition) (y : State), Ordered .clearFault k .ok 1 s y ∧
      (s.causes ≠ 0 → new = .degraded) ∧ (s.causes = 0 → new = .running) ∧
      y = { s with
        monitor := { s.monitor with latch := none, shown := new }
        jr := if new = s.monitor.shown then s.jr
          else s.jr.request s.clock.hall (conditionEntry s.monitor.shown new s.causes none s.clock.hall) })

/-! ## Chains -/

namespace Sys2Proof.Machine

/-- Slot k holds a published outcome (R161, 13.4). -/
abbrev SlotAnswered (k : Nat) (r : Result) (detail : Nat) (u : State) : Prop :=
  u.holder k = .done ∧ slotWord u.port k 27 = r.code ∧ slotWord u.port k 28 = detail % 2 ^ 32 ∧
    slotWord u.port k 29 + 2 ^ 32 * slotWord u.port k 30 = u.clock.hall.toNat

/-- Beside the answers of these slots (in the order of their publication) and the order engine, the state is as in x: every byte of the
exchange memory outside their outcome words, staging included, and every other holder stay; the last adoption outcome (R176) is that of the
last ADOPT among them, and stays where none is one. The scope shown for an ADOPT without a defined scope: log entry 17. -/
abbrev OnlyAnswers (slots : List Nat) (x u : State) : Prop :=
  (∀ a, (∀ k ∈ slots, a < slotAddress k 27 ∨ slotAddress k 31 ≤ a) → Memory.read u.port.mem a = Memory.read x.port.mem a) ∧
    (∀ j, j ∉ slots → u.holder j = x.holder j) ∧
    ((∀ k ∈ slots, orderCode x.port k ≠ 1) → u.settings = x.settings ∧ u.free = x.free) ∧
    (∀ before k behind, slots = before ++ k :: behind → orderCode x.port k = 1 → (∀ j ∈ behind, orderCode x.port j ≠ 1) →
      u.settings.lastResult.toNat = slotWord u.port k 27 ∧
      (slotWord x.port k 3 = 1 ∨ slotWord x.port k 3 = 2 → u.settings.lastScope.toNat = slotWord x.port k 3)) ∧
    u = { x with port := { x.port with mem := u.port.mem, holders := u.port.holders }, engine := u.engine, free := u.free,
                 settings := { x.settings with lastScope := u.settings.lastScope, lastResult := u.settings.lastResult } }

/-- The engine takes the order now: after the first FULL adoption every order, before it ADOPT in FULL scope and RESTART (R161). -/
abbrev TakenNow (s : State) (o : Order) : Prop := s.settings.adopted = true ∨ o = .restart ∨ o = .adopt 2

/-- The slot with a chain mark is published with this outcome, detail 0 (13.4), and has no other effect. -/
abbrev TurnedAway (c : Instr) (k : Nat) (r : Result) (s : State) : Prop :=
  ∃ u, exec c s = .next (finish u) ∧ Published k r 0 s u ∧ OnlyAnswers [k] s u

/-- The members of an open chain hold distinct slots of the part (R160, R162). -/
abbrev MembersDistinct (ms : List Member) : Prop := (∀ m ∈ ms, m.slot < 32) ∧ (ms.map fun m => m.slot).Nodup

/-- A slot joins the open chain: held WORKING, taken off the list, and marked with its failure (R162). -/
abbrev Joins (k : Nat) (f : Option Result) (before : List Member) (deadline : Nat) (s u : State) : Prop :=
  u = { s with port := { s.port with holders := u.port.holders }, engine := { s.engine with
    intake := s.engine.intake.tail, chain := some { members := before ++ [{ slot := k, failure := f }], deadline := deadline } } } ∧
    u.holder k = .working ∧ ∀ j, j ≠ k → u.holder j = s.holder j

/-- The failure a member is marked with on joining (R162). -/
abbrev JoinFailure (s : State) (o : Order) (f : Option Result) : Prop :=
  (o.chainable = false → f = some .notChainable) ∧ (o.chainable = true → o.outOfRange s → f = some .badParameter) ∧
    (o.chainable = true → ¬ o.outOfRange s → f = none)

end Sys2Proof.Machine

/-- O40. Chain marks (R162, R164): OPEN, CONTINUE and CLOSE without and with an open chain, the 17th member, and the hold timer of an open
chain, which acts in every condition but HALTED. Details the rules do not give are 0 (13.4); the check for a configured subject on joining:
log entry 24; due events: log entry 2. -/
def Obligations.ChainsOpenAndJoin : Prop :=
  (∀ o : Order, o.chainable = true ↔ o.command ∈ [Instr.forcePoint, .releasePoint, .ackWindows, .resetWindows, .shelve, .unshelve,
    .setMode, .isolate, .restore, .resetSwitch]) ∧
  (∀ (s : State) (k : Nat) (mark : ChainMark) (c : Instr) (o : Order), Offered s k mark o →
    (mark = .opening ∧ c = .chainOpen) ∨ (mark = .continuing ∧ c = .chainContinue) ∨ (mark = .closing ∧ c = .chainClose) →
    (¬ TakenNow s o → TurnedAway c k .notConfigured s) ∧
    (TakenNow s o →
      (mark = .opening → s.engine.chain ≠ none → TurnedAway c k .chainBusy s) ∧
      (mark ≠ .opening → s.engine.chain = none → TurnedAway c k .noChain s) ∧
      (mark = .opening → s.engine.chain = none → ∃ u f, exec c s = .next (finish u) ∧ JoinFailure s o f ∧
        Joins k f [] (s.clock.elapsed + 2000) s u) ∧
      (∀ ch, mark = .continuing → s.engine.chain = some ch → ch.members.length < 16 → ∃ u f, exec c s = .next (finish u) ∧
        JoinFailure s o f ∧ Joins k f ch.members ch.deadline s u) ∧
      ∀ ch, mark ≠ .opening → s.engine.chain = some ch → 16 ≤ ch.members.length → MembersDistinct ch.members →
        (∀ m ∈ ch.members, m.slot ≠ k) →
        ∃ u, exec c s = .next (finish u) ∧ OnlyAnswers ((ch.members.map fun m => m.slot) ++ [k]) s u ∧
          u.engine = { s.engine with intake := s.engine.intake.tail, chain := none } ∧ SlotAnswered k .badParameter 0 u ∧
          ∀ m ∈ ch.members, SlotAnswered m.slot .chainFailed 0 u)) ∧
  ∀ (s : State) (ch : Chain), s.memoryLaw → s.engine.chain = some ch → MembersDistinct ch.members → ch.deadline ≤ s.clock.elapsed →
    (s.halted = true → exec .chainHoldTimerExpiry s = .next s) ∧
    (s.halted = false → ∃ u, exec .chainHoldTimerExpiry s = .next (finish u) ∧ OnlyAnswers (ch.members.map fun m => m.slot) s u ∧
      u.engine = { s.engine with chain := none } ∧ ∀ m ∈ ch.members, SlotAnswered m.slot .chainAbandoned 0 u)

namespace Sys2Proof.Machine

/-- The state as ISOLATE leaves a switch whose TRIP entry waited, put into this state (R115). -/
abbrev TripWithdrawn (i : Nat) (c : SwitchSettings) (e : QueueEntry) (new : SwitchState) (s : State) : State := { s with
  sw := { s.sw with
    switches := put s.sw.switches i { s.swi i with isolated := true, state := new }
    queue := s.sw.queue.filter fun e => e.switch != i }
  jr := (s.jr.request s.clock.hall (maintEntry i 0x0C 0 0 0 s.clock.hall)).request s.clock.hall
    (switchEntry i .withheld c.unit false (some e.source) 0 0 0 0 s.clock.hall) }

/-- What a chainable order does as a member of a chain (R163): the state changes and entries its rule gives, its detail, and what is left
for other blocks until all members are applied (log entry 51). -/
abbrev MemberApplied (k : Nat) (s : State) (a : Applied) : Order → Prop
  | .forcePoint n v => a.detail = 0 ∧ a.left = [.point n s.clock.hall false (s.pt n).facing] ∧ ∃ j : Journal,
      j = (if (s.pt n).frozen.isSome then
        s.jr.request s.clock.hall (chatterEntry n true (s.pt n).chatter (v == 1) s.clock.hall) else s.jr) ∧
      a.state = { WithPoint n { s.pt n with forced := some (v == 1), frozen := none, chatter := 0 } s with
        jr := j.request s.clock.hall (maintEntry n 0x0A 2 v (s.pt n).quality.code s.clock.hall) }
  | .releasePoint n => ((s.pt n).forced = none → a = ⟨s, 0, []⟩) ∧
      ∀ (value : Bool) (c : PointSettings), (s.pt n).forced = some value → s.ptSet n = some c → ∃ x : State, a.detail = 0 ∧
        x = { WithPoint n (s.pt n).unforced s with
          jr := s.jr.request s.clock.hall (maintEntry n 0x0B 3 (bit value) 0 s.clock.hall) } ∧
        ((s.pt n).qualified = value → a.state = x ∧ a.left = [.point n s.clock.hall true (s.pt n).facing]) ∧
        ((s.pt n).qualified ≠ value → a.left = [.point n s.clock.hall (s.pt n).qualified (s.pt n).facing] ∧
          ChangeRecorded n c { (s.pt n).unforced with rawTime := s.clock.hall, qualifyTime := s.clock.hall } value true
            { standing := (s.pt n).qualified, afterLoss := false, forcedRelease := true, settings := false } x a.state)
  | .setMode u m => ∀ mode, Mode.ofCode m = some mode →
      (look s.term.modes u = mode → a = ⟨s, 0, []⟩) ∧
      (look s.term.modes u ≠ mode → ∃ x : State,
        x = { s with
          term := { s.term with modes := put s.term.modes u mode }
          jr := s.jr.request s.clock.hall (modeEntry u (look s.term.modes u) mode k a.detail s.clock.hall) } ∧
        a.detail = ((List.range 128).filter fun t => (s.trm t).acting && (a.state.trm t).state == .disarmed).length ∧
        a.state = (s.termsOf u).foldl takeModeAlone x ∧
        a.left = (s.termsOf u).flatMap fun t =>
          if (s.trm t).state = .disarmed ∧ (a.state.trm t).state = .active then
            (((s.termSet t).map fun c => c.outputs).getD []).map fun i => Following.trip t i
          else [])
  | .isolate i => ((s.swi i).isolated = true → a = ⟨s, 0, []⟩) ∧
      ((s.swi i).isolated = false →
        ((∀ e, s.entryOf i = some e → e.kind ≠ .trip) → a = ⟨{ WithSwitch i { s.swi i with isolated := true } s with
          jr := s.jr.request s.clock.hall (maintEntry i 0x0C 0 0 0 s.clock.hall) }, 1, []⟩) ∧
        ∀ c e, s.swSet i = some c → s.entryOf i = some e → e.kind = .trip →
          (¬ (c.kind = .lockout ∧ s.operated c = true) → a = ⟨TripWithdrawn i c e .ready s, 1, [.shown i, .look]⟩) ∧
          (c.kind = .lockout → s.operated c = true → a = ⟨{ TripWithdrawn i c e .lockedOut s with
            jr := (TripWithdrawn i c e .lockedOut s).jr.request s.clock.hall
              (switchEntry i .foundOperated c.unit false none 0 0 7 0 s.clock.hall) }, 1, [.shown i, .test i, .look]⟩))
  | .restore i => ((s.swi i).isolated = false → a = ⟨s, 0, []⟩) ∧
      ((s.swi i).isolated = true → a = ⟨{ WithSwitch i { s.swi i with isolated := false } s with
        jr := s.jr.request s.clock.hall (maintEntry i 0x0D 1 0 0 s.clock.hall) }, 1, []⟩)
  | .resetSwitch i => ∀ c, s.swSet i = some c →
      ((s.swi i).state = .lockedOut → ∃ e : QueueEntry, e.switch = i ∧ e.kind = .reset ∧ e.cls = 3 ∧ e.joined = s.clock.elapsed ∧
        e.joinedHall = s.clock.hall ∧ a = ⟨{ s with sw := { s.sw with
          switches := put s.sw.switches i { s.swi i with state := .resetQueued }, queue := insertEntry e s.sw.queue } }, 1,
          [.shown i, .look]⟩) ∧
      ((s.swi i).state = .held → a = ⟨{ WithSwitch i { s.swi i with state := .ready, confirmedMark := false } s with
        jr := s.jr.request s.clock.hall (switchEntry i .released c.unit false none 0 0 1 0 s.clock.hall) }, 1, [.shown i]⟩) ∧
      ((s.swi i).state = .failed ∨ (s.swi i).state = .unconfirmed → ∃ new : SwitchState,
        (s.operated c = true → c.kind = .lockout → new = .lockedOut) ∧
        (s.operated c = true → c.kind ≠ .lockout → new = .confirmed) ∧ (s.operated c = false → new = .ready) ∧
        a = ⟨{ WithSwitch i { s.swi i with state := new } s with
          jr := s.jr.request s.clock.hall (switchEntry i .cleared c.unit false none 0 0 new.code 0 s.clock.hall) }, 1, [.shown i]⟩) ∧
      ((s.swi i).state = .ready ∨ (s.swi i).state = .confirmed → a = ⟨s, 0, []⟩)
  | o => a = ⟨(applyOrder k s o).1, (applyOrder k s o).2, []⟩

/-- A source counts active as the events taken so far leave it: as its next event still to come found it, or as it is. -/
abbrev ActiveSoFar (s : State) (await : Awaited) (n : Nat) : Prop :=
  (∀ x, await.find? (fun x => x.1 == n) = some x → x.2 = true) ∧
    (await.find? (fun x => x.1 == n) = none → (s.pt n).facing = true)

/-- A window takes an event of a source while others are still to come (R39, R40): an active window as it does alone; an inactive one as
alone where its input is active from this event on, through each of those still to come; else only its doubt flag is worked out. -/
abbrev InputAwaiting (s : State) (w : Nat) (c : WindowSettings) (await : Awaited) (time : HallTime) (standing : Bool) (u : State) : Prop :=
  ((s.window w).input = true → u = takeInput time standing .input s w) ∧
  ((s.window w).input = false → (∀ rest, rest <:+ await → ∃ n ∈ c.sources, ActiveSoFar s rest n) →
    u = takeInput time standing .input s w) ∧
  ((s.window w).input = false → ¬ (∀ rest, rest <:+ await → ∃ n ∈ c.sources, ActiveSoFar s rest n) →
    u = s.setWindow w { s.window w with doubt := s.doubtOf c })

/-- The members checked in intake order, each against the state as changed by the members before it (R163): where all pass, the state they
leave, their details and what they leave to other blocks, member by member; else the first failing slot with its outcome and detail. -/
inductive ChainCheck (live : State) : List Member → State → ChainVerdict → Prop where
  | done (s : State) : ChainCheck live [] s (.passed s [] [])
  | marked (m : Member) (ms : List Member) (s : State) (r : Result) : m.failure = some r →
      ChainCheck live (m :: ms) s (.failed m.slot r 0)
  | gone (m : Member) (ms : List Member) (s : State) (o : Order) : m.failure = none → orderIn s.port m.slot = some o →
      o.outOfRange s → ChainCheck live (m :: ms) s (.failed m.slot .badParameter 0)
  | turned (m : Member) (ms : List Member) (s : State) (o : Order) (r : Result) (d : Nat) : m.failure = none →
      orderIn s.port m.slot = some o → ¬ o.outOfRange s → o.turnedAway live s r d →
      ChainCheck live (m :: ms) s (.failed m.slot r d)
  | fails (m : Member) (ms : List Member) (s : State) (o : Order) (a : Applied) (k : Nat) (r : Result) (d : Nat) : m.failure = none →
      orderIn s.port m.slot = some o → ¬ o.outOfRange s → (∀ r d, ¬ o.turnedAway live s r d) →
      MemberApplied m.slot s a o → ChainCheck live ms a.state (.failed k r d) → ChainCheck live (m :: ms) s (.failed k r d)
  | passes (m : Member) (ms : List Member) (s t : State) (o : Order) (a : Applied) (ds : List (Nat × Nat)) (l : List Following) :
      m.failure = none → orderIn s.port m.slot = some o → ¬ o.outOfRange s → (∀ r d, ¬ o.turnedAway live s r d) →
      MemberApplied m.slot s a o → ChainCheck live ms a.state (.passed t ds l) →
      ChainCheck live (m :: ms) s (.passed t ((m.slot, a.detail) :: ds) (a.left ++ l))

end Sys2Proof.Machine

/-- O41. CLOSE (R163): the members are checked in intake order against the state the members before them leave; all are applied, or none.
The states of terms are read live (log entry 24). What the members leave to other blocks (point events, trip requests of terms, system points,
the look at the coil queue) is taken when all are applied, in the order of the members, so that no other block sees the state half applied
(how that is cut, that a term takes a SET-MODE member as it comes, and which of several point events activates a window, R40: log entry 51;
the consumers of a point event: log entry 11; what FORCE-POINT and RELEASE-POINT hand on and record: log entry 14; the entries before the
points, and the look last: log entries 53, 54). -/
def Obligations.ClosedChainsApplyAllOrNothing : Prop :=
  (∀ (s : State) (rest : List Following), (∀ n time standing before, ∃ await : Awaited,
      await = rest.filterMap (fun f => match f with
        | .point m _ _ b => some (m, b)
        | .trip _ _ | .shown _ | .test _ | .look => none) ∧
      Following.act rest s (.point n time standing before) =
        windowsTakeAwaiting await n time standing (switchesTake n (termsTake n s))) ∧
    (∀ t i, Following.act rest s (.trip t i) = requestTrip (.term t) i s) ∧
    (∀ i, Following.act rest s (.shown i) = syncSwitchPoints i s) ∧
    (∀ i, Following.act rest s (.test i) = giveUpTest i s) ∧ Following.act rest s .look = runQueue s ∧
    follow [] s = s ∧ (∀ f, follow (f :: rest) s = follow rest (Following.act rest s f)) ∧
    ∀ t, takeMode s t = (if (s.trm t).state = .disarmed ∧ ((takeModeAlone s t).trm t).state = .active then
      ((s.termSet t).map fun c => c.outputs).getD [] else []).foldl (fun z i => requestTrip (.term t) i z) (takeModeAlone s t)) ∧
  (∀ (s : State) (await : Awaited) (n : Nat) (time : HallTime) (standing : Bool),
    (s.halted = true → windowsTakeAwaiting await n time standing s = s) ∧
    (s.halted = false → windowsTakeAwaiting await n time standing s =
      ((List.range 384).filter fun w => (s.winSet w).any fun c => c.sources.contains n).foldl
        (takeInputAwaiting await time standing .input) s) ∧
    ∀ w c, s.winSet w = some c → InputAwaiting s w c await time standing (takeInputAwaiting await time standing .input s w)) ∧
  ∀ (s : State) (k : Nat) (o : Order) (ch : Chain), Offered s k .closing o → TakenNow s o →
    s.engine.chain = some ch → ch.members.length < 16 → MembersDistinct ch.members → (∀ m ∈ ch.members, m.slot ≠ k) →
    (∀ m ∈ ch.members, orderIn s.port m.slot ≠ none) →
    ∃ (u : State) (f : Option Result) (ms : List Member) (start : State) (verdict : ChainVerdict),
      exec .chainClose s = .next (finish u) ∧ JoinFailure s o f ∧ ms = ch.members ++ [{ slot := k, failure := f }] ∧
      start = { s with port := { s.port with holders := start.port.holders },
                       engine := { s.engine with intake := s.engine.intake.tail, chain := none } } ∧
      start.holder k = .working ∧ (∀ j, j ≠ k → start.holder j = s.holder j) ∧
      ChainCheck start ms start verdict ∧ u.engine = start.engine ∧
      match verdict with
      | .passed after details left => OnlyAnswers (ms.map fun m => m.slot) (follow left after) u ∧
          (details.map fun x => x.1) = (ms.map fun m => m.slot) ∧
          ∀ x ∈ details, SlotAnswered x.1 .ok x.2 u
      | .failed slot r d => OnlyAnswers (ms.map fun m => m.slot) start u ∧ SlotAnswered slot r d u ∧
          ∀ m ∈ ms, m.slot ≠ slot → SlotAnswered m.slot .chainFailed 0 u

/-! ## Adoption -/

/-- O43. ADOPT taken (R161, R172, R171): its refusals with the last adoption outcome (R176), or the engine held and staging guarded. The
scope shown for an ADOPT without a defined scope is not stated (log entry 17); details: 13.4. -/
def Obligations.AdoptionsTaken : Prop :=
  ∀ (s : State) (k code : Nat), Offered s k .alone (.adopt code) →
    (∀ r : Result, (s.settings.adopted = false ∧ code ≠ 2 ∧ r = .notConfigured) ∨
        (s.settings.adopted = true ∧ code ≠ 1 ∧ code ≠ 2 ∧ r = .badParameter) →
      ∃ u, exec .adopt s = .next (finish u) ∧ Published k r 0 s u ∧ u.settings.lastResult.toNat = r.code ∧
        (code = 1 → u.settings.lastScope.toNat = 1) ∧
        u = { s with port := u.port, engine := u.engine, free := u.free, settings :=
          { s.settings with lastScope := u.settings.lastScope, lastResult := u.settings.lastResult } }) ∧
    ∀ scope : Scope, (code = 2 ∧ scope = .full) ∨ (code = 1 ∧ scope = .annunciation ∧ s.settings.adopted = true) →
      ∃ u, exec .adopt s = .next u ∧ u.holder k = .working ∧ (∀ j, j ≠ k → u.holder j = s.holder j) ∧
        u = { s with port := { s.port with holders := u.port.holders }, engine := { s.engine with
          intake := s.engine.intake.tail, working := some { slot := k, scope := scope, since := s.clock.elapsed } } } ∧
        ∀ a v, 0x10000 ≤ a → a < 0x20000 → a % 4 = 0 → hostWrite a 0xF#4 v u = WriteRefused a u

namespace Sys2Proof.Machine

/-- The adoption would change the trip side (R174; loop settings: log entry 32). -/
abbrev TripSideChanged (a b : Tables) : Prop :=
  (∃ t, t < 128 ∧ look a.terms t ≠ look b.terms t) ∨ (∃ i, i < 48 ∧ look a.switches i ≠ look b.switches i) ∨
    (∃ c, c < 16 ∧ (look a.channels c).mode ≠ (look b.channels c).mode) ∨ a.general.rate ≠ b.general.rate ∨
    a.general.cycle ≠ b.general.cycle

abbrev TermActing (s : State) (t : Nat) : Prop := t < 128 ∧ ((s.trm t).state = .timing ∨ (s.trm t).state = .active)

abbrev SwitchBusy (s : State) (i : Nat) : Prop :=
  i < 48 ∧ ((s.swi i).state = .queued ∨ (s.swi i).state = .pulsing ∨ (s.swi i).state = .resetQueued ∨
    (s.swi i).state = .resetPulsing)

/-- BUSY with this detail (R174): the lowest acting term, or the lowest such switch with bit 16 set. -/
abbrev AdoptionBusy (s : State) (d : Nat) : Prop :=
  (TermActing s d ∧ ∀ t, t < d → ¬ TermActing s t) ∨
    ((∀ t, ¬ TermActing s t) ∧ ∃ i, d = i + 65536 ∧ SwitchBusy s i ∧ ∀ j, j < i → ¬ SwitchBusy s j)

/-- A term of the tables being adopted that would make a force unsafe (R174). -/
abbrev UnsafeAfter (s : State) (b : Tables) (t : Nat) : Prop :=
  ∃ c, look b.terms t = some c ∧ (∃ n ∈ c.points, (s.pt n).forced ≠ none ∧ look b.points n ≠ none) ∧
    ∃ i ∈ c.outputs, ¬ ((s.swi i).isolated = true ∧ look b.switches i ≠ none)

end Sys2Proof.Machine

/-- O44. The end of an ADOPT (R172 to R176): SETTINGS-INVALID, KEY-LOCKED, BUSY and FORCE-UNSAFE leave everything but the answer as it is;
else the swap: live tables and adopted copy replaced, the tally raised, the SETTINGS entry requested before the change rules (their order: log entry
41; what each changes, and what validation judges: O10), OK with the tally as detail, the guard lifted. An ADOPT WORKING at a halt stays so
(R168). -/
def Obligations.AdoptionsEnd : Prop :=
  ∀ (s : State) (a : Adopting) (new : Tables), s.memoryLaw → s.engine.working = some a → a.slot < 32 →
    orderIn s.port a.slot = some (.adopt a.scope.code) → new = stagedTables s.port.mem a.scope s.settings.live →
    (s.halted = true → exec .adoptValidationEnd s = .next s) ∧
    (s.halted = false →
      ∃ u, exec .adoptValidationEnd s = .next (finish u) ∧ u.settings.lastScope.toNat = a.scope.code ∧
        u.engine = { s.engine with working := none } ∧
        (∀ r d, (∃ x, validate s.port.mem a.scope s.settings.live = some x ∧ r = Result.settingsInvalid ∧ d = invalidDetail x) ∨
            (validate s.port.mem a.scope s.settings.live = none ∧ a.scope = .full ∧ s.settings.adopted = true ∧ s.port.key = false ∧
              r = .keyLocked ∧ d = 0) ∨
            (validate s.port.mem a.scope s.settings.live = none ∧
              ¬ (a.scope = .full ∧ s.settings.adopted = true ∧ s.port.key = false) ∧
              ((TripSideChanged s.settings.live new ∧ AdoptionBusy s d ∧ r = .busy) ∨
                (¬ (TripSideChanged s.settings.live new ∧ ∃ e, AdoptionBusy s e) ∧ UnsafeAfter s new d ∧
                  (∀ t, t < d → ¬ UnsafeAfter s new t) ∧ r = .forceUnsafe))) →
          OnlyAnswers [a.slot] s u ∧ SlotAnswered a.slot r d u ∧ u.settings.lastResult.toNat = r.code) ∧
        (validate s.port.mem a.scope s.settings.live = none →
          ¬ (a.scope = .full ∧ s.settings.adopted = true ∧ s.port.key = false) →
          ¬ (TripSideChanged s.settings.live new ∧ ∃ e, AdoptionBusy s e) → (∀ t, ¬ UnsafeAfter s new t) →
          SlotAnswered a.slot .ok (s.settings.tally + 1).toNat u ∧ u.settings.lastResult = 0 ∧
          u.settings.live = new ∧ u.settings.copy = new ∧ u.settings.tally = s.settings.tally + 1 ∧
          u.settings.adopted = (s.settings.adopted || decide (a.scope = .full)) ∧
          ∃ x : State, x = { s with
              settings := { s.settings with
                live := new, copy := new, adopted := u.settings.adopted, tally := s.settings.tally + 1 }
              jr := s.jr.request s.clock.hall
                (settingsEntry (countChanges s.settings.live new) a.scope (s.settings.tally + 1) s.clock.hall) } ∧
            OnlyAnswers [a.slot] (applyChanges (decide (s.settings.adopted = false ∧ a.scope = .full)) s.settings.live new x) u)) ∧
    (a.scope = .annunciation → new.terms = s.settings.live.terms ∧ new.switches = s.settings.live.switches ∧
      new.concentrators = s.settings.live.concentrators ∧ ¬ TripSideChanged s.settings.live new)


namespace Sys2Proof.Machine

/-- The reason of the first fault in the list that is present; none where none is. -/
def FirstFails : List (Prop × Reason) → Option Reason → Prop
  | [], r => r = none
  | (p, x) :: l, r => (p → r = some x) ∧ (¬ p → FirstFails l r)

/-- The checks of an entry with a configured byte: 0 checks nothing more, 1 the listed faults, any other value is BAD-RANGE. -/
abbrev ConfiguredFails (m : List Host.Cell) (place : Nat) (l : List (Prop × Reason)) (r : Option Reason) : Prop :=
  (stagedByte m place = 0 → r = none) ∧ (stagedByte m place = 1 → FirstFails l r) ∧ (2 ≤ stagedByte m place → r = some .badRange)

/-- The loop combinations with the most concentrators each allows (R21). -/
abbrev LoopAllows (g : GeneralSettings) (n : Nat) : Prop :=
  (g.rate = 4 ∧ g.cycle = 1 ∧ n = 12) ∨ (g.rate = 4 ∧ g.cycle = 2 ∧ n = 16) ∨ (g.rate = 2 ∧ g.cycle = 2 ∧ n = 12) ∨
    (g.rate = 2 ∧ g.cycle = 4 ∧ n = 16)

/-- An edge of the cascade graph (R123). -/
abbrev CascadeEdge (t : Tables) (i j : Nat) : Prop :=
  ∃ c, look t.switches i = some c ∧ ((∃ x ∈ c.successors, x.1 = j) ∨ (c.kind ≠ .hold ∧ c.backup = some j))

/-- The tables of a scope in the order of their validation (R172). -/
abbrev tablesIn (scope : Scope) : List TableName :=
  if scope = .full then [.general, .concentrators, .points, .channels, .windows, .groups, .panels, .terms, .switches]
  else [.general, .points, .channels, .windows, .groups, .panels]

/-- What the check of an entry finds. -/
abbrev entryFault (m : List Host.Cell) (scope : Scope) (live t : Tables) : TableName → Nat → Option Reason
  | .general, _ => checkGeneral scope t.general
  | .concentrators, e => checkConcentrator m t e
  | .points, e => checkPoint m scope live t e
  | .channels, e => checkChannel m scope live t e
  | .windows, e => checkWindow m t e
  | .groups, e => checkGroup t e
  | .panels, e => checkPanel m e
  | .terms, e => checkTerm m t e
  | .switches, e => checkSwitch m t e

end Sys2Proof.Machine

/-- O10. Validation (R172): the tables of the scope in their order, entry by entry, the first fault found ends it; what each table's entries are
judged for, in order: R21, R26, R2, R134, R37, R62, R73, R85, R99 with R136, and the cascade graph (R123). The points that order leaves open:
log entry 22; the live settings that an ANNUNCIATION adoption reads beside it: R134, R85, R99. -/
def Obligations.ValidationJudgesTables : Prop :=
  ∀ (m : List Host.Cell) (scope : Scope) (live t : Tables), t = stagedTables m scope live →
    (∀ table e r, validate m scope live = some (table, e, r) ↔
      (∃ before behind, tablesIn scope = before ++ table :: behind ∧ e < table.entries ∧
        entryFault m scope live t table e = some r ∧ (∀ i, i < e → entryFault m scope live t table i = none) ∧
        ∀ x ∈ before, ∀ i, i < x.entries → entryFault m scope live t x i = none) ∨
      (scope = .full ∧ (∀ x i, i < x.entries → entryFault m scope live t x i = none) ∧ table = .switches ∧ r = .cascadeLoop ∧
        Relation.TransGen (CascadeEdge t) e e ∧ ∀ i, i < e → ¬ Relation.TransGen (CascadeEdge t) i i)) ∧
    FirstFails
      [ (scope = .full ∧ ∀ n, ¬ LoopAllows t.general n, .badLoop),
        (t.general.chatterPeriod < 1 ∨ 60 < t.general.chatterPeriod, .badRange),
        (t.general.chimeTime < 500 ∨ 5000 < t.general.chimeTime, .badRange),
        (t.general.highWater < 1 ∨ 1023 < t.general.highWater, .badRange),
        (4 < t.general.levelJournal ∨ 4 < t.general.levelJournalHigh ∨ 4 < t.general.levelOrder ∨ 4 < t.general.levelCondition,
          .badRange) ] (checkGeneral scope t.general) ∧
    (∀ e a, e < 16 → a = concentratorPlace e → ConfiguredFails m a
      [ (stagedByte m (a + 1) ≠ 0 ∧ (stagedByte m (a + 1) < 2 ∨ 32 < stagedByte m (a + 1)), .badRange),
        (64 < stagedByte m (a + 2), .badRange), (999 < stagedHalf m (a + 4), .badRange),
        (∃ n, LoopAllows t.general n ∧
          n < ((List.range 16).filter fun c => (look t.concentrators c).isSome && decide (c ≤ e)).length, .badLoop) ]
      (checkConcentrator m t e)) ∧
    (∀ e a, e < 544 → a = pointPlace e → ∃ base, ConfiguredFails m a
        [ (512 ≤ e ∧ (look t.channels ((e - 512) / 2)).mode ≠ .continuous, .channelMode),
          (stagedByte m (a + 6) = 1 ∨ stagedByte m (a + 6) = 255 ∨
            (stagedByte m (a + 6) ≠ 0 ∧ stagedByte m (a + 6) ≤ stagedByte m (a + 7)), .badRange),
          (253 < stagedByte m (a + 7), .badRange), (1 < stagedByte m (a + 1) ∨ 1 < stagedByte m (a + 2), .badRange),
          (e < 512 ∧ look t.concentrators (e / 32) = none, .badReference) ] base ∧
      (∀ r, base = some r → checkPoint m scope live t e = some r) ∧
      (base = none → FirstFails
        [ (scope = .annunciation ∧ look t.points e = none ∧ ((∃ i c, look live.terms i = some c ∧ e ∈ c.points) ∨
            ∃ i c, look live.switches i = some c ∧ c.feedback = some e), .badReference) ] (checkPoint m scope live t e))) ∧
    (∀ e c, e < 16 → c = look t.channels e →
      (scope = .annunciation ∧ (look live.channels e).mode = .testReturn → checkChannel m scope live t e = none) ∧
      (¬ (scope = .annunciation ∧ (look live.channels e).mode = .testReturn) → FirstFails
        [ (scope = .full ∧ 1 < stagedByte m (channelPlace e), .badRange), (1023 < c.low, .badRange),
          (c.mode = .continuous ∧ (1023 < c.high ∨ 63 < c.hysteresis), .badRange),
          (c.mode = .continuous ∧ c.high ≤ c.low + 2 * c.hysteresis, .badRange), (c.mode = .testReturn ∧ c.low = 0, .badRange) ]
        (checkChannel m scope live t e))) ∧
    (∀ e a, e < 384 → a = windowPlace e → ∃ faults, ConfiguredFails m a faults (checkWindow m t e) ∧
      ∀ c, look t.windows e = some c → faults =
        [ (stagedByte m (a + 7) < 1 ∨ 8 < stagedByte m (a + 7) ∨ ¬ c.sources.Nodup, .badRange),
          (∃ n ∈ c.sources, 679 < n, .badReference), (∃ n ∈ c.sources, n < 544 ∧ look t.points n = none, .badReference),
          (∃ p q, c.place = some (p, q) ∧ p < 16 ∧ look t.panels p = none, .badReference),
          (2 < stagedByte m (a + 1) ∨ 8 < c.unit ∨ (∃ g, c.group = some g ∧ 31 < g) ∨
            ∃ p q, c.place = some (p, q) ∧ (15 < p ∨ 23 < q), .badRange),
          (c.place ≠ none ∧ ∃ w d, w < e ∧ look t.windows w = some d ∧ d.place = c.place, .positionTwice),
          (∃ g, c.group = some g ∧ 64 ≤ ((List.range e).filter fun w => (look t.windows w).any fun d => d.group == some g).length,
            .badRange) ]) ∧
    (∀ e, e < 32 → FirstFails
      [ (1000 < look t.groups e, .badRange),
        (∃ w c, look t.windows w = some c ∧ c.group = some e ∧ (look t.groups e < 12 ∨ ∃ v d n p, look t.windows v = some d ∧
          d.group = some e ∧ n ∈ d.sources ∧ n < 544 ∧ look t.points n = some p ∧ look t.groups e < p.setFilter + 12),
          .settleShort) ] (checkGroup t e)) ∧
    (∀ e, e < 16 → ConfiguredFails m (panelPlace e) [(1 < stagedByte m (panelPlace e + 1), .badRange)] (checkPanel m e)) ∧
    (scope = .full → ∀ e a, e < 128 → a = termPlace e → ∃ faults, ConfiguredFails m a faults (checkTerm m t e) ∧
      ∀ c, look t.terms e = some c → faults =
        [ (stagedByte m (a + 4) < 1 ∨ 4 < stagedByte m (a + 4) ∨ stagedByte m (a + 16) < 1 ∨ 8 < stagedByte m (a + 16) ∨
            ¬ c.outputs.Nodup, .badRange),
          (c.vote < 1 ∨ c.points.length < c.vote, .badRange),
          (10000 < c.delay ∨ 8 < c.unit ∨ 2 < stagedByte m (a + 3), .badRange), (c.unit ≠ 8 ∧ c.modes = [], .badRange),
          (∃ n ∈ c.points, 543 < n, .badReference), (∃ n ∈ c.points, look t.points n = none, .badReference),
          (∃ i ∈ c.outputs, look t.switches i = none, .badReference) ]) ∧
    (scope = .full → ∀ e a, e < 48 → a = switchPlace e → ∃ faults, ConfiguredFails m a faults (checkSwitch m t e) ∧
      ∀ c, look t.switches e = some c → faults =
        [ (2 < stagedByte m (a + 1) ∨ 8 < c.unit ∨ c.cls < 1 ∨ 2 < c.cls, .badRange),
          (c.kind ≠ .hold ∧ c.feedback = none, .feedbackMissing),
          (∃ n, c.feedback = some n ∧ (543 < n ∨ look t.points n = none), .badReference),
          (c.kind ≠ .hold ∧ (c.minPulse < 10 ∨ 100 < c.minPulse ∨ c.maxPulse < 40 ∨ 500 < c.maxPulse ∨
            c.maxPulse < c.minPulse + 20), .badRange),
          (c.kind = .lockout ∧ (c.resetPulse < 20 ∨ 200 < c.resetPulse), .badRange),
          (3 < stagedByte m (a + 12) ∨ (∃ x ∈ c.successors, 47 < x.1) ∨
            (∃ i, i < c.successors.length ∧ 1 < stagedByte m (a + 17 + 2 * i)) ∨ ¬ (c.successors.map fun x => x.1).Nodup, .badRange),
          (c.kind ≠ .hold ∧ ∃ b, c.backup = some b ∧ 47 < b, .badRange),
          ((∃ x ∈ c.successors, look t.switches x.1 = none) ∨ (c.kind ≠ .hold ∧ ∃ b, c.backup = some b ∧ look t.switches b = none),
            .badReference),
          (∃ h i, c.supervision = some (h, i) ∧ (15 < h ∨ i < 1 ∨ 60 < i), .badRange),
          (∃ h i, c.supervision = some (h, i) ∧ (look t.channels h).mode = .continuous, .channelMode) ])


/-! ## The field loop -/

namespace Sys2Proof.Machine

/-- A SCAN REPLY: address, kind, echo, contact states, wiring-fault flags, CRC (R23, R178). -/
abbrev scanReply (a : Nat) (echo : Byte) (contacts wiring : Nat) : List Byte :=
  withCrc ([BitVec.ofNat 8 a, 0x81#8, echo] ++ bytesOf 4 contacts ++ bytesOf 4 wiring)

/-- A HOLD-OFF REPLY (R23, R178). -/
abbrev holdOffReply (a : Nat) (echo : Byte) : List Byte := withCrc [BitVec.ofNat 8 a, 0x82#8, echo]

/-- A slot whose call failed or was held off: `k` is the concentrator's record with its failure counted; the call is counted too, and the
concentrator joins the retry list while it has used fewer than 2 retries (R24, R25, R33). -/
abbrev CallFailed (s : State) (y : FieldCycle) (a : Nat) (line : LineInput) (isError : Bool) (k : Concentrator) : Prop :=
  exec (.fieldSlotEnd line) s = .next { s with field := { s.field with
    concentrators := put s.field.concentrators a { k with calls := min (k.calls + 1) 65535 }
    cycle := some { y with
      call := none, slot := y.slot + 1
      retry := if y.retried.count a < 2 then y.retry ++ [a] else y.retry
      errors := if isError then a :: y.errors else y.errors } } }

/-- A sample was pending at its value for the time of its filter, or its filter is 0 (R3). -/
abbrev FilterRun (c : PointSettings) (p : Point) (v : Bool) (elapsed : Nat) : Prop :=
  match p.pending with
  | some d => d.filter ≤ elapsed - d.startElapsed
  | none => (if v then c.setFilter else c.clearFilter) = 0

/-- A qualified change made (R5, R10): recorded and handed to every consumer, the windows taking it as standing or not; of a forced point
neither (R12). -/
abbrev ChangeMade (n : Nat) (c : PointSettings) (p : Point) (before counted : Bool) (f : ChangeFlags) (standing : Bool) (s u : State) : Prop :=
  (p.forced ≠ none → u = WithPoint n p s) ∧
    (p.forced = none → ∃ x, ChangeRecorded n c p before counted f s x ∧
      u = windowsTake n p.rawTime standing (switchesTake n (termsTake n x)))

end Sys2Proof.Machine

/-- O45. Field loop cycles, SCAN CALLs and REPEAT calls (R22, R23, R25, with the slots per cycle of R21 and the silence of R36 in HALTED; a
concentrator made unconfigured during the cycle is not called in it again: log entry 25; the error thresholds in force at the start: log
entry 44; due events: log entry 2), and the bits of a frame on the line (R178; no levels: log entry 50). -/
def Obligations.FieldCyclesAndCalls : Prop :=
  ∀ s : State,
    (s.fieldLineBits = s.field.line.flatMap fun b =>
      [LineBit.start, .data (b.getLsbD 0), .data (b.getLsbD 1), .data (b.getLsbD 2), .data (b.getLsbD 3), .data (b.getLsbD 4),
        .data (b.getLsbD 5), .data (b.getLsbD 6), .data (b.getLsbD 7), .stop]) ∧
    (∀ t, s.field.nextAt = some t → s.field.cycle = none → t ≤ s.clock.elapsed →
      (s.halted = true → exec .fieldCycleStart s = .next s) ∧
      (s.halted = false → ∃ y : FieldCycle, ∃ slots : Nat,
        ((s.settings.live.general.rate = 4 ∧ s.settings.live.general.cycle = 1) ∨
          (s.settings.live.general.rate = 2 ∧ s.settings.live.general.cycle = 2) → slots = 12) ∧
        (¬ ((s.settings.live.general.rate = 4 ∧ s.settings.live.general.cycle = 1) ∨
          (s.settings.live.general.rate = 2 ∧ s.settings.live.general.cycle = 2)) → slots = 25) ∧
        y = { count := s.field.nextCount, start := s.clock.hall, startElapsed := s.clock.elapsed,
              schedule := (List.range 16).filter (fun c => (s.concSet c).isSome), slots := slots, slot := 0, call := none,
              retry := [], retried := [], taken := [], errors := [], withdrawn := [], thresholds := y.thresholds } ∧
        (∀ c set, s.concSet c = some set → look y.thresholds c = set.errorThreshold) ∧
        exec .fieldCycleStart s = .next { s with field := { s.field with
          cycle := some y, nextCount := s.field.nextCount + 1, nextAt := some (t + s.settings.live.general.cycle) } })) ∧
    ∀ y, s.field.cycle = some y → y.call = none →
      (∀ a, y.schedule[y.slot]? = some a →
        (s.concSet a ≠ none → a ∉ y.withdrawn → exec .scanCall s = .next { s with field := { s.field with
          cycle := some { y with call := some (a, false) }, line := withCrc [BitVec.ofNat 8 a, 0x01#8, y.count] } }) ∧
        (s.concSet a = none ∨ a ∈ y.withdrawn →
          exec .scanCall s = .next { s with field := { s.field with cycle := some { y with slot := y.slot + 1 } } })) ∧
      (y.schedule.length ≤ y.slot → y.slot < y.slots →
        (y.retry = [] →
          exec .repeatCall s = .next { s with field := { s.field with cycle := some { y with slot := y.slot + 1 } } }) ∧
        ∀ a rest, y.retry = a :: rest →
          (s.concSet a ≠ none → a ∉ y.withdrawn → exec .repeatCall s = .next { s with field := { s.field with
            cycle := some { y with call := some (a, true), retry := rest, retried := a :: y.retried }
            line := withCrc [BitVec.ofNat 8 a, 0x02#8, y.count] } }) ∧
          (s.concSet a = none ∨ a ∈ y.withdrawn → exec .repeatCall s = .next { s with field := { s.field with
            cycle := some { y with slot := y.slot + 1, retry := rest, retried := a :: y.retried } } }))

/-- O46. What came back in a slot of the field loop (R24, R25, R28, R33), a concentrator found (R29) or regained (R31), and the samples of
its points (R3, R7; one reply's quality before its value: log entry 12; filters measured between cycle starts: log entry 27; a reply with
another kind or length counts as a CRC error: log entry 26; a concentrator made unconfigured during its cycle: log entry 25; the points of one
reply or regain in rising number, each handed on before the next: log entry 45). A fresh point (R16) takes its first sample directly. A
configured concentrator is never ABSENT (R27): there the reply changes nothing more. And what every qualified change does (R5, R10, R12; the
order of the consumers: log entry 11), with those of a sample and of a regain (R3, R7, R31), both counted. -/
def Obligations.FieldRepliesJudged : Prop :=
  (∀ (s : State) (n : Nat) (c : PointSettings) (p : Point) (before counted : Bool) (f : ChangeFlags) (standing : Bool),
    ChangeMade n c p before counted f standing s (makeChange n c p before counted f standing s)) ∧
  (∀ (s : State) (n : Nat) (c : PointSettings) (v : Bool) (time : HallTime) (elapsed : Nat), v ≠ (s.pt n).qualified →
    FilterRun c (s.pt n) v elapsed → ∃ start : HallTime, (∀ d, (s.pt n).pending = some d → start = d.start) ∧
      ((s.pt n).pending = none → start = time) ∧
      samplePoint n c v time elapsed s = makeChange n c
        { s.pt n with raw := v, qualified := v, pending := none, rawTime := start, qualifyTime := time } (s.pt n).facing true
        { standing := false, afterLoss := false, forcedRelease := false, settings := false } false s) ∧
  (∀ (s : State) (n : Nat) (c : PointSettings) (v closed fault : Bool) (time : HallTime), s.ptSet n = some c →
    v = (closed != c.activeOpen) → v ≠ (s.pt n).qualified → regainField n closed fault time s = makeChange n c
      { s.pt n with
        raw := v, qualified := v, live := if fault then .wiring else .good, pending := none, fresh := false
        rawTime := time, qualifyTime := time } (s.pt n).facing true
      { standing := v, afterLoss := true, forcedRelease := false, settings := false } true s) ∧
  (∀ (s : State) (y : FieldCycle) (a : Nat) (isRepeat : Bool) (line : LineInput), s.field.cycle = some y →
    y.call = some (a, isRepeat) → s.concSet a = none ∨ a ∈ y.withdrawn → exec (.fieldSlotEnd line) s = .next { s with field := { s.field with
      cycle := some { y with call := none, slot := y.slot + 1 } } }) ∧
  ∀ (s : State) (y : FieldCycle) (a : Nat) (isRepeat : Bool) (set : ConcentratorSettings),
    s.field.cycle = some y → y.call = some (a, isRepeat) → s.concSet a = some set → a ∉ y.withdrawn →
    CallFailed s y a .silent true { s.conc a with timeouts := min ((s.conc a).timeouts + 1) 65535 } ∧
    CallFailed s y a .unended true { s.conc a with crcErrors := min ((s.conc a).crcErrors + 1) 65535 } ∧
    (∀ bytes, (∀ e contacts wiring, bytes ≠ scanReply a e contacts wiring) → (∀ e, bytes ≠ holdOffReply a e) →
      CallFailed s y a (.frame bytes) true { s.conc a with crcErrors := min ((s.conc a).crcErrors + 1) 65535 }) ∧
    (∀ e, e ≠ y.count → ∀ bytes, bytes = holdOffReply a e ∨ (∃ contacts wiring, bytes = scanReply a e contacts wiring) →
      CallFailed s y a (.frame bytes) true { s.conc a with staleEchoes := min ((s.conc a).staleEchoes + 1) 65535 }) ∧
    CallFailed s y a (.frame (holdOffReply a y.count)) false
      { s.conc a with holdOffs := min ((s.conc a).holdOffs + 1) 65535 } ∧
    ∀ contacts wiring, contacts < 2 ^ 32 → wiring < 2 ^ 32 →
      ((s.conc a).link = .absent →
        exec (.fieldSlotEnd (.frame (scanReply a y.count contacts wiring))) s = .next (finish { s with field := { s.field with
          concentrators := put s.field.concentrators a { s.conc a with calls := min ((s.conc a).calls + 1) 65535 }
          cycle := some { y with call := none, slot := y.slot + 1, taken := a :: y.taken } } })) ∧
      ((s.conc a).link ≠ .absent → ∃ (good : Nat) (new : LinkState) (x u : State),
        exec (.fieldSlotEnd (.frame (scanReply a y.count contacts wiring))) s = .next (finish u) ∧ Aside s u ∧
        good = min ((s.conc a).goodCount + 1) 255 ∧
        x = { s with field := { s.field with
          concentrators := put s.field.concentrators a { s.conc a with
            calls := min ((s.conc a).calls + 1) 65535, link := new, failedCount := 0, goodCount := good, lastGood := y.start }
          cycle := some { y with call := none, slot := y.slot + 1, taken := a :: y.taken } } } ∧
        u.field = x.field ∧
        (∀ n, n < 544 → (n / 32 ≠ a ∨ s.ptSet n = none) → u.pt n = s.pt n) ∧
        ((s.conc a).link = .healthy ∨ (s.conc a).link = .suspect → new = .healthy ∧
          u = handSamples a contacts wiring y.start y.startElapsed x ∧
          ∀ n c v, n / 32 = a → s.ptSet n = some c → v = (contacts.testBit (n % 32) != c.activeOpen) →
            (u.pt n).raw = v ∧ (u.pt n).live = (if wiring.testBit (n % 32) then .wiring else .good) ∧
            ((s.pt n).fresh = true ∨ v = (s.pt n).qualified ∨ FilterRun c (s.pt n) v y.startElapsed →
              (u.pt n).qualified = v ∧ (u.pt n).pending = none) ∧
            ((s.pt n).fresh = false → v ≠ (s.pt n).qualified → ¬ FilterRun c (s.pt n) v y.startElapsed →
              (u.pt n).qualified = (s.pt n).qualified ∧ (u.pt n).pending = some ((s.pt n).pending.getD
                { start := y.start, startElapsed := y.startElapsed, filter := if v then c.setFilter else c.clearFilter }))) ∧
        ((s.conc a).link = .seeking → new = .healthy ∧ ∃ active : Nat,
          active = ((s.pointsOf a).filter fun n => (s.ptSet n).any fun c => contacts.testBit (n % 32) != c.activeOpen).length ∧
          u = (s.pointsOf a).foldl
            (fun z n => foundField n (contacts.testBit (n % 32)) (wiring.testBit (n % 32)) y.start z)
            { x with jr := s.jr.request s.clock.hall (linkEntry false a 0 y.start 0 active) }) ∧
        ((s.conc a).link = .lost ∨ (s.conc a).link = .regaining → good < set.regainCount → new = .regaining ∧ u = x) ∧
        ((s.conc a).link = .lost ∨ (s.conc a).link = .regaining → set.regainCount ≤ good →
          new = .healthy ∧ (∀ z : State, z.settings.adopted = true → ((setSystemPoint (640 + a) false z).pt (640 + a)).qualified = false) ∧
          ∃ differ : Nat,
          differ = ((s.pointsOf a).filter fun n =>
            (s.ptSet n).any fun c => (contacts.testBit (n % 32) != c.activeOpen) != (s.pt n).qualified).length ∧
          u = (s.pointsOf a).foldl
            (fun z n => regainField n (contacts.testBit (n % 32)) (wiring.testBit (n % 32)) y.start z)
            (setSystemPoint (640 + a) false
              { x with jr := s.jr.request s.clock.hall (linkEntry false a 2 y.start (s.conc a).lostAt differ) })) ∧
        ((s.conc a).link = .seeking ∨ (((s.conc a).link = .lost ∨ (s.conc a).link = .regaining) ∧ set.regainCount ≤ good) →
          ∀ n c v, n / 32 = a → s.ptSet n = some c → v = (contacts.testBit (n % 32) != c.activeOpen) →
            (u.pt n).raw = v ∧ (u.pt n).qualified = v ∧ (u.pt n).pending = none ∧
            (u.pt n).live = (if wiring.testBit (n % 32) then .wiring else .good)))

/-- O47. The end of a field loop cycle: a failed cycle for each called concentrator that gave no reply (R28), entry into LOST (R30) and its
points (R7), and the error history with the marginal flag by the error threshold in force at the cycle's start (R34; log entry 44). The
concentrators are taken in rising address: log entry 45; one made unconfigured during the cycle: log entry 25. -/
def Obligations.FieldCyclesEnd : Prop :=
  ∀ (s : State) (y : FieldCycle), s.field.cycle = some y → y.call = none → y.slots ≤ y.slot → y.schedule.Nodup →
    ∃ u : State, exec .fieldCycleEnd s = .next (finish u) ∧ Aside s u ∧
      u = y.schedule.foldl (endCycleOf y) { s with field := { s.field with cycle := none } } ∧
      u.field = { s.field with cycle := none, concentrators := u.field.concentrators } ∧
      (∀ c, c < 16 → c ∉ y.schedule ∨ s.concSet c = none ∨ c ∈ y.withdrawn → u.conc c = s.conc c) ∧
      (∀ n, n < 544 → (n / 32 ∉ y.schedule ∨ s.ptSet n = none) → u.pt n = s.pt n) ∧
      ∀ c set, c ∈ y.schedule → s.concSet c = some set → c ∉ y.withdrawn → ∃ (failed : Nat) (reaches : Bool) (history : List Nat),
        failed = min ((s.conc c).failedCount + 1) 255 ∧
        reaches = decide (c ∉ y.taken ∧ (s.conc c).link = .suspect ∧ set.lostThreshold ≤ failed) ∧
        history = ((y.errors.count c) :: (s.conc c).history).take 1000 ∧
        (u.conc c).history = history ∧
        ((u.conc c).marginal = true ↔ look y.thresholds c ≠ 0 ∧ look y.thresholds c < history.sum) ∧
        (c ∈ y.taken ∨ (s.conc c).link = .absent → ∃ m, u.conc c = { s.conc c with history := history, marginal := m }) ∧
        (c ∉ y.taken → (s.conc c).link ≠ .absent → ∃ m, u.conc c = { s.conc c with
          history := history, marginal := m, goodCount := 0, failedCount := failed
          wasLost := (s.conc c).wasLost || reaches
          lostAt := if reaches then s.clock.hall else (s.conc c).lostAt
          link := match (s.conc c).link with
            | .healthy => .suspect
            | .suspect => if reaches then .lost else .suspect
            | .regaining => .lost
            | z => z }) ∧
        (reaches = true →
          (∀ z : State, z.settings.adopted = true → ((setSystemPoint (640 + c) true z).pt (640 + c)).qualified = true) ∧
          (∀ n, n / 32 = c → s.ptSet n ≠ none → (u.pt n).live = .lost ∧ (u.pt n).pending = none ∧
            (u.pt n).qualified = (s.pt n).qualified) ∧
          ∀ (k : Concentrator) (z : State), loseConcentrator c set k z = (z.pointsOf c).foldl loseField
            (setSystemPoint (640 + c) true { z with
              field := { z.field with
                concentrators := put z.field.concentrators c { k with link := .lost, wasLost := true, lostAt := z.clock.hall } }
              jr := z.jr.request z.clock.hall (linkEntry false c 1 z.clock.hall k.lastGood set.lostThreshold) })) ∧
        (reaches = false → ∀ n, n < 544 → n / 32 = c → u.pt n = s.pt n)

/-! ## Timed events of points, channels, windows and groups -/

/-- O48. A chatter period boundary (R11): suppressed points whose count is at most their release count are released, each with its
POINT-CHATTER entry and a standing change to the windows; every count becomes 0; not acted on in HALTED (R15; due events: log entry 2). That
they are taken in rising number, each whole before the next, is the model's choice: R11 gives no order (log entry 45). -/
def Obligations.ChatterPeriodsEnd : Prop :=
  ∀ (s : State) (b : Nat), s.pts.nextBoundary = some b → b ≤ s.clock.elapsed →
    (s.halted = true → exec .chatterPeriodBoundary s = .next s) ∧
    (s.halted = false → ∃ (calm : List Nat) (v u : State), exec .chatterPeriodBoundary s = .next (finish u) ∧ Aside s u ∧
      calm.Pairwise (· < ·) ∧
      (∀ n, n ∈ calm ↔ n < 544 ∧ (s.pt n).frozen ≠ none ∧ ∃ c, s.ptSet n = some c ∧ (s.pt n).chatter ≤ c.release) ∧
      v = calm.foldl releaseChatter s ∧
      (∀ n z, releaseChatter z n = windowsTake n z.clock.hall true { z with
        pts := { z.pts with points := put z.pts.points n { z.pt n with frozen := none } }
        jr := z.jr.request z.clock.hall
          (chatterEntry n true (z.pt n).chatter (z.pt n).effective z.clock.hall) }) ∧
      u = { s with pts := u.pts, win := v.win, jr := v.jr } ∧
      u.pts.nextBoundary = some (b + 1000 * s.settings.live.general.chatterPeriod) ∧
      ∀ n, n < 680 → u.pt n = { s.pt n with chatter := 0, frozen := if n ∈ calm then none else (s.pt n).frozen })

/-- O49. CONTINUOUS sampling (R135): every 10 ms each CONTINUOUS channel's record and comparators, both handed to the point qualifier, LOW
first; the first sample of a point is taken directly (R8), later ones through its filter (R3; a change so qualified: O46); not in HALTED (R144;
due events: log entry 2). That the channels are taken in rising number, each handed on before the next, is the model's choice (log entry 45). -/
def Obligations.ContinuousChannelsSampled : Prop :=
  ∀ (s : State) (t : Nat) (samples : List (BitVec 10)), s.sup.nextSample = some t → t ≤ s.clock.elapsed → samples.length = 16 →
    (s.halted = true → exec (.continuousSample samples) s = .next s) ∧
    (s.halted = false → ∃ u : State, exec (.continuousSample samples) s = .next (finish u) ∧ Aside s u ∧
      u = (List.range 16).foldl (sampleChannel samples) { s with sup := { s.sup with nextSample := some (t + 10) } } ∧
      (∀ c z v, samples[c]? = some v →
        ((z.chanSet c).mode = .testReturn → sampleChannel samples z c = z) ∧
        ((z.chanSet c).mode = .continuous → ∃ low high : Bool,
          sampleChannel samples z c = sampleSupervision (513 + 2 * c) high (sampleSupervision (512 + 2 * c) low { z with
            sup := { z.sup with channels := put z.sup.channels c { z.chan c with
              value := v, time := z.clock.hall, started := true, low := low, high := high } } }) ∧
          ((z.chan c).started = false → (low = true ↔ v.toNat < (z.chanSet c).low) ∧ (high = true ↔ (z.chanSet c).high < v.toNat)) ∧
          ((z.chan c).started = true →
            ((z.chan c).low = false → (low = true ↔ v.toNat < (z.chanSet c).low)) ∧
            ((z.chan c).low = true → (low = false ↔ (z.chanSet c).low + (z.chanSet c).hysteresis < v.toNat)) ∧
            ((z.chan c).high = false → (high = true ↔ (z.chanSet c).high < v.toNat)) ∧
            ((z.chan c).high = true → (high = false ↔ v.toNat + (z.chanSet c).hysteresis < (z.chanSet c).high))))) ∧
      (∀ n value z c, n < 544 → z.ptSet n = some c →
        (∀ m, m < 544 → m ≠ n → (sampleSupervision n value z).pt m = z.pt m) ∧
        ((sampleSupervision n value z).pt n).raw = value ∧
        ((z.pt n).live = .lost ∨ value = (z.pt n).qualified ∨ FilterRun c (z.pt n) value z.clock.elapsed →
          ((sampleSupervision n value z).pt n).qualified = value ∧ ((sampleSupervision n value z).pt n).pending = none) ∧
        ((z.pt n).live = .lost → ((sampleSupervision n value z).pt n).live = .good) ∧
        ((z.pt n).live ≠ .lost → value ≠ (z.pt n).qualified → ¬ FilterRun c (z.pt n) value z.clock.elapsed →
          ((sampleSupervision n value z).pt n).qualified = (z.pt n).qualified)) ∧
      ∀ n value z, z.ptSet n = none → sampleSupervision n value z = z)

namespace Sys2Proof.Machine

/-- The FIRST-OUT entry of a group (R66, 13.5): the first time, the number of first windows, and the numbers of the lowest four. -/
abbrev FirstOutWritten (g : Nat) (first : HallTime) (set : List Nat) (now : HallTime) (e : Entry) : Prop :=
  e.kind = .firstOut ∧ e.trip = false ∧ e.subject = g ∧ e.time = now ∧ e.second = first ∧ e.a = set.length ∧
    ∀ i, i < 4 → e.detail[2 * i]?.getD 0 + 256 * e.detail[2 * i + 1]?.getD 0 = set[i]?.getD 0xFFFF % 65536

/-- The windows of a state with one mark set. -/
abbrev Marked (ws : Vector Window 384) (w : Nat) (m : Mark) : Vector Window 384 := put ws w { look ws w with mark := m }

/-- The group without the window in its first set. -/
abbrev GroupLeft (w : Nat) (g h : FirstOut) : Prop :=
  (g = .clear → h = .clear) ∧ (∀ t ws d, g = .deciding t ws d → h = .deciding t (ws.filter (· != w)) d) ∧
    ∀ t ws, g = .latched t ws → h = .latched t (ws.filter (· != w))

/-- A member's entry into ALERT judged (R64, R65, R67, R68): it has left the first set; a standing activation goes on without a mark. -/
abbrev AlertJudged (s : State) (g w : Nat) (t : State) : Prop :=
  ∃ (h : FirstOut) (x : Window) (marked : Mark → FirstOut → State), GroupLeft w (s.group g) h ∧ x = s.window w ∧
    (∀ m f, marked m f = { s with win := { s.win with windows := Marked s.win.windows w m, groups := put s.win.groups g f } }) ∧
    (x.standing = true → t = { s with win := { s.win with groups := put s.win.groups g h } }) ∧
    (x.standing = false →
      (h = .clear → s.settleTime g ≠ 0 →
        t = marked .first (.deciding x.alarm [w] (s.clock.elapsed + s.settleTime g))) ∧
      (h = .clear → s.settleTime g = 0 → ∃ e, FirstOutWritten g x.alarm [w] s.clock.hall e ∧
        t = { marked .first (.latched x.alarm [w]) with jr := s.jr.request s.clock.hall e }) ∧
      (∀ first ws d, h = .deciding first ws d →
        (x.alarm < first → t = { s with win := { s.win with
          windows := Marked (ws.foldl (fun z v => Marked z v .subsequent) s.win.windows) w .first
          groups := put s.win.groups g (.deciding x.alarm [w] d) } }) ∧
        (x.alarm = first → ∃ both : List Nat, both.Perm (w :: ws) ∧ (ws.Pairwise (· ≤ ·) → both.Pairwise (· ≤ ·)) ∧
          t = marked .first (.deciding first both d)) ∧
        (first < x.alarm → t = marked .subsequent h)) ∧
      ∀ first ws, h = .latched first ws →
        (first ≤ x.alarm → t = marked .subsequent h) ∧
        (x.alarm < first → t = { s with win := { s.win with groups := put s.win.groups g h } }))

end Sys2Proof.Machine

/-- O50. First-out groups: a member's entry into ALERT (R64, R65, R67, R68) and its return to QUIET (R69), and the settle timer (R66, not in
HALTED: R71); the shelving of a window expires (R54, R55, R50, not in HALTED: R60; due events: log entry 2). -/
def Obligations.SettleAndShelfTimersEnd : Prop :=
  (∀ (s : State) (g w : Nat), g < 32 → w < 384 → AlertJudged s g w (judgeAlert g w s) ∧
    ∃ h : FirstOut, GroupLeft w (s.group g) h ∧
      ((∀ v c, s.winSet v = some c → c.group = some g → (s.window v).state = .quiet) →
        judgeQuiet g w s = { s with win := { s.win with groups := put s.win.groups g .clear } }) ∧
      (¬ (∀ v c, s.winSet v = some c → c.group = some g → (s.window v).state = .quiet) →
        judgeQuiet g w s = { s with win := { s.win with groups := put s.win.groups g h } })) ∧
  (∀ (s : State) (g : Nat) (first : HallTime) (set : List Nat) (d : Nat), s.group g = .deciding first set d → d ≤ s.clock.elapsed →
    (s.halted = true → exec (.settleTimerExpiry g) s = .next s) ∧
    (s.halted = false → ∃ e : Entry, FirstOutWritten g first set s.clock.hall e ∧
      exec (.settleTimerExpiry g) s = .next (finish { s with
        win := { s.win with groups := put s.win.groups g (.latched first set) }, jr := s.jr.request s.clock.hall e }))) ∧
  ∀ (s : State) (x : ShelfEntry), s.win.shelf.head? = some x → x.expiry ≤ s.clock.elapsed →
    (s.halted = true → exec .shelfExpiry s = .next s) ∧
    (s.halted = false → ∃ silence : Bool,
      ((∃ c, s.winSet x.window = some c ∧ c.horn = true) ∧ (s.window x.window).state = .alert → silence = false) ∧
      (¬ ((∃ c, s.winSet x.window = some c ∧ c.horn = true) ∧ (s.window x.window).state = .alert) → silence = s.win.silence) ∧
      exec .shelfExpiry s = .next (finish { s with
        win := { s.win with shelf := s.win.shelf.filter (fun e => e.window != x.window), silence := silence }
        jr := s.jr.request s.clock.hall (unshelvedEntry x.window .expired (s.window x.window) s.clock.hall) }))

/-! ## The panel loop -/

namespace Sys2Proof.Machine

/-- A KEY REPLY: address, kind, keys, lamp fault count, CRC (R76, R178). -/
abbrev keyReply (p : Nat) (keys faults : Byte) : List Byte := withCrc [BitVec.ofNat 8 p, 0x91#8, keys, faults]

/-- A slot whose frame failed: `x` is the panel's record with its failure counted; the panel joins the retry list if it has had no retry in
this cycle (R76, R77). -/
abbrev FrameFailed (s : State) (y : PanelCycle) (p : Nat) (line : LineInput) (x : Panel) : Prop :=
  exec (.panelSlotEnd line) s = .next { s with panel := { s.panel with
    panels := put s.panel.panels p x
    cycle := some { y with
      target := none, slot := y.slot + 1, retry := if p ∈ y.retried then y.retry else y.retry ++ [p] } } }

end Sys2Proof.Machine

/-- O51. Panel loop cycles and LAMP FRAMEs (R75, R77, R178; silent in HALTED: R81; a panel made unconfigured during the cycle is not called
in it again: log entry 25; due events: log entry 2; the bits of a frame on the line: log entry 50). -/
def Obligations.PanelCyclesAndFrames : Prop :=
  ∀ s : State,
    (s.panelLineBits = s.panel.line.flatMap fun b =>
      [LineBit.start, .data (b.getLsbD 0), .data (b.getLsbD 1), .data (b.getLsbD 2), .data (b.getLsbD 3), .data (b.getLsbD 4),
        .data (b.getLsbD 5), .data (b.getLsbD 6), .data (b.getLsbD 7), .stop]) ∧
    (∀ t, s.panel.nextAt = some t → s.panel.cycle = none → t ≤ s.clock.elapsed →
      (s.halted = true → exec .panelCycleStart s = .next s) ∧
      (s.halted = false → ∃ y : PanelCycle,
        y = { start := s.clock.hall, schedule := (List.range 16).filter (fun p => (s.panSet p).isSome), slot := 0,
              target := none, retry := [], retried := [], taken := [], withdrawn := [] } ∧
        exec .panelCycleStart s = .next { s with panel := { s.panel with cycle := some y, nextAt := some (t + 20) } })) ∧
    ∀ y, s.panel.cycle = some y → y.target = none →
      (y.slot < 16 → y.schedule[y.slot]? = none →
        exec .lampFrame s = .next { s with panel := { s.panel with cycle := some { y with slot := y.slot + 1 } } }) ∧
      (16 ≤ y.slot → y.slot < 20 → y.retry = [] →
        exec .lampFrame s = .next { s with panel := { s.panel with cycle := some { y with slot := y.slot + 1 } } }) ∧
      ∀ (p : Nat) (z : PanelCycle),
        (y.slot < 16 ∧ y.schedule[y.slot]? = some p ∧ z = y) ∨
          (16 ≤ y.slot ∧ y.slot < 20 ∧ ∃ rest, y.retry = p :: rest ∧ z = { y with retry := rest, retried := p :: y.retried }) →
        (s.panSet p = none ∨ p ∈ y.withdrawn →
          exec .lampFrame s = .next { s with panel := { s.panel with cycle := some { z with slot := y.slot + 1 } } }) ∧
        (s.panSet p ≠ none → p ∉ y.withdrawn → ∃ patterns : List Byte, patterns.length = 12 ∧
          (∀ i, i < 12 → patterns[i]? =
            some (BitVec.ofNat 8 ((s.pattern p (2 * i)).code + 16 * (s.pattern p (2 * i + 1)).code))) ∧
          exec .lampFrame s = .next { s with panel := { s.panel with
            cycle := some { z with target := some p }
            line := withCrc ([BitVec.ofNat 8 p, BitVec.ofNat 8 s.clock.flash.toNat] ++ patterns) } })

/-- O52. KEY REPLIES judged (R76, R77), panel states (R78), key presses (R79, R47, R50; what an offer does: O20) and lamp test (R80); the end of a
panel cycle (R78; the panels in rising number: log entry 45). A
reply with another kind or length counts as a CRC error (log entry 26); a panel made unconfigured during its exchange: log entry 25; a LINK
entry before point 656 + p: log entry 54. -/
def Obligations.KeyRepliesJudged : Prop :=
  (∀ (s : State) (y : PanelCycle) (p : Nat) (line : LineInput), s.panel.cycle = some y → y.target = some p →
    s.panSet p = none ∨ p ∈ y.withdrawn → exec (.panelSlotEnd line) s = .next { s with panel := { s.panel with
      cycle := some { y with target := none, slot := y.slot + 1 } } }) ∧
  (∀ (s : State) (y : PanelCycle) (p : Nat) (set : PanelSettings), s.panel.cycle = some y → y.target = some p →
    s.panSet p = some set → p ∉ y.withdrawn →
    FrameFailed s y p .silent { s.pan p with timeouts := min ((s.pan p).timeouts + 1) 65535 } ∧
    FrameFailed s y p .unended { s.pan p with crcErrors := min ((s.pan p).crcErrors + 1) 65535 } ∧
    (∀ bytes, (∀ keys faults, faults.toNat ≤ 24 → bytes ≠ keyReply p keys faults) →
      FrameFailed s y p (.frame bytes) { s.pan p with crcErrors := min ((s.pan p).crcErrors + 1) 65535 }) ∧
    ∀ (b faults : Byte), faults.toNat ≤ 24 →
      ∃ (good : Nat) (rises : Bool) (keys : Keys) (x u : State),
        exec (.panelSlotEnd (.frame (keyReply p b faults))) s = .next (finish u) ∧ Aside s u ∧
        good = min ((s.pan p).goodCount + 1) 255 ∧
        rises = decide (((s.pan p).link = .seeking ∨ (s.pan p).link = .lost) ∧ 2 ≤ good) ∧
        keys = { ack := b.getLsbD 0, reset := b.getLsbD 1, silence := b.getLsbD 2, test := b.getLsbD 3 } ∧
        x = { s with panel := { s.panel with
          panels := put s.panel.panels p { s.pan p with
            link := if rises then .healthy else (s.pan p).link
            failedCount := 0, goodCount := good, lampFaults := faults.toNat, keys := keys, lastGood := y.start
            lampTest := keys.test &&
              ((decide ((s.pan p).link = .healthy) && set.keysAccepted && !(s.pan p).keys.test) || (s.pan p).lampTest) }
          cycle := some { y with target := none, slot := y.slot + 1, taken := p :: y.taken } } } ∧
        u.panel = x.panel ∧ u.field = s.field ∧ u.term = s.term ∧ u.sw = s.sw ∧ (∀ n, n ≠ 656 + p → u.pt n = s.pt n) ∧
        ((s.pan p).link = .seeking → rises = true →
          u = { x with jr := s.jr.request s.clock.hall (linkEntry true p 0 y.start 0 0) }) ∧
        ((s.pan p).link = .lost → rises = true →
          u = setSystemPoint (656 + p) false
            { x with jr := s.jr.request s.clock.hall (linkEntry true p 2 y.start (s.pan p).lostAt 0) } ∧
          (s.settings.adopted = true → (u.pt (656 + p)).qualified = false)) ∧
        (rises = false → (s.pan p).link ≠ .healthy ∨ set.keysAccepted = false → u = x) ∧
        ((s.pan p).link = .healthy → set.keysAccepted = true →
          u = { x with win := u.win, jr := u.jr } ∧
          (∃ (chosen : List Nat) (v w : State), chosen.Pairwise (· < ·) ∧
            (∀ i, i ∈ chosen ↔ s.shelved i = false ∧ ∃ c, s.winSet i = some c ∧ (c.place.map fun q => q.1) = some p) ∧
            v = (if keys.ack = true ∧ (s.pan p).keys.ack = false then chosen.foldl (fun z i => offer i .ack (.panel p) z) x else x) ∧
            w = (if keys.reset = true ∧ (s.pan p).keys.reset = false then
              chosen.foldl (fun z i => offer i .reset (.panel p) z) v else v) ∧
            u = if keys.silence = true ∧ (s.pan p).keys.silence = false then
              { w with win := { w.win with silence := true, chimeUntil := none } } else w) ∧
          (keys.silence = true → (s.pan p).keys.silence = false → u.win.silence = true ∧ u.win.chimeUntil = none) ∧
          (∀ w c z, s.winSet w = some c → (c.place.map fun q => q.1) = some p → s.shelved w = false →
            (keys.ack = true ∧ (s.pan p).keys.ack = false →
              z = (c.sequence.next (s.window w).state .ack).getD (s.window w).state) →
            (¬ (keys.ack = true ∧ (s.pan p).keys.ack = false) → z = (s.window w).state) →
            (u.window w).state =
              if keys.reset = true ∧ (s.pan p).keys.reset = false then (c.sequence.next z .reset).getD z else z) ∧
          ∀ w, (∀ c, s.winSet w = some c → (c.place.map fun q => q.1) = some p → s.shelved w = true) →
            (u.window w).state = (s.window w).state)) ∧
  ∀ (s : State) (y : PanelCycle), s.panel.cycle = some y → y.target = none → 20 ≤ y.slot → y.schedule.Nodup →
    ∃ u : State, exec .panelCycleEnd s = .next (finish u) ∧ Aside s u ∧
      u = y.schedule.foldl (endPanelCycleOf y) { s with panel := { s.panel with cycle := none } } ∧
      u.panel = { s.panel with cycle := none, panels := u.panel.panels } ∧ u.field = s.field ∧ u.term = s.term ∧ u.sw = s.sw ∧
      (∀ n, n < 544 → u.pt n = s.pt n) ∧
      (∀ p, p < 16 → p ∉ y.schedule ∨ s.panSet p = none ∨ p ∈ y.withdrawn ∨ p ∈ y.taken → u.pan p = s.pan p) ∧
      ∀ p, p ∈ y.schedule → s.panSet p ≠ none → p ∉ y.withdrawn → p ∉ y.taken → ∃ (failed : Nat) (falls : Bool),
        failed = min ((s.pan p).failedCount + 1) 255 ∧ falls = decide ((s.pan p).link = .healthy ∧ 3 ≤ failed) ∧
        (falls = false → u.pan p = { s.pan p with goodCount := 0, failedCount := failed }) ∧
        (falls = true →
          u.pan p = { s.pan p with
            goodCount := 0, failedCount := failed, link := .lost, lampTest := false, lostAt := s.clock.hall } ∧
          (s.settings.adopted = true → (u.pt (656 + p)).qualified = true) ∧
          ∀ z : State, losePanel p z = setSystemPoint (656 + p) true { z with
            panel := { z.panel with
              panels := put z.panel.panels p { z.pan p with link := .lost, lampTest := false, lostAt := z.clock.hall } }
            jr := z.jr.request z.clock.hall (linkEntry true p 1 z.clock.hall (z.pan p).lastGood 3) })

/-! ## Terms, switches and tests -/

namespace Sys2Proof.Machine

/-- The state with one term's record replaced. -/
abbrev WithTerm (t : Nat) (x : Term) (s : State) : State := { s with term := { s.term with terms := put s.term.terms t x } }

/-- A term enters ACTIVE (R91): the record, the TERM-ACTIVE entry, and then a trip request for each output in list order. -/
abbrev EntersActive (t : Nat) (c : TermSettings) (start : HallTime) (s u : State) : Prop :=
  ∃ (active : List Nat) (x : State), active = (c.points.filter fun n => countsActive c.policy (s.pt n)) ∧
    x = { WithTerm t { s.trm t with
        state := .active, timingStart := start, lastActive := s.clock.hall, lastChange := s.clock.hall
        activations := min ((s.trm t).activations + 1) 65535 } s with
      jr := s.jr.request s.clock.hall (termActiveEntry t c.unit c.outputs.length active
        (c.points.map fun n => (s.pt n).doubtful && countsActive c.policy (s.pt n)) start s.clock.hall) } ∧
    u = c.outputs.foldl (fun z i => requestTrip (.term t) i z) x

/-- A satisfied term leaves IDLE (R89, R90): TIMING for its delay, or ACTIVE at once where the delay is 0. -/
abbrev LeavesIdle (t : Nat) (c : TermSettings) (s u : State) : Prop :=
  (c.delay = 0 → EntersActive t c s.clock.hall s u) ∧
    (c.delay ≠ 0 → u = WithTerm t { s.trm t with
      state := .timing, lastChange := s.clock.hall, timingStart := s.clock.hall, deadline := s.clock.elapsed + c.delay } s)

/-- A term enters IDLE, and goes on in the same step where it is satisfied (R89). -/
abbrev EntersIdle (t : Nat) (c : TermSettings) (s u : State) : Prop :=
  ∃ x : State, x = WithTerm t { s.trm t with state := .idle, lastChange := s.clock.hall } s ∧
    (s.satisfied c = true → LeavesIdle t c x u) ∧ (s.satisfied c = false → u = x)

/-- A HELD term looks at its points (R88): a seen mark for every listed point that has or had a quality other than LOST, and with all of
them IDLE where it is armed, DISARMED elsewhere. -/
abbrev LooksWhileHeld (t : Nat) (c : TermSettings) (s u : State) : Prop :=
  ∃ (seen : List Bool) (x : State), seen.length = c.points.length ∧
    (∀ (k n : Nat), c.points[k]? = some n → (seen[k]? = some true ↔ (s.trm t).seen[k]? = some true ∨ (s.pt n).quality ≠ .lost)) ∧
    x = WithTerm t { s.trm t with seen := seen } s ∧ ((∃ b ∈ seen, b = false) → u = x) ∧
    ((∀ b ∈ seen, b = true) → (s.armed c = true → EntersIdle t c x u) ∧
      (s.armed c = false → u = WithTerm t { s.trm t with seen := seen, state := .disarmed, lastChange := s.clock.hall } s))

end Sys2Proof.Machine

/-- O53. Terms: what counts active (R86), an event of a listed point by the term's state (R87 to R92, HELD: R88; none taken in HALTED: R96), and
the delay that runs out (R90, R91): ACTIVE with its TERM-ACTIVE entry, and then a trip request for each output in list order; held in HALTED
(R96; due events: log entry 2). Which positions the policy marks of a TERM-ACTIVE entry number: log entry 55. -/
def Obligations.TermDelaysEnd : Prop :=
  (∀ (policy : LostPolicy) (p : Point), countsActive policy p = true ↔
    ((p.quality = .good ∨ p.quality = .forced) ∧ p.effective = true) ∨
      ((p.quality = .lost ∨ p.quality = .wiring) ∧ (policy = .assumeActive ∨ (policy = .holdLast ∧ p.termHeld = true)))) ∧
  (∀ (s : State) (n : Nat),
    (s.halted = true → termsTake n s = s) ∧
    (s.halted = false → termsTake n s =
      ((List.range 128).filter fun t => (s.termSet t).any fun c => c.points.contains n).foldl takePoint s)) ∧
  (∀ (s : State) (t : Nat),
    (s.termSet t = none → takePoint s t = s) ∧
    ∀ c, s.termSet t = some c →
      (s.satisfied c = true ↔ c.vote ≤ (c.points.filter fun n => countsActive c.policy (s.pt n)).length) ∧
      ((s.trm t).state = .held → LooksWhileHeld t c s (takePoint s t)) ∧
      ((s.trm t).state = .disarmed ∨ (s.trm t).state = .unconfigured → takePoint s t = s) ∧
      ((s.trm t).state = .idle → s.satisfied c = true → LeavesIdle t c s (takePoint s t)) ∧
      ((s.trm t).state = .idle → s.satisfied c = false → takePoint s t = s) ∧
      ((s.trm t).state = .timing ∨ (s.trm t).state = .active → s.satisfied c = true → takePoint s t = s) ∧
      ((s.trm t).state = .timing → s.satisfied c = false → EntersIdle t c { s with
        jr := s.jr.request s.clock.hall (termEndEntry t 0 c.unit (s.termCount c) (s.trm t).timingStart s.clock.hall) } (takePoint s t)) ∧
      ((s.trm t).state = .active → s.satisfied c = false → EntersIdle t c { s with
        jr := s.jr.request s.clock.hall (termEndEntry t 2 c.unit (s.termCount c) (s.trm t).lastActive s.clock.hall) } (takePoint s t))) ∧
  ∀ (s : State) (t : Nat) (c : TermSettings), s.termSet t = some c → (s.trm t).state = .timing →
    (s.trm t).deadline ≤ s.clock.elapsed →
    (s.halted = true → exec (.termDelayExpiry t) s = .next s) ∧
    (s.halted = false → ∃ u : State, exec (.termDelayExpiry t) s = .next (finish u) ∧ Aside s u ∧
      EntersActive t c (s.trm t).timingStart s u ∧ (u.trm t).state = .active ∧ (∀ j, j ≠ t → u.trm j = s.trm j) ∧
      u.field = s.field ∧ u.panel = s.panel ∧ ∀ n, n < 544 → u.pt n = s.pt n)

namespace Sys2Proof.Machine

/-- The queue and the start history as an entry starts (R106). -/
abbrev Switches.starting (w : Switches) (i now : Nat) (x : Switch) : Switches :=
  { w with switches := put w.switches i x, queue := w.queue.filter (fun e => e.switch != i), starts := now :: w.starts }

end Sys2Proof.Machine

/-- O54. The coil driver (R106): not more than 6 coils and 4 starts in 20 ms; after each look no start is left that could be made; starts of
TRIP (R108, R111, R125), RESET (R113) and TEST entries (R107, R138); starts that are no longer counted leave the history; nothing starts in
HALTED (R120). COIL_START is a look at the queue of its own: log entry 29. Successors (R124 to R127): those of the wanted triggers are
requested in list order with the switch as source CASCADE, each taken whole before the next (what a request does: O36); an isolated switch
triggers nothing, and nothing is requested in HALTED. A HOLD already operated confirms behind its ON-START successors: log entry 53; the system
points before the successors: log entry 54. -/
def Obligations.CoilDriverStarts : Prop :=
  ∀ s : State,
    (∀ (again : State → State) (i : Nat) (c : SwitchSettings) (wanted : Trigger → Bool),
      ((s.swi i).isolated = true ∨ s.halted = true → requestSuccessors again i c wanted s = s) ∧
      ((s.swi i).isolated = false → s.halted = false → requestSuccessors again i c wanted s =
        ((c.successors.filter fun x => wanted x.2).map fun x => x.1).foldl (fun z j => tripRequest again (.cascade i) j z) s)) ∧
    (∃ u, exec .coilStart s = .next (finish u) ∧ Aside s u ∧ (s.coilLaw → u.coilLaw) ∧ u.term = s.term ∧ u.field = s.field ∧
      u.panel = s.panel ∧ (∀ n, n < 544 → u.pt n = s.pt n) ∧
      (s.halted = true ∨ s.nextStart = none → u = s) ∧
      (s.halted = false → u.nextStart = none ∧
        ∀ e, s.nextStart = some e → u = lookAtQueue 4 (startEntry (lookAtQueue 4) e s))) ∧
    (∃ x, exec .startHistoryExpiry s = exec .coilStart x ∧ x.counted = s.counted ∧
      x = { s with sw := { s.sw with starts := s.sw.starts.filter fun t => decide (s.clock.elapsed - t < 20) } }) ∧
    (∀ e, s.nextStart = some e ↔
      (s.sw.queue.find? s.eligible = some e ∧
        ((List.range 48).filter fun i => decide ((s.swi i).state = .pulsing ∨ (s.swi i).state = .resetPulsing ∨
          (s.swi i).testStart ≠ none)).length < 6 ∧
        (s.sw.starts.filter fun t => decide (s.clock.elapsed - t < 20)).length < 4)) ∧
    (∀ e, s.eligible e = true ↔ (e.kind = .test →
      (∀ x ∈ s.sw.queue, x.kind = .test) ∧ s.counted ≤ 1 ∧
        ∀ c ch, s.swSet e.switch = some c → (c.supervision.map fun x => x.1) = some ch → (s.chan ch).inFlight = none)) ∧
    ∀ (again : State → State) (e : QueueEntry) (i : Nat), e.switch = i →
      (e.kind = .reset → startEntry again e s = syncSwitchPoints i { s with
        sw := s.sw.starting i s.clock.elapsed { s.swi i with
          state := .resetPulsing, opStart := s.clock.hall, opStartElapsed := s.clock.elapsed } }) ∧
      (e.kind = .test → ∀ c ch, s.swSet i = some c → (c.supervision.map fun x => x.1) = some ch → startEntry again e s = { s with
        sw := s.sw.starting i s.clock.elapsed { s.swi i with testStart := some s.clock.elapsed }
        sup := { s.sup with channels := put s.sup.channels ch { s.chan ch with inFlight := some i } } }) ∧
      (e.kind = .trip → ∀ c, s.swSet i = some c → ∃ x : State,
        x = syncSwitchPoints i { s with
          sw := s.sw.starting i s.clock.elapsed { s.swi i with
            state := if c.kind = .hold then .held else .pulsing
            opStart := s.clock.hall, opStartElapsed := s.clock.elapsed, seen := s.operated c, confirmedMark := false }
          jr := s.jr.request s.clock.hall
            (switchEntry i .start c.unit false (some e.source) e.cls 0 0 e.joinedHall s.clock.hall) } ∧
        (c.kind ≠ .hold → startEntry again e s = requestSuccessors again i c (fun t => t == .onStart) x) ∧
        (c.kind = .hold → c.feedback = none → startEntry again e s = requestSuccessors again i c (fun _ => true) x) ∧
        (c.kind = .hold → c.feedback ≠ none → ∃ v, v = requestSuccessors again i c (fun t => t == .onStart) x ∧
          startEntry again e s =
            if (v.swi i).state = .held ∧ v.operated c = true then confirmHold again i c v else v))

namespace Sys2Proof.Machine

/-- A trip pulse confirmed (R109): the record, the CONFIRM entry, the system points, the ON-CONFIRM successors (R126), and a breaker found
reclosed (R110). -/
abbrev PulseConfirms (i : Nat) (c : SwitchSettings) (s u : State) : Prop :=
  ∃ (length : Nat) (x : State), length = s.clock.elapsed - (s.swi i).opStartElapsed ∧
    x = { WithSwitch i { s.swi i with
        state := if c.kind = .lockout then .lockedOut else .confirmed, lastPulse := length } s with
      jr := s.jr.request s.clock.hall (switchEntry i .confirm c.unit (s.swi i).isolated none 0 length 0 0 s.clock.hall) } ∧
    u = recloseBreaker i c (requestSuccessors runQueue i c (fun t => t == .onConfirm) (syncSwitchPoints i x))

/-- A switch enters a state with a SWITCH entry, and its system points follow (R117, R118). -/
abbrev SwitchEnters (i : Nat) (c : SwitchSettings) (new : SwitchState) (mark : SwitchMark) (last : Nat) (s : State) : State :=
  syncSwitchPoints i { WithSwitch i { s.swi i with state := new } s with
    jr := s.jr.request s.clock.hall (switchEntry i mark c.unit false none 0 0 last 0 s.clock.hall) }

/-- What an event of its feedback point does to a switch, by its state (R101, R102, R110, R111). -/
abbrev FeedbackTaken (s : State) (i : Nat) (c : SwitchSettings) (u : State) : Prop :=
  ((s.swi i).state = .pulsing →
    (s.operated c = false → u = s) ∧
    (s.operated c = true → ∃ x : State, x = WithSwitch i { s.swi i with seen := true } s ∧
      (s.clock.elapsed < (s.swi i).opStartElapsed + c.minPulse → u = x) ∧
      ((s.swi i).opStartElapsed + c.minPulse ≤ s.clock.elapsed → ∃ v, PulseConfirms i c x v ∧ u = runQueue v))) ∧
  ((s.swi i).state = .failed ∨ (s.swi i).state = .unconfirmed →
    (s.operated c = false → u = s) ∧
    (s.operated c = true → ∃ (late : Nat) (x : State),
      (s.clock.elapsed - (s.swi i).opStartElapsed < 65536 → late = s.clock.elapsed - (s.swi i).opStartElapsed) ∧
      (65536 ≤ s.clock.elapsed - (s.swi i).opStartElapsed → late = (Config.freeHalf s.free).toNat) ∧
      x = { WithSwitch i { s.swi i with state := if c.kind = .lockout then .lockedOut else .confirmed } s with
        free := s.free + 1
        jr := s.jr.request s.clock.hall (switchEntry i .lateConfirm c.unit (s.swi i).isolated none 0 late 0
          (s.swi i).opStart s.clock.hall) } ∧
      u = requestSuccessors runQueue i c (fun t => t == .onConfirm) (syncSwitchPoints i x))) ∧
  ((s.swi i).state = .confirmed →
    ((∃ n, c.feedback = some n ∧ (s.pt n).quality = .good ∧ (s.pt n).effective = false) →
      u = SwitchEnters i c .ready .reclosed 0 s) ∧
    (¬ (∃ n, c.feedback = some n ∧ (s.pt n).quality = .good ∧ (s.pt n).effective = false) → u = s)) ∧
  ((s.swi i).state = .held →
    ((s.swi i).confirmedMark = true ∨ s.operated c = false → u = s) ∧
    ((s.swi i).confirmedMark = false → s.operated c = true → u = requestSuccessors runQueue i c (fun t => t == .onConfirm)
      { WithSwitch i { s.swi i with confirmedMark := true } s with
        jr := s.jr.request s.clock.hall (switchEntry i .confirm c.unit (s.swi i).isolated none 0 0 0 0 s.clock.hall) })) ∧
  ((s.swi i).state = .settling → ∀ n, c.feedback = some n →
    ((s.pt n).quality = .lost → u = s) ∧
    ((s.pt n).quality ≠ .lost → s.operated c = true → u = SwitchEnters i c .lockedOut .settled 7 s) ∧
    ((s.pt n).quality ≠ .lost → s.operated c = false → u = SwitchEnters i c .ready .settled 1 s)) ∧
  ((s.swi i).state = .ready →
    (c.kind ≠ .lockout ∨ s.operated c = false → u = s) ∧
    (c.kind = .lockout → s.operated c = true → u = runQueue (giveUpTest i (SwitchEnters i c .lockedOut .foundOperated 7 s)))) ∧
  ((s.swi i).state = .unconfigured ∨ (s.swi i).state = .queued ∨ (s.swi i).state = .lockedOut ∨ (s.swi i).state = .resetQueued ∨
    (s.swi i).state = .resetPulsing → u = s)

/-- What a switch that loses its waiting TEST entry or its test in flight does (R101, R107, R138, R140). -/
abbrev TestGivenUp (s : State) (i : Nat) (c : SwitchSettings) (ch : Nat) (u : State) : Prop :=
  ((s.swi i).testStart = none → (∀ e, s.entryOf i = some e → e.kind ≠ .test) → u = s) ∧
    ((s.swi i).testStart = none → ∀ e, s.entryOf i = some e → e.kind = .test →
      u = loseTest i { s with sw := { s.sw with queue := s.sw.queue.filter fun e => e.switch != i } }) ∧
    ((s.swi i).testStart ≠ none → u = loseTest i { WithSwitch i { s.swi i with testStart := none } s with
      sup := { s.sup with channels := put s.sup.channels ch { s.chan ch with inFlight := none } } }) ∧
    ∀ z : State, z.swSet i = some c →
      (min ((z.swi i).postponed + 1) 255 ≠ 8 →
        loseTest i z = WithSwitch i { z.swi i with postponed := min ((z.swi i).postponed + 1) 255 } z) ∧
      (min ((z.swi i).postponed + 1) 255 = 8 →
        loseTest i z = syncSwitchPoints i { WithSwitch i { z.swi i with postponed := 8, supervision := .unverified } z with
          jr := z.jr.request z.clock.hall (supervisionEntry i ch (z.swi i).supervision .unverified 8 0 0 z.clock.hall) })

end Sys2Proof.Machine

/-- O55. Feedback events by the switch's state (R101, R102, R110, R111; the time of a late confirmation beyond 16 bits: log entry 16; what
gains operated feedback: log entry 30) with the test a switch found operated loses behind its points (R101, R140; log entry 54), and the ends of pulses: a trip pulse in confirmation (R109, R110, R126) or at max pulse (R109,
R128, R129), a reset pulse (R113); at each end the freed place is looked at (R106; due events: log entry 2), behind the ON-CONFIRM successors,
the entries and the system points of the event (log entry 53; these before the successors, and 544 + s before 592 + s: log entry 54). Switches that share a feedback point are taken in rising number, the model's choice (log entry 45). The two system points of a
switch are brought to its state (R117), inactive for one that is not configured (R9); how a system point is set: O3. -/
def Obligations.PulsesEnd : Prop :=
  (∀ (s : State) (i : Nat), i < 48 → ∃ operated fault : Bool,
    (operated = true ↔ s.swSet i ≠ none ∧ ((s.swi i).state = .confirmed ∨ (s.swi i).state = .lockedOut ∨ (s.swi i).state = .held ∨
      (s.swi i).state = .failed ∨ (s.swi i).state = .unconfirmed)) ∧
    (fault = true ↔ s.swSet i ≠ none ∧ ((s.swi i).state = .failed ∨ (s.swi i).state = .unconfirmed ∨ (s.swi i).resetFailed = true ∨
      (s.swi i).supervision = .openCircuit ∨ (s.swi i).supervision = .unverified)) ∧
    syncSwitchPoints i s = setSystemPoint (592 + i) fault (setSystemPoint (544 + i) operated s) ∧
    (s.settings.adopted = true → ((syncSwitchPoints i s).pt (544 + i)).qualified = operated ∧
      ((syncSwitchPoints i s).pt (592 + i)).qualified = fault)) ∧
  (∀ (s : State) (n : Nat), switchesTake n s =
    ((List.range 48).filter fun i => (s.swSet i).any fun c => c.feedback == some n).foldl takeFeedback s) ∧
  (∀ (s : State) (i : Nat) (c : SwitchSettings), s.swSet i = some c →
    (s.operated c = true ↔ ∃ n, c.feedback = some n ∧ (s.pt n).quality = .good ∧ (s.pt n).effective = true) ∧
    FeedbackTaken s i c (takeFeedback s i) ∧
    ∀ ch interval, c.supervision = some (ch, interval) → TestGivenUp s i c ch (giveUpTest i s)) ∧
  ∀ (s : State) (i : Nat) (c : SwitchSettings), s.swSet i = some c →
    ((s.swi i).state = .pulsing → (s.swi i).seen = true → (s.swi i).opStartElapsed + c.minPulse ≤ s.clock.elapsed →
      ∃ u : State, exec (.minPulseExpiry i) s = .next (finish (runQueue u)) ∧ Aside s u ∧ PulseConfirms i c s u) ∧
    ((s.swi i).state = .pulsing → (s.swi i).seen = false →
      exec (.minPulseExpiry i) s = .next s ∧
      ((s.swi i).opStartElapsed + c.maxPulse ≤ s.clock.elapsed →
        ∃ (failed : Bool) (x u : State), exec (.maxPulseExpiry i) s = .next (finish (runQueue u)) ∧ Aside s u ∧
          (failed = true ↔ ∃ n, c.feedback = some n ∧ (s.pt n).quality = .good) ∧
          x = { s with
            sw := { s.sw with switches := put s.sw.switches i { s.swi i with
              state := if failed then .failed else .unconfirmed, lastPulse := c.maxPulse } }
            jr := s.jr.request s.clock.hall (switchEntry i (if failed then .fail else .unconfirmed) c.unit
              (failed && (s.swi i).isolated) none 0 0 (s.feedbackQuality c).code (s.swi i).opStart s.clock.hall) } ∧
          (failed = false ∨ (s.swi i).isolated = true ∨ s.halted = true ∨ c.backup = none → u = syncSwitchPoints i x) ∧
          (∀ b, failed = true → (s.swi i).isolated = false → s.halted = false → c.backup = some b →
            u = requestTrip (.backup i) b (syncSwitchPoints i x)))) ∧
    ((s.swi i).state = .pulsing → (s.swi i).seen = true → exec (.maxPulseExpiry i) s = .next s) ∧
    ((s.swi i).state = .resetPulsing → (s.swi i).opStartElapsed + c.resetPulse ≤ s.clock.elapsed →
      ∃ (done : Bool) (x : State), exec (.resetPulseEnd i) s = .next (finish (runQueue (syncSwitchPoints i x))) ∧ Aside s x ∧
        (done = true ↔ ∃ n, c.feedback = some n ∧ (s.pt n).quality = .good ∧ (s.pt n).effective = false) ∧
        x = { s with
          sw := { s.sw with switches := put s.sw.switches i { s.swi i with
            state := if done then .ready else .lockedOut, resetFailed := !done } }
          jr := s.jr.request s.clock.hall (switchEntry i (if done then .resetDone else .resetFailed) c.unit false none 0 0
            (s.feedbackQuality c).code (s.swi i).opStart s.clock.hall) })

/-- O56. Test pulses and interval ticks (R107, R137 to R141; in HALTED R144; due events: log entry 2; a test judged before the look: log
entry 53; its entry before the fault point: log entry 54). -/
def Obligations.TestsAndTicks : Prop :=
  ∀ (s : State) (i : Nat) (c : SwitchSettings) (ch interval : Nat), s.swSet i = some c → c.supervision = some (ch, interval) →
    (∀ (t : Nat) (sample : BitVec 10), (s.swi i).testStart = some t → t + 2 ≤ s.clock.elapsed →
      ∃ (new : SupervisionState) (x : State),
        x = { s with
          sw := { s.sw with switches := put s.sw.switches i { s.swi i with testStart := none } }
          sup := { s.sup with channels := put s.sup.channels ch { s.chan ch with
            value := sample, time := s.clock.hall, lastJudged := some i, inFlight := none } } } ∧
        ((s.chanSet ch).low ≤ sample.toNat → new = .healthy) ∧ (sample.toNat < (s.chanSet ch).low → new = .openCircuit) ∧
        (s.halted = true → exec (.testPulseEnd i sample) s = .next (finish x)) ∧
        (s.halted = false → (s.swi i).supervision = new → exec (.testPulseEnd i sample) s = .next (finish (runQueue { x with
          sw := { s.sw with switches := put s.sw.switches i { s.swi i with testStart := none, postponed := 0 } } }))) ∧
        (s.halted = false → (s.swi i).supervision ≠ new →
          exec (.testPulseEnd i sample) s = .next (finish (runQueue (syncSwitchPoints i { x with
            sw := { s.sw with switches := put s.sw.switches i { s.swi i with
              testStart := none, postponed := 0, supervision := new } }
            jr := s.jr.request s.clock.hall (supervisionEntry i ch (s.swi i).supervision new 0 sample.toNat
              (s.chanSet ch).low s.clock.hall) }))))) ∧
    ((s.swi i).nextTick ≤ s.clock.elapsed →
      (s.halted = true → exec (.supervisionTick i) s = .next s) ∧
      (s.halted = false →
        ((s.swi i).state = .ready → s.entryOf i = none → (s.swi i).testStart = none →
          ∃ (e : QueueEntry) (before behind : List QueueEntry), e.switch = i ∧ e.kind = .test ∧ e.cls = 4 ∧
            e.joined = s.clock.elapsed ∧ e.joinedHall = s.clock.hall ∧ before ++ behind = s.sw.queue ∧
            (∀ x ∈ before, x.cls ≤ 4) ∧ (∀ x ∈ behind.head?, 4 < x.cls) ∧
            exec (.supervisionTick i) s = .next (finish (runQueue { s with sw := { s.sw with
              switches := put s.sw.switches i { s.swi i with nextTick := (s.swi i).nextTick + 1000 * interval }
              queue := before ++ e :: behind } }))) ∧
        ((s.swi i).state ≠ .ready ∨ s.entryOf i ≠ none ∨ (s.swi i).testStart ≠ none →
          (min ((s.swi i).postponed + 1) 255 ≠ 8 → exec (.supervisionTick i) s = .next (finish { s with sw := { s.sw with
            switches := put s.sw.switches i { s.swi i with
              nextTick := (s.swi i).nextTick + 1000 * interval, postponed := min ((s.swi i).postponed + 1) 255 } } })) ∧
          (min ((s.swi i).postponed + 1) 255 = 8 → exec (.supervisionTick i) s = .next (finish (syncSwitchPoints i { s with
            sw := { s.sw with switches := put s.sw.switches i { s.swi i with
              nextTick := (s.swi i).nextTick + 1000 * interval, postponed := 8, supervision := .unverified } }
            jr := s.jr.request s.clock.hall (supervisionEntry i ch (s.swi i).supervision .unverified 8 0 0 s.clock.hall) }))))))

/-! ## Table checks -/

namespace Sys2Proof.Machine

/-- The part FAULTED by a damaged entry, and HALTED by the next (R167, R168, R36, R81, R120). -/
abbrev Faulted (s : State) (table : TableName) (e : Nat) (shown : Condition) : State :=
  { s with
    monitor := { s.monitor with latch := some (table, e), shown := .faulted }
    jr := if shown = .faulted then s.jr
      else s.jr.request s.clock.hall (conditionEntry shown .faulted s.causes (some (table, e)) s.clock.hall) }

abbrev Halted (s : State) (first second : TableName × Nat) : State :=
  { s with
    monitor := { s.monitor with shown := .halted, haltedAt := s.clock.elapsed }
    jr := s.jr.request s.clock.hall (haltEntry first second s.clock.hall)
    field := { s.field with nextAt := none, cycle := none }
    panel := { s.panel with nextAt := none, cycle := none }
    sw := { s.sw with queue := [] } }

end Sys2Proof.Machine

/-- O57. A check of a live settings entry (R167, R168), with the adopted copy as the live tables (damage is the finding given: log entry 19; both
copies damaged: log entry 38). -/
def Obligations.TableChecksJudged : Prop :=
  ∀ (s : State) (table : TableName) (e : Nat), s.copyLaw →
    (s.settings.adopted = false ∨ s.halted = true → ∀ f, exec (.tableCheck table e f) s = .next (finish s)) ∧
    (s.settings.adopted = true → s.halted = false →
      exec (.tableCheck table e .sound) s = .next (finish s) ∧
      exec (.tableCheck table e .correctable) s = .next (finish { s with
        monitor := { s.monitor with corrected := min (s.monitor.corrected + 1) 65535 } }) ∧
      (s.monitor.latch = none →
        exec (.tableCheck table e .uncorrectable) s = .next (finish (Faulted s table e s.monitor.shown)) ∧
        exec (.tableCheck table e .bothCopies) s =
          .next (finish (Halted (Faulted s table e s.monitor.shown) (table, e) (table, e)))) ∧
      ∀ first, s.monitor.latch = some first → ∀ f, f = .uncorrectable ∨ f = .bothCopies →
        exec (.tableCheck table e f) s = .next (finish (Halted s first (table, e))))

/-! ## Laws -/

namespace Sys2Proof.Machine

/-- The laws of the exchange: memory in canonical form, mask 0 to 4 (R165), the law of R147, the law of R160, and what is WORKING (R160,
R162, R172). -/
abbrev State.exchangeLaws (s : State) : Prop := s.memoryLaw ∧ s.maskLaw ∧ s.journalLaw ∧ s.intakeLaw ∧ s.workingLaw

/-- The laws of the plant: law 1 of R12 with what it rests on (R2, R121, R175), the coil driver's budget (R106), terms that act only where
they are armed (R84, R89), and the condition shown (R148, R149, R166). -/
abbrev State.plantLaws (s : State) : Prop :=
  s.forceLaw ∧ s.copyLaw ∧ s.bareLaw ∧ s.coilLaw ∧ s.armedLaw ∧ s.settledLaw

end Sys2Proof.Machine

/-- O58. All the laws hold after power-on. -/
def Obligations.ResetHoldsLaws : Prop :=
  State.reset.exchangeLaws ∧ State.reset.plantLaws ∧ State.reset.modeLaw ∧ State.reset.listLaws ∧ State.reset.queueLaw ∧
    State.reset.shelfLaw ∧ State.reset.firstOutLaw

/-- O59. Every step keeps the laws of the exchange. -/
def Obligations.EveryStepKeepsExchangeLaws : Prop :=
  ∀ s t : State, s.exchangeLaws → step s = .next t → t.exchangeLaws

/-- O60. Every step keeps the laws of the plant: a FORCED point is never listed in a term whose outputs are not all isolated (R12), no more
than 6 coils are energized and no 20 ms contain more than 4 starts (R106), a term in TIMING or ACTIVE belongs to COMMON or to a unit whose mode
is in its mode set (R84), the condition shown is the one of R166. And with them the laws of the coil queue (at most one entry for a switch: R105),
of the shelf list (no window twice, at most 64: R52) and of the first-out groups (the windows marked FIRST share one alarm time, none marked
SUBSEQUENT carries an earlier one: R63), with what they rest on: entries fit their switches (R103, R107, R112), inputs fit window states. -/
def Obligations.EveryStepKeepsPlantLaws : Prop :=
  ∀ s t : State, s.plantLaws → step s = .next t →
    t.plantLaws ∧ t.modeLaw ∧ (s.listLaws → t.listLaws ∧ t.queueLaw ∧ t.shelfLaw ∧ t.firstOutLaw)

/-! ## What an adoption changes -/

namespace Sys2Proof.Machine

/-- The numbers at which two tables differ, rising. -/
abbrev differing {α : Type} {n : Nat} [Inhabited α] [DecidableEq α] (a b : Vector α n) : List Nat :=
  (List.range n).filter fun i => decide (look a i ≠ look b i)

/-- The state with one window's record replaced. -/
abbrev WithWindow (w : Nat) (x : Window) (s : State) : State := { s with win := { s.win with windows := put s.win.windows w x } }

/-- A settable point whose entry stays configured (R16): its sense, and a suppression that a threshold of 0 ends. -/
abbrev PointResensed (n : Nat) (a b : PointSettings) (s u : State) : Prop :=
  ∃ (p : Point) (x : State),
    p = { s.pt n with
      raw := !(s.pt n).raw, qualified := !(s.pt n).qualified, frozen := (s.pt n).frozen.map not
      rawTime := s.clock.hall, qualifyTime := s.clock.hall } ∧
    (a.activeOpen = b.activeOpen → x = s) ∧
    (a.activeOpen ≠ b.activeOpen → x = { WithPoint n p s with
      jr := if b.journal = true ∧ (s.pt n).frozen = none ∧ (s.pt n).forced = none then
          s.jr.request s.clock.hall (pointEntry n p.qualified p.quality s.clock.hall s.clock.hall
            { ChangeFlags.plain with standing := p.qualified, settings := true })
        else s.jr }) ∧
    ((s.pt n).frozen ≠ none ∧ b.threshold = 0 → u = { WithPoint n { x.pt n with frozen := none } x with
      jr := x.jr.request s.clock.hall (chatterEntry n true (x.pt n).chatter (x.pt n).effective s.clock.hall) }) ∧
    (¬ ((s.pt n).frozen ≠ none ∧ b.threshold = 0) → u = x)

/-- A settable point at the swap, by how its entry changed (R16); the term held value stays where R86 keeps it (log entry 36). -/
abbrev PointSwapped (n : Nat) (old new : Option PointSettings) (s u : State) : Prop :=
  (old = none → new = none → u = s) ∧
  (old = none → new ≠ none → u = WithPoint n { Point.reset with
    fresh := decide (n < 512 ∧ ((s.conc (n / 32)).link = .healthy ∨ (s.conc (n / 32)).link = .suspect))
    termHeld := (s.pt n).termHeld } s) ∧
  (old ≠ none → new = none → u = WithPoint n { Point.reset with
    termHeld := decide (((s.pt n).quality = .lost ∨ (s.pt n).quality = .wiring) ∧ (s.pt n).termHeld = true)
    rawTime := if (s.pt n).effective = true then s.clock.hall else (s.pt n).rawTime
    qualifyTime := if (s.pt n).effective = true then s.clock.hall else (s.pt n).qualifyTime } s) ∧
  ∀ a b, old = some a → new = some b → PointResensed n a b s u

/-- What the swap changed at a point, handed on as standing: a change of value or quality to every consumer, one of the window-facing
value alone to the windows. -/
abbrev PointHandedOn (before : State) (n : Nat) (s u : State) : Prop :=
  ∃ changed : Prop,
    (changed ↔ (before.pt n).effective ≠ (s.pt n).effective ∨ (before.pt n).quality ≠ (s.pt n).quality) ∧
    (changed → u = windowsTake n s.clock.hall true (switchesTake n (termsTake n s))) ∧
    (¬ changed → (before.pt n).facing ≠ (s.pt n).facing → u = windowsTake n s.clock.hall true s) ∧
    (¬ changed → (before.pt n).facing = (s.pt n).facing → u = s)

/-- Step 1 for a window: the shelving of one no longer configured or no longer shelvable ends (R59, R55). -/
abbrev ShelvingSwapped (w : Nat) (s u : State) : Prop :=
  ∃ (ends : Prop) (silence : Bool),
    (ends ↔ (∃ e ∈ s.win.shelf, e.window = w) ∧ ∀ c, s.winSet w = some c → c.shelvable = false) ∧
    ((∃ c, s.winSet w = some c ∧ c.horn = true) ∧ (s.window w).state = .alert → silence = false) ∧
    (¬ ((∃ c, s.winSet w = some c ∧ c.horn = true) ∧ (s.window w).state = .alert) → silence = s.win.silence) ∧
    (ends → u = { s with
      win := { s.win with shelf := s.win.shelf.filter (fun x => x.window != w), silence := silence }
      jr := s.jr.request s.clock.hall (unshelvedEntry w .ended (s.window w) s.clock.hall) }) ∧
    (¬ ends → u = s)

/-- Step 2 for a changed window: QUIET with mark none, its return reported to the tracker if it had a group, and its input worked out
afresh, an active one entering ALERT with the swap's time and the standing mark (R59, R69, R72). -/
abbrev WindowSwapped (w : Nat) (old new : Option WindowSettings) (s u : State) : Prop :=
  ∃ x y : State,
    x = WithWindow w { s.window w with state := .quiet, mark := .none, input := false, doubt := false } s ∧
    (∀ g c, old = some c → c.group = some g → y = judgeQuiet g w x) ∧
    ((∀ g c, old = some c → c.group ≠ some g) → y = x) ∧
    (new = none → u = y) ∧
    ∀ c, new = some c → ∃ (input doubt : Bool),
      (input = true ↔ ∃ n ∈ c.sources, (y.pt n).facing = true) ∧ (doubt = true ↔ ∃ n ∈ c.sources, (y.pt n).doubtful = true) ∧
      (input = false → u = WithWindow w { y.window w with input := input, doubt := doubt } y) ∧
      (input = true → u = offer w .active .settings
        (WithWindow w { y.window w with input := input, doubt := doubt, alarm := s.clock.hall, standing := true } y))

/-- The groups that an adoption sets CLEAR (R72): those whose settle time or membership it changes, rising. -/
abbrev GroupsTouched (old new : Tables) (gs : List Nat) : Prop :=
  gs.Pairwise (· < ·) ∧ ∀ g, g ∈ gs ↔ g < 32 ∧ (look old.groups g ≠ look new.groups g ∨
    ∃ w, ¬ ((∃ c, look old.windows w = some c ∧ c.group = some g) ↔ ∃ c, look new.windows w = some c ∧ c.group = some g))

/-- A group set CLEAR (R72): every mark of its members cleared, no entry. -/
abbrev GroupCleared (g : Nat) (s u : State) : Prop :=
  u = { s with win := { s.win with windows := u.win.windows, groups := put s.win.groups g .clear } } ∧
    (∀ w, w ∈ s.members g → u.window w = { s.window w with mark := .none }) ∧ ∀ w, w ∉ s.members g → u.window w = s.window w

/-- A concentrator at the swap (R36, R9); one made unconfigured is served no more by the cycle in progress (log entry 25). -/
abbrev ConcentratorSwapped (c : Nat) (old new : Option ConcentratorSettings) (s u : State) : Prop :=
  (old = none → new ≠ none → u = { s with field := { s.field with
    concentrators := put s.field.concentrators c { Concentrator.reset with link := .seeking } } }) ∧
  (old ≠ none → new = none → u = setSystemPoint (640 + c) false { s with field := { s.field with
    concentrators := put s.field.concentrators c Concentrator.reset
    cycle := s.field.cycle.map fun y => { y with withdrawn := c :: y.withdrawn } } }) ∧
  ((old = none ↔ new = none) → u = s)

/-- A panel at the swap (R81, R9); one made unconfigured keeps its key reference (R79) and is served no more by the cycle in progress (log
entry 25). -/
abbrev PanelSwapped (p : Nat) (old new : Option PanelSettings) (s u : State) : Prop :=
  (old = none → new ≠ none → u = { s with panel := { s.panel with
    panels := put s.panel.panels p { Panel.reset with link := .seeking } } }) ∧
  (old ≠ none → new = none → u = setSystemPoint (656 + p) false { s with panel := { s.panel with
    panels := put s.panel.panels p { Panel.reset with keys := (s.pan p).keys }
    cycle := s.panel.cycle.map fun y => { y with withdrawn := p :: y.withdrawn } } }) ∧
  (∀ a b, old = some a → new = some b →
    (b.keysAccepted = true → u = s) ∧
    (b.keysAccepted = false →
      u = { s with panel := { s.panel with panels := put s.panel.panels p { s.pan p with lampTest := false } } })) ∧
  (old = none → new = none → u = s)

/-- A changed switch's record at the swap, before its supervision (R121). -/
abbrev SwitchRecord (old : Option SwitchSettings) (c : SwitchSettings) (x y : Switch) : Prop :=
  ∃ first : SwitchState, (c.kind = .lockout → first = .settling) ∧ (c.kind ≠ .lockout → first = .ready) ∧
    (old = none → y = { Switch.reset with state := first }) ∧
    ∀ a, old = some a →
      (a.kind = .hold ∧ c.kind = .hold ∧ x.state = .held → y = { x with absorbed := 0, resetFailed := false }) ∧
      (¬ (a.kind = .hold ∧ c.kind = .hold ∧ x.state = .held) →
        y = { x with state := first, absorbed := 0, resetFailed := false, confirmedMark := false, seen := false })

/-- A changed switch at the swap (R121, R144, R102): its test lost uncounted, its record and its supervision set up afresh, its system
points following (R117), and the SETTLED entry where its feedback point is read at once. -/
abbrev SwitchSwapped (i : Nat) (old new : Option SwitchSettings) (s u : State) : Prop :=
  ∃ (chans : Vector Channel 16) (x : Switch) (v : State),
    (∀ h, h < 16 → ((s.chan h).inFlight = some i → look chans h = { s.chan h with inFlight := none }) ∧
      ((s.chan h).inFlight ≠ some i → look chans h = s.chan h)) ∧
    v = syncSwitchPoints i { s with
      sw := { s.sw with switches := put s.sw.switches i x, queue := s.sw.queue.filter fun e => e.switch != i }
      sup := { s.sup with channels := chans } } ∧
    (new = none → x = Switch.reset ∧ u = v) ∧
    ∀ c, new = some c → ∃ y : Switch, SwitchRecord old c { s.swi i with testStart := none } y ∧
      (c.supervision = none → x = { y with supervision := .off, postponed := 0, nextTick := 0 }) ∧
      (∀ h interval, c.supervision = some (h, interval) →
        x = { y with supervision := .untested, postponed := 0, nextTick := s.clock.elapsed + 1000 * interval }) ∧
      (((v.swi i).state = .settling ∧ ∀ n, c.feedback = some n → (v.pt n).quality ≠ .lost) → c.feedback ≠ none →
        (v.operated c = true → u = SwitchEnters i c .lockedOut .settled 7 v) ∧
        (v.operated c = false → u = SwitchEnters i c .ready .settled 1 v)) ∧
      ((v.swi i).state ≠ .settling ∨ (∃ n, c.feedback = some n ∧ (v.pt n).quality = .lost) ∨ c.feedback = none → u = v)

/-- A changed term at the swap (R97, R88). -/
abbrev TermSwapped (t : Nat) (s u : State) : Prop :=
  (s.termSet t = none → u = WithTerm t { s.trm t with state := .unconfigured, seen := [], lastChange := s.clock.hall } s) ∧
  ∀ c, s.termSet t = some c → LooksWhileHeld t c
    (WithTerm t { s.trm t with state := .held, seen := [], activations := 0, lastChange := s.clock.hall } s) u

/-- The loops and the sampling begin (R36, R75, R135, R175). -/
abbrev LoopsStarted (s : State) : State := { s with
  field := { s.field with nextAt := some s.clock.elapsed }
  panel := { s.panel with nextAt := some s.clock.elapsed }
  sup := { s.sup with nextSample := some (s.clock.elapsed + 10) } }

end Sys2Proof.Machine

/-- O42. What each block changes at a swap (R9, R16, R36, R59, R72, R79, R81, R97, R121, R144), and the order of the blocks, of the points,
of the switches, of the terms and of the sense before the threshold of one point (log entry 41). The model's choices here: the order of the consumers of a point event, log
entry 11; the released POINT-CHATTER entry, 14; silence at the end of a shelving, 23; the cycle in progress, 25; records the rules do not list,
36; a point without a sample inverts with its sense, 48; the counts and times of a term, and the switch judged last and the sample kept of
a channel, 52; a HOLD that stays HELD, 53; a SETTLED entry before the system points, 54. The system points of what is made unconfigured go inactive as every system point does (R9). -/
def Obligations.SwapChangesTakeEffect : Prop :=
  (∀ (first : Bool) (old new : Tables) (s : State), ∃ (a b c d : State) (gs : List Nat), GroupsTouched old new gs ∧
    a = restartChatter ((differing old.points new.points).foldl (swapPoint old new) (if first then wakeSystemPoints s else s)) ∧
    b = gs.foldl (fun z g => clearGroup g z)
      ((differing old.windows new.windows).foldl (swapWindow old) ((List.range 384).foldl swapShelving a)) ∧
    c = (differing old.panels new.panels).foldl (swapPanel old new)
      ((differing old.concentrators new.concentrators).foldl (swapConcentrator old new) b) ∧
    d = ((List.range 16).filter fun h => decide ((look old.channels h).mode ≠ (look new.channels h).mode)).foldl swapChannel
      ((differing old.switches new.switches).foldl (swapSwitch old) (if first then LoopsStarted c else c)) ∧
    applyChanges first old new s = (differing old.points new.points).foldl (handSwapChange s)
      ((differing old.terms new.terms).foldl swapTerm (if differing old.switches new.switches = [] then d else runQueue d))) ∧
  (∀ s : State, ∃ ps qs : Vector Point 680, wakeSystemPoints s = { s with pts := { s.pts with points := ps } } ∧
    (∀ n, n < 544 → look ps n = s.pt n) ∧ (∀ n, 544 ≤ n → n < 680 → look ps n = { s.pt n with live := .good }) ∧
    restartChatter s = { s with pts := { s.pts with
      points := qs, nextBoundary := some (s.clock.elapsed + 1000 * s.settings.live.general.chatterPeriod) } } ∧
    ∀ n, n < 680 → look qs n = { s.pt n with chatter := 0 }) ∧
  ∀ (old new : Tables) (s : State), s.settings.live = new →
    (∀ n, n < 544 → PointSwapped n (look old.points n) (look new.points n) s (swapPoint old new s n)) ∧
    (∀ (before : State) (n : Nat), PointHandedOn before n s (handSwapChange before s n)) ∧
    (∀ w, w < 384 → ShelvingSwapped w s (swapShelving s w) ∧
      WindowSwapped w (look old.windows w) (look new.windows w) s (swapWindow old s w)) ∧
    (∀ g, g < 32 → GroupCleared g s (clearGroup g s)) ∧
    (∀ c, c < 16 → ConcentratorSwapped c (look old.concentrators c) (look new.concentrators c) s (swapConcentrator old new s c) ∧
      PanelSwapped c (look old.panels c) (look new.panels c) s (swapPanel old new s c) ∧
      swapChannel s c = { s with sup := { s.sup with
        channels := put s.sup.channels c { s.chan c with low := false, high := false, started := false, lastJudged := none } } }) ∧
    (∀ i, i < 48 → SwitchSwapped i (look old.switches i) (look new.switches i) s (swapSwitch old s i)) ∧
    ∀ t, t < 128 → TermSwapped t s (swapTerm s t)
end

