-- ==== Sys2Proof/Laws/State.lean ====
section
/-! SUPPORT. One lemma for each field of the state under each update of one record, and the readings after each update. -/

namespace Sys2Proof.Machine

/-! ## Fields an update leaves -/

@[simp] theorem setPt_clock (s : State) (n : Nat) (p : Point) : (s.setPt n p).clock = s.clock := rfl
@[simp] theorem setPt_field (s : State) (n : Nat) (p : Point) : (s.setPt n p).field = s.field := rfl
@[simp] theorem setPt_win (s : State) (n : Nat) (p : Point) : (s.setPt n p).win = s.win := rfl
@[simp] theorem setPt_panel (s : State) (n : Nat) (p : Point) : (s.setPt n p).panel = s.panel := rfl
@[simp] theorem setPt_term (s : State) (n : Nat) (p : Point) : (s.setPt n p).term = s.term := rfl
@[simp] theorem setPt_sw (s : State) (n : Nat) (p : Point) : (s.setPt n p).sw = s.sw := rfl
@[simp] theorem setPt_sup (s : State) (n : Nat) (p : Point) : (s.setPt n p).sup = s.sup := rfl
@[simp] theorem setPt_jr (s : State) (n : Nat) (p : Point) : (s.setPt n p).jr = s.jr := rfl
@[simp] theorem setPt_port (s : State) (n : Nat) (p : Point) : (s.setPt n p).port = s.port := rfl
@[simp] theorem setPt_engine (s : State) (n : Nat) (p : Point) : (s.setPt n p).engine = s.engine := rfl
@[simp] theorem setPt_settings (s : State) (n : Nat) (p : Point) : (s.setPt n p).settings = s.settings := rfl
@[simp] theorem setPt_monitor (s : State) (n : Nat) (p : Point) : (s.setPt n p).monitor = s.monitor := rfl
@[simp] theorem setPt_free (s : State) (n : Nat) (p : Point) : (s.setPt n p).free = s.free := rfl
@[simp] theorem setPt_pending (s : State) (n : Nat) (p : Point) : (s.setPt n p).pending = s.pending := rfl

@[simp] theorem setConc_clock (s : State) (c : Nat) (k : Concentrator) : (s.setConc c k).clock = s.clock := rfl
@[simp] theorem setConc_pts (s : State) (c : Nat) (k : Concentrator) : (s.setConc c k).pts = s.pts := rfl
@[simp] theorem setConc_win (s : State) (c : Nat) (k : Concentrator) : (s.setConc c k).win = s.win := rfl
@[simp] theorem setConc_panel (s : State) (c : Nat) (k : Concentrator) : (s.setConc c k).panel = s.panel := rfl
@[simp] theorem setConc_term (s : State) (c : Nat) (k : Concentrator) : (s.setConc c k).term = s.term := rfl
@[simp] theorem setConc_sw (s : State) (c : Nat) (k : Concentrator) : (s.setConc c k).sw = s.sw := rfl
@[simp] theorem setConc_sup (s : State) (c : Nat) (k : Concentrator) : (s.setConc c k).sup = s.sup := rfl
@[simp] theorem setConc_jr (s : State) (c : Nat) (k : Concentrator) : (s.setConc c k).jr = s.jr := rfl
@[simp] theorem setConc_port (s : State) (c : Nat) (k : Concentrator) : (s.setConc c k).port = s.port := rfl
@[simp] theorem setConc_engine (s : State) (c : Nat) (k : Concentrator) : (s.setConc c k).engine = s.engine := rfl
@[simp] theorem setConc_settings (s : State) (c : Nat) (k : Concentrator) : (s.setConc c k).settings = s.settings := rfl
@[simp] theorem setConc_monitor (s : State) (c : Nat) (k : Concentrator) : (s.setConc c k).monitor = s.monitor := rfl
@[simp] theorem setConc_free (s : State) (c : Nat) (k : Concentrator) : (s.setConc c k).free = s.free := rfl
@[simp] theorem setConc_pending (s : State) (c : Nat) (k : Concentrator) : (s.setConc c k).pending = s.pending := rfl

@[simp] theorem setWindow_clock (s : State) (w : Nat) (x : Window) : (s.setWindow w x).clock = s.clock := rfl
@[simp] theorem setWindow_pts (s : State) (w : Nat) (x : Window) : (s.setWindow w x).pts = s.pts := rfl
@[simp] theorem setWindow_field (s : State) (w : Nat) (x : Window) : (s.setWindow w x).field = s.field := rfl
@[simp] theorem setWindow_panel (s : State) (w : Nat) (x : Window) : (s.setWindow w x).panel = s.panel := rfl
@[simp] theorem setWindow_term (s : State) (w : Nat) (x : Window) : (s.setWindow w x).term = s.term := rfl
@[simp] theorem setWindow_sw (s : State) (w : Nat) (x : Window) : (s.setWindow w x).sw = s.sw := rfl
@[simp] theorem setWindow_sup (s : State) (w : Nat) (x : Window) : (s.setWindow w x).sup = s.sup := rfl
@[simp] theorem setWindow_jr (s : State) (w : Nat) (x : Window) : (s.setWindow w x).jr = s.jr := rfl
@[simp] theorem setWindow_port (s : State) (w : Nat) (x : Window) : (s.setWindow w x).port = s.port := rfl
@[simp] theorem setWindow_engine (s : State) (w : Nat) (x : Window) : (s.setWindow w x).engine = s.engine := rfl
@[simp] theorem setWindow_settings (s : State) (w : Nat) (x : Window) : (s.setWindow w x).settings = s.settings := rfl
@[simp] theorem setWindow_monitor (s : State) (w : Nat) (x : Window) : (s.setWindow w x).monitor = s.monitor := rfl
@[simp] theorem setWindow_free (s : State) (w : Nat) (x : Window) : (s.setWindow w x).free = s.free := rfl
@[simp] theorem setWindow_pending (s : State) (w : Nat) (x : Window) : (s.setWindow w x).pending = s.pending := rfl

@[simp] theorem setGroup_clock (s : State) (g : Nat) (x : FirstOut) : (s.setGroup g x).clock = s.clock := rfl
@[simp] theorem setGroup_pts (s : State) (g : Nat) (x : FirstOut) : (s.setGroup g x).pts = s.pts := rfl
@[simp] theorem setGroup_field (s : State) (g : Nat) (x : FirstOut) : (s.setGroup g x).field = s.field := rfl
@[simp] theorem setGroup_panel (s : State) (g : Nat) (x : FirstOut) : (s.setGroup g x).panel = s.panel := rfl
@[simp] theorem setGroup_term (s : State) (g : Nat) (x : FirstOut) : (s.setGroup g x).term = s.term := rfl
@[simp] theorem setGroup_sw (s : State) (g : Nat) (x : FirstOut) : (s.setGroup g x).sw = s.sw := rfl
@[simp] theorem setGroup_sup (s : State) (g : Nat) (x : FirstOut) : (s.setGroup g x).sup = s.sup := rfl
@[simp] theorem setGroup_jr (s : State) (g : Nat) (x : FirstOut) : (s.setGroup g x).jr = s.jr := rfl
@[simp] theorem setGroup_port (s : State) (g : Nat) (x : FirstOut) : (s.setGroup g x).port = s.port := rfl
@[simp] theorem setGroup_engine (s : State) (g : Nat) (x : FirstOut) : (s.setGroup g x).engine = s.engine := rfl
@[simp] theorem setGroup_settings (s : State) (g : Nat) (x : FirstOut) : (s.setGroup g x).settings = s.settings := rfl
@[simp] theorem setGroup_monitor (s : State) (g : Nat) (x : FirstOut) : (s.setGroup g x).monitor = s.monitor := rfl
@[simp] theorem setGroup_free (s : State) (g : Nat) (x : FirstOut) : (s.setGroup g x).free = s.free := rfl
@[simp] theorem setGroup_pending (s : State) (g : Nat) (x : FirstOut) : (s.setGroup g x).pending = s.pending := rfl

@[simp] theorem setPan_clock (s : State) (p : Nat) (x : Panel) : (s.setPan p x).clock = s.clock := rfl
@[simp] theorem setPan_pts (s : State) (p : Nat) (x : Panel) : (s.setPan p x).pts = s.pts := rfl
@[simp] theorem setPan_field (s : State) (p : Nat) (x : Panel) : (s.setPan p x).field = s.field := rfl
@[simp] theorem setPan_win (s : State) (p : Nat) (x : Panel) : (s.setPan p x).win = s.win := rfl
@[simp] theorem setPan_term (s : State) (p : Nat) (x : Panel) : (s.setPan p x).term = s.term := rfl
@[simp] theorem setPan_sw (s : State) (p : Nat) (x : Panel) : (s.setPan p x).sw = s.sw := rfl
@[simp] theorem setPan_sup (s : State) (p : Nat) (x : Panel) : (s.setPan p x).sup = s.sup := rfl
@[simp] theorem setPan_jr (s : State) (p : Nat) (x : Panel) : (s.setPan p x).jr = s.jr := rfl
@[simp] theorem setPan_port (s : State) (p : Nat) (x : Panel) : (s.setPan p x).port = s.port := rfl
@[simp] theorem setPan_engine (s : State) (p : Nat) (x : Panel) : (s.setPan p x).engine = s.engine := rfl
@[simp] theorem setPan_settings (s : State) (p : Nat) (x : Panel) : (s.setPan p x).settings = s.settings := rfl
@[simp] theorem setPan_monitor (s : State) (p : Nat) (x : Panel) : (s.setPan p x).monitor = s.monitor := rfl
@[simp] theorem setPan_free (s : State) (p : Nat) (x : Panel) : (s.setPan p x).free = s.free := rfl
@[simp] theorem setPan_pending (s : State) (p : Nat) (x : Panel) : (s.setPan p x).pending = s.pending := rfl

@[simp] theorem setTrm_clock (s : State) (t : Nat) (x : Term) : (s.setTrm t x).clock = s.clock := rfl
@[simp] theorem setTrm_pts (s : State) (t : Nat) (x : Term) : (s.setTrm t x).pts = s.pts := rfl
@[simp] theorem setTrm_field (s : State) (t : Nat) (x : Term) : (s.setTrm t x).field = s.field := rfl
@[simp] theorem setTrm_win (s : State) (t : Nat) (x : Term) : (s.setTrm t x).win = s.win := rfl
@[simp] theorem setTrm_panel (s : State) (t : Nat) (x : Term) : (s.setTrm t x).panel = s.panel := rfl
@[simp] theorem setTrm_sw (s : State) (t : Nat) (x : Term) : (s.setTrm t x).sw = s.sw := rfl
@[simp] theorem setTrm_sup (s : State) (t : Nat) (x : Term) : (s.setTrm t x).sup = s.sup := rfl
@[simp] theorem setTrm_jr (s : State) (t : Nat) (x : Term) : (s.setTrm t x).jr = s.jr := rfl
@[simp] theorem setTrm_port (s : State) (t : Nat) (x : Term) : (s.setTrm t x).port = s.port := rfl
@[simp] theorem setTrm_engine (s : State) (t : Nat) (x : Term) : (s.setTrm t x).engine = s.engine := rfl
@[simp] theorem setTrm_settings (s : State) (t : Nat) (x : Term) : (s.setTrm t x).settings = s.settings := rfl
@[simp] theorem setTrm_monitor (s : State) (t : Nat) (x : Term) : (s.setTrm t x).monitor = s.monitor := rfl
@[simp] theorem setTrm_free (s : State) (t : Nat) (x : Term) : (s.setTrm t x).free = s.free := rfl
@[simp] theorem setTrm_pending (s : State) (t : Nat) (x : Term) : (s.setTrm t x).pending = s.pending := rfl

@[simp] theorem setSwi_clock (s : State) (i : Nat) (x : Switch) : (s.setSwi i x).clock = s.clock := rfl
@[simp] theorem setSwi_pts (s : State) (i : Nat) (x : Switch) : (s.setSwi i x).pts = s.pts := rfl
@[simp] theorem setSwi_field (s : State) (i : Nat) (x : Switch) : (s.setSwi i x).field = s.field := rfl
@[simp] theorem setSwi_win (s : State) (i : Nat) (x : Switch) : (s.setSwi i x).win = s.win := rfl
@[simp] theorem setSwi_panel (s : State) (i : Nat) (x : Switch) : (s.setSwi i x).panel = s.panel := rfl
@[simp] theorem setSwi_term (s : State) (i : Nat) (x : Switch) : (s.setSwi i x).term = s.term := rfl
@[simp] theorem setSwi_sup (s : State) (i : Nat) (x : Switch) : (s.setSwi i x).sup = s.sup := rfl
@[simp] theorem setSwi_jr (s : State) (i : Nat) (x : Switch) : (s.setSwi i x).jr = s.jr := rfl
@[simp] theorem setSwi_port (s : State) (i : Nat) (x : Switch) : (s.setSwi i x).port = s.port := rfl
@[simp] theorem setSwi_engine (s : State) (i : Nat) (x : Switch) : (s.setSwi i x).engine = s.engine := rfl
@[simp] theorem setSwi_settings (s : State) (i : Nat) (x : Switch) : (s.setSwi i x).settings = s.settings := rfl
@[simp] theorem setSwi_monitor (s : State) (i : Nat) (x : Switch) : (s.setSwi i x).monitor = s.monitor := rfl
@[simp] theorem setSwi_free (s : State) (i : Nat) (x : Switch) : (s.setSwi i x).free = s.free := rfl
@[simp] theorem setSwi_pending (s : State) (i : Nat) (x : Switch) : (s.setSwi i x).pending = s.pending := rfl

@[simp] theorem setChan_clock (s : State) (c : Nat) (x : Channel) : (s.setChan c x).clock = s.clock := rfl
@[simp] theorem setChan_pts (s : State) (c : Nat) (x : Channel) : (s.setChan c x).pts = s.pts := rfl
@[simp] theorem setChan_field (s : State) (c : Nat) (x : Channel) : (s.setChan c x).field = s.field := rfl
@[simp] theorem setChan_win (s : State) (c : Nat) (x : Channel) : (s.setChan c x).win = s.win := rfl
@[simp] theorem setChan_panel (s : State) (c : Nat) (x : Channel) : (s.setChan c x).panel = s.panel := rfl
@[simp] theorem setChan_term (s : State) (c : Nat) (x : Channel) : (s.setChan c x).term = s.term := rfl
@[simp] theorem setChan_sw (s : State) (c : Nat) (x : Channel) : (s.setChan c x).sw = s.sw := rfl
@[simp] theorem setChan_jr (s : State) (c : Nat) (x : Channel) : (s.setChan c x).jr = s.jr := rfl
@[simp] theorem setChan_port (s : State) (c : Nat) (x : Channel) : (s.setChan c x).port = s.port := rfl
@[simp] theorem setChan_engine (s : State) (c : Nat) (x : Channel) : (s.setChan c x).engine = s.engine := rfl
@[simp] theorem setChan_settings (s : State) (c : Nat) (x : Channel) : (s.setChan c x).settings = s.settings := rfl
@[simp] theorem setChan_monitor (s : State) (c : Nat) (x : Channel) : (s.setChan c x).monitor = s.monitor := rfl
@[simp] theorem setChan_free (s : State) (c : Nat) (x : Channel) : (s.setChan c x).free = s.free := rfl
@[simp] theorem setChan_pending (s : State) (c : Nat) (x : Channel) : (s.setChan c x).pending = s.pending := rfl

@[simp] theorem setHolder_clock (s : State) (k : Nat) (h : Holder) : (s.setHolder k h).clock = s.clock := rfl
@[simp] theorem setHolder_pts (s : State) (k : Nat) (h : Holder) : (s.setHolder k h).pts = s.pts := rfl
@[simp] theorem setHolder_field (s : State) (k : Nat) (h : Holder) : (s.setHolder k h).field = s.field := rfl
@[simp] theorem setHolder_win (s : State) (k : Nat) (h : Holder) : (s.setHolder k h).win = s.win := rfl
@[simp] theorem setHolder_panel (s : State) (k : Nat) (h : Holder) : (s.setHolder k h).panel = s.panel := rfl
@[simp] theorem setHolder_term (s : State) (k : Nat) (h : Holder) : (s.setHolder k h).term = s.term := rfl
@[simp] theorem setHolder_sw (s : State) (k : Nat) (h : Holder) : (s.setHolder k h).sw = s.sw := rfl
@[simp] theorem setHolder_sup (s : State) (k : Nat) (h : Holder) : (s.setHolder k h).sup = s.sup := rfl
@[simp] theorem setHolder_jr (s : State) (k : Nat) (h : Holder) : (s.setHolder k h).jr = s.jr := rfl
@[simp] theorem setHolder_engine (s : State) (k : Nat) (h : Holder) : (s.setHolder k h).engine = s.engine := rfl
@[simp] theorem setHolder_settings (s : State) (k : Nat) (h : Holder) : (s.setHolder k h).settings = s.settings := rfl
@[simp] theorem setHolder_monitor (s : State) (k : Nat) (h : Holder) : (s.setHolder k h).monitor = s.monitor := rfl
@[simp] theorem setHolder_free (s : State) (k : Nat) (h : Holder) : (s.setHolder k h).free = s.free := rfl
@[simp] theorem setHolder_pending (s : State) (k : Nat) (h : Holder) : (s.setHolder k h).pending = s.pending := rfl

@[simp] theorem request_clock (s : State) (e : Entry) : (s.request e).clock = s.clock := rfl
@[simp] theorem request_pts (s : State) (e : Entry) : (s.request e).pts = s.pts := rfl
@[simp] theorem request_field (s : State) (e : Entry) : (s.request e).field = s.field := rfl
@[simp] theorem request_win (s : State) (e : Entry) : (s.request e).win = s.win := rfl
@[simp] theorem request_panel (s : State) (e : Entry) : (s.request e).panel = s.panel := rfl
@[simp] theorem request_term (s : State) (e : Entry) : (s.request e).term = s.term := rfl
@[simp] theorem request_sw (s : State) (e : Entry) : (s.request e).sw = s.sw := rfl
@[simp] theorem request_sup (s : State) (e : Entry) : (s.request e).sup = s.sup := rfl
@[simp] theorem request_port (s : State) (e : Entry) : (s.request e).port = s.port := rfl
@[simp] theorem request_engine (s : State) (e : Entry) : (s.request e).engine = s.engine := rfl
@[simp] theorem request_settings (s : State) (e : Entry) : (s.request e).settings = s.settings := rfl
@[simp] theorem request_monitor (s : State) (e : Entry) : (s.request e).monitor = s.monitor := rfl
@[simp] theorem request_free (s : State) (e : Entry) : (s.request e).free = s.free := rfl
@[simp] theorem request_pending (s : State) (e : Entry) : (s.request e).pending = s.pending := rfl
@[simp] theorem request_jr (s : State) (e : Entry) : (s.request e).jr = s.jr.request s.clock.hall e := rfl

@[simp] theorem withPending_clock (s : State) (q : List Instr) : (s.withPending q).clock = s.clock := rfl
@[simp] theorem withPending_pts (s : State) (q : List Instr) : (s.withPending q).pts = s.pts := rfl
@[simp] theorem withPending_field (s : State) (q : List Instr) : (s.withPending q).field = s.field := rfl
@[simp] theorem withPending_win (s : State) (q : List Instr) : (s.withPending q).win = s.win := rfl
@[simp] theorem withPending_panel (s : State) (q : List Instr) : (s.withPending q).panel = s.panel := rfl
@[simp] theorem withPending_term (s : State) (q : List Instr) : (s.withPending q).term = s.term := rfl
@[simp] theorem withPending_sw (s : State) (q : List Instr) : (s.withPending q).sw = s.sw := rfl
@[simp] theorem withPending_sup (s : State) (q : List Instr) : (s.withPending q).sup = s.sup := rfl
@[simp] theorem withPending_jr (s : State) (q : List Instr) : (s.withPending q).jr = s.jr := rfl
@[simp] theorem withPending_port (s : State) (q : List Instr) : (s.withPending q).port = s.port := rfl
@[simp] theorem withPending_engine (s : State) (q : List Instr) : (s.withPending q).engine = s.engine := rfl
@[simp] theorem withPending_settings (s : State) (q : List Instr) : (s.withPending q).settings = s.settings := rfl
@[simp] theorem withPending_monitor (s : State) (q : List Instr) : (s.withPending q).monitor = s.monitor := rfl
@[simp] theorem withPending_free (s : State) (q : List Instr) : (s.withPending q).free = s.free := rfl
@[simp] theorem withPending_pending (s : State) (q : List Instr) : (s.withPending q).pending = q := rfl

/-! ## Tables -/

theorem look_put {α : Type} {n : Nat} [Inhabited α] (v : Vector α n) (i j : Nat) (a : α) :
    look (put v i a) j = if i = j ∧ j < n then a else look v j := by
  simp only [look, put, Vector.getElem?_setIfInBounds]
  by_cases h : i = j
  · subst h
    by_cases hi : i < n <;> simp [hi]
  · simp [h]

theorem look_put_other {α : Type} {n : Nat} [Inhabited α] (v : Vector α n) {i j : Nat} (a : α) (h : i ≠ j) :
    look (put v i a) j = look v j := by simp [look_put, h]

theorem look_put_same {α : Type} {n : Nat} [Inhabited α] (v : Vector α n) {i : Nat} (a : α) (h : i < n) :
    look (put v i a) i = a := by simp [look_put, h]

/-- A reading of every entry that a replacement leaves. -/
theorem look_put_map {α β : Type} {n : Nat} [Inhabited α] (f : α → β) (v : Vector α n) (i : Nat) (a : α)
    (h : f a = f (look v i)) (j : Nat) : f (look (put v i a) j) = f (look v j) := by
  rw [look_put]
  split
  · next hc => rw [h, hc.1]
  · rfl

theorem put_eq_setIfInBounds {α : Type} {n : Nat} (v : Vector α n) (i : Nat) (a : α) :
    put v i a = v.setIfInBounds i a := rfl

theorem look_replicate {α : Type} {n : Nat} [Inhabited α] (a : α) (i : Nat) (h : i < n) :
    look (Vector.replicate n a) i = a := by simp [look, h]

theorem look_mapNumbered {α : Type} {n : Nat} [Inhabited α] (f : Nat → α → α) (v : Vector α n) (i : Nat) (h : i < n) :
    look (mapNumbered f v) i = f i (look v i) := by
  have hv : v.toList.length = n := by simp
  simp only [look, mapNumbered]
  rw [Vector.getElem?_eq_getElem h, Vector.getElem?_eq_getElem h]
  simp

theorem look_beyond {α : Type} {n : Nat} [Inhabited α] (v : Vector α n) (i : Nat) (h : n ≤ i) : look v i = default := by
  simp [look, Vector.getElem?_eq_none h]

/-- A reading that the change of every entry leaves. -/
theorem look_mapNumbered_map {α β : Type} {n : Nat} [Inhabited α] (f : Nat → α → α) (g : α → β) (v : Vector α n)
    (h : ∀ i a, g (f i a) = g a) (i : Nat) : g (look (mapNumbered f v) i) = g (look v i) := by
  by_cases hi : i < n
  · rw [look_mapNumbered f v i hi, h]
  · rw [look_beyond _ i (by omega), look_beyond _ i (by omega)]

theorem look_tabulate {α : Type} [Inhabited α] (n : Nat) (f : Nat → α) (i : Nat) (h : i < n) :
    look (tabulate n f) i = f i := by
  simp only [look, tabulate]
  rw [Vector.getElem?_eq_getElem h]
  simp

/-! ## Readings of one record -/

theorem pt_setPt (s : State) (n m : Nat) (p : Point) :
    (s.setPt n p).pt m = if n = m ∧ m < 680 then p else s.pt m := look_put _ _ _ _

theorem window_setWindow (s : State) (w v : Nat) (x : Window) :
    (s.setWindow w x).window v = if w = v ∧ v < 384 then x else s.window v := look_put _ _ _ _

theorem group_setGroup (s : State) (g h : Nat) (x : FirstOut) :
    (s.setGroup g x).group h = if g = h ∧ h < 32 then x else s.group h := look_put _ _ _ _

theorem conc_setConc (s : State) (c d : Nat) (k : Concentrator) :
    (s.setConc c k).conc d = if c = d ∧ d < 16 then k else s.conc d := look_put _ _ _ _

theorem pan_setPan (s : State) (p q : Nat) (x : Panel) :
    (s.setPan p x).pan q = if p = q ∧ q < 16 then x else s.pan q := look_put _ _ _ _

theorem trm_setTrm (s : State) (t u : Nat) (x : Term) :
    (s.setTrm t x).trm u = if t = u ∧ u < 128 then x else s.trm u := look_put _ _ _ _

theorem swi_setSwi (s : State) (i j : Nat) (x : Switch) :
    (s.setSwi i x).swi j = if i = j ∧ j < 48 then x else s.swi j := look_put _ _ _ _

theorem chan_setChan (s : State) (c d : Nat) (x : Channel) :
    (s.setChan c x).chan d = if c = d ∧ d < 16 then x else s.chan d := look_put _ _ _ _

theorem holder_setHolder (s : State) (k l : Nat) (h : Holder) :
    (s.setHolder k h).holder l = if k = l ∧ l < 32 then h else s.holder l := look_put _ _ _ _

/-- The numbers that satisfy a test are as many as the entries that do. -/
theorem numbersWhere_length {α : Type} {n : Nat} (v : Vector α n) (p : α → Bool) :
    (numbersWhere v p).length = v.toList.countP p := by
  have key : ∀ (l : List α) (k : Nat),
      ((l.zipIdx k).filterMap fun x => if p x.1 then some x.2 else none).length = l.countP p := by
    intro l
    induction l with
    | nil => intro k; rfl
    | cons a l ih =>
      intro k
      rw [List.zipIdx_cons, List.filterMap_cons, List.countP_cons]
      cases h : p a
      · simp only
        rw [if_neg (by simp), ih]
        simp
      · simp only [if_true, List.length_cons, ih]
  exact key _ 0

/-- How many entries satisfy a test after one entry has been replaced. -/
theorem numbersWhere_put_length {α : Type} {n : Nat} [Inhabited α] (v : Vector α n) (p : α → Bool) (i : Nat) (a : α) :
    (numbersWhere (put v i a) p).length ≤ (numbersWhere v p).length + 1 ∧
      ((p a = true → p (look v i) = true) → (numbersWhere (put v i a) p).length ≤ (numbersWhere v p).length) := by
  rw [numbersWhere_length, numbersWhere_length]
  have hl : (put v i a).toList = v.toList.set i a := by simp [put]
  rw [hl]
  by_cases h : i < v.toList.length
  · rw [List.countP_set h]
    have hi : v.toList[i] = look v i := by
      unfold look
      rw [Vector.getElem?_eq_getElem (by simpa using h)]
      simp
    have hp : p v.toList[i] = true → 1 ≤ v.toList.countP p := fun hp =>
      List.countP_pos_iff.2 ⟨_, List.getElem_mem h, hp⟩
    rw [hi] at hp ⊢
    constructor
    · split <;> split <;> omega
    · intro hx
      cases ha : p a
      · simp
      · have h1 := hx ha
        have h2 := hp h1
        rw [if_pos h1, if_pos rfl]
        omega
  · rw [List.set_eq_of_length_le (by omega)]
    exact ⟨by omega, fun _ => le_rfl⟩

/-- The numbers listed are those whose entry satisfies the test. -/
theorem mem_numbersWhere {α : Type} {n : Nat} [Inhabited α] (v : Vector α n) (p : α → Bool) (i : Nat) :
    i ∈ numbersWhere v p ↔ i < n ∧ p (look v i) = true := by
  have key : ∀ (l : List α) (k i : Nat),
      i ∈ (l.zipIdx k).filterMap (fun x => if p x.1 then some x.2 else none) ↔ ∃ a, k ≤ i ∧ l[i - k]? = some a ∧ p a = true := by
    intro l k i
    simp only [List.mem_filterMap, Prod.exists, List.mk_mem_zipIdx_iff_le_and_getElem?_sub]
    constructor
    · rintro ⟨a, j, ⟨h1, h2⟩, h3⟩
      split at h3
      · next h4 =>
        simp only [Option.some.injEq] at h3
        subst h3
        exact ⟨a, h1, h2, h4⟩
      · cases h3
    · rintro ⟨a, h1, h2, h3⟩
      exact ⟨a, i, ⟨h1, h2⟩, by simp [h3]⟩
  unfold numbersWhere
  rw [key]
  constructor
  · rintro ⟨a, -, h2, h3⟩
    simp only [Nat.sub_zero, Vector.getElem?_toList] at h2
    have hi : i < n := by
      by_contra hn
      rw [Vector.getElem?_eq_none (by omega)] at h2
      cases h2
    refine ⟨hi, ?_⟩
    unfold look
    rw [h2]
    exact h3
  · rintro ⟨hi, hp⟩
    refine ⟨look v i, Nat.zero_le _, ?_, hp⟩
    simp only [Nat.sub_zero, Vector.getElem?_toList]
    unfold look
    rw [Vector.getElem?_eq_getElem hi]
    rfl

theorem mem_configuredWhere {α : Type} {n : Nat} (v : Vector (Option α) n) (p : α → Bool) (i : Nat) :
    i ∈ configuredWhere v p ↔ ∃ c, look v i = some c ∧ p c = true := by
  unfold configuredWhere
  rw [mem_numbersWhere]
  constructor
  · rintro ⟨-, h⟩
    split at h
    · next c hc => exact ⟨c, hc, h⟩
    · cases h
  · rintro ⟨c, hc, hp⟩
    refine ⟨?_, by rw [hc]; exact hp⟩
    by_contra hn
    rw [look_beyond _ _ (by omega)] at hc
    cases hc

/-! ## What a cycle in progress serves -/

theorem fieldServes_of_not_mem {y : FieldCycle} {c : Nat} (s : State) (h : c ∉ y.withdrawn) : y.serves s c = s.concSet c := by
  unfold FieldCycle.serves
  rw [if_neg (by simpa using h)]

theorem fieldServes_none {y : FieldCycle} {s : State} {c : Nat} (h : s.concSet c = none ∨ c ∈ y.withdrawn) :
    y.serves s c = none := by
  unfold FieldCycle.serves
  split
  · rfl
  · next hm => exact h.resolve_right (by simpa using hm)

theorem panelServes_of_not_mem {y : PanelCycle} {p : Nat} (s : State) (h : p ∉ y.withdrawn) : y.serves s p = s.panSet p := by
  unfold PanelCycle.serves
  rw [if_neg (by simpa using h)]

theorem panelServes_none {y : PanelCycle} {s : State} {p : Nat} (h : s.panSet p = none ∨ p ∈ y.withdrawn) :
    y.serves s p = none := by
  unfold PanelCycle.serves
  split
  · rfl
  · next hm => exact h.resolve_right (by simpa using hm)

/-- Without an error acknowledge before it, an answer stands as it is. -/
theorem keepError_false (s : State) : keepError false s = s := by
  simp only [keepError, Bool.or_false]

/-- The error threshold a cycle takes at its start is that of the live settings (R34). -/
theorem look_errorThresholds (t : Tables) (c : Nat) :
    look t.errorThresholds c = ((look t.concentrators c).map fun x => x.errorThreshold).getD 0 := by
  unfold Tables.errorThresholds look
  rw [Vector.getElem?_map]
  cases t.concentrators[c]? <;> rfl

end Sys2Proof.Machine
end

