-- ==== Sys2Proof/Laws/Journal.lean ====
section
/-! SUPPORT. What a journal request and a release can do (R146 to R151). -/

namespace Sys2Proof.Machine

/-- What requests do to the journal: released-through stays, and the law of R147 is kept. -/
structure JournalStep (j k : Journal) : Prop where
  released : k.released = j.released
  law : j.unreleased ≤ 1024 → k.unreleased ≤ 1024

theorem JournalStep.refl (j : Journal) : JournalStep j j := ⟨rfl, id⟩

theorem JournalStep.trans {j k l : Journal} (a : JournalStep j k) (b : JournalStep k l) : JournalStep j l :=
  ⟨b.released.trans a.released, fun h => b.law (a.law h)⟩

@[simp] theorem append_released (j : Journal) (e : Entry) : (j.append e).released = j.released := rfl
@[simp] theorem append_written (j : Journal) (e : Entry) : (j.append e).written = j.written + 1 := rfl
@[simp] theorem append_news (j : Journal) (e : Entry) : (j.append e).news = j.news := rfl
@[simp] theorem append_lostOrdinary (j : Journal) (e : Entry) : (j.append e).lostOrdinary = j.lostOrdinary := rfl
@[simp] theorem append_lostTrip (j : Journal) (e : Entry) : (j.append e).lostTrip = j.lostTrip := rfl
@[simp] theorem writeGap_released (j : Journal) (now : HallTime) : (j.writeGap now).released = j.released := rfl
@[simp] theorem writeGap_written (j : Journal) (now : HallTime) : (j.writeGap now).written = j.written + 1 := rfl
@[simp] theorem writeGap_lostOrdinary (j : Journal) (now : HallTime) : (j.writeGap now).lostOrdinary = 0 := rfl
@[simp] theorem writeGap_lostTrip (j : Journal) (now : HallTime) : (j.writeGap now).lostTrip = 0 := rfl
@[simp] theorem lose_released (j : Journal) (now : HallTime) (t : Bool) : (j.lose now t).released = j.released := rfl
@[simp] theorem lose_written (j : Journal) (now : HallTime) (t : Bool) : (j.lose now t).written = j.written := rfl

/-- One more entry adds one to the unreleased count while there is room. -/
theorem unreleased_succ (j k : Journal) (hw : k.written = j.written + 1) (hr : k.released = j.released)
    (h : j.unreleased < 1024) : k.unreleased = j.unreleased + 1 := by
  unfold Journal.unreleased at *
  rw [hw, hr]
  have e : j.written + 1 - j.released = (j.written - j.released) + 1 := by ring
  rw [e]
  generalize j.written - j.released = d at h
  have one : (1 : Word).toNat = 1 := rfl
  rw [BitVec.toNat_add, one]
  omega

theorem roomAlone_pos (t : Bool) : 1 ≤ roomAlone t := by cases t <;> decide
theorem roomPair_pos (t : Bool) : 2 ≤ roomPair t := by cases t <;> decide

theorem free_pos {j : Journal} {n : Nat} (h : n ≤ j.free) (hn : 1 ≤ n) : j.unreleased + n ≤ 1024 := by
  unfold Journal.free at h
  omega

/-- A request keeps released-through and the law of R147. -/
theorem request_step (j : Journal) (now : HallTime) (e : Entry) : JournalStep j (j.request now e) := by
  unfold Journal.request
  split
  · split
    · next h =>
      have h1 := free_pos h (by have := roomPair_pos e.trip; omega)
      have h2 := roomPair_pos e.trip
      have g := unreleased_succ j (j.writeGap now) rfl rfl (by omega)
      have g2 := unreleased_succ (j.writeGap now) ((j.writeGap now).append e) rfl rfl (by omega)
      exact ⟨rfl, fun _ => by omega⟩
    · exact ⟨rfl, fun h => by simpa [Journal.unreleased] using h⟩
  · split
    · next h =>
      have h1 := free_pos h (roomAlone_pos _)
      have h2 := roomAlone_pos e.trip
      have g := unreleased_succ j (j.append e) rfl rfl (by omega)
      exact ⟨rfl, fun _ => by omega⟩
    · exact ⟨rfl, fun h => by simpa [Journal.unreleased] using h⟩

/-- A release write that is taken keeps the law of R147. -/
theorem release_law (j k : Journal) (now : HallTime) (v : Word) (h : j.release now v = some k)
    (hj : j.unreleased ≤ 1024) : k.unreleased ≤ 1024 ∧ k.released = v := by
  unfold Journal.release at h
  simp only at h
  split at h
  · simp at h
  · next hadv =>
    split at h
    · next h0 =>
      have e : v = j.released := by
        have : v - j.released = 0 := BitVec.eq_of_toNat_eq h0
        exact sub_eq_zero.1 this
      simp at h
      subst h
      exact ⟨hj, e.symm⟩
    · next h0 =>
      have key : ({ j with released := v } : Journal).unreleased ≤ 1024 := by
        unfold Journal.unreleased at *
        have e : j.written - v = (j.written - j.released) - (v - j.released) := by ring
        show (j.written - v).toNat ≤ 1024
        rw [e, BitVec.toNat_sub]
        have a := (j.written - j.released).isLt
        have b := (v - j.released).isLt
        omega
      simp only [Option.some.injEq] at h
      subst h
      split
      · next hg =>
        have h1 := free_pos hg.2 (roomAlone_pos _)
        have h2 := roomAlone_pos (decide (0 < j.lostTrip))
        have g := unreleased_succ { j with released := v } (({ j with released := v } : Journal).writeGap now) rfl rfl
          (by have := free_pos hg.2 (roomAlone_pos _); have := roomAlone_pos (decide (0 < ({ j with released := v } : Journal).lostTrip)); omega)
        refine ⟨?_, rfl⟩
        rw [g]
        have := free_pos hg.2 (roomAlone_pos _)
        have := roomAlone_pos (decide (0 < ({ j with released := v } : Journal).lostTrip))
        omega
      · exact ⟨key, rfl⟩

/-! ## Ordinary requests: how often point 672 can still change -/

/-- How many changes of point 672 ordinary requests can still bring, however many come: a GAP and then a loss, a loss, or none. -/
def Journal.toCome (j : Journal) : Nat := if j.losing then (if 18 ≤ j.free then 2 else 0) else 1

/-- What ordinary requests do to the journal: a journal step in which each change of point 672 uses up one of those to come, and the
last of them says whether a loss is pending. -/
structure OrdinaryStep (j k : Journal) : Prop extends JournalStep j k where
  news : ∃ l, k.news = j.news ++ l ∧ k.toCome + l.length = j.toCome ∧ k.losing = l.getLast?.getD j.losing

theorem OrdinaryStep.refl (j : Journal) : OrdinaryStep j j := ⟨JournalStep.refl j, [], by simp⟩

theorem OrdinaryStep.trans {j k l : Journal} (a : OrdinaryStep j k) (b : OrdinaryStep k l) : OrdinaryStep j l := by
  obtain ⟨x, hx, ex, lx⟩ := a.news
  obtain ⟨y, hy, ey, ly⟩ := b.news
  refine ⟨a.toJournalStep.trans b.toJournalStep, x ++ y, by rw [hy, hx, List.append_assoc], by rw [List.length_append]; omega, ?_⟩
  rw [ly, lx, List.getLast?_append]
  cases y.getLast? <;> rfl

/-- What point 672 will show once it has been told everything is whether a loss is pending, if that was so before. -/
theorem OrdinaryStep.shows {j k : Journal} (h : OrdinaryStep j k) {value : Bool} (hv : j.news.getLast?.getD value = j.losing) :
    k.news.getLast?.getD value = k.losing := by
  obtain ⟨l, hl, _, el⟩ := h.news
  rw [hl, el, List.getLast?_append]
  cases l.getLast? with
  | none => exact hv
  | some b => rfl

theorem free_succ (j k : Journal) (hw : k.written = j.written + 1) (hr : k.released = j.released) (h : 1 ≤ j.free) :
    k.free + 1 = j.free := by
  have := unreleased_succ j k hw hr (by unfold Journal.free at h; omega)
  unfold Journal.free at *
  omega

/-- A request of ordinary class is an ordinary step. -/
theorem request_ordinary (j : Journal) (now : HallTime) (e : Entry) (he : e.trip = false) :
    OrdinaryStep j (j.request now e) := by
  refine ⟨request_step j now e, ?_⟩
  unfold Journal.request
  rw [he]
  simp only [roomPair, roomAlone, Bool.false_eq_true, if_false]
  split
  · next hl =>
    split
    · next hf =>
      have : ((j.writeGap now).append e).losing = false := by simp [Journal.losing]
      refine ⟨[false], rfl, ?_, this⟩
      simp only [Journal.toCome, this, hl, hf]
      rfl
    · next hf =>
      have hf' : (j.lose now false).free = j.free := rfl
      have : (j.lose now false).losing = true := by
        have := hl
        simp only [Journal.losing, Journal.lose, saturate, decide_eq_true_eq] at this ⊢
        simp
        split <;> omega
      refine ⟨[], by simp [Journal.lose, hl], ?_, by simp [this, hl]⟩
      simp only [Journal.toCome, this, hl, hf', hf]
      rfl
  · next hl =>
    have hl' : j.losing = false := by simpa using hl
    split
    · have : (j.append e).losing = false := hl'
      refine ⟨[], by simp, ?_, by simp [this, hl']⟩
      simp only [Journal.toCome, this, hl']
      rfl
    · next hf =>
      have hf' : (j.lose now false).free = j.free := rfl
      have : (j.lose now false).losing = true := by
        simp [Journal.losing, Journal.lose, saturate]
        left
        split <;> omega
      have h18 : ¬ 18 ≤ j.free := by omega
      refine ⟨[true], by simp [Journal.lose, hl'], ?_, this⟩
      simp only [Journal.toCome, this, hl', hf', h18]
      rfl

/-- A request of any class keeps it that point 672 will show whether a loss is pending. -/
theorem request_shows (j : Journal) (now : HallTime) (e : Entry) {value : Bool} (hv : j.news.getLast?.getD value = j.losing) :
    (j.request now e).news.getLast?.getD value = (j.request now e).losing := by
  have lost : (j.lose now e.trip).news.getLast?.getD value = (j.lose now e.trip).losing := by
    have hk : (j.lose now e.trip).losing = true := by
      simp only [Journal.losing, Journal.lose, saturate, decide_eq_true_eq]
      cases e.trip <;> simp <;> split <;> omega
    rw [hk]
    cases hj : j.losing
    · simp [Journal.lose, hj]
    · rw [hj] at hv
      simpa [Journal.lose, hj] using hv
  unfold Journal.request
  split
  · split
    · have : ((j.writeGap now).append e).losing = false := by simp [Journal.losing]
      rw [this]
      simp [Journal.writeGap]
    · exact lost
  · split
    · exact hv
    · exact lost

end Sys2Proof.Machine
end

