-- ==== Sys2Proof/Laws/Windows.lean ====
section
/-! SUPPORT. What the window sequencer and the first-out tracker can do: they change window state and the journal, nothing else. -/

namespace Sys2Proof.Machine

/-! ## Composition -/

theorem ite_rel {R : State → State → Prop} {s a b : State} {p : Prop} [Decidable p] (h1 : R s a) (h2 : R s b) :
    R s (if p then a else b) := by split <;> assumption

theorem foldl_rel {α : Type} {R : State → State → Prop} (refl : ∀ s, R s s) (trans : ∀ {s t u}, R s t → R t u → R s u)
    (f : State → α → State) (h : ∀ s a, R s (f s a)) : ∀ (l : List α) (s : State), R s (l.foldl f s)
  | [], s => refl s
  | a :: l, s => trans (h s a) (foldl_rel refl trans f h l (f s a))

/-- A step of the window side: every part of the state but windows and journal stays, and the journal takes requests of ordinary class. -/
structure WinStep (s t : State) : Prop where
  clock : t.clock = s.clock
  pts : t.pts = s.pts
  field : t.field = s.field
  panel : t.panel = s.panel
  term : t.term = s.term
  sw : t.sw = s.sw
  sup : t.sup = s.sup
  port : t.port = s.port
  engine : t.engine = s.engine
  settings : t.settings = s.settings
  monitor : t.monitor = s.monitor
  free : t.free = s.free
  pending : t.pending = s.pending
  jr : OrdinaryStep s.jr t.jr

theorem WinStep.refl (s : State) : WinStep s s :=
  ⟨rfl, rfl, rfl, rfl, rfl, rfl, rfl, rfl, rfl, rfl, rfl, rfl, rfl, OrdinaryStep.refl _⟩

theorem WinStep.trans {s t u : State} (a : WinStep s t) (b : WinStep t u) : WinStep s u :=
  ⟨b.clock.trans a.clock, b.pts.trans a.pts, b.field.trans a.field, b.panel.trans a.panel, b.term.trans a.term, b.sw.trans a.sw, b.sup.trans a.sup, b.port.trans a.port, b.engine.trans a.engine, b.settings.trans a.settings, b.monitor.trans a.monitor, b.free.trans a.free, b.pending.trans a.pending,
    a.jr.trans b.jr⟩

theorem setWindow_winStep (s : State) (w : Nat) (x : Window) : WinStep s (s.setWindow w x) :=
  ⟨rfl, rfl, rfl, rfl, rfl, rfl, rfl, rfl, rfl, rfl, rfl, rfl, rfl, OrdinaryStep.refl _⟩

theorem setGroup_winStep (s : State) (g : Nat) (x : FirstOut) : WinStep s (s.setGroup g x) :=
  ⟨rfl, rfl, rfl, rfl, rfl, rfl, rfl, rfl, rfl, rfl, rfl, rfl, rfl, OrdinaryStep.refl _⟩

theorem request_winStep (s : State) (e : Entry) (he : e.trip = false) : WinStep s (s.request e) :=
  ⟨rfl, rfl, rfl, rfl, rfl, rfl, rfl, rfl, rfl, rfl, rfl, rfl, rfl, request_ordinary _ _ _ he⟩

/-- Any change of the window state alone. -/
theorem win_winStep (s : State) (w : Windows) : WinStep s { s with win := w } :=
  ⟨rfl, rfl, rfl, rfl, rfl, rfl, rfl, rfl, rfl, rfl, rfl, rfl, rfl, OrdinaryStep.refl _⟩

/-! ## First-out groups -/

theorem setMark_winStep (w : Nat) (m : Mark) (s : State) : WinStep s (setMark w m s) := setWindow_winStep _ _ _

theorem latch_winStep (g : Nat) (t : HallTime) (ws : List Nat) (s : State) : WinStep s (latch g t ws s) :=
  (setGroup_winStep _ _ _).trans (request_winStep _ _ rfl)

theorem settleEnd_winStep (g : Nat) (s : State) : WinStep s (settleEnd g s) := by
  unfold settleEnd
  split
  · exact latch_winStep _ _ _ _
  · exact WinStep.refl _
  · exact WinStep.refl _

theorem judgeAlert_winStep (g w : Nat) (s : State) : WinStep s (judgeAlert g w s) := by
  unfold judgeAlert
  extract_lets s1 x s2
  have h1 : WinStep s s1 := setGroup_winStep _ _ _
  have h2 : WinStep s1 s2 := setMark_winStep _ _ _
  clear_value s2 x s1
  refine ite_rel h1 (h1.trans ?_)
  split
  · exact ite_rel (h2.trans (latch_winStep _ _ _ _)) (h2.trans (setGroup_winStep _ _ _))
  · refine ite_rel ?_ (ite_rel ((setGroup_winStep _ _ _).trans (setMark_winStep _ _ _)) (setMark_winStep _ _ _))
    exact ((foldl_rel WinStep.refl WinStep.trans _ (fun s v => setMark_winStep v .subsequent s) _ _).trans
      (setGroup_winStep _ _ _)).trans (setMark_winStep _ _ _)
  · exact ite_rel (setMark_winStep _ _ _) (WinStep.refl _)

theorem judgeQuiet_winStep (g w : Nat) (s : State) : WinStep s (judgeQuiet g w s) := by
  unfold judgeQuiet
  extract_lets s1
  have h1 : WinStep s s1 := setGroup_winStep _ _ _
  clear_value s1
  exact ite_rel (h1.trans (setGroup_winStep _ _ _)) h1

theorem clearGroup_winStep (g : Nat) (s : State) : WinStep s (clearGroup g s) :=
  (foldl_rel WinStep.refl WinStep.trans _ (fun s v => setMark_winStep v .none s) _ _).trans (setGroup_winStep _ _ _)

/-! ## Windows -/

theorem setSilence_winStep (s : State) : WinStep s (setSilence s) := win_winStep _ _
theorem clearSilence_winStep (s : State) : WinStep s (clearSilence s) := win_winStep _ _
theorem startChime_winStep (s : State) : WinStep s (startChime s) := win_winStep _ _
theorem dropShelf_winStep (w : Nat) (s : State) : WinStep s (dropShelf w s) := win_winStep _ _

theorem enterWindow_winStep (w : Nat) (c : WindowSettings) (new : WindowState) (cause : Cause) (s : State) :
    WinStep s (enterWindow w c new cause s) := by
  unfold enterWindow
  extract_lets old s1 s2 s3 s4
  have h1 : WinStep s s1 := setWindow_winStep _ _ _
  have h2 : WinStep s s2 := ite_rel (h1.trans (request_winStep _ _ rfl)) h1
  have h3 : WinStep s s3 := ite_rel (h2.trans (clearSilence_winStep _)) h2
  have h4 : WinStep s s4 := ite_rel (h3.trans (startChime_winStep _)) h3
  clear_value s4
  split
  · exact h4
  · exact h4.trans (ite_rel (judgeAlert_winStep _ _ _) (ite_rel (judgeQuiet_winStep _ _ _) (WinStep.refl _)))

theorem offer_winStep (w : Nat) (ev : WindowEvent) (cause : Cause) (s : State) : WinStep s (offer w ev cause s) := by
  unfold offer
  split
  · exact WinStep.refl _
  · split
    · exact WinStep.refl _
    · exact enterWindow_winStep _ _ _ _ _

theorem offerAll_winStep (ev : WindowEvent) (cause : Cause) :
    ∀ (ws : List Nat) (s : State), WinStep s (offerAll ev cause ws s).1
  | [], s => WinStep.refl s
  | w :: ws, s => (offer_winStep w ev cause s).trans (offerAll_winStep ev cause ws _)

theorem putInput_winStep (input : Bool) (time : HallTime) (standing : Bool) (cause : Cause) (c : WindowSettings) (w : Nat) (s : State) :
    WinStep s (putInput input time standing cause c w s) := by
  unfold putInput
  extract_lets old s1
  have h1 : WinStep s s1 := setWindow_winStep _ _ _
  clear_value s1 old
  exact ite_rel (h1.trans ((setWindow_winStep _ _ _).trans (offer_winStep _ _ _ _))) (ite_rel (h1.trans (offer_winStep _ _ _ _)) h1)

theorem takeInput_winStep (time : HallTime) (standing : Bool) (cause : Cause) (s : State) (w : Nat) :
    WinStep s (takeInput time standing cause s w) := by
  unfold takeInput
  split
  · exact WinStep.refl _
  · exact putInput_winStep _ _ _ _ _ _ _

theorem takeInputAwaiting_winStep (await : Awaited) (time : HallTime) (standing : Bool) (cause : Cause) (s : State) (w : Nat) :
    WinStep s (takeInputAwaiting await time standing cause s w) := by
  unfold takeInputAwaiting
  split
  · exact WinStep.refl _
  · exact putInput_winStep _ _ _ _ _ _ _

theorem windowsTake_winStep (n : Nat) (time : HallTime) (standing : Bool) (s : State) :
    WinStep s (windowsTake n time standing s) :=
  ite_rel (WinStep.refl _) (foldl_rel WinStep.refl WinStep.trans _ (fun s w => takeInput_winStep time standing .input s w) _ _)

theorem windowsTakeAwaiting_winStep (await : Awaited) (n : Nat) (time : HallTime) (standing : Bool) (s : State) :
    WinStep s (windowsTakeAwaiting await n time standing s) :=
  ite_rel (WinStep.refl _) (foldl_rel WinStep.refl WinStep.trans _ (fun s w => takeInputAwaiting_winStep await time standing .input s w) _ _)

/-- With no event still to come a source's event is taken as it is alone. -/
theorem takeInputAwaiting_nil (time : HallTime) (standing : Bool) (cause : Cause) (s : State) (w : Nat) :
    takeInputAwaiting [] time standing cause s w = takeInput time standing cause s w := by
  unfold takeInputAwaiting takeInput State.inputThrough
  split <;> simp

theorem windowsTakeAwaiting_nil (n : Nat) (time : HallTime) (standing : Bool) (s : State) :
    windowsTakeAwaiting [] n time standing s = windowsTake n time standing s := by
  unfold windowsTakeAwaiting windowsTake
  simp only [funext fun s => funext fun w => takeInputAwaiting_nil time standing .input s w]

/-- An input that stays active through the events still to come is active at each of them. -/
theorem inputThrough_iff (s : State) (c : WindowSettings) : ∀ await : Awaited,
    s.inputThrough c await = true ↔ ∀ rest, rest <:+ await → ∃ n ∈ c.sources, s.facingAwaiting rest n = true
  | [] => by
    simp only [State.inputThrough, State.inputOf, List.any_eq_true, List.suffix_nil]
    exact ⟨fun h rest e => by subst e; exact h, fun h => h [] rfl⟩
  | x :: xs => by
    simp only [State.inputThrough, Bool.and_eq_true, List.any_eq_true, inputThrough_iff s c xs, List.suffix_cons_iff]
    exact ⟨fun h rest e => e.elim (fun e => e ▸ h.1) (h.2 rest), fun h => ⟨h _ (Or.inl rfl), fun rest e => h rest (Or.inr e)⟩⟩

theorem shelveWindow_winStep (w minutes : Nat) (s : State) : WinStep s (shelveWindow w minutes s) := by
  unfold shelveWindow
  extract_lets mark s1 e
  have h1 : WinStep s s1 := dropShelf_winStep _ _
  clear_value s1 mark e
  exact h1.trans ((win_winStep _ _).trans (request_winStep _ _ rfl))

theorem endShelving_winStep (w : Nat) (mark : ShelfMark) (s : State) : WinStep s (endShelving w mark s) := by
  unfold endShelving
  extract_lets s1
  have h1 : WinStep s s1 := (dropShelf_winStep _ _).trans (request_winStep _ _ rfl)
  clear_value s1
  split
  · exact ite_rel (h1.trans (clearSilence_winStep _)) h1
  · exact h1

theorem unshelveWindow_winStep (w : Nat) (s : State) : WinStep s (unshelveWindow w s).1 := by
  unfold unshelveWindow
  split
  · exact endShelving_winStep _ _ _
  · exact WinStep.refl _

theorem pressKeys_winStep (p : Nat) (old new : Keys) (s : State) : WinStep s (pressKeys p old new s) := by
  unfold pressKeys
  extract_lets s1 s2
  have h1 : WinStep s s1 := ite_rel (offerAll_winStep _ _ _ _) (WinStep.refl _)
  have h2 : WinStep s s2 := ite_rel (h1.trans (offerAll_winStep _ _ _ _)) h1
  exact ite_rel (h2.trans (setSilence_winStep _)) h2

end Sys2Proof.Machine
end

