-- ==== Sys2Proof/Laws/Switches.lean ====
section
/-! SUPPORT. What the blocks can do to each other's state: no event of a block changes the clocks, the settings, the orders, the
exchange memory, which points are forced or which switches are isolated; the journal takes requests. Here for the switch controller. -/

namespace Sys2Proof.Machine

/-- A step of the blocks around points, windows, terms and switches. -/
structure BlockStep (s t : State) : Prop where
  clock : t.clock = s.clock
  settings : t.settings = s.settings
  engine : t.engine = s.engine
  port : t.port = s.port
  pending : t.pending = s.pending
  jr : JournalStep s.jr t.jr
  forced : ∀ n, (t.pt n).forced = (s.pt n).forced
  isolated : ∀ i, (t.swi i).isolated = (s.swi i).isolated
  coil : s.coilLaw → t.coilLaw
  armed : ∀ j, s.armedAt j → t.armedAt j

theorem BlockStep.refl (s : State) : BlockStep s s :=
  ⟨rfl, rfl, rfl, rfl, rfl, JournalStep.refl _, fun _ => rfl, fun _ => rfl, id, fun _ => id⟩

theorem BlockStep.trans {s t u : State} (a : BlockStep s t) (b : BlockStep t u) : BlockStep s u :=
  ⟨b.clock.trans a.clock, b.settings.trans a.settings, b.engine.trans a.engine, b.port.trans a.port,
    b.pending.trans a.pending, a.jr.trans b.jr, fun n => (b.forced n).trans (a.forced n),
    fun i => (b.isolated i).trans (a.isolated i), fun h => b.coil (a.coil h), fun j h => b.armed j (a.armed j h)⟩

/-- The coil law reads the switches, the start history and the elapsed time. -/
theorem coilLaw_congr {s t : State} (hw : t.sw = s.sw) (hc : t.clock = s.clock) (h : s.coilLaw) : t.coilLaw := by
  unfold State.coilLaw State.places State.counted at *
  rw [hw, hc]
  exact h

/-- The law of armed terms reads the terms, the modes and the settings. -/
theorem armedAt_congr {s t : State} (ht : t.term = s.term) (hs : t.settings = s.settings) (j : Nat) (h : s.armedAt j) :
    t.armedAt j := by
  unfold State.armedAt State.termSet State.trm State.armed at *
  rw [ht, hs]
  exact h

theorem WinStep.block {s t : State} (h : WinStep s t) : BlockStep s t :=
  ⟨h.clock, h.settings, h.engine, h.port, h.pending, h.jr.toJournalStep,
    fun n => by simp only [State.pt, h.pts], fun i => by simp only [State.swi, h.sw], coilLaw_congr h.sw h.clock,
    armedAt_congr h.term h.settings⟩

/-- A state that agrees with s where a block step leaves it. -/
theorem block_of_fields {s t : State} (hc : t.clock = s.clock) (hs : t.settings = s.settings) (he : t.engine = s.engine)
    (hp : t.port = s.port) (hq : t.pending = s.pending) (hj : t.jr = s.jr) (hf : t.pts.points = s.pts.points)
    (hi : t.sw.switches = s.sw.switches) (hh : t.sw.starts = s.sw.starts) (ht : t.term = s.term) : BlockStep s t :=
  ⟨hc, hs, he, hp, hq, hj ▸ JournalStep.refl _, fun n => by simp only [State.pt, hf], fun i => by simp only [State.swi, hi],
    fun h => by unfold State.coilLaw State.places State.counted at *; rw [hi, hh, hc]; exact h, armedAt_congr ht hs⟩

theorem request_block (s : State) (e : Entry) : BlockStep s (s.request e) :=
  ⟨rfl, rfl, rfl, rfl, rfl, request_step _ _ _, fun _ => rfl, fun _ => rfl, id, fun _ => id⟩

theorem setPt_block (s : State) (n : Nat) (p : Point) (h : p.forced = (s.pt n).forced) : BlockStep s (s.setPt n p) :=
  ⟨rfl, rfl, rfl, rfl, rfl, JournalStep.refl _, fun m => look_put_map Point.forced s.pts.points n p h m, fun _ => rfl, id, fun _ => id⟩

/-- The places taken after one switch has been set. -/
theorem places_setSwi (s : State) (i : Nat) (x : Switch) :
    (s.setSwi i x).places.length ≤ s.places.length + 1 ∧
      ((x.energized = true → (s.swi i).energized = true) → (s.setSwi i x).places.length ≤ s.places.length) := by
  unfold State.places State.setSwi State.swi
  exact numbersWhere_put_length s.sw.switches Switch.energized i x

theorem setSwi_block (s : State) (i : Nat) (x : Switch) (h : x.isolated = (s.swi i).isolated)
    (he : x.energized = true → (s.swi i).energized = true) : BlockStep s (s.setSwi i x) :=
  ⟨rfl, rfl, rfl, rfl, rfl, JournalStep.refl _, fun _ => rfl, fun j => look_put_map Switch.isolated s.sw.switches i x h j,
    fun hl => ⟨le_trans ((places_setSwi s i x).2 he) hl.1, hl.2⟩, fun _ => id⟩

/-- A switch whose state and test stay takes no place it did not take. -/
theorem energized_same {x y : Switch} (hs : x.state = y.state) (ht : x.testStart = y.testStart) :
    x.energized = true → y.energized = true := by
  unfold Switch.energized
  rw [hs, ht]
  exact id

/-- A state in which neither coil is energized at full level. -/
def SwitchState.atRest (x : SwitchState) : Bool := !(x == .pulsing || x == .resetPulsing)

/-- A switch that comes to rest with its test as it was takes no place it did not take. -/
theorem energized_rest {x y : Switch} (hs : x.state.atRest = true) (ht : x.testStart = y.testStart) :
    x.energized = true → y.energized = true := by
  unfold SwitchState.atRest at hs
  unfold Switch.energized
  rw [ht]
  cases hx : x.state <;> rw [hx] at hs <;> revert hs <;> simp +contextual

/-- A switch that loses its test takes no place it did not take. -/
theorem energized_cut {x y : Switch} (hs : x.state = y.state) (ht : x.testStart = none) :
    x.energized = true → y.energized = true := by
  unfold Switch.energized
  rw [hs, ht]
  intro h
  simp only [Option.isSome_none, Bool.or_false] at h
  rw [h]
  rfl

theorem confirmedState_atRest (c : SwitchSettings) : (confirmedState c).atRest = true := by
  unfold confirmedState
  split <;> rfl

/-- A switch set while a place is free. -/
theorem setSwi_start (s : State) (i : Nat) (x : Switch) (h : x.isolated = (s.swi i).isolated) (hp : s.places.length < 6) :
    BlockStep s (s.setSwi i x) :=
  ⟨rfl, rfl, rfl, rfl, rfl, JournalStep.refl _, fun _ => rfl, fun j => look_put_map Switch.isolated s.sw.switches i x h j,
    fun hl => ⟨by have := (places_setSwi s i x).1; omega, hl.2⟩, fun _ => id⟩

/-- A term set to a state that needs no arming, or to one it is armed for. -/
theorem setTrm_block (s : State) (t : Nat) (x : Term)
    (h : s.armedAt t → (x.state = .idle ∨ x.state = .timing ∨ x.state = .active) → ∀ c, s.termSet t = some c → s.armed c = true) :
    BlockStep s (s.setTrm t x) :=
  ⟨rfl, rfl, rfl, rfl, rfl, JournalStep.refl _, fun _ => rfl, fun _ => rfl, id, fun u hl c hc hx => by
    by_cases e : t = u ∧ u < 128
    · obtain ⟨e, hu⟩ := e
      subst e
      have : (s.setTrm t x).trm t = x := look_put_same _ _ hu
      rw [this] at hx
      exact h hl hx c hc
    · have : (s.setTrm t x).trm u = s.trm u := by
        show look (put s.term.terms t x) u = _
        rw [look_put, if_neg e]
        rfl
      rw [this] at hx
      exact hl c hc hx⟩

/-- A term whose state stays. -/
theorem setTrm_same (s : State) (t : Nat) (x : Term) (h : x.state = (s.trm t).state) : BlockStep s (s.setTrm t x) :=
  setTrm_block s t x fun hl hx c hc => hl c hc (h ▸ hx)

theorem setChan_block (s : State) (c : Nat) (x : Channel) : BlockStep s (s.setChan c x) :=
  block_of_fields (by rfl) (by rfl) (by rfl) (by rfl) (by rfl) (by rfl) (by rfl) (by rfl) (by rfl) (by rfl)

theorem setConc_block (s : State) (c : Nat) (k : Concentrator) : BlockStep s (s.setConc c k) :=
  block_of_fields (by rfl) (by rfl) (by rfl) (by rfl) (by rfl) (by rfl) (by rfl) (by rfl) (by rfl) (by rfl)

theorem setPan_block (s : State) (p : Nat) (x : Panel) : BlockStep s (s.setPan p x) :=
  block_of_fields (by rfl) (by rfl) (by rfl) (by rfl) (by rfl) (by rfl) (by rfl) (by rfl) (by rfl) (by rfl)

/-- A step of points handed on: a block step that also leaves the two loops, the condition shown and every settable point. -/
structure HandStep (s t : State) : Prop extends BlockStep s t where
  field : t.field = s.field
  panel : t.panel = s.panel
  monitor : t.monitor = s.monitor
  points : ∀ n, n < 544 → t.pt n = s.pt n

theorem HandStep.refl (s : State) : HandStep s s := ⟨BlockStep.refl s, rfl, rfl, rfl, fun _ _ => rfl⟩

theorem HandStep.trans {s t u : State} (a : HandStep s t) (b : HandStep t u) : HandStep s u :=
  ⟨a.toBlockStep.trans b.toBlockStep, b.field.trans a.field, b.panel.trans a.panel, b.monitor.trans a.monitor,
    fun n h => (b.points n h).trans (a.points n h)⟩

/-- A step of the switch controller: it leaves the terms too, and starts only join the start history. -/
structure CoilStep (s t : State) : Prop extends HandStep s t where
  term : t.term = s.term
  starts : s.sw.starts <:+ t.sw.starts

theorem CoilStep.refl (s : State) : CoilStep s s := ⟨HandStep.refl s, rfl, List.suffix_refl _⟩

theorem CoilStep.trans {s t u : State} (a : CoilStep s t) (b : CoilStep t u) : CoilStep s u :=
  ⟨a.toHandStep.trans b.toHandStep, b.term.trans a.term, a.starts.trans b.starts⟩

theorem CoilStep.block {s t : State} (h : CoilStep s t) : BlockStep s t := h.toBlockStep

theorem WinStep.coil {s t : State} (h : WinStep s t) : CoilStep s t :=
  ⟨⟨h.block, h.field, h.panel, h.monitor, fun n _ => by simp only [State.pt, h.pts]⟩, h.term, by rw [h.sw]⟩

/-- A block step that leaves loops, points, monitor and terms alone. -/
theorem BlockStep.toCoil {s t : State} (h : BlockStep s t) (hf : t.field = s.field) (hp : t.panel = s.panel)
    (hm : t.monitor = s.monitor) (hx : t.pts = s.pts) (ht : t.term = s.term)
    (hh : s.sw.starts <:+ t.sw.starts := by exact List.suffix_refl _) : CoilStep s t :=
  ⟨⟨h, hf, hp, hm, fun n _ => by simp only [State.pt, hx]⟩, ht, hh⟩

/-- A state that agrees with s where a step of the switch controller leaves it. -/
theorem coil_of_fields {s t : State} (hc : t.clock = s.clock) (hs : t.settings = s.settings) (he : t.engine = s.engine)
    (hp : t.port = s.port) (hq : t.pending = s.pending) (hj : t.jr = s.jr) (hx : t.pts = s.pts)
    (hi : t.sw.switches = s.sw.switches) (hh : t.sw.starts = s.sw.starts) (ht : t.term = s.term)
    (hf : t.field = s.field := by rfl) (hn : t.panel = s.panel := by rfl) (hm : t.monitor = s.monitor := by rfl) :
    CoilStep s t :=
  (block_of_fields hc hs he hp hq hj (by rw [hx]) hi hh ht).toCoil hf hn hm hx ht (by rw [hh])

theorem setSwi_coil (s : State) (i : Nat) (x : Switch) (h : x.isolated = (s.swi i).isolated)
    (he : x.energized = true → (s.swi i).energized = true) : CoilStep s (s.setSwi i x) :=
  (setSwi_block s i x h he).toCoil rfl rfl rfl rfl rfl

theorem setSwi_startCoil (s : State) (i : Nat) (x : Switch) (h : x.isolated = (s.swi i).isolated) (hp : s.places.length < 6) :
    CoilStep s (s.setSwi i x) := (setSwi_start s i x h hp).toCoil rfl rfl rfl rfl rfl

theorem setChan_coil (s : State) (c : Nat) (x : Channel) : CoilStep s (s.setChan c x) :=
  (setChan_block s c x).toCoil rfl rfl rfl rfl rfl

theorem request_coil (s : State) (e : Entry) : CoilStep s (s.request e) := (request_block s e).toCoil rfl rfl rfl rfl rfl

/-- A system point set. -/
theorem setPt_coil (s : State) (n : Nat) (p : Point) (h : p.forced = (s.pt n).forced) (hn : 544 ≤ n) :
    CoilStep s (s.setPt n p) :=
  ⟨⟨setPt_block s n p h, rfl, rfl, rfl, fun m hm => by
    show look (put s.pts.points n p) m = look s.pts.points m
    exact look_put_other _ _ (by omega)⟩, rfl, List.suffix_refl _⟩

/-! ## System points -/

theorem setSystemPoint_block (n : Nat) (v : Bool) (s : State) : BlockStep s (setSystemPoint n v s) :=
  ite_rel (BlockStep.refl _) ((setPt_block _ _ _ (by rfl)).trans (windowsTake_winStep _ _ _ _).block)

theorem setSystemPoint_coil (n : Nat) (v : Bool) (s : State) (hn : 544 ≤ n := by omega) : CoilStep s (setSystemPoint n v s) :=
  ite_rel (CoilStep.refl _) ((setPt_coil _ _ _ (by rfl) hn).trans (windowsTake_winStep _ _ _ _).coil)

theorem syncSwitchPoints_coil (i : Nat) (s : State) : CoilStep s (syncSwitchPoints i s) :=
  (setSystemPoint_coil _ _ _).trans (setSystemPoint_coil _ _ _)

theorem requestSwitch_coil (i : Nat) (c : SwitchSettings) (mark : SwitchMark) (iso : Bool) (source : Option Source)
    (cls a last : Nat) (second : HallTime) (s : State) :
    CoilStep s (requestSwitch i c mark iso source cls a last second s) := request_coil _ _

theorem setSwitchState_coil (i : Nat) (x : SwitchState) (s : State) (hx : x.atRest = true := by rfl) :
    CoilStep s (setSwitchState i x s) :=
  setSwi_coil _ _ _ (by rfl) (energized_rest hx (by rfl))

/-! ## Queue and tests -/

theorem dropEntry_coil (i : Nat) (s : State) : CoilStep s (dropEntry i s) :=
  coil_of_fields (by rfl) (by rfl) (by rfl) (by rfl) (by rfl) (by rfl) (by rfl) (by rfl) (by rfl) (by rfl)

theorem joinQueue_coil (i : Nat) (kind : OpKind) (cls : Nat) (source : Source) (s : State) :
    CoilStep s (joinQueue i kind cls source s) := coil_of_fields (by rfl) (by rfl) (by rfl) (by rfl) (by rfl) (by rfl) (by rfl) (by rfl) (by rfl) (by rfl)

theorem raiseEntry_coil (i : Nat) (s : State) : CoilStep s (raiseEntry i s) := by
  unfold raiseEntry
  split
  · exact CoilStep.refl _
  · extract_lets s1 src
    have h1 : CoilStep s s1 := dropEntry_coil _ _
    exact h1.trans (coil_of_fields (by rfl) (by rfl) (by rfl) (by rfl) (by rfl) (by rfl) (by rfl) (by rfl) (by rfl) (by rfl))

theorem changeSupervision_coil (i : Nat) (c : SwitchSettings) (new : SupervisionState) (count sample limit : Nat) (s : State) :
    CoilStep s (changeSupervision i c new count sample limit s) :=
  ((setSwi_coil _ _ _ (by rfl) (energized_same (by rfl) (by rfl))).trans (request_coil _ _)).trans (syncSwitchPoints_coil _ _)

theorem loseTest_coil (i : Nat) (s : State) : CoilStep s (loseTest i s) := by
  unfold loseTest
  split
  · exact CoilStep.refl _
  · extract_lets n src s1
    have h1 : CoilStep s s1 := setSwi_coil _ _ _ (by rfl) (energized_same (by rfl) (by rfl))
    clear_value s1 n
    exact ite_rel (CoilStep.refl _) (ite_rel (h1.trans (changeSupervision_coil _ _ _ _ _ _ _)) h1)

theorem freeChannel_coil (i : Nat) (s : State) : CoilStep s (freeChannel i s) := by
  unfold freeChannel
  split
  · exact CoilStep.refl _
  · exact setChan_coil _ _ _

theorem cutTest_coil (i : Nat) (s : State) : CoilStep s (cutTest i s) :=
  (setSwi_coil _ _ _ (by rfl) (energized_cut (by rfl) (by rfl))).trans (freeChannel_coil _ _)

theorem giveUpTest_coil (i : Nat) (s : State) : CoilStep s (giveUpTest i s) := by
  unfold giveUpTest
  refine ite_rel ((cutTest_coil _ _).trans (loseTest_coil _ _)) ?_
  split
  · exact ite_rel ((dropEntry_coil _ _).trans (loseTest_coil _ _)) (CoilStep.refl _)
  · exact CoilStep.refl _

/-! ## Trip requests and the coil driver -/

theorem absorbRequest_coil (i : Nat) (c : SwitchSettings) (source : Source) (s : State) :
    CoilStep s (absorbRequest i c source s) := by
  unfold absorbRequest
  extract_lets x s1
  have h1 : CoilStep s s1 := setSwi_coil _ _ _ (by rfl) (energized_same (by rfl) (by rfl))
  clear_value s1 x
  split
  · exact ite_rel (h1.trans (raiseEntry_coil _ _)) h1
  · exact h1

theorem queueTrip_coil (i : Nat) (c : SwitchSettings) (source : Source) (s : State) :
    CoilStep s (queueTrip i c source s) :=
  ((((giveUpTest_coil _ _).trans (dropEntry_coil _ _)).trans (joinQueue_coil _ _ _ _ _)).trans
    (setSwitchState_coil _ _ _)).trans (syncSwitchPoints_coil _ _)

section
variable {again : State → State}

theorem tripRequest_coil (ha : ∀ s, CoilStep s (again s)) (source : Source) (i : Nat) (s : State) :
    CoilStep s (tripRequest again source i s) := by
  unfold tripRequest
  split
  · exact CoilStep.refl _
  · refine ite_rel (CoilStep.refl _) ?_
    split
    · exact requestSwitch_coil _ _ _ _ _ _ _ _ _ _
    · exact (queueTrip_coil _ _ _ _).trans (ha _)
    · exact (queueTrip_coil _ _ _ _).trans (ha _)
    · exact absorbRequest_coil _ _ _ _

theorem requestSuccessors_coil (ha : ∀ s, CoilStep s (again s)) (i : Nat) (c : SwitchSettings) (wanted : Trigger → Bool)
    (s : State) : CoilStep s (requestSuccessors again i c wanted s) :=
  ite_rel (CoilStep.refl _)
    (foldl_rel CoilStep.refl CoilStep.trans _ (fun s (x : Nat × Trigger) => tripRequest_coil ha (.cascade i) x.1 s) _ _)

theorem confirmHold_coil (ha : ∀ s, CoilStep s (again s)) (i : Nat) (c : SwitchSettings) (s : State) :
    CoilStep s (confirmHold again i c s) := by
  unfold confirmHold
  extract_lets src s1
  have h1 : CoilStep s s1 := setSwi_coil _ _ _ (by rfl) (energized_same (by rfl) (by rfl))
  clear_value s1
  exact (h1.trans (requestSwitch_coil _ _ _ _ _ _ _ _ _ _)).trans (requestSuccessors_coil ha _ _ _ _)

theorem startTrip_coil (ha : ∀ s, CoilStep s (again s)) (e : QueueEntry) (c : SwitchSettings) (s : State)
    (hp : s.places.length < 6) : CoilStep s (startTrip again e c s) := by
  unfold startTrip
  extract_lets i hold src s1 s2 s3
  have h1 : CoilStep s s1 := setSwi_startCoil _ _ _ (by rfl) hp
  have h2 : CoilStep s s2 :=
    (h1.trans (requestSwitch_coil _ _ _ _ _ _ _ _ _ _)).trans (syncSwitchPoints_coil _ _)
  clear_value s2
  have h3 : CoilStep s s3 := h2.trans (requestSuccessors_coil ha _ _ _ _)
  clear_value s3
  exact ite_rel (h3.trans (confirmHold_coil ha _ _ _)) h3

theorem startReset_coil (i : Nat) (s : State) (hp : s.places.length < 6) : CoilStep s (startReset i s) :=
  (setSwi_startCoil _ _ _ (by rfl) hp).trans (syncSwitchPoints_coil _ _)

theorem startTest_coil (i : Nat) (s : State) (hp : s.places.length < 6) : CoilStep s (startTest i s) := by
  unfold startTest
  extract_lets src s1
  have h1 : CoilStep s s1 := setSwi_startCoil _ _ _ (by rfl) hp
  clear_value s1
  split
  · exact h1
  · exact h1.trans (setChan_coil _ _ _)

theorem startEntry_coil (ha : ∀ s, CoilStep s (again s)) (e : QueueEntry) (s : State) (hp : s.startPossible = true) :
    CoilStep s (startEntry again e s) := by
  unfold startEntry
  extract_lets s1 src s2
  have h1 : CoilStep s s1 := dropEntry_coil _ _
  unfold State.startPossible at hp
  simp only [decide_eq_true_eq] at hp
  have p2 : s2.places.length < 6 := hp.1
  have c2 : s2.counted ≤ 4 := by
    have : s2.counted ≤ s.counted + 1 := by
      show ((s.clock.elapsed :: s.sw.starts).filter _).length ≤ _
      rw [List.filter_cons]
      split
      · exact le_rfl
      · exact Nat.le_succ _
    omega
  have h2 : CoilStep s s2 :=
    BlockStep.toCoil
      ⟨h1.clock, h1.settings, h1.engine, h1.port, h1.pending, h1.jr, h1.forced, h1.isolated,
        fun _ => ⟨le_of_lt p2, c2⟩, h1.armed⟩
      rfl rfl rfl rfl rfl (List.suffix_cons _ _)
  clear_value s2
  split
  · split
    · exact h2.trans (startTrip_coil ha _ _ _ p2)
    · exact h2
  · exact h2.trans (startReset_coil _ _ p2)
  · exact h2.trans (startTest_coil _ _ p2)

end

theorem lookAtQueue_coil : ∀ (n : Nat) (s : State), CoilStep s (lookAtQueue n s)
  | 0, s => CoilStep.refl s
  | n + 1, s => by
    unfold lookAtQueue
    refine ite_rel (CoilStep.refl _) ?_
    split
    · exact CoilStep.refl _
    · next h =>
      have hp : s.startPossible = true := by
        unfold State.nextStart at h
        split at h
        · assumption
        · exact absurd h (by simp)
      exact (startEntry_coil (lookAtQueue_coil n) _ _ hp).trans (lookAtQueue_coil n _)

theorem runQueue_coil (s : State) : CoilStep s (runQueue s) := lookAtQueue_coil 5 s

theorem requestTrip_coil (source : Source) (i : Nat) (s : State) : CoilStep s (requestTrip source i s) :=
  tripRequest_coil runQueue_coil _ _ _

/-! ## The queue after a look (R106) -/

/-- The starts counted now never become fewer at one elapsed time. -/
theorem CoilStep.counted {s t : State} (h : CoilStep s t) : s.counted ≤ t.counted := by
  unfold State.counted
  rw [h.clock]
  exact (h.starts.sublist.filter _).length_le

theorem CoilStep.halted {s t : State} (h : CoilStep s t) : t.halted = s.halted := by
  unfold State.halted
  rw [h.monitor]

/-- A start adds itself to the starts counted. -/
theorem startEntry_counted {again : State → State} (ha : ∀ s, CoilStep s (again s)) (e : QueueEntry) (s : State)
    (hp : s.startPossible = true) : s.counted + 1 ≤ (startEntry again e s).counted := by
  unfold startEntry
  extract_lets s1 src s2
  have c2 : s2.counted = s.counted + 1 := by
    show ((s.clock.elapsed :: s.sw.starts).filter _).length = _
    rw [List.filter_cons, if_pos]
    · rfl
    · show decide (s.clock.elapsed - s.clock.elapsed < 20) = true
      simp
  have p2 : s2.places.length < 6 := by
    unfold State.startPossible at hp
    simp only [decide_eq_true_eq] at hp
    exact hp.1
  clear_value s2
  rw [← c2]
  split
  · split
    · exact (startTrip_coil ha _ _ _ p2).counted
    · exact le_refl _
  · exact (startReset_coil _ _ p2).counted
  · exact (startTest_coil _ _ p2).counted

theorem nextStart_full {s : State} (h : 4 ≤ s.counted) : s.nextStart = none := by
  unfold State.nextStart State.startPossible
  rw [if_neg]
  simp only [decide_eq_true_eq]
  omega

/-- After a look that is deep enough no entry is left that could be started. -/
theorem lookAtQueue_idle : ∀ (n : Nat) (s : State), s.halted = false → 4 ≤ n + s.counted →
    (lookAtQueue n s).nextStart = none
  | 0, s, _, hc => nextStart_full (s := s) (by omega)
  | n + 1, s, hh, hc => by
    unfold lookAtQueue
    rw [if_neg (by rw [hh]; simp)]
    split
    · assumption
    · next e he =>
      have hp : s.startPossible = true := by
        unfold State.nextStart at he
        split at he
        · assumption
        · exact absurd he (by simp)
      have h1 := startEntry_coil (lookAtQueue_coil n) e s hp
      have h2 := startEntry_counted (lookAtQueue_coil n) e s hp
      exact lookAtQueue_idle n _ (by rw [h1.halted]; exact hh) (by omega)

theorem runQueue_idle (s : State) (h : s.halted = false) : (runQueue s).nextStart = none :=
  lookAtQueue_idle 5 s h (by omega)

/-! ## Pulses and feedback -/

theorem recloseBreaker_coil (i : Nat) (c : SwitchSettings) (s : State) : CoilStep s (recloseBreaker i c s) :=
  ite_rel (((setSwitchState_coil _ _ _).trans (requestSwitch_coil _ _ _ _ _ _ _ _ _ _)).trans
    (syncSwitchPoints_coil _ _)) (CoilStep.refl _)

theorem confirmPulse_coil (i : Nat) (c : SwitchSettings) (s : State) : CoilStep s (confirmPulse i c s) := by
  unfold confirmPulse
  extract_lets x length s1 s2
  have h1 : CoilStep s s1 := setSwi_coil _ _ _ (by rfl) (energized_rest (confirmedState_atRest c) (by rfl))
  have h2 : CoilStep s s2 :=
    (h1.trans (requestSwitch_coil _ _ _ _ _ _ _ _ _ _)).trans (syncSwitchPoints_coil _ _)
  exact ((h2.trans (requestSuccessors_coil runQueue_coil _ _ _ _)).trans (recloseBreaker_coil _ _ _)).trans
    (runQueue_coil _)

theorem failPulse_coil (i : Nat) (c : SwitchSettings) (s : State) : CoilStep s (failPulse i c s) := by
  unfold failPulse
  extract_lets x q failed s1 s2 s3
  have h1 : CoilStep s s1 := setSwi_coil _ _ _ (by rfl) (energized_rest (by show SwitchState.atRest (if failed = true then _ else _) = true; split <;> rfl) (by rfl))
  have h2 : CoilStep s s2 :=
    (h1.trans (requestSwitch_coil _ _ _ _ _ _ _ _ _ _)).trans (syncSwitchPoints_coil _ _)
  have h3 : CoilStep s s3 := by
    simp only [s3]
    split
    · exact ite_rel (h2.trans (requestTrip_coil _ _ _)) h2
    · exact h2
  exact h3.trans (runQueue_coil _)

theorem lateConfirm_coil (i : Nat) (c : SwitchSettings) (s : State) : CoilStep s (lateConfirm i c s) := by
  unfold lateConfirm
  extract_lets x t s1 s2 s3
  have h1 : CoilStep s s1 := coil_of_fields (by rfl) (by rfl) (by rfl) (by rfl) (by rfl) (by rfl) (by rfl) (by rfl) (by rfl) (by rfl)
  have h2 : CoilStep s s2 := h1.trans (setSwi_coil _ _ _ (by rfl) (energized_rest (confirmedState_atRest c) (by rfl)))
  have h3 : CoilStep s s3 :=
    (h2.trans (requestSwitch_coil _ _ _ _ _ _ _ _ _ _)).trans (syncSwitchPoints_coil _ _)
  exact h3.trans (requestSuccessors_coil runQueue_coil _ _ _ _)

theorem enterLockedOut_coil (i : Nat) (c : SwitchSettings) (s : State) : CoilStep s (enterLockedOut i c s) :=
  (setSwitchState_coil i .lockedOut s).trans (requestSwitch_coil _ _ _ _ _ _ _ _ _ _)

theorem foundOperated_coil (i : Nat) (c : SwitchSettings) (s : State) : CoilStep s (foundOperated i c s) :=
  (((enterLockedOut_coil i c s).trans (syncSwitchPoints_coil _ _)).trans (giveUpTest_coil _ _)).trans (runQueue_coil _)

theorem settleSwitch_coil (i : Nat) (c : SwitchSettings) (s : State) : CoilStep s (settleSwitch i c s) := by
  unfold settleSwitch
  refine ite_rel ?_ (CoilStep.refl _)
  extract_lets new
  have hx : new.atRest = true := by
    simp only [new]
    split <;> rfl
  exact ((setSwitchState_coil _ _ _ hx).trans (requestSwitch_coil _ _ _ _ _ _ _ _ _ _)).trans (syncSwitchPoints_coil _ _)

theorem takeFeedback_coil (s : State) (i : Nat) : CoilStep s (takeFeedback s i) := by
  unfold takeFeedback
  split
  · exact CoilStep.refl _
  · split
    · extract_lets src s1
      have h1 : CoilStep s s1 := setSwi_coil _ _ _ (by rfl) (energized_same (by rfl) (by rfl))
      clear_value s1
      exact ite_rel (ite_rel (h1.trans (confirmPulse_coil _ _ _)) h1) (CoilStep.refl _)
    · exact ite_rel (lateConfirm_coil _ _ _) (CoilStep.refl _)
    · exact ite_rel (lateConfirm_coil _ _ _) (CoilStep.refl _)
    · exact recloseBreaker_coil _ _ _
    · exact ite_rel (confirmHold_coil runQueue_coil _ _ _) (CoilStep.refl _)
    · exact settleSwitch_coil _ _ _
    · exact ite_rel (foundOperated_coil _ _ _) (CoilStep.refl _)
    all_goals exact CoilStep.refl _

theorem switchesTake_coil (n : Nat) (s : State) : CoilStep s (switchesTake n s) :=
  foldl_rel CoilStep.refl CoilStep.trans _ takeFeedback_coil _ _

theorem endReset_coil (i : Nat) (c : SwitchSettings) (s : State) : CoilStep s (endReset i c s) :=
  (((setSwi_coil _ _ _ (by rfl) (energized_rest (by show SwitchState.atRest (if _ then _ else _) = true; split <;> rfl) (by rfl))).trans (requestSwitch_coil _ _ _ _ _ _ _ _ _ _)).trans (syncSwitchPoints_coil _ _)).trans
    (runQueue_coil _)

theorem queueTest_coil (i : Nat) (s : State) : CoilStep s (queueTest i s) :=
  (joinQueue_coil _ _ _ _ _).trans (runQueue_coil _)

theorem tick_coil (i : Nat) (c : SwitchSettings) (s : State) : CoilStep s (tick i c s) := by
  unfold tick
  extract_lets src s1
  have h1 : CoilStep s s1 := setSwi_coil _ _ _ (by rfl) (energized_same (by rfl) (by rfl))
  exact ite_rel (h1.trans (queueTest_coil _ _)) (h1.trans (loseTest_coil _ _))

theorem judgeTest_coil (i : Nat) (c : SwitchSettings) (ch : Nat) (v : BitVec 10) (s : State) :
    CoilStep s (judgeTest i c ch v s) := by
  unfold judgeTest
  extract_lets limit new src s1
  have h1 : CoilStep s s1 := setSwi_coil _ _ _ (by rfl) (energized_same (by rfl) (by rfl))
  exact ite_rel h1 (h1.trans (changeSupervision_coil _ _ _ _ _ _ _))

theorem endTest_coil (i : Nat) (c : SwitchSettings) (ch : Nat) (v : BitVec 10) (s : State) :
    CoilStep s (endTest i c ch v s) := by
  unfold endTest
  extract_lets src s1 src2 s2
  have h1 : CoilStep s s1 := setSwi_coil _ _ _ (by rfl) (energized_cut (by rfl) (by rfl))
  have h2 : CoilStep s s2 := h1.trans (setChan_coil _ _ _)
  exact ite_rel h2 ((h2.trans (judgeTest_coil _ _ _ _ _)).trans (runQueue_coil _))

/-! ## Orders that isolate nothing -/

theorem queueReset_coil (i : Nat) (s : State) : CoilStep s (queueReset i s) :=
  (joinQueue_coil i .reset 3 (.order 0) s).trans (setSwitchState_coil _ _ _)

theorem releaseHold_coil (i : Nat) (c : SwitchSettings) (s : State) : CoilStep s (releaseHold i c s) :=
  (setSwi_coil s i { s.swi i with state := .ready, confirmedMark := false } (by rfl) (energized_rest (by rfl) (by rfl))).trans
    (requestSwitch_coil _ _ _ _ _ _ _ _ _ _)

theorem clearFailed_coil (i : Nat) (c : SwitchSettings) (s : State) : CoilStep s (clearFailed i c s) :=
  (setSwitchState_coil i (if s.operated c then confirmedState c else .ready) s
    (by split; exacts [confirmedState_atRest _, rfl])).trans (requestSwitch_coil _ _ _ _ _ _ _ _ _ _)

theorem resetSwitch_coil (i : Nat) (s : State) : CoilStep s (resetSwitch i s).1 := by
  unfold resetSwitch
  split
  · exact CoilStep.refl _
  · split
    · exact ((queueReset_coil _ _).trans (syncSwitchPoints_coil _ _)).trans (runQueue_coil _)
    · exact (releaseHold_coil _ _ _).trans (syncSwitchPoints_coil _ _)
    · exact (clearFailed_coil _ _ _).trans (syncSwitchPoints_coil _ _)
    · exact (clearFailed_coil _ _ _).trans (syncSwitchPoints_coil _ _)
    all_goals exact CoilStep.refl _

theorem tripManual_coil (i slot : Nat) (s : State) : CoilStep s (tripManual i slot s).1 := requestTrip_coil _ _ _

theorem testCircuit_coil (i : Nat) (s : State) : CoilStep s (testCircuit i s).1 := by
  unfold testCircuit
  split
  · exact queueTest_coil _ _
  · exact CoilStep.refl _

/-! ## The same as block steps -/

theorem dropEntry_block (i : Nat) (s : State) :
    BlockStep s (dropEntry i s) := (dropEntry_coil i s).block

theorem foundOperated_block (i : Nat) (c : SwitchSettings) (s : State) :
    BlockStep s (foundOperated i c s) := (foundOperated_coil i c s).block

theorem requestSwitch_block (i : Nat) (c : SwitchSettings) (mark : SwitchMark) (iso : Bool) (source : Option Source) (cls a last : Nat) (second : HallTime) (s : State) :
    BlockStep s (requestSwitch i c mark iso source cls a last second s) := (requestSwitch_coil i c mark iso source cls a last second s).block

theorem requestTrip_block (source : Source) (i : Nat) (s : State) :
    BlockStep s (requestTrip source i s) := (requestTrip_coil source i s).block

theorem resetSwitch_block (i : Nat) (s : State) :
    BlockStep s (resetSwitch i s).1 := (resetSwitch_coil i s).block

theorem runQueue_block (s : State) :
    BlockStep s (runQueue s) := (runQueue_coil s).block

theorem setSwitchState_block (i : Nat) (x : SwitchState) (s : State) (hx : x.atRest = true := by rfl) :
    BlockStep s (setSwitchState i x s) := (setSwitchState_coil i x s hx).block

theorem settleSwitch_block (i : Nat) (c : SwitchSettings) (s : State) :
    BlockStep s (settleSwitch i c s) := (settleSwitch_coil i c s).block

theorem switchesTake_block (n : Nat) (s : State) :
    BlockStep s (switchesTake n s) := (switchesTake_coil n s).block

theorem syncSwitchPoints_block (i : Nat) (s : State) :
    BlockStep s (syncSwitchPoints i s) := (syncSwitchPoints_coil i s).block

theorem testCircuit_block (i : Nat) (s : State) :
    BlockStep s (testCircuit i s).1 := (testCircuit_coil i s).block

theorem tripManual_block (i slot : Nat) (s : State) :
    BlockStep s (tripManual i slot s).1 := (tripManual_coil i slot s).block

end Sys2Proof.Machine
end

