-- ==== Sys2Proof/Laws/Blocks.lean ====
section
/-! SUPPORT. Block steps of the trip evaluator, the point qualifier, the two loops, the supervision unit and of what closes a
command. -/

namespace Sys2Proof.Machine

theorem foldl_block {α : Type} (f : State → α → State) (h : ∀ s a, BlockStep s (f s a)) (l : List α) (s : State) :
    BlockStep s (l.foldl f s) := foldl_rel BlockStep.refl BlockStep.trans f h l s

/-! ## Terms -/

theorem foldl_hand {α : Type} (f : State → α → State) (h : ∀ s a, HandStep s (f s a)) (l : List α) (s : State) :
    HandStep s (l.foldl f s) := foldl_rel HandStep.refl HandStep.trans f h l s

theorem request_hand (s : State) (e : Entry) : HandStep s (s.request e) := (request_coil s e).toHandStep

theorem requestTrip_hand (source : Source) (i : Nat) (s : State) : HandStep s (requestTrip source i s) :=
  (requestTrip_coil source i s).toHandStep

theorem setTrm_hand (s : State) (t : Nat) (x : Term)
    (h : s.armedAt t → (x.state = .idle ∨ x.state = .timing ∨ x.state = .active) → ∀ c, s.termSet t = some c → s.armed c = true) :
    HandStep s (s.setTrm t x) := ⟨setTrm_block s t x h, rfl, rfl, rfl, fun _ _ => rfl⟩

theorem setTrm_sameHand (s : State) (t : Nat) (x : Term) (h : x.state = (s.trm t).state) : HandStep s (s.setTrm t x) :=
  ⟨setTrm_same s t x h, rfl, rfl, rfl, fun _ _ => rfl⟩

theorem setTermState_hand (t : Nat) (x : TermState) (s : State)
    (h : s.armedAt t → (x = .idle ∨ x = .timing ∨ x = .active) → ∀ c, s.termSet t = some c → s.armed c = true) :
    HandStep s (setTermState t x s) := setTrm_hand _ _ _ h

/-- A term put into a state that needs no arming. -/
theorem setTermState_rest (t : Nat) (x : TermState) (s : State)
    (h : ¬(x = .idle ∨ x = .timing ∨ x = .active) := by decide) : HandStep s (setTermState t x s) :=
  setTermState_hand _ _ _ fun _ hx => absurd hx h

/-- The state of a term that has been put into it. -/
theorem trm_setTermState (t : Nat) (x : TermState) (s : State) (ht : t < 128) : ((setTermState t x s).trm t).state = x := by
  unfold setTermState State.trm State.setTrm
  simp only
  rw [look_put_same _ _ ht]

/-- An unconfigured or nonexistent term has no settings. -/
theorem termSet_lt {s : State} {t : Nat} {c : TermSettings} (h : s.termSet t = some c) : t < 128 := by
  by_contra hn
  unfold State.termSet at h
  rw [look_beyond _ _ (by omega)] at h
  cases h

theorem becomeActive_hand (t : Nat) (c : TermSettings) (start : HallTime) (s : State)
    (h : s.armedAt t → ∀ c', s.termSet t = some c' → s.armed c' = true) : HandStep s (becomeActive t c start s) := by
  unfold becomeActive
  extract_lets s1 src s2 active
  have h1 : HandStep s s1 := setTermState_hand _ _ _ fun hl _ => h hl
  have h2 : HandStep s s2 := h1.trans (setTrm_sameHand _ _ _ (by rfl))
  exact h2.trans (request_hand _ _)

theorem enterActive_hand (t : Nat) (c : TermSettings) (start : HallTime) (s : State)
    (h : s.armedAt t → ∀ c', s.termSet t = some c' → s.armed c' = true) : HandStep s (enterActive t c start s) :=
  (becomeActive_hand t c start s h).trans (foldl_hand _ (fun s i => requestTrip_hand _ i s) _ _)

theorem enterTiming_hand (t : Nat) (c : TermSettings) (s : State)
    (h : s.armedAt t → ∀ c', s.termSet t = some c' → s.armed c' = true) : HandStep s (enterTiming t c s) := by
  unfold enterTiming
  refine ite_rel (enterActive_hand _ _ _ _ h) ?_
  extract_lets s1 src
  have h1 : HandStep s s1 := setTermState_hand _ _ _ fun hl _ => h hl
  exact h1.trans (setTrm_sameHand _ _ _ (by rfl))

theorem enterIdle_hand (t : Nat) (c : TermSettings) (s : State)
    (h : s.armedAt t → ∀ c', s.termSet t = some c' → s.armed c' = true) : HandStep s (enterIdle t c s) := by
  unfold enterIdle
  extract_lets s1
  have h1 : HandStep s s1 := setTermState_hand _ _ _ fun hl _ => h hl
  refine ite_rel (h1.trans (enterTiming_hand _ _ _ fun hl c' hc => ?_)) h1
  exact hl c' hc (Or.inl (trm_setTermState t .idle s (termSet_lt hc)))

theorem lookWhileHeld_hand (t : Nat) (c : TermSettings) (s : State) (hc : s.termSet t = some c) :
    HandStep s (lookWhileHeld t c s) := by
  unfold lookWhileHeld
  extract_lets src s1
  have h1 : HandStep s s1 := setTrm_sameHand _ _ _ (by rfl)
  split
  · split
    · next ha =>
      refine h1.trans (enterIdle_hand _ _ _ fun _ c' hc' => ?_)
      have : s1.termSet t = some c := by rw [← hc]; rfl
      rw [this] at hc'
      cases hc'
      exact ha
    · exact h1.trans (setTermState_rest _ _ _)
  · exact h1

theorem takePoint_hand (s : State) (t : Nat) : HandStep s (takePoint s t) := by
  unfold takePoint
  split
  · exact HandStep.refl _
  · next c hc =>
    extract_lets x
    have armed_of : (x.state = .idle ∨ x.state = .timing ∨ x.state = .active) →
        s.armedAt t → ∀ c', s.termSet t = some c' → s.armed c' = true := fun hx hl c' hc' => hl c' hc' hx
    split
    · exact HandStep.refl _
    · exact lookWhileHeld_hand _ _ _ hc
    · exact HandStep.refl _
    · next hx => exact ite_rel (enterTiming_hand _ _ _ (armed_of (Or.inl hx))) (HandStep.refl _)
    · next hx =>
      exact ite_rel (HandStep.refl _)
        ((request_hand _ _).trans (enterIdle_hand _ _ _ (armed_of (Or.inr (Or.inl hx)))))
    · next hx =>
      exact ite_rel (HandStep.refl _)
        ((request_hand _ _).trans (enterIdle_hand _ _ _ (armed_of (Or.inr (Or.inr hx)))))

theorem termsTake_hand (n : Nat) (s : State) : HandStep s (termsTake n s) :=
  ite_rel (HandStep.refl _) (foldl_hand _ takePoint_hand _ _)

theorem takeMode_hand (s : State) (t : Nat) : HandStep s (takeMode s t) := by
  unfold takeMode
  split
  · exact HandStep.refl _
  · next c hc =>
    extract_lets x mode
    split
    · next ha =>
      refine ite_rel (enterIdle_hand _ _ _ fun _ c' hc' => ?_) (HandStep.refl _)
      rw [hc] at hc'
      cases hc'
      exact ha
    · split
      · exact setTermState_rest _ _ _
      · exact (setTermState_rest _ _ _).trans (request_hand _ _)
      · exact (setTermState_rest _ _ _).trans (request_hand _ _)
      all_goals exact HandStep.refl _

/-- A term that has taken a change of its unit's mode is in a state it is armed for, or in one that needs no arming (R84). -/
theorem takeMode_armedAt (s : State) (t : Nat) : (takeMode s t).armedAt t := by
  by_cases ht : t < 128
  · unfold takeMode
    split
    · next hn => intro c hc; rw [hn] at hc; cases hc
    · next c hc =>
      extract_lets x mode
      have here : s.armed c = true → s.armedAt t := fun ha c' hc' _ => by rw [hc] at hc'; cases hc'; exact ha
      have gone : ∀ u : State, (u.trm t).state = .disarmed → u.armedAt t := by
        intro u hu c' _ hx
        rw [hu] at hx
        simp at hx
      split
      · next ha =>
        split
        · exact (enterIdle_hand t c s fun _ c' hc' => by rw [hc] at hc'; cases hc'; exact ha).armed t (here ha)
        · exact here ha
      · have hd := trm_setTermState t .disarmed s ht
        split
        · exact gone _ hd
        · exact gone _ hd
        · exact gone _ hd
        · next hx => intro c' _ h; change x.state = _ ∨ x.state = _ ∨ x.state = _ at h; rw [hx] at h; simp at h
        · next hx => intro c' _ h; change x.state = _ ∨ x.state = _ ∨ x.state = _ at h; rw [hx] at h; simp at h
        · next hx => intro c' _ h; change x.state = _ ∨ x.state = _ ∨ x.state = _ at h; rw [hx] at h; simp at h
  · intro c hc
    exact absurd (termSet_lt hc) ht

theorem foldl_armedAt (f : State → Nat → State) (hb : ∀ s t, BlockStep s (f s t)) (ha : ∀ s t, (f s t).armedAt t)
    (l : List Nat) : ∀ (s : State) (j : Nat), j ∈ l → (l.foldl f s).armedAt j := by
  induction l with
  | nil => exact fun s j h => absurd h (List.not_mem_nil)
  | cons t l ih =>
    intro s j h
    rw [List.foldl_cons]
    rcases List.mem_cons.1 h with e | e
    · subst e
      exact (foldl_block f hb l _).armed j (ha s j)
    · exact ih _ j e

theorem takeModeAlone_hand (s : State) (t : Nat) : HandStep s (takeModeAlone s t) := by
  unfold takeModeAlone
  split
  · exact HandStep.refl _
  · next c hc =>
    split
    · next ha =>
      have all : ∀ c', s.termSet t = some c' → s.armed c' = true := fun c' hc' => by
        rw [hc] at hc'
        cases hc'
        exact ha.1
      extract_lets s1
      have h1 : HandStep s s1 := setTermState_hand _ _ _ fun _ _ => all
      exact ite_rel (h1.trans (ite_rel (becomeActive_hand _ _ _ _ fun _ => all) (enterTiming_hand _ _ _ fun _ => all))) h1
    · exact takeMode_hand s t

theorem takeModeAlone_armedAt (s : State) (t : Nat) : (takeModeAlone s t).armedAt t := by
  cases hc : s.termSet t with
  | none =>
    have e : takeModeAlone s t = takeMode s t := by
      unfold takeModeAlone takeMode
      simp only [hc]
    exact e ▸ takeMode_armedAt s t
  | some c =>
    by_cases ha : s.armed c = true ∧ (s.trm t).state = .disarmed
    · refine (takeModeAlone_hand s t).armed t fun c' hc' _ => ?_
      rw [hc] at hc'
      cases hc'
      exact ha.1
    · have e : takeModeAlone s t = takeMode s t := by
        unfold takeModeAlone
        simp only [hc, if_neg ha]
      exact e ▸ takeMode_armedAt s t

/-- SET-MODE keeps what a hand step keeps, by whatever the terms take the change that leaves each of them armed for its state. -/
theorem setModeBy_hand {take : State → Nat → State} (ht : ∀ s t, HandStep s (take s t)) (ha : ∀ s t, (take s t).armedAt t) (u : Nat)
    (mode : Mode) (slot : Nat) (s : State) : HandStep s (setModeBy take u mode slot s).1 := by
  unfold setModeBy
  extract_lets old terms disarmed src s1 s2
  split
  · exact HandStep.refl _
  · have h2 : HandStep s1 s2 := request_hand _ _
    have h3 : HandStep s1 (terms.foldl take s2) := h2.trans (foldl_hand _ ht _ _)
    refine ⟨⟨h3.clock, h3.settings, h3.engine, h3.port, h3.pending, h3.jr, h3.forced, h3.isolated, h3.coil, fun j hj => ?_⟩,
      h3.field, h3.panel, h3.monitor, h3.points⟩
    by_cases hm : j ∈ terms
    · exact foldl_armedAt take (fun s t => (ht s t).toBlockStep) ha terms s2 j hm
    · apply h3.armed j
      intro c hc hx
      have ha := hj c hc hx
      unfold State.armed at ha ⊢
      simp only [decide_eq_true_eq] at ha ⊢
      refine ha.imp id fun h => ?_
      have hu : u ≠ c.unit := by
        intro e
        apply hm
        show j ∈ configuredWhere s.settings.live.terms fun c => c.unit == u
        rw [mem_configuredWhere]
        exact ⟨c, hc, by simp [e]⟩
      show look (put s.term.modes u mode) c.unit ∈ c.modes
      rw [look_put_other _ _ hu]
      exact h

theorem setMode_hand (u : Nat) (mode : Mode) (slot : Nat) (s : State) : HandStep s (setMode u mode slot s).1 :=
  setModeBy_hand takeMode_hand takeMode_armedAt u mode slot s

theorem handOn_hand (n : Nat) (time : HallTime) (standing : Bool) (s : State) : HandStep s (handOn n time standing s) :=
  ((termsTake_hand _ _).trans (switchesTake_coil _ _).toHandStep).trans (windowsTake_winStep _ _ _ _).coil.toHandStep

/-! ## The same as block steps -/

theorem handOn_block (n : Nat) (time : HallTime) (standing : Bool) (s : State) :
    BlockStep s (handOn n time standing s) := (handOn_hand n time standing s).toBlockStep

theorem lookWhileHeld_block (t : Nat) (c : TermSettings) (s : State) (hc : s.termSet t = some c) :
    BlockStep s (lookWhileHeld t c s) := (lookWhileHeld_hand t c s hc).toBlockStep

theorem setMode_block (u : Nat) (mode : Mode) (slot : Nat) (s : State) :
    BlockStep s (setMode u mode slot s).1 := (setMode_hand u mode slot s).toBlockStep

/-! ## Points -/

theorem withQuality_forced (p : Point) (q : LiveQuality) : (p.withQuality q).forced = p.forced := by
  unfold Point.withQuality
  split <;> rfl

theorem setQuality_block (n : Nat) (c : PointSettings) (q : LiveQuality) (time : HallTime) (s : State) :
    BlockStep s (setQuality n c q time s) := by
  unfold setQuality
  extract_lets p s1 s2
  have h1 : BlockStep s s1 := setPt_block _ _ _ (withQuality_forced _ _)
  have h2 : BlockStep s s2 := ite_rel (h1.trans (request_block _ _)) h1
  exact ite_rel (BlockStep.refl _) (ite_rel h2 (h2.trans (handOn_block _ _ _ _)))

theorem counted_forced (p : Point) (c : PointSettings) (before counted : Bool) :
    (if counted then p.counted c before else p).forced = p.forced := by
  split <;> rfl

theorem recordChange_block (n : Nat) (c : PointSettings) (p : Point) (before counted : Bool) (f : ChangeFlags) (s : State)
    (h : p.forced = (s.pt n).forced) : BlockStep s (recordChange n c p before counted f s) := by
  unfold recordChange
  extract_lets q
  have h1 : BlockStep s (s.setPt n q) := setPt_block _ _ _ ((counted_forced p c before counted).trans h)
  split
  · exact h1.trans (request_block _ _)
  · exact h1

theorem makeChange_block (n : Nat) (c : PointSettings) (p : Point) (before counted : Bool) (f : ChangeFlags) (w : Bool)
    (s : State) (h : p.forced = (s.pt n).forced) : BlockStep s (makeChange n c p before counted f w s) := by
  unfold makeChange
  exact ite_rel (setPt_block _ _ _ h) ((recordChange_block _ _ _ _ _ _ _ h).trans (handOn_block _ _ _ _))

theorem samplePoint_block (n : Nat) (c : PointSettings) (value : Bool) (time : HallTime) (elapsed : Nat) (s : State) :
    BlockStep s (samplePoint n c value time elapsed s) := by
  unfold samplePoint
  extract_lets src p d
  exact ite_rel (setPt_block _ _ _ (by rfl))
    (ite_rel (makeChange_block _ _ _ _ _ _ _ _ (by rfl)) (setPt_block _ _ _ (by rfl)))

theorem takeDirect_block (n : Nat) (value : Bool) (q : LiveQuality) (time : HallTime) (s : State) :
    BlockStep s (takeDirect n value q time s) := by
  unfold takeDirect
  extract_lets p s1
  have h1 : BlockStep s s1 := setPt_block _ _ _ (by rfl)
  exact ite_rel h1 (h1.trans (handOn_block _ _ _ _))

theorem sampleField_block (n : Nat) (closed fault : Bool) (time : HallTime) (elapsed : Nat) (s : State) :
    BlockStep s (sampleField n closed fault time elapsed s) := by
  unfold sampleField
  split
  · exact BlockStep.refl _
  · extract_lets q
    exact ite_rel (takeDirect_block _ _ _ _ _) ((setQuality_block _ _ _ _ _).trans (samplePoint_block _ _ _ _ _ _))

theorem foundField_block (n : Nat) (closed fault : Bool) (time : HallTime) (s : State) :
    BlockStep s (foundField n closed fault time s) := by
  unfold foundField
  split
  · exact BlockStep.refl _
  · exact takeDirect_block _ _ _ _ _

theorem regainField_block (n : Nat) (closed fault : Bool) (time : HallTime) (s : State) :
    BlockStep s (regainField n closed fault time s) := by
  unfold regainField
  split
  · exact BlockStep.refl _
  · extract_lets value q p
    exact ite_rel ((setPt_block _ _ _ (by rfl)).trans (setQuality_block _ _ _ _ _)) (makeChange_block _ _ _ _ _ _ _ _ (by rfl))

theorem loseField_block (s : State) (n : Nat) : BlockStep s (loseField s n) := by
  unfold loseField
  split
  · exact BlockStep.refl _
  · exact (setPt_block _ _ _ (by rfl)).trans (setQuality_block _ _ _ _ _)

theorem sampleSupervision_block (n : Nat) (value : Bool) (s : State) : BlockStep s (sampleSupervision n value s) := by
  unfold sampleSupervision
  split
  · exact BlockStep.refl _
  · exact ite_rel (takeDirect_block _ _ _ _ _) (samplePoint_block _ _ _ _ _ _)

theorem releaseChatter_block (s : State) (n : Nat) : BlockStep s (releaseChatter s n) := by
  unfold releaseChatter
  extract_lets p s1
  have h1 : BlockStep s s1 := (setPt_block _ _ _ (by rfl)).trans (request_block _ _)
  exact h1.trans (windowsTake_winStep _ _ _ _).block

theorem clearChatter_block (s : State) : BlockStep s (clearChatter s) :=
  ⟨rfl, rfl, rfl, rfl, rfl, JournalStep.refl _,
    fun n => look_mapNumbered_map (fun _ (p : Point) => ({ p with chatter := 0 } : Point)) Point.forced s.pts.points (fun _ _ => rfl) n,
    fun _ => rfl, id, fun _ => id⟩

/-! ## The field loop -/

theorem field_block (s : State) (x : FieldLoop) : BlockStep s { s with field := x } :=
  block_of_fields rfl rfl rfl rfl rfl rfl rfl rfl rfl rfl

theorem setFieldCycle_block (s : State) (y : FieldCycle) : BlockStep s (s.setFieldCycle y) := field_block _ _

theorem sendCall_block (y : FieldCycle) (address : Nat) (isRepeat : Bool) (s : State) :
    BlockStep s (sendCall y address isRepeat s) := ite_rel (field_block _ _) (setFieldCycle_block _ _)

theorem handSamples_block (c contacts wiring : Nat) (time : HallTime) (elapsed : Nat) (s : State) :
    BlockStep s (handSamples c contacts wiring time elapsed s) :=
  foldl_block _ (fun s n => sampleField_block n _ _ _ _ s) _ _

theorem foundConcentrator_block (c contacts wiring : Nat) (k : Concentrator) (time : HallTime) (s : State) :
    BlockStep s (foundConcentrator c contacts wiring k time s) := by
  unfold foundConcentrator
  extract_lets s1 s2
  have h1 : BlockStep s s1 := setConc_block _ _ _
  have h2 : BlockStep s s2 := h1.trans (request_block _ _)
  exact h2.trans (foldl_block _ (fun s n => foundField_block n _ _ _ s) _ _)

theorem regainConcentrator_block (c contacts wiring : Nat) (k : Concentrator) (time : HallTime) (s : State) :
    BlockStep s (regainConcentrator c contacts wiring k time s) := by
  unfold regainConcentrator
  extract_lets s1 differ s2 s3
  have h1 : BlockStep s s1 := setConc_block _ _ _
  have h2 : BlockStep s s2 := h1.trans (request_block _ _)
  have h3 : BlockStep s s3 := h2.trans (setSystemPoint_block _ _ _)
  exact h3.trans (foldl_block _ (fun s n => regainField_block n _ _ _ s) _ _)

theorem goodCycle_block (c : Nat) (set : ConcentratorSettings) (contacts wiring : Nat) (y : FieldCycle) (s : State) :
    BlockStep s (goodCycle c set contacts wiring y s) := by
  unfold goodCycle
  extract_lets k
  split
  · exact BlockStep.refl _
  · exact foundConcentrator_block _ _ _ _ _ _
  · exact (setConc_block _ _ _).trans (handSamples_block _ _ _ _ _ _)
  · exact (setConc_block _ _ _).trans (handSamples_block _ _ _ _ _ _)
  · exact ite_rel (regainConcentrator_block _ _ _ _ _ _) (setConc_block _ _ _)
  · exact ite_rel (regainConcentrator_block _ _ _ _ _ _) (setConc_block _ _ _)

theorem loseConcentrator_block (c : Nat) (set : ConcentratorSettings) (k : Concentrator) (s : State) :
    BlockStep s (loseConcentrator c set k s) := by
  unfold loseConcentrator
  extract_lets s1 s2 s3
  have h1 : BlockStep s s1 := setConc_block _ _ _
  have h2 : BlockStep s s2 := h1.trans (request_block _ _)
  have h3 : BlockStep s s3 := h2.trans (setSystemPoint_block _ _ _)
  exact h3.trans (foldl_block _ loseField_block _ _)

theorem failedCycle_block (c : Nat) (set : ConcentratorSettings) (s : State) : BlockStep s (failedCycle c set s) := by
  unfold failedCycle
  extract_lets k
  split
  · exact BlockStep.refl _
  · exact setConc_block _ _ _
  · exact setConc_block _ _ _
  · exact setConc_block _ _ _
  · exact ite_rel (loseConcentrator_block _ _ _ _) (setConc_block _ _ _)
  · exact setConc_block _ _ _

theorem endCycleOf_block (y : FieldCycle) (s : State) (c : Nat) : BlockStep s (endCycleOf y s c) := by
  unfold endCycleOf
  split
  · exact BlockStep.refl _
  · extract_lets s1
    have h1 : BlockStep s s1 := ite_rel (BlockStep.refl _) (failedCycle_block _ _ _)
    exact h1.trans (setConc_block _ _ _)

/-! ## The panel loop -/

theorem panel_block (s : State) (x : PanelLoop) : BlockStep s { s with panel := x } :=
  block_of_fields rfl rfl rfl rfl rfl rfl rfl rfl rfl rfl

theorem setPanelCycle_block (s : State) (y : PanelCycle) : BlockStep s (s.setPanelCycle y) := panel_block _ _

theorem sendFrame_block (y : PanelCycle) (p : Nat) (s : State) : BlockStep s (sendFrame y p s) :=
  ite_rel (panel_block _ _) (setPanelCycle_block _ _)

theorem takeKeyReply_block (p : Nat) (set : PanelSettings) (keys : Keys) (faults : Nat) (start : HallTime) (s : State) :
    BlockStep s (takeKeyReply p set keys faults start s) := by
  unfold takeKeyReply
  extract_lets x new s1 s2
  have h1 : BlockStep s s1 := setPan_block _ _ _
  have h2 : BlockStep s s2 := by
    simp only [s2]
    split
    · exact h1.trans (request_block _ _)
    · exact (h1.trans (request_block _ _)).trans (setSystemPoint_block _ _ _)
    · exact h1
  exact ite_rel (h2.trans (pressKeys_winStep _ _ _ _).block) h2

theorem losePanel_block (p : Nat) (s : State) : BlockStep s (losePanel p s) := by
  unfold losePanel
  extract_lets x s1
  have h1 : BlockStep s s1 := setPan_block _ _ _
  exact (h1.trans (request_block _ _)).trans (setSystemPoint_block _ _ _)

theorem failedPanelCycle_block (p : Nat) (s : State) : BlockStep s (failedPanelCycle p s) := by
  unfold failedPanelCycle
  extract_lets x n s1
  have h1 : BlockStep s s1 := setPan_block _ _ _
  exact ite_rel (h1.trans (losePanel_block _ _)) h1

theorem endPanelCycleOf_block (y : PanelCycle) (s : State) (p : Nat) : BlockStep s (endPanelCycleOf y s p) :=
  ite_rel (BlockStep.refl _) (failedPanelCycle_block _ _)

/-! ## Supervision -/

theorem sup_block (s : State) (x : Supervision) : BlockStep s { s with sup := x } :=
  block_of_fields rfl rfl rfl rfl rfl rfl rfl rfl rfl rfl

theorem sampleChannel_block (samples : List (BitVec 10)) (s : State) (c : Nat) : BlockStep s (sampleChannel samples s c) := by
  unfold sampleChannel
  split
  · exact BlockStep.refl _
  · refine ite_rel ?_ (BlockStep.refl _)
    exact ((setChan_block _ _ _).trans (sampleSupervision_block _ _ _)).trans (sampleSupervision_block _ _ _)

/-! ## What closes a command -/

theorem updateCondition_block (d : Option (TableName × Nat)) (s : State) : BlockStep s (updateCondition d s) := by
  unfold updateCondition
  refine ite_rel (BlockStep.refl _) ?_
  have h1 : BlockStep s { s with monitor := { s.monitor with shown := s.conditionNow } } :=
    block_of_fields rfl rfl rfl rfl rfl rfl rfl rfl rfl rfl
  exact h1.trans (request_block _ _)

theorem dropNews_block (s : State) : BlockStep s { s with jr := { s.jr with news := [] } } :=
  ⟨rfl, rfl, rfl, rfl, rfl, ⟨rfl, id⟩, fun _ => rfl, fun _ => rfl, id, fun _ => id⟩

theorem handNews_block (s : State) : BlockStep s (handNews s) :=
  (dropNews_block s).trans (foldl_block _ (fun s v => setSystemPoint_block 672 v s) _ _)

theorem settleRounds_block : ∀ (n : Nat) (s : State), BlockStep s (settleRounds n s)
  | 0, s => BlockStep.refl s
  | n + 1, s => by
    unfold settleRounds
    exact ite_rel (BlockStep.refl _)
      (((handNews_block _).trans (updateCondition_block _ _)).trans (settleRounds_block n _))

/-- What closes a command is a block step. -/
theorem finish_block (s : State) : BlockStep s (finish s) := settleRounds_block _ _

end Sys2Proof.Machine
end

