-- ==== Sys2Proof/Laws/Condition.lean ====
section
/-! SUPPORT. What closes a command leaves the state settled: every change of point 672 handed on, the condition shown the one R166
gives. -/

namespace Sys2Proof.Machine

/-- The condition is worked out from these parts of the state. -/
theorem conditionNow_congr {s t : State} (hs : t.settings = s.settings) (hm : t.monitor = s.monitor) (hf : t.field = s.field)
    (hp : t.panel = s.panel) (hw : t.sw = s.sw) (hl : t.jr.losing = s.jr.losing) : t.conditionNow = s.conditionNow := by
  unfold State.conditionNow State.causes State.causeConcentrator State.causePanel State.causeSwitch State.causeSupervision
    State.halted State.conc State.pan
  rw [hs, hm, hf, hp, hw, hl]

/-- A step of the window side that may also set points: the parts the condition is worked out from stay but for the journal. -/
structure NewsStep (s t : State) : Prop where
  settings : t.settings = s.settings
  monitor : t.monitor = s.monitor
  field : t.field = s.field
  panel : t.panel = s.panel
  sw : t.sw = s.sw
  jr : OrdinaryStep s.jr t.jr

theorem NewsStep.refl (s : State) : NewsStep s s := ⟨rfl, rfl, rfl, rfl, rfl, OrdinaryStep.refl _⟩

theorem NewsStep.trans {s t u : State} (a : NewsStep s t) (b : NewsStep t u) : NewsStep s u :=
  ⟨b.settings.trans a.settings, b.monitor.trans a.monitor, b.field.trans a.field, b.panel.trans a.panel, b.sw.trans a.sw,
    a.jr.trans b.jr⟩

theorem setSystemPoint_newsStep (n : Nat) (v : Bool) (s : State) : NewsStep s (setSystemPoint n v s) := by
  unfold setSystemPoint
  refine ite_rel (NewsStep.refl _) ?_
  have h := windowsTake_winStep n s.now false
    (s.setPt n { s.pt n with raw := v, qualified := v, rawTime := s.now, qualifyTime := s.now })
  exact ⟨h.settings, h.monitor, h.field, h.panel, h.sw, h.jr⟩

theorem handNews_newsStep (s : State) : NewsStep { s with jr := { s.jr with news := [] } } (handNews s) :=
  foldl_rel NewsStep.refl NewsStep.trans _ (fun s v => setSystemPoint_newsStep 672 v s) _ _

theorem toCome_le (j : Journal) : j.toCome ≤ 2 := by
  unfold Journal.toCome
  split
  · split <;> omega
  · omega

/-- The condition worked out again after it has been shown is the same while losing and everything else stays. -/
theorem conditionNow_shown {s t : State} (hs : t.settings = s.settings) (hx : t.monitor.shown = s.conditionNow)
    (hm : t.monitor.latch = s.monitor.latch) (hf : t.field = s.field) (hp : t.panel = s.panel) (hw : t.sw = s.sw)
    (hl : t.jr.losing = s.jr.losing) (hne : s.conditionNow ≠ s.monitor.shown) : t.conditionNow = s.conditionNow := by
  have hc : t.causes = s.causes := by
    unfold State.causes State.causeConcentrator State.causePanel State.causeSwitch State.causeSupervision State.conc State.pan
    rw [hs, hf, hp, hw, hl]
  unfold State.conditionNow at *
  unfold State.halted at *
  rw [hs, hm, hc, hx]
  by_cases ha : s.settings.adopted = true
  · by_cases hh : (s.monitor.shown == .halted) = true
    · exfalso
      apply hne
      simp only [ha, hh]
      simpa using (beq_iff_eq.1 hh).symm
    · simp only [ha, hh, Bool.not_true, Bool.false_eq_true, if_false]
      split
      · simp
      · split <;> simp
  · simp [ha]

theorem settleRounds_of_settled {s : State} (h : s.settledLaw) : ∀ n, settleRounds n s = s
  | 0 => rfl
  | n + 1 => by
    unfold settleRounds
    rw [if_pos ⟨h.1, h.2⟩]

/-- Where nothing is to be handed on, closing a command changes nothing. -/
theorem finish_of_settled {s : State} (h : s.settledLaw) : finish s = s := settleRounds_of_settled h 8

/-- One round either leaves nothing to hand on or uses up a change of point 672. -/
theorem round_settles (s : State) :
    (updateCondition none (handNews s)).settledLaw ∨ (updateCondition none (handNews s)).jr.toCome < s.jr.toCome := by
  have h1 := handNews_newsStep s
  generalize handNews s = u at h1
  obtain ⟨l, hl, el, _⟩ := h1.jr.news
  have el' : u.jr.toCome + l.length = s.jr.toCome := el
  have hl' : u.jr.news = l := by simpa using hl
  unfold updateCondition
  split
  · next hc =>
    cases l with
    | nil => exact Or.inl ⟨hl', hc⟩
    | cons a l => right; simp only [List.length_cons] at el'; omega
  · next hc =>
    set e := conditionEntry u.monitor.shown u.conditionNow u.causes none u.now with he
    have ho := request_ordinary u.jr u.clock.hall e rfl
    obtain ⟨m, hm, em, lm⟩ := ho.news
    cases l with
    | cons a l =>
      right
      simp only [List.length_cons] at el'
      change (u.jr.request u.clock.hall e).toCome < _
      omega
    | nil =>
      cases m with
      | cons b m =>
        right
        simp only [List.length_cons, List.length_nil] at em el'
        change (u.jr.request u.clock.hall e).toCome < _
        omega
      | nil =>
        left
        refine ⟨by rw [← List.append_nil ([] : List Bool)]; change (u.jr.request u.clock.hall e).news = _; rw [hm, hl'], ?_⟩
        have hlo : (u.jr.request u.clock.hall e).losing = u.jr.losing := lm
        exact conditionNow_shown rfl rfl rfl rfl rfl rfl hlo hc

theorem settleRounds_settled : ∀ (n : Nat) (s : State), s.jr.toCome < n → (settleRounds n s).settledLaw
  | 0, s, h => absurd h (Nat.not_lt_zero _)
  | n + 1, s, h => by
    unfold settleRounds
    split
    · next hs => exact hs
    · rcases round_settles s with h1 | h1
      · rw [settleRounds_of_settled h1]
        exact h1
      · exact settleRounds_settled n _ (by omega)

/-- Every command that is closed leaves the state settled. -/
theorem finish_settled (s : State) : (finish s).settledLaw :=
  settleRounds_settled 8 s (by have := toCome_le s.jr; omega)

/-! ## Point 672 -/

theorem winStep_pt {s t : State} (h : WinStep s t) (n : Nat) : t.pt n = s.pt n := by
  unfold State.pt
  rw [h.pts]

/-- Once a FULL adoption has been made, a system point shows the value it was set to. -/
theorem setSystemPoint_qualified (n : Nat) (v : Bool) (s : State) (ha : s.settings.adopted = true) (hn : n < 680) :
    ((setSystemPoint n v s).pt n).qualified = v := by
  unfold setSystemPoint
  split
  · next h =>
    simpa [ha] using h
  · rw [winStep_pt (windowsTake_winStep _ _ _ _)]
    unfold State.pt State.setPt
    simp only
    rw [look_put_same _ _ hn]

/-- What point 672 shows once it has been told every change still waiting is whether a loss is pending. -/
def State.shows (s : State) : Prop := s.jr.news.getLast?.getD (s.pt 672).qualified = s.jr.losing

theorem foldl_setSystemPoint_qualified : ∀ (l : List Bool) (s : State), s.settings.adopted = true →
    ((l.foldl (fun s v => setSystemPoint 672 v s) s).pt 672).qualified = l.getLast?.getD (s.pt 672).qualified
  | [], _, _ => rfl
  | v :: l, s, h => by
    have hs := (setSystemPoint_newsStep 672 v s).settings
    rw [List.foldl_cons, foldl_setSystemPoint_qualified l _ (by rw [hs]; exact h), setSystemPoint_qualified _ _ _ h (by decide),
      List.getLast?_cons]
    cases l.getLast? <;> rfl

/-- A round of closing keeps it that point 672 will show whether a loss is pending. -/
theorem round_shows (s : State) (ha : s.settings.adopted = true) (h : s.shows) :
    (updateCondition none (handNews s)).shows := by
  have h1 : (handNews s).shows := by
    have hq : ((handNews s).pt 672).qualified = s.jr.losing :=
      (foldl_setSystemPoint_qualified s.jr.news { s with jr := { s.jr with news := [] } } ha).trans h
    obtain ⟨l, hl, _, el⟩ := (handNews_newsStep s).jr.news
    unfold State.shows
    rw [hq, hl, el]
    rfl
  exact ite_rel (R := fun u v => u.shows → v.shows) (fun h => h)
    (fun h => (request_ordinary _ _ (conditionEntry _ _ _ none _) rfl).shows h) h1

theorem settleRounds_shows : ∀ (n : Nat) (s : State), s.settings.adopted = true → s.shows → (settleRounds n s).shows
  | 0, _, _, h => h
  | n + 1, s, ha, h => by
    unfold settleRounds
    split
    · exact h
    · refine settleRounds_shows n _ ?_ (round_shows s ha h)
      rw [((handNews_block s).trans (updateCondition_block none _)).settings]
      exact ha

/-- What closes a command leaves point 672 active exactly while losses are pending. -/
theorem finish_shows (s : State) (ha : s.settings.adopted = true) (h : s.shows) :
    ((finish s).pt 672).qualified = (finish s).jr.losing := by
  have := settleRounds_shows 8 s ha h
  unfold State.shows at this
  rw [show (settleRounds 8 s).jr.news = [] from (finish_settled s).1] at this
  exact this

/-! ## What closing a command leaves alone -/

/-- Closing a command changes points only at 672, and beside them windows, groups, journal and the condition shown. -/
structure CloseStep (s t : State) : Prop where
  rest : t = { s with pts := t.pts, win := t.win, jr := t.jr, monitor := { s.monitor with shown := t.monitor.shown } }
  points : ∀ n, n ≠ 672 → t.pt n = s.pt n
  boundary : t.pts.nextBoundary = s.pts.nextBoundary

theorem CloseStep.refl (s : State) : CloseStep s s := ⟨rfl, fun _ _ => rfl, rfl⟩

theorem CloseStep.trans {s t u : State} (a : CloseStep s t) (b : CloseStep t u) : CloseStep s u := by
  refine ⟨?_, fun n h => (b.points n h).trans (a.points n h), b.boundary.trans a.boundary⟩
  refine b.rest.trans ?_
  congr 1
  · exact (congrArg State.clock a.rest :)
  · exact (congrArg State.field a.rest :)
  · exact (congrArg State.panel a.rest :)
  · exact (congrArg State.term a.rest :)
  · exact (congrArg State.sw a.rest :)
  · exact (congrArg State.sup a.rest :)
  · exact (congrArg State.port a.rest :)
  · exact (congrArg State.engine a.rest :)
  · exact (congrArg State.settings a.rest :)
  · have h : t.monitor = { s.monitor with shown := t.monitor.shown } := (congrArg State.monitor a.rest :)
    rw [h]
  · exact (congrArg State.free a.rest :)
  · exact (congrArg State.pending a.rest :)

theorem WinStep.close {s t : State} (h : WinStep s t) : CloseStep s t := by
  refine ⟨?_, fun n _ => by simp only [State.pt, h.pts], by rw [h.pts]⟩
  have h1 := h.clock; have h2 := h.field; have h3 := h.panel; have h4 := h.term; have h5 := h.sw; have h6 := h.sup
  have h7 := h.port; have h8 := h.engine; have h9 := h.settings; have h10 := h.monitor; have h11 := h.free
  have h12 := h.pending
  cases s
  cases t
  simp_all

theorem setSystemPoint_close (v : Bool) (s : State) : CloseStep s (setSystemPoint 672 v s) := by
  refine ite_rel (CloseStep.refl _) (CloseStep.trans ?_ (windowsTake_winStep _ _ _ _).close)
  refine ⟨rfl, fun n h => ?_, rfl⟩
  show look (put s.pts.points 672 _) n = _
  exact look_put_other _ _ (Ne.symm h)

theorem updateCondition_close (d : Option (TableName × Nat)) (s : State) : CloseStep s (updateCondition d s) :=
  ite_rel (CloseStep.refl _) ⟨rfl, fun _ _ => rfl, rfl⟩

theorem handNews_close (s : State) : CloseStep s (handNews s) :=
  CloseStep.trans (t := { s with jr := { s.jr with news := [] } }) ⟨rfl, fun _ _ => rfl, rfl⟩
    (foldl_rel CloseStep.refl CloseStep.trans _ (fun s v => setSystemPoint_close v s) _ _)

theorem settleRounds_close : ∀ (n : Nat) (s : State), CloseStep s (settleRounds n s)
  | 0, s => CloseStep.refl s
  | n + 1, s => by
    unfold settleRounds
    exact ite_rel (CloseStep.refl _)
      (((handNews_close s).trans (updateCondition_close _ _)).trans (settleRounds_close n _))

theorem finish_close (s : State) : CloseStep s (finish s) := settleRounds_close 8 s

end Sys2Proof.Machine
end

