-- ==== Sys2Proof/Laws/Memory.lean ====
section
/-! SUPPORT. The cells of the exchange memory: reading what was written, and the canonical form kept. -/

namespace Sys2Proof.Machine

theorem read_write (m : List Host.Cell) (a c : Nat) (b : Byte) (h : Memory.wf m) :
    Memory.read (Memory.write m a b) c = if c = a then b else Memory.read m c := by
  induction m with
  | nil =>
    by_cases hb : b = 0
    · rw [Memory.write, if_pos hb, hb]
      simp [Memory.read]
    · rw [Memory.write, if_neg hb]
      simp only [Memory.read]
      by_cases hc : c = a
      · simp [hc]
      · simp [hc, Ne.symm hc]
  | cons x m ih =>
    obtain ⟨k, v⟩ := x
    obtain ⟨hp, hz⟩ := h
    rw [List.pairwise_cons] at hp
    have ih := ih ⟨hp.2, fun c hc => hz c (List.mem_cons_of_mem _ hc)⟩
    have below : ∀ (l : List Host.Cell) (e : Nat), (∀ x ∈ l, e < x.1) → Memory.read l e = 0 := by
      intro l e hl
      induction l with
      | nil => rfl
      | cons y l ihl =>
        have h1 := hl y (by simp)
        obtain ⟨ky, vy⟩ := y
        have h1 : e < ky := h1
        rw [Memory.read, if_neg (by omega)]
        exact ihl fun z hz => hl z (by simp [hz])
    simp only [Memory.write]
    split
    · next hlt =>
      split
      · next hb =>
        by_cases hc : c = a
        · subst hc
          rw [if_pos rfl, hb]
          refine below _ _ ?_
          intro z hz'
          rcases List.mem_cons.1 hz' with rfl | hz'
          · exact hlt
          · exact lt_trans hlt (hp.1 z hz')
        · rw [if_neg hc]
      · next hb =>
        simp only [Memory.read]
        by_cases hc : c = a
        · simp [hc]
        · simp [hc, Ne.symm hc]
    · split
      · next heq =>
        subst heq
        by_cases hb : b = 0
        · rw [if_pos hb]
          by_cases hc : c = a
          · subst hc
            rw [if_pos rfl, hb]
            exact below _ _ fun z hz' => hp.1 z hz'
          · rw [if_neg hc, Memory.read, if_neg (Ne.symm hc)]
        · rw [if_neg hb]
          simp only [Memory.read]
          by_cases hc : c = a
          · simp [hc]
          · simp [hc, Ne.symm hc]
      · next hlt hne =>
        simp only [Memory.read]
        by_cases hk : k = c
        · subst hk
          rw [if_pos rfl, if_pos rfl, if_neg (Ne.symm hne)]
        · rw [if_neg hk, if_neg hk, ih]

theorem mem_write (m : List Host.Cell) (a : Nat) (b : Byte) :
    ∀ c ∈ Memory.write m a b, c = (a, b) ∧ b ≠ 0 ∨ c ∈ m := by
  induction m with
  | nil =>
    intro c hc
    by_cases hb : b = 0 <;> simp_all [Memory.write]
  | cons x m ih =>
    obtain ⟨k, v⟩ := x
    intro c hc
    simp only [Memory.write] at hc
    split at hc
    · split at hc
      · exact Or.inr hc
      · next hb =>
        rcases List.mem_cons.1 hc with h | h
        · exact Or.inl ⟨h, hb⟩
        · exact Or.inr h
    · split at hc
      · split at hc
        · exact Or.inr (List.mem_cons_of_mem _ hc)
        · next hb =>
          rcases List.mem_cons.1 hc with h | h
          · exact Or.inl ⟨h, hb⟩
          · exact Or.inr (List.mem_cons_of_mem _ h)
      · rcases List.mem_cons.1 hc with h | h
        · exact Or.inr (h ▸ List.mem_cons_self)
        · rcases ih c h with h | h
          · exact Or.inl h
          · exact Or.inr (List.mem_cons_of_mem _ h)

theorem write_wf (m : List Host.Cell) (a : Nat) (b : Byte) (h : Memory.wf m) : Memory.wf (Memory.write m a b) := by
  induction m with
  | nil =>
    rw [Memory.write]
    split
    · exact h
    · next hb => exact ⟨List.pairwise_singleton _ _, fun c hc => by rw [List.mem_singleton.1 hc]; exact hb⟩
  | cons x m ih =>
    obtain ⟨k, v⟩ := x
    have h0 := h
    obtain ⟨hp, hz⟩ := h
    rw [List.pairwise_cons] at hp
    have ih := ih ⟨hp.2, fun c hc => hz c (List.mem_cons_of_mem _ hc)⟩
    simp only [Memory.write]
    split
    · next hlt =>
      split
      · exact h0
      · next hb =>
        refine ⟨List.pairwise_cons.2 ⟨?_, h0.1⟩, ?_⟩
        · intro z hz'
          rcases List.mem_cons.1 hz' with rfl | hz'
          · exact hlt
          · exact lt_trans hlt (hp.1 z hz')
        · intro c hc
          rcases List.mem_cons.1 hc with rfl | hc
          · exact hb
          · exact hz c hc
    · split
      · next heq =>
        split
        · exact ⟨hp.2, fun c hc => hz c (List.mem_cons_of_mem _ hc)⟩
        · next hb =>
          refine ⟨List.pairwise_cons.2 ⟨?_, hp.2⟩, ?_⟩
          · intro z hz'
            have := hp.1 z hz'
            simpa [heq] using this
          · intro c hc
            rcases List.mem_cons.1 hc with rfl | hc
            · exact hb
            · exact hz c (List.mem_cons_of_mem _ hc)
      · next hlt hne =>
        refine ⟨List.pairwise_cons.2 ⟨?_, ih.1⟩, ?_⟩
        · intro z hz'
          rcases mem_write m a b z hz' with ⟨rfl, _⟩ | hz'
          · show k < a
            omega
          · exact hp.1 z hz'
        · intro c hc
          rcases List.mem_cons.1 hc with rfl | hc
          · exact hz (k, v) List.mem_cons_self
          · exact ih.2 c hc

theorem writeBytes_wf (bs : List Byte) : ∀ (m : List Host.Cell) (a : Nat), Memory.wf m → Memory.wf (Memory.writeBytes m a bs) := by
  induction bs with
  | nil => intro m a h; exact h
  | cons b bs ih => intro m a h; exact ih _ _ (write_wf m a b h)

theorem writeWord_wf (m : List Host.Cell) (a : Nat) (w : Word) (h : Memory.wf m) : Memory.wf (Memory.writeWord m a w) :=
  writeBytes_wf _ _ _ h

/-- A byte outside the bytes written reads as before. -/
theorem read_writeBytes_other (bs : List Byte) : ∀ (m : List Host.Cell) (a c : Nat), Memory.wf m →
    (c < a ∨ a + bs.length ≤ c) → Memory.read (Memory.writeBytes m a bs) c = Memory.read m c := by
  induction bs with
  | nil => intros; rfl
  | cons b bs ih =>
    intro m a c h hc
    simp only [List.length_cons] at hc
    rw [Memory.writeBytes, ih _ _ _ (write_wf m a b h) (by omega), read_write _ _ _ _ h, if_neg (by omega)]

/-- The bytes written read back. -/
theorem read_writeBytes (bs : List Byte) : ∀ (m : List Host.Cell) (a i : Nat), Memory.wf m → (hi : i < bs.length) →
    Memory.read (Memory.writeBytes m a bs) (a + i) = bs[i] := by
  induction bs with
  | nil => intro m a i _ hi; simp at hi
  | cons b bs ih =>
    intro m a i h hi
    rw [Memory.writeBytes]
    cases i with
    | zero =>
      rw [read_writeBytes_other _ _ _ _ (write_wf m a b h) (by omega), read_write _ _ _ _ h]
      simp
    | succ i =>
      have := ih (Memory.write m a b) (a + 1) i (write_wf m a b h) (by simpa using hi)
      rw [show a + (i + 1) = a + 1 + i by omega, this]
      simp

theorem read_writeWord_other (m : List Host.Cell) (a c : Nat) (w : Word) (h : Memory.wf m) (hc : c < a ∨ a + 4 ≤ c) :
    Memory.read (Memory.writeWord m a w) c = Memory.read m c :=
  read_writeBytes_other _ _ _ _ h (by simpa [bytesOf] using hc)

/-- A number of n bytes elsewhere reads as before. -/
theorem readNat_writeWord_other (m : List Host.Cell) (a c n : Nat) (w : Word) (h : Memory.wf m)
    (hc : c + n ≤ a ∨ a + 4 ≤ c) : Memory.readNat (Memory.writeWord m a w) c n = Memory.readNat m c n := by
  unfold Memory.readNat
  congr 1
  refine List.map_congr_left fun i hi => ?_
  have := List.mem_range.1 hi
  exact read_writeWord_other _ _ _ _ h (by omega)

/-- A word written reads back. -/
theorem readNat_writeWord (m : List Host.Cell) (a : Nat) (w : Word) (h : Memory.wf m) :
    Memory.readNat (Memory.writeWord m a w) a 4 = w.toNat := by
  have r : ∀ i, i < 4 → Memory.read (Memory.writeWord m a w) (a + i) = byteAt w.toNat i := by
    intro i hi
    have := read_writeBytes (bytesOf 4 w.toNat) m a i h (by simpa [bytesOf] using hi)
    simpa [Memory.writeWord, bytesOf] using this
  have hw := w.isLt
  have e : Memory.readNat (Memory.writeWord m a w) a 4 = ofBytes ((List.range 4).map (byteAt w.toNat)) := by
    unfold Memory.readNat
    congr 1
    exact List.map_congr_left fun i hi => r i (List.mem_range.1 hi)
  rw [e]
  simp [List.range_succ, ofBytes, byteAt, Nat.shiftRight_eq_div_pow]
  omega

theorem outcomeWords_wf (k : Nat) (r : Result) (d : Nat) (t : HallTime) (m : List Host.Cell) (h : Memory.wf m) :
    Memory.wf (outcomeWords k r d t m) :=
  writeWord_wf _ _ _ (writeWord_wf _ _ _ (writeWord_wf _ _ _ (writeWord_wf _ _ _ h)))

/-! ## Bits on the loop lines -/

/-- A byte is the number of its eight bits. -/
theorem ofBits_getLsbD (b : Byte) :
    BitVec.ofNat 8 (ofBits ((List.range 8).map fun i => b.getLsbD i)) = b := by
  revert b
  decide

/-- What is sent on a loop line is received as it was sent (R178). -/
theorem receivedBytes_frameBits : ∀ bs : List Byte, receivedBytes (frameBits bs) = some bs
  | [] => rfl
  | b :: bs => by
    have h : receivedBytes (frameBits (b :: bs)) = (receivedBytes (frameBits bs)).map
        fun rest => BitVec.ofNat 8 (ofBits ((List.range 8).map fun i => b.getLsbD i)) :: rest := rfl
    rw [h, receivedBytes_frameBits bs, ofBits_getLsbD]
    rfl

end Sys2Proof.Machine
end

