-- ==== Sys2Proof/Laws/Orders.lean ====
section
/-! SUPPORT. What the effects of orders and of adoptions leave alone, and what taking and publishing a slot do. -/

namespace Sys2Proof.Machine

/-- A step that leaves the order engine, the slots, the exchange memory, the mask and the commands waiting as they are. -/
structure CoreStep (s t : State) : Prop where
  engine : t.engine = s.engine
  pending : t.pending = s.pending
  mem : t.port.mem = s.port.mem
  holders : t.port.holders = s.port.holders
  mask : t.port.mask = s.port.mask
  jr : JournalStep s.jr t.jr

theorem CoreStep.refl (s : State) : CoreStep s s := ⟨rfl, rfl, rfl, rfl, rfl, JournalStep.refl _⟩

theorem CoreStep.trans {s t u : State} (a : CoreStep s t) (b : CoreStep t u) : CoreStep s u :=
  ⟨b.engine.trans a.engine, b.pending.trans a.pending, b.mem.trans a.mem, b.holders.trans a.holders, b.mask.trans a.mask,
    a.jr.trans b.jr⟩

theorem BlockStep.core {s t : State} (h : BlockStep s t) : CoreStep s t :=
  ⟨h.engine, h.pending, by rw [h.port], by rw [h.port], by rw [h.port], h.jr⟩

theorem CoreStep.holder {s t : State} (h : CoreStep s t) (k : Nat) : t.holder k = s.holder k := by
  unfold State.holder
  rw [h.holders]

theorem foldl_core {α : Type} (f : State → α → State) (h : ∀ s a, CoreStep s (f s a)) (l : List α) (s : State) :
    CoreStep s (l.foldl f s) := foldl_rel CoreStep.refl CoreStep.trans f h l s

/-- A state that agrees with s in what a core step keeps. -/
theorem core_of_fields {s t : State} (he : t.engine = s.engine) (hq : t.pending = s.pending) (hp : t.port = s.port)
    (hj : t.jr = s.jr) : CoreStep s t :=
  ⟨he, hq, by rw [hp], by rw [hp], by rw [hp], hj ▸ JournalStep.refl _⟩

theorem setPt_core (s : State) (n : Nat) (p : Point) : CoreStep s (s.setPt n p) := core_of_fields rfl rfl rfl rfl
theorem setSwi_core (s : State) (i : Nat) (x : Switch) : CoreStep s (s.setSwi i x) := core_of_fields rfl rfl rfl rfl
theorem request_core (s : State) (e : Entry) : CoreStep s (s.request e) := (request_block s e).core
theorem handOn_core (n : Nat) (time : HallTime) (standing : Bool) (s : State) : CoreStep s (handOn n time standing s) :=
  (handOn_block _ _ _ _).core
theorem finish_core (s : State) : CoreStep s (finish s) := (finish_block s).core

/-! ## Effects of orders -/

theorem recordChange_core (n : Nat) (c : PointSettings) (p : Point) (before counted : Bool) (f : ChangeFlags) (s : State) :
    CoreStep s (recordChange n c p before counted f s) := by
  unfold recordChange
  extract_lets q
  split
  · exact (setPt_core _ _ _).trans (request_core _ _)
  · exact setPt_core _ _ _

theorem makeChange_core (n : Nat) (c : PointSettings) (p : Point) (before counted : Bool) (f : ChangeFlags) (w : Bool)
    (s : State) : CoreStep s (makeChange n c p before counted f w s) := by
  unfold makeChange
  exact ite_rel (setPt_core _ _ _) ((recordChange_core _ _ _ _ _ _ _).trans (handOn_core _ _ _ _))

theorem markStepped_core (s : State) : CoreStep s (markStepped s) := by
  unfold markStepped
  refine ite_rel ?_ (CoreStep.refl _)
  have h : CoreStep s { s with clock := { s.clock with steppedUntil := some (s.clock.elapsed + 10000) } } :=
    core_of_fields rfl rfl rfl rfl
  exact h.trans (setSystemPoint_block _ _ _).core

theorem stepTime_core (bySync : Bool) (new : HallTime) (s : State) : CoreStep s (stepTime bySync new s) := by
  unfold stepTime
  extract_lets old src s1
  have h1 : CoreStep s s1 := core_of_fields rfl rfl rfl rfl
  exact (h1.trans (request_core _ _)).trans (markStepped_core _)

theorem markForced_core (n : Nat) (v : Bool) (s : State) : CoreStep s (markForced n v s) := by
  unfold markForced
  extract_lets p s1 s2
  have h1 : CoreStep s s1 := setPt_core _ _ _
  have h2 : CoreStep s s2 := ite_rel (h1.trans (request_core _ _)) h1
  exact h2.trans (request_core _ _)

theorem forcePoint_core (n : Nat) (v : Bool) (s : State) : CoreStep s (forcePoint n v s).1 :=
  (markForced_core n v s).trans (handOn_core _ _ _ _)

theorem markUnforced_core (n : Nat) (v : Bool) (s : State) : CoreStep s (markUnforced n v s) :=
  (setPt_core _ _ _).trans (request_core _ _)

theorem releasePoint_core (n : Nat) (s : State) : CoreStep s (releasePoint n s).1 := by
  unfold releasePoint
  extract_lets p
  split
  · extract_lets s1
    have h1 : CoreStep s s1 := markUnforced_core _ _ _
    split
    · exact h1.trans (handOn_core _ _ _ _)
    · exact h1.trans (makeChange_core _ _ _ _ _ _ _ _)
  · exact CoreStep.refl _

theorem markIsolated_core (i : Nat) (s : State) : CoreStep s (markIsolated i s) := (setSwi_core _ _ _).trans (request_core _ _)

theorem withdrawTrip_core (i : Nat) (c : SwitchSettings) (e : QueueEntry) (s : State) : CoreStep s (withdrawTrip i c e s) :=
  ((dropEntry_block _ _).core.trans (requestSwitch_block _ _ _ _ _ _ _ _ _ _).core).trans (setSwitchState_block _ _ _).core

theorem isolateSwitch_core (i : Nat) (s : State) : CoreStep s (isolateSwitch i s).1 := by
  unfold isolateSwitch
  split
  · exact CoreStep.refl _
  · extract_lets s1
    have h1 : CoreStep s s1 := markIsolated_core _ _
    clear_value s1
    split
    · split
      · extract_lets s2 s3
        have h2 : CoreStep s s2 := h1.trans ((withdrawTrip_core _ _ _ _).trans (syncSwitchPoints_block _ _).core)
        have h3 : CoreStep s s3 := ite_rel (h2.trans (foundOperated_block _ _ _).core) h2
        exact h3.trans (runQueue_block _).core
      · exact h1
    · exact h1

theorem restoreSwitch_core (i : Nat) (s : State) : CoreStep s (restoreSwitch i s).1 := by
  unfold restoreSwitch
  split
  · exact (setSwi_core _ _ _).trans (request_core _ _)
  · exact CoreStep.refl _

theorem clearCounters_core (scope subject : Nat) (s : State) : CoreStep s (clearCounters scope subject s).1 := by
  unfold clearCounters
  extract_lets src1 src2 src3 cleared
  have h : CoreStep s cleared := by
    simp only [cleared]
    split
    · exact core_of_fields rfl rfl rfl rfl
    · exact core_of_fields rfl rfl rfl rfl
    · exact ⟨rfl, rfl, rfl, rfl, rfl, JournalStep.refl _⟩
  exact h.trans (request_core _ _)

theorem clearFaultLatch_core (s : State) : CoreStep s (clearFaultLatch s).1 := by
  unfold clearFaultLatch
  split
  · exact CoreStep.refl _
  · have h : CoreStep s { s with monitor := { s.monitor with latch := none } } := core_of_fields rfl rfl rfl rfl
    exact h.trans (updateCondition_block _ _).core

/-- The effect of any order leaves the engine, the slots, the memory and the mask as they are. -/
theorem applyOrder_core (k : Nat) (s : State) (o : Order) : CoreStep s (applyOrder k s o).1 := by
  cases o <;> simp only [applyOrder]
  case adopt => exact CoreStep.refl _
  case setTime => exact stepTime_core _ _ _
  case setMode u m =>
    split
    · exact (setMode_block _ _ _ _).core
    · exact CoreStep.refl _
  case ackWindows => exact (offerAll_winStep _ _ _ _).block.core
  case resetWindows => exact (offerAll_winStep _ _ _ _).block.core
  case silence => exact (setSilence_winStep _).block.core
  case shelve => exact (shelveWindow_winStep _ _ _).block.core
  case unshelve => exact (unshelveWindow_winStep _ _).block.core
  case resetFirstOut => exact (clearGroup_winStep _ _).block.core
  case forcePoint => exact forcePoint_core _ _ _
  case releasePoint => exact releasePoint_core _ _
  case isolate => exact isolateSwitch_core _ _
  case restore => exact restoreSwitch_core _ _
  case tripManual => exact (tripManual_block _ _ _).core
  case resetSwitch => exact (resetSwitch_block _ _).core
  case testCircuit => exact (testCircuit_block _ _).core
  case clearCounters => exact clearCounters_core _ _ _
  case clearFault => exact clearFaultLatch_core _
  case restart => exact CoreStep.refl _

/-! ## Taking and publishing a slot -/

@[simp] theorem takeHead_jr (k : Nat) (s : State) : (takeHead k s).jr = s.jr := rfl
@[simp] theorem takeHead_mem (k : Nat) (s : State) : (takeHead k s).port.mem = s.port.mem := rfl
@[simp] theorem takeHead_mask (k : Nat) (s : State) : (takeHead k s).port.mask = s.port.mask := rfl
@[simp] theorem takeHead_pending (k : Nat) (s : State) : (takeHead k s).pending = s.pending := rfl
@[simp] theorem takeHead_intake (k : Nat) (s : State) : (takeHead k s).engine.intake = s.engine.intake.tail := rfl
@[simp] theorem takeHead_chain (k : Nat) (s : State) : (takeHead k s).engine.chain = s.engine.chain := rfl
@[simp] theorem takeHead_working (k : Nat) (s : State) : (takeHead k s).engine.working = s.engine.working := rfl
@[simp] theorem takeHead_settings (k : Nat) (s : State) : (takeHead k s).settings = s.settings := rfl
@[simp] theorem takeHead_pts (k : Nat) (s : State) : (takeHead k s).pts = s.pts := rfl
@[simp] theorem takeHead_sw (k : Nat) (s : State) : (takeHead k s).sw = s.sw := rfl
@[simp] theorem takeHead_term (k : Nat) (s : State) : (takeHead k s).term = s.term := rfl
@[simp] theorem takeHead_win (k : Nat) (s : State) : (takeHead k s).win = s.win := rfl
@[simp] theorem takeHead_clock (k : Nat) (s : State) : (takeHead k s).clock = s.clock := rfl
@[simp] theorem takeHead_monitor (k : Nat) (s : State) : (takeHead k s).monitor = s.monitor := rfl

theorem takeHead_holder (k : Nat) (s : State) (hk : k < 32) (j : Nat) :
    (takeHead k s).holder j = if j = k then .working else s.holder j := by
  unfold takeHead State.holder State.setHolder
  by_cases h : j = k
  · subst h
    rw [if_pos rfl]
    exact look_put_same _ _ hk
  · rw [if_neg h]
    exact look_put_other _ _ (Ne.symm h)

@[simp] theorem recordAdoption_port (k : Nat) (r : Result) (s : State) : (recordAdoption k r s).port = s.port := by
  unfold recordAdoption; split <;> rfl
@[simp] theorem recordAdoption_engine (k : Nat) (r : Result) (s : State) : (recordAdoption k r s).engine = s.engine := by
  unfold recordAdoption; split <;> rfl
@[simp] theorem recordAdoption_jr (k : Nat) (r : Result) (s : State) : (recordAdoption k r s).jr = s.jr := by
  unfold recordAdoption; split <;> rfl
@[simp] theorem recordAdoption_pending (k : Nat) (r : Result) (s : State) : (recordAdoption k r s).pending = s.pending := by
  unfold recordAdoption; split <;> rfl
@[simp] theorem recordAdoption_clock (k : Nat) (r : Result) (s : State) : (recordAdoption k r s).clock = s.clock := by
  unfold recordAdoption; split <;> rfl
@[simp] theorem recordAdoption_pts (k : Nat) (r : Result) (s : State) : (recordAdoption k r s).pts = s.pts := by
  unfold recordAdoption; split <;> rfl
@[simp] theorem recordAdoption_sw (k : Nat) (r : Result) (s : State) : (recordAdoption k r s).sw = s.sw := by
  unfold recordAdoption; split <;> rfl
@[simp] theorem recordAdoption_live (k : Nat) (r : Result) (s : State) :
    (recordAdoption k r s).settings.live = s.settings.live := by
  unfold recordAdoption; split <;> rfl
@[simp] theorem recordAdoption_copy (k : Nat) (r : Result) (s : State) :
    (recordAdoption k r s).settings.copy = s.settings.copy := by
  unfold recordAdoption; split <;> rfl

@[simp] theorem publish_engine (k : Nat) (r : Result) (d : Nat) (s : State) : (publish k r d s).engine = s.engine := by
  unfold publish; simp
@[simp] theorem publish_jr (k : Nat) (r : Result) (d : Nat) (s : State) : (publish k r d s).jr = s.jr := by
  unfold publish; simp
@[simp] theorem publish_pending (k : Nat) (r : Result) (d : Nat) (s : State) : (publish k r d s).pending = s.pending := by
  unfold publish; simp
@[simp] theorem publish_clock (k : Nat) (r : Result) (d : Nat) (s : State) : (publish k r d s).clock = s.clock := by
  unfold publish; simp
@[simp] theorem publish_mask (k : Nat) (r : Result) (d : Nat) (s : State) : (publish k r d s).port.mask = s.port.mask := by
  unfold publish State.setHolder; simp
@[simp] theorem publish_pts (k : Nat) (r : Result) (d : Nat) (s : State) : (publish k r d s).pts = s.pts := by
  unfold publish; simp
@[simp] theorem publish_sw (k : Nat) (r : Result) (d : Nat) (s : State) : (publish k r d s).sw = s.sw := by
  unfold publish; simp
@[simp] theorem publish_live (k : Nat) (r : Result) (d : Nat) (s : State) :
    (publish k r d s).settings.live = s.settings.live := by
  unfold publish; simp
@[simp] theorem publish_copy (k : Nat) (r : Result) (d : Nat) (s : State) :
    (publish k r d s).settings.copy = s.settings.copy := by
  unfold publish; simp

theorem publish_mem (k : Nat) (r : Result) (d : Nat) (s : State) :
    (publish k r d s).port.mem = outcomeWords k r d s.clock.hall s.port.mem := by
  unfold publish State.setHolder; simp [State.now]

theorem publish_holder (k : Nat) (r : Result) (d : Nat) (s : State) (hk : k < 32) (j : Nat) :
    (publish k r d s).holder j = if j = k then .done else s.holder j := by
  unfold publish State.holder State.setHolder
  by_cases h : j = k
  · subst h
    rw [if_pos rfl]
    exact look_put_same _ _ hk
  · rw [if_neg h]
    simp only [recordAdoption_port]
    exact look_put_other _ _ (Ne.symm h)

end Sys2Proof.Machine
end

