-- ==== Sys2Proof/Laws/Adoption.lean ====
section
/-! SUPPORT. What the swap of an adoption leaves alone, and which points are forced and which switches isolated after it. -/

namespace Sys2Proof.Machine

/-- A step of the blocks at a swap: as a block step, but points may lose their force and switches their isolation. -/
structure SwapStep (s t : State) : Prop where
  clock : t.clock = s.clock
  settings : t.settings = s.settings
  engine : t.engine = s.engine
  port : t.port = s.port
  pending : t.pending = s.pending
  jr : JournalStep s.jr t.jr
  coil : s.coilLaw → t.coilLaw
  armed : ∀ j, s.armedAt j → t.armedAt j

theorem SwapStep.refl (s : State) : SwapStep s s := ⟨rfl, rfl, rfl, rfl, rfl, JournalStep.refl _, id, fun _ => id⟩

theorem SwapStep.trans {s t u : State} (a : SwapStep s t) (b : SwapStep t u) : SwapStep s u :=
  ⟨b.clock.trans a.clock, b.settings.trans a.settings, b.engine.trans a.engine, b.port.trans a.port,
    b.pending.trans a.pending, a.jr.trans b.jr, fun h => b.coil (a.coil h), fun j h => b.armed j (a.armed j h)⟩

theorem BlockStep.swap {s t : State} (h : BlockStep s t) : SwapStep s t :=
  ⟨h.clock, h.settings, h.engine, h.port, h.pending, h.jr, h.coil, h.armed⟩

theorem SwapStep.core {s t : State} (h : SwapStep s t) : CoreStep s t :=
  ⟨h.engine, h.pending, by rw [h.port], by rw [h.port], by rw [h.port], h.jr⟩

/-! ## Points -/

theorem setPt_swapStep (s : State) (n : Nat) (p : Point) : SwapStep s (s.setPt n p) :=
  ⟨rfl, rfl, rfl, rfl, rfl, JournalStep.refl _, id, fun _ => id⟩

/-- A point set, the others left. -/
theorem setPt_forced_other (s : State) {n m : Nat} (p : Point) (h : n ≠ m) : ((s.setPt n p).pt m).forced = (s.pt m).forced := by
  unfold State.pt State.setPt
  simp only
  rw [look_put_other _ _ h]

theorem invertPoint_block (n : Nat) (c : PointSettings) (s : State) : BlockStep s (invertPoint n c s) := by
  unfold invertPoint
  extract_lets p s1
  have h1 : BlockStep s s1 := setPt_block _ _ _ (by rfl)
  exact ite_rel (h1.trans (request_block _ _)) h1

theorem unsuppressPoint_block (n : Nat) (s : State) : BlockStep s (unsuppressPoint n s) := by
  unfold unsuppressPoint
  exact (setPt_block _ _ _ (by rfl)).trans (request_block _ _)

theorem swapPoint_step (old new : Tables) (s : State) (n : Nat) : SwapStep s (swapPoint old new s n) := by
  unfold swapPoint
  split
  · exact SwapStep.refl _
  · exact setPt_swapStep _ _ _
  · exact setPt_swapStep _ _ _
  · extract_lets s1
    have h1 : BlockStep s s1 := ite_rel (BlockStep.refl _) (invertPoint_block _ _ _)
    exact (ite_rel (h1.trans (unsuppressPoint_block _ _)) h1 : BlockStep s _).swap

theorem setPt_not_forced (s : State) (n : Nat) (p : Point) (h : p.forced = none) (m : Nat) :
    ((s.setPt n p).pt m).forced = none ∨ m ≠ n ∧ ((s.setPt n p).pt m).forced = (s.pt m).forced := by
  by_cases hm : n = m
  · subst hm
    left
    unfold State.pt State.setPt
    simp only
    rw [look_put]
    split
    · exact h
    · next hn =>
      rw [look_beyond _ _ (by omega)]
      rfl
  · right
    exact ⟨fun e => hm e.symm, setPt_forced_other _ _ hm⟩

/-- A point is forced after its own swap only if it was forced before and its entry stays configured or unconfigured. -/
theorem swapPoint_forced (old new : Tables) (s : State) (n m : Nat) :
    ((swapPoint old new s n).pt m).forced = (s.pt m).forced ∧ (m = n → (look old.points m).isSome = (look new.points m).isSome) ∨
      ((swapPoint old new s n).pt m).forced = none ∨ (m ≠ n ∧ ((swapPoint old new s n).pt m).forced = (s.pt m).forced) := by
  unfold swapPoint
  split
  · next h1 h2 => exact Or.inl ⟨rfl, fun e => by rw [e, h1, h2]⟩
  · exact Or.inr (setPt_not_forced _ _ _ rfl _)
  · exact Or.inr (setPt_not_forced _ _ _ rfl _)
  · next a b h1 h2 =>
    extract_lets s1
    have h3 : BlockStep s s1 := ite_rel (BlockStep.refl _) (invertPoint_block _ _ _)
    have h4 : BlockStep s (if (s1.pt n).frozen.isSome ∧ b.threshold = 0 then unsuppressPoint n s1 else s1) :=
      ite_rel (h3.trans (unsuppressPoint_block _ _)) h3
    exact Or.inl ⟨h4.forced m, fun e => by rw [e, h1, h2]; rfl⟩

/-- After the swap of the listed points, a point still forced was forced before, and if it is listed its entry stays configured
or stays unconfigured. -/
theorem swapPoints_forced (old new : Tables) : ∀ (l : List Nat) (s : State) (m : Nat),
    ((l.foldl (swapPoint old new) s).pt m).forced ≠ none →
      ((l.foldl (swapPoint old new) s).pt m).forced = (s.pt m).forced ∧
        (m ∈ l → (look old.points m).isSome = (look new.points m).isSome)
  | [], _, _, _ => ⟨rfl, fun h => absurd h List.not_mem_nil⟩
  | n :: l, s, m, h => by
    obtain ⟨h1, h2⟩ := swapPoints_forced old new l (swapPoint old new s n) m h
    simp only [List.foldl_cons]
    rw [h1]
    simp only [List.foldl_cons] at h
    rcases swapPoint_forced old new s n m with ⟨h3, h4⟩ | h3 | ⟨h3, h4⟩
    · refine ⟨h3, fun hm => ?_⟩
      rcases List.mem_cons.1 hm with e | e
      · exact h4 e
      · exact h2 e
    · rw [h1, h3] at h
      exact absurd rfl h
    · refine ⟨h4, fun hm => ?_⟩
      rcases List.mem_cons.1 hm with e | e
      · exact absurd e h3
      · exact h2 e

theorem wakeSystemPoints_block (s : State) : BlockStep s (wakeSystemPoints s) :=
  ⟨rfl, rfl, rfl, rfl, rfl, JournalStep.refl _,
    fun n => look_mapNumbered_map (fun n (p : Point) => if n < 544 then p else ({ p with live := .good } : Point))
      Point.forced s.pts.points (fun i a => by split <;> rfl) n,
    fun _ => rfl, id, fun _ => id⟩

theorem restartChatter_block (s : State) : BlockStep s (restartChatter s) := by
  unfold restartChatter
  exact (clearChatter_block s).trans ⟨rfl, rfl, rfl, rfl, rfl, JournalStep.refl _, fun _ => rfl, fun _ => rfl, id, fun _ => id⟩

theorem handSwapChange_block (before s : State) (n : Nat) : BlockStep s (handSwapChange before s n) := by
  unfold handSwapChange
  exact ite_rel (handOn_block _ _ _ _) (ite_rel (windowsTake_winStep _ _ _ _).block (BlockStep.refl _))

/-! ## Windows, groups, loops -/

theorem swapShelving_winStep (s : State) (w : Nat) : WinStep s (swapShelving s w) := by
  unfold swapShelving
  extract_lets keeps
  exact ite_rel (endShelving_winStep _ _ _) (WinStep.refl _)

theorem swapWindow_winStep (old : Tables) (s : State) (w : Nat) : WinStep s (swapWindow old s w) := by
  unfold swapWindow
  extract_lets src s1 s2
  have h1 : WinStep s s1 := setWindow_winStep _ _ _
  have h2 : WinStep s s2 := by
    simp only [s2]
    split
    · exact h1.trans (judgeQuiet_winStep _ _ _)
    · exact h1
  clear_value s2
  split
  · exact h2
  · extract_lets input s3 src4
    have h3 : WinStep s s3 := h2.trans (setWindow_winStep _ _ _)
    exact ite_rel (h3.trans ((setWindow_winStep _ _ _).trans (offer_winStep _ _ _ _))) h3

theorem swapWindows_winStep (old new : Tables) (s : State) : WinStep s (swapWindows old new s) :=
  (foldl_rel WinStep.refl WinStep.trans _ swapShelving_winStep _ _).trans
    (foldl_rel WinStep.refl WinStep.trans _ (swapWindow_winStep old) _ _)

theorem swapGroups_winStep (old new : Tables) (s : State) : WinStep s (swapGroups old new s) :=
  foldl_rel WinStep.refl WinStep.trans _ (fun s g => clearGroup_winStep g s) _ _

theorem swapWindows_block (old new : Tables) (s : State) : BlockStep s (swapWindows old new s) := (swapWindows_winStep _ _ _).block

theorem swapGroups_block (old new : Tables) (s : State) : BlockStep s (swapGroups old new s) := (swapGroups_winStep _ _ _).block

theorem withdrawConcentrator_block (c : Nat) (s : State) : BlockStep s (withdrawConcentrator c s) := field_block s _

theorem withdrawPanel_block (p : Nat) (s : State) : BlockStep s (withdrawPanel p s) := panel_block s _

theorem swapConcentrator_block (old new : Tables) (s : State) (c : Nat) : BlockStep s (swapConcentrator old new s c) := by
  unfold swapConcentrator
  split
  · exact setConc_block _ _ _
  · exact ((setConc_block _ _ _).trans (withdrawConcentrator_block _ _)).trans (setSystemPoint_block _ _ _)
  · exact BlockStep.refl _
  · exact BlockStep.refl _

theorem swapPanel_block (old new : Tables) (s : State) (p : Nat) : BlockStep s (swapPanel old new s p) := by
  unfold swapPanel
  split
  · exact setPan_block _ _ _
  · exact ((setPan_block _ _ _).trans (withdrawPanel_block _ _)).trans (setSystemPoint_block _ _ _)
  · exact ite_rel (BlockStep.refl _) (setPan_block _ _ _)
  · exact BlockStep.refl _

theorem startLoops_block (s : State) : BlockStep s (startLoops s) := block_of_fields rfl rfl rfl rfl rfl rfl rfl rfl rfl rfl

/-! ## Switches -/

/-- A step of the switches at a swap: every point keeps its force. -/
structure SwitchSwap (s t : State) : Prop extends SwapStep s t where
  forced : ∀ n, (t.pt n).forced = (s.pt n).forced

theorem SwitchSwap.refl (s : State) : SwitchSwap s s := ⟨SwapStep.refl s, fun _ => rfl⟩

theorem SwitchSwap.trans {s t u : State} (a : SwitchSwap s t) (b : SwitchSwap t u) : SwitchSwap s u :=
  ⟨a.toSwapStep.trans b.toSwapStep, fun n => (b.forced n).trans (a.forced n)⟩

theorem BlockStep.switchSwap {s t : State} (h : BlockStep s t) : SwitchSwap s t := ⟨h.swap, h.forced⟩

theorem setSwi_switchSwap (s : State) (i : Nat) (x : Switch) (he : x.energized = true → (s.swi i).energized = true) :
    SwitchSwap s (s.setSwi i x) :=
  ⟨⟨rfl, rfl, rfl, rfl, rfl, JournalStep.refl _, fun hl => ⟨le_trans ((places_setSwi s i x).2 he) hl.1, hl.2⟩,
    fun _ => id⟩, fun _ => rfl⟩

theorem dropTest_block (i : Nat) (s : State) : BlockStep s (dropTest i s) := by
  unfold dropTest
  extract_lets src s1
  have h1 : BlockStep s s1 := (setSwi_block _ _ _ (by rfl) (energized_cut (by rfl) (by rfl))).trans (dropEntry_block _ _)
  exact h1.trans (block_of_fields rfl rfl rfl rfl rfl rfl rfl rfl rfl rfl)

/-- A switch whose test has been dropped and whose entry has changed takes no place (R121). -/
theorem changed_energized (x : Switch) (old : Option SwitchSettings) (c : SwitchSettings) (e : Nat) (h : x.testStart = none) :
    ((x.changed old c).supervised c e).energized = false := by
  have hs : ∀ y : Switch, (y.supervised c e).energized = y.energized := by
    intro y
    unfold Switch.supervised
    split <;> rfl
  have hf : ∀ k : SwitchKind, (k.first == .pulsing || k.first == .resetPulsing) = false := by
    intro k
    cases k <;> rfl
  rw [hs]
  unfold Switch.changed
  split
  · unfold Switch.energized
    simp only [hf]
    rfl
  · split
    · next hx =>
      unfold Switch.energized
      simp only [hx.2.2, h]
      rfl
    · unfold Switch.energized
      simp only [hf, h]
      rfl

/-- A changed switch's test has been dropped (R121). -/
theorem dropTest_testStart (i : Nat) (s : State) : ((dropTest i s).swi i).testStart = none := by
  show (look (put s.sw.switches i _) i).testStart = none
  rw [look_put]
  split
  · rfl
  · next hn =>
    rw [look_beyond _ _ (by omega)]
    rfl

theorem swapSwitch_step (old : Tables) (s : State) (i : Nat) : SwitchSwap s (swapSwitch old s i) := by
  unfold swapSwitch
  extract_lets s1
  have h1 : SwitchSwap s s1 := (dropTest_block _ _).switchSwap
  have ht : (s1.swi i).testStart = none := dropTest_testStart _ _
  clear_value s1
  split
  · exact h1.trans ((setSwi_switchSwap _ _ _ (fun h => by cases h)).trans (syncSwitchPoints_block _ _).switchSwap)
  · extract_lets x
    exact h1.trans ((setSwi_switchSwap _ _ _ (fun h => by
      simp only [x] at h
      rw [changed_energized _ _ _ _ ht] at h
      cases h)).trans
      ((syncSwitchPoints_block _ _).trans (settleSwitch_block _ _ _)).switchSwap)

/-- The isolated flag of a switch set. -/
theorem setSwi_isolated (s : State) (i : Nat) (x : Switch) (j : Nat) :
    ((s.setSwi i x).swi j).isolated = if i = j ∧ j < 48 then x.isolated else (s.swi j).isolated := by
  unfold State.swi State.setSwi
  simp only
  rw [look_put]
  split <;> rfl

theorem changed_isolated (x : Switch) (old : Option SwitchSettings) (c : SwitchSettings) (e : Nat) :
    (((x.changed old c).supervised c e)).isolated = (old.isSome && x.isolated) := by
  have h : ∀ y : Switch, (y.supervised c e).isolated = y.isolated := by
    intro y
    unfold Switch.supervised
    split <;> rfl
  rw [h]
  unfold Switch.changed
  split
  · rfl
  · split <;> simp

/-- Which switches are isolated after one changed switch has been swapped (R121). -/
theorem swapSwitch_isolated (old : Tables) (s : State) (i j : Nat) :
    ((swapSwitch old s i).swi j).isolated =
      if i = j ∧ j < 48 then (s.swSet j).isSome && (look old.switches j).isSome && (s.swi j).isolated
      else (s.swi j).isolated := by
  unfold swapSwitch
  extract_lets s1
  have h1 : BlockStep s s1 := dropTest_block _ _
  have hset : s1.swSet i = s.swSet i := by unfold State.swSet; rw [h1.settings]
  clear_value s1
  split
  · next hn =>
    have h2 := syncSwitchPoints_block i (s1.setSwi i Switch.reset)
    rw [h2.isolated, setSwi_isolated, h1.isolated]
    split
    · next h =>
      rw [← h.1, ← hset, hn]
      rfl
    · rfl
  · next c hc =>
    extract_lets x
    have h2 := (syncSwitchPoints_block i (s1.setSwi i x)).trans (settleSwitch_block i c _)
    rw [h2.isolated, setSwi_isolated, h1.isolated]
    split
    · next h =>
      simp only [x]
      rw [changed_isolated, h1.isolated, ← h.1, ← hset, hc]
      rfl
    · rfl

/-- Which switches are isolated after the listed switches have been swapped. -/
theorem swapSwitchList_isolated (old : Tables) : ∀ (l : List Nat) (s : State) (j : Nat), j < 48 →
    ((l.foldl (swapSwitch old) s).swi j).isolated =
      if j ∈ l then (s.swSet j).isSome && (look old.switches j).isSome && (s.swi j).isolated else (s.swi j).isolated
  | [], _, _, _ => by simp
  | i :: l, s, j, hj => by
    have hs : (swapSwitch old s i).swSet j = s.swSet j := by
      unfold State.swSet
      rw [(swapSwitch_step old s i).settings]
    rw [List.foldl_cons, swapSwitchList_isolated old l _ j hj, hs, swapSwitch_isolated]
    by_cases hij : i = j
    · subst hij
      simp only [hj, and_self, if_true, List.mem_cons, true_or]
      split
      · cases (s.swSet i).isSome <;> cases (look old.switches i).isSome <;> simp
      · rfl
    · have : (j ∈ i :: l) ↔ j ∈ l := by
        rw [List.mem_cons]
        exact ⟨fun h => h.resolve_left (fun e => hij e.symm), Or.inr⟩
      simp only [hij, false_and, if_false, this]

theorem swapSwitchList_step (old : Tables) (l : List Nat) (s : State) : SwitchSwap s (l.foldl (swapSwitch old) s) :=
  foldl_rel SwitchSwap.refl SwitchSwap.trans _ (swapSwitch_step old) l s

theorem swapChannel_block (s : State) (c : Nat) : BlockStep s (swapChannel s c) := setChan_block _ _ _

theorem swapSwitches_step (old new : Tables) (s : State) : SwitchSwap s (swapSwitches old new s) := by
  unfold swapSwitches
  extract_lets changed u
  refine (swapSwitchList_step old changed s).trans (BlockStep.switchSwap ?_)
  exact (foldl_block _ swapChannel_block _ _).trans (ite_rel (BlockStep.refl _) (runQueue_block _))

theorem swapSwitches_isolated (old new : Tables) (s : State) (j : Nat) (hj : j < 48) :
    ((swapSwitches old new s).swi j).isolated =
      if j ∈ changedIn old.switches new.switches then
        (s.swSet j).isSome && (look old.switches j).isSome && (s.swi j).isolated
      else (s.swi j).isolated := by
  unfold swapSwitches
  extract_lets changed u
  have h : BlockStep u (if changed.isEmpty then u else runQueue u) := ite_rel (BlockStep.refl _) (runQueue_block _)
  rw [h.isolated, (foldl_block _ swapChannel_block _ _).isolated]
  exact swapSwitchList_isolated old _ s j hj

theorem swapTerm_block (s : State) (t : Nat) : BlockStep s (swapTerm s t) := by
  unfold swapTerm
  extract_lets x
  split
  · exact setTrm_block _ _ _ fun _ hx => by simp at hx
  · next c hc => exact (setTrm_block _ _ _ fun _ hx => by simp at hx).trans (lookWhileHeld_block _ _ _ (by rw [← hc]; rfl))

/-- A changed term is in a state it is armed for, or in one that needs no arming (R97, R88). -/
theorem swapTerm_armedAt (s : State) (t : Nat) : (swapTerm s t).armedAt t := by
  unfold swapTerm
  extract_lets x
  split
  · next hn =>
    intro c hc
    change s.termSet t = some c at hc
    rw [hn] at hc
    cases hc
  · next c hc =>
    refine (lookWhileHeld_block t c _ (by rw [← hc]; rfl)).armed t ?_
    intro c' _ hx
    have : (s.setTrm t { x with state := .held, seen := [], activations := 0, lastChange := s.now }).trm t = _ :=
      look_put_same _ _ (termSet_lt hc)
    rw [this] at hx
    simp at hx

/-! ## The swap -/

/-- What the blocks do at a swap after the tables have been replaced, before and after the switches. -/
theorem applyChanges_step (first : Bool) (old new : Tables) (s : State) : SwapStep s (applyChanges first old new s) := by
  unfold applyChanges
  extract_lets before points s1 s2 s3 s4 s5 s6 s7 s8
  have h0 : SwapStep s (if first = true then wakeSystemPoints s else s) :=
    (ite_rel (wakeSystemPoints_block s) (BlockStep.refl s) : BlockStep s _).swap
  have h1 : SwapStep s s1 := h0.trans (foldl_rel SwapStep.refl SwapStep.trans _ (swapPoint_step old new) _ _)
  have h2 : SwapStep s s2 := h1.trans (restartChatter_block _).swap
  have h3 : SwapStep s s3 := h2.trans ((swapWindows_block _ _ _).trans (swapGroups_block _ _ _)).swap
  have h4 : SwapStep s s4 := h3.trans (foldl_block _ (swapConcentrator_block old new) _ _).swap
  have h5 : SwapStep s s5 := h4.trans (foldl_block _ (swapPanel_block old new) _ _).swap
  have h6 : SwapStep s s6 := ite_rel (h5.trans (startLoops_block _).swap) h5
  have h7 : SwapStep s s7 := h6.trans (swapSwitches_step _ _ _).toSwapStep
  have h8 : SwapStep s s8 := h7.trans (foldl_block _ swapTerm_block _ _).swap
  exact h8.trans (foldl_block _ (handSwapChange_block before) _ _).swap

/-- A point forced after the swap was forced before it, and if its entry changed it stays configured or stays unconfigured. -/
theorem applyChanges_forced (first : Bool) (old new : Tables) (s : State) (m : Nat)
    (h : ((applyChanges first old new s).pt m).forced ≠ none) :
    ((applyChanges first old new s).pt m).forced = (s.pt m).forced ∧
      (m ∈ changedIn old.points new.points → (look old.points m).isSome = (look new.points m).isSome) := by
  revert h
  unfold applyChanges
  extract_lets before points s1 s2 s3 s4 s5 s6 s7 s8
  intro h
  have e0 : ∀ m, ((if first = true then wakeSystemPoints s else s).pt m).forced = (s.pt m).forced :=
    (ite_rel (wakeSystemPoints_block s) (BlockStep.refl s) : BlockStep s _).forced
  have e2 : ∀ m, (s2.pt m).forced = (s1.pt m).forced := (restartChatter_block s1).forced
  have e3 : ∀ m, (s3.pt m).forced = (s2.pt m).forced := ((swapWindows_block _ _ s2).trans (swapGroups_block _ _ _)).forced
  have e4 : ∀ m, (s4.pt m).forced = (s3.pt m).forced := (foldl_block _ (swapConcentrator_block old new) _ s3).forced
  have e5 : ∀ m, (s5.pt m).forced = (s4.pt m).forced := (foldl_block _ (swapPanel_block old new) _ s4).forced
  have e6 : ∀ m, (s6.pt m).forced = (s5.pt m).forced :=
    (ite_rel (startLoops_block s5) (BlockStep.refl s5) : BlockStep s5 s6).forced
  have e7 : ∀ m, (s7.pt m).forced = (s6.pt m).forced := (swapSwitches_step old new s6).forced
  have e8 : ∀ m, (s8.pt m).forced = (s7.pt m).forced := (foldl_block _ swapTerm_block _ s7).forced
  have e9 : ∀ m, ((points.foldl (handSwapChange before) s8).pt m).forced = (s8.pt m).forced :=
    (foldl_block _ (handSwapChange_block before) _ s8).forced
  have all : ((points.foldl (handSwapChange before) s8).pt m).forced = (s1.pt m).forced := by
    rw [e9, e8, e7, e6, e5, e4, e3, e2]
  rw [all] at h ⊢
  have := swapPoints_forced old new points (if first = true then wakeSystemPoints s else s) m h
  rw [e0] at this
  exact this

/-- Which switches are isolated after the swap (R121). -/
theorem applyChanges_isolated (first : Bool) (old new : Tables) (s : State) (hs : s.settings.live = new) (j : Nat) (hj : j < 48) :
    ((applyChanges first old new s).swi j).isolated =
      if j ∈ changedIn old.switches new.switches then
        (look new.switches j).isSome && (look old.switches j).isSome && (s.swi j).isolated
      else (s.swi j).isolated := by
  unfold applyChanges
  extract_lets before points s1 s2 s3 s4 s5 s6 s7 s8
  have f0 : (if first = true then wakeSystemPoints s else s).sw = s.sw := by split <;> rfl
  have p1 : ∀ (l : List Nat) (x : State), ∀ j, ((l.foldl (swapPoint old new) x).swi j).isolated = (x.swi j).isolated := by
    intro l
    induction l with
    | nil => intro x j; rfl
    | cons n l ih =>
      intro x j
      rw [List.foldl_cons, ih]
      unfold swapPoint
      split
      · rfl
      · rfl
      · rfl
      · extract_lets y
        have hy : BlockStep x y := ite_rel (BlockStep.refl _) (invertPoint_block _ _ _)
        exact (ite_rel (hy.trans (unsuppressPoint_block _ _)) hy : BlockStep x _).isolated j
  have b6 : BlockStep s1 s6 := by
    have h2 : BlockStep s1 s2 := restartChatter_block _
    have h3 : BlockStep s1 s3 := h2.trans ((swapWindows_block _ _ _).trans (swapGroups_block _ _ _))
    have h4 : BlockStep s1 s4 := h3.trans (foldl_block _ (swapConcentrator_block old new) _ _)
    have h5 : BlockStep s1 s5 := h4.trans (foldl_block _ (swapPanel_block old new) _ _)
    exact ite_rel (h5.trans (startLoops_block _)) h5
  have i1 : ∀ j, (s1.swi j).isolated = (s.swi j).isolated := by
    intro j
    show ((points.foldl (swapPoint old new) (if first = true then wakeSystemPoints s else s)).swi j).isolated = _
    rw [p1]
    unfold State.swi
    rw [f0]
  have h0 : SwapStep s (if first = true then wakeSystemPoints s else s) :=
    (ite_rel (wakeSystemPoints_block s) (BlockStep.refl s) : BlockStep s _).swap
  have h1 : SwapStep s s1 := h0.trans (foldl_rel SwapStep.refl SwapStep.trans _ (swapPoint_step old new) _ _)
  have set6 : s6.swSet j = look new.switches j := by
    unfold State.swSet
    rw [b6.settings, h1.settings, hs]
  have b8 : BlockStep s7 (points.foldl (handSwapChange before) s8) :=
    (foldl_block _ swapTerm_block _ s7).trans (foldl_block _ (handSwapChange_block before) _ s8)
  rw [b8.isolated]
  show ((swapSwitches old new s6).swi j).isolated = _
  rw [swapSwitches_isolated old new s6 j hj, set6, b6.isolated, i1]

/-- The swap keeps clock, engine, port and commands waiting; live and adopted tables are those adopted. -/
theorem swap_step (scope : Scope) (t : Tables) (s : State) :
    (swap scope t s).clock = s.clock ∧ (swap scope t s).engine = s.engine ∧ (swap scope t s).port = s.port ∧
      (swap scope t s).pending = s.pending ∧ JournalStep s.jr (swap scope t s).jr ∧
      (swap scope t s).settings = { s.settings with
        live := t, copy := t, adopted := s.settings.adopted || scope.isFull, tally := s.settings.tally + 1 } := by
  have h := applyChanges_step (!s.settings.adopted && scope.isFull) s.settings.live t (swapTables scope t s)
  exact ⟨h.clock, h.engine, h.port, h.pending, (request_step _ _ _).trans h.jr, h.settings⟩

/-- The term table's changed entries are the ones that differ. -/
theorem mem_changedIn {α : Type} {n : Nat} [Inhabited α] [DecidableEq α] (a b : Vector α n) (i : Nat) (hi : i < n) :
    i ∈ changedIn a b ↔ look a i ≠ look b i := by
  unfold changedIn
  simp [hi]

/-- A swap keeps the law of the coils (R106). -/
theorem swap_coil (scope : Scope) (t : Tables) (s : State) (h : s.coilLaw) : (swap scope t s).coilLaw :=
  (applyChanges_step (!s.settings.adopted && scope.isFull) s.settings.live t (swapTables scope t s)).coil h

/-- What the blocks do at a swap leaves each changed term armed where it must be (R97). -/
theorem applyChanges_armedAt (first : Bool) (old new : Tables) (s : State) (j : Nat) (h : j ∈ changedIn old.terms new.terms) :
    (applyChanges first old new s).armedAt j := by
  unfold applyChanges
  extract_lets before points s1 s2 s3 s4 s5 s6 s7 s8
  exact (foldl_block _ (handSwapChange_block before) _ s8).armed j
    (foldl_armedAt swapTerm swapTerm_block swapTerm_armedAt _ s7 j h)

/-- After a swap a term is armed as the law says if it was so before it under the old tables (R84, R97). -/
theorem swap_armedAt (scope : Scope) (t : Tables) (s : State) (j : Nat) (h : s.armedAt j) : (swap scope t s).armedAt j := by
  by_cases hj : j < 128
  · by_cases hm : j ∈ changedIn s.settings.live.terms t.terms
    · exact applyChanges_armedAt _ _ _ _ j hm
    · refine (applyChanges_step (!s.settings.adopted && scope.isFull) s.settings.live t (swapTables scope t s)).armed j ?_
      have e : look s.settings.live.terms j = look t.terms j := by
        by_contra hn
        exact hm ((mem_changedIn _ _ _ hj).2 hn)
      intro c hc hx
      refine h c ?_ hx
      unfold State.termSet at hc ⊢
      rw [e]
      exact hc
  · intro c hc
    exact absurd (termSet_lt hc) hj

theorem swap_core (scope : Scope) (t : Tables) (s : State) : CoreStep s (swap scope t s) := by
  obtain ⟨_, he, hp, hq, hj, _⟩ := swap_step scope t s
  exact ⟨he, hq, by rw [hp], by rw [hp], by rw [hp], hj⟩

end Sys2Proof.Machine
end

