-- ==== Sys2Proof/Laws/FirstOut.lean ====
section
/-! SUPPORT. What the window sequencer and the first-out tracker keep of the laws of R63 and of the window inputs. -/

namespace Sys2Proof.Machine

/-- The laws of some groups and of some windows; the first sets of the other groups hold no member of those groups. A swap keeps it for
the groups it leaves alone. -/
structure AlarmLaw (U V : Nat → Prop) (s : State) : Prop where
  group : ∀ g, g < 32 → U g → s.groupLaw g
  other : ∀ g, g < 32 → ¬U g → ∀ t ws, (s.group g).lead = some (t, ws) → ∀ v ∈ ws, ∀ h, h < 32 → U h → v ∉ s.members h
  input : ∀ w, V w → s.inputLaw w

/-- The law of all groups and windows. -/
theorem alarmLaw_iff (s : State) : s.alarmLaw ↔ AlarmLaw (fun _ => True) (fun _ => True) s :=
  ⟨fun h => ⟨fun g hg _ => h.1 g hg, fun _ _ hn => absurd trivial hn, fun w _ => h.2 w⟩,
    fun h => ⟨fun g hg => h.group g hg trivial, fun w => h.input w trivial⟩⟩

/-- What the law reads. -/
theorem AlarmLaw.congr {U V : Nat → Prop} {s t : State} (h : AlarmLaw U V s) (hw : t.win.windows = s.win.windows)
    (hg : t.win.groups = s.win.groups) (hs : t.settings = s.settings) : AlarmLaw U V t := by
  have hm : ∀ g, t.members g = s.members g := fun g => by unfold State.members; rw [hs]
  have e1 : ∀ w, t.window w = s.window w := fun w => by unfold State.window; rw [hw]
  have e2 : ∀ g, t.group g = s.group g := fun g => by unfold State.group; rw [hg]
  have e3 : ∀ w, t.winSet w = s.winSet w := fun w => by unfold State.winSet; rw [hs]
  refine ⟨fun g hg hu => ?_, fun g hg hu => ?_, fun w hv => ?_⟩
  · have := h.group g hg hu
    unfold State.groupLaw at *
    simp only [hm, e1, e2]
    exact this
  · have := h.other g hg hu
    simp only [hm, e2]
    exact this
  · have := h.input w hv
    unfold State.inputLaw at *
    simp only [e1, e3]
    exact this

/-- The law of fewer windows. -/
theorem AlarmLaw.mono {U V V' : Nat → Prop} {s : State} (h : AlarmLaw U V s) (hv : ∀ w, V' w → V w) : AlarmLaw U V' s :=
  ⟨h.group, h.other, fun w hw => h.input w (hv w hw)⟩

theorem AlarmLaw.but {U V : Nat → Prop} {s : State} (h : AlarmLaw U V s) (w : Nat) : AlarmLaw U (fun v => V v ∧ v ≠ w) s :=
  h.mono fun _ hv => hv.1

/-- A member of a group below 32 is a configured window of that group. -/
theorem mem_members (s : State) (g v : Nat) : v ∈ s.members g ↔ ∃ c, s.winSet v = some c ∧ c.group = some g := by
  unfold State.members
  rw [mem_configuredWhere]
  refine exists_congr fun c => and_congr Iff.rfl ?_
  simp

/-- A window is a member of one group. -/
theorem members_one {s : State} {g h v : Nat} (a : v ∈ s.members g) (b : v ∈ s.members h) : g = h := by
  obtain ⟨c, hc, e⟩ := (mem_members s g v).1 a
  obtain ⟨d, hd, f⟩ := (mem_members s h v).1 b
  rw [hc] at hd
  cases hd
  rw [e] at f
  exact Option.some.inj f

theorem members_lt {s : State} {g v : Nat} (a : v ∈ s.members g) : v < 384 := by
  obtain ⟨c, hc, _⟩ := (mem_members s g v).1 a
  by_contra hn
  unfold State.winSet at hc
  rw [look_beyond _ _ (by omega)] at hc
  cases hc

theorem lead_without (w : Nat) (f : FirstOut) : (f.without w).lead = f.lead.map fun x => (x.1, x.2.filter (· != w)) := by
  cases f <;> rfl

theorem without_clear (w : Nat) (f : FirstOut) : f.without w = .clear ↔ f = .clear := by
  cases f <;> simp [FirstOut.without]

theorem clear_iff_lead (f : FirstOut) : f = .clear ↔ f.lead = none := by cases f <;> simp [FirstOut.lead]

@[simp] theorem setGroup_members (s : State) (g h : Nat) (x : FirstOut) : (s.setGroup g x).members h = s.members h := rfl
@[simp] theorem setGroup_window (s : State) (g v : Nat) (x : FirstOut) : (s.setGroup g x).window v = s.window v := rfl
@[simp] theorem setGroup_winSet (s : State) (g v : Nat) (x : FirstOut) : (s.setGroup g x).winSet v = s.winSet v := rfl
@[simp] theorem setWindow_members (s : State) (w h : Nat) (x : Window) : (s.setWindow w x).members h = s.members h := rfl
@[simp] theorem setWindow_group (s : State) (w g : Nat) (x : Window) : (s.setWindow w x).group g = s.group g := rfl
@[simp] theorem setWindow_winSet (s : State) (w v : Nat) (x : Window) : (s.setWindow w x).winSet v = s.winSet v := rfl

/-- The law of a group that neither a group set nor windows set outside it change. -/
theorem groupLaw_congr {s t : State} {g : Nat} (hm : t.members g = s.members g) (hg : t.group g = s.group g)
    (hw : ∀ v ∈ s.members g, t.window v = s.window v) (h : s.groupLaw g) : t.groupLaw g := by
  unfold State.groupLaw at *
  rw [hm, hg]
  refine ⟨fun v hv => by rw [hw v hv]; exact h.1 v hv, fun hc v hv => by rw [hw v hv]; exact h.2.1 hc v hv, fun t ws hl => ?_⟩
  obtain ⟨a, b⟩ := h.2.2 t ws hl
  exact ⟨fun v hv => ⟨(a v hv).1, by rw [hw v (a v hv).1]; exact (a v hv).2⟩, fun v hv => by rw [hw v hv]; exact b v hv⟩

/-- A member set to ALERT or QUIET without a mark, once it has left the first set of its group, keeps the law; its input is to be judged
apart. -/
theorem AlarmLaw.left {U V : Nat → Prop} {s : State} {w g : Nat} (h : AlarmLaw U (fun v => V v ∧ v ≠ w) s) {x : Window}
     (hm : ∀ k, U k → w ∈ s.members k → k = g)
    (hx : x.mark = .none) (hi : V w → (s.setWindow w x).inputLaw w) :
    AlarmLaw U V ((s.setWindow w x).setGroup g ((s.group g).without w)) := by
  have hwin : ∀ v, v ≠ w → (s.setWindow w x).window v = s.window v := fun v hv => by
    rw [window_setWindow, if_neg (fun e => hv e.1.symm)]
  have hself : w < 384 → (s.setWindow w x).window w = x := fun hw => by rw [window_setWindow, if_pos ⟨rfl, hw⟩]
  refine ⟨fun k hk hu => ?_, fun k hk hu t ws hl v hv j hj hj' => ?_, fun v hv => ?_⟩
  · by_cases hkg : g = k
    · subst hkg
      have law := h.group g hk hu
      unfold State.groupLaw at *
      rw [group_setGroup, if_pos ⟨rfl, hk⟩]
      simp only [setGroup_members, setWindow_members, setGroup_window]
      refine ⟨fun v hv hq => ?_, fun hc v hv => ?_, fun t ws hl => ?_⟩
      · by_cases e : v = w
        · subst e; rw [hself (members_lt hv)]; exact hx
        · rw [hwin v e] at hq ⊢; exact law.1 v hv hq
      · by_cases e : v = w
        · subst e; rw [hself (members_lt hv)]; exact hx
        · rw [hwin v e]; exact law.2.1 ((without_clear _ _).1 hc) v hv
      · rw [lead_without] at hl
        obtain ⟨⟨t', ws'⟩, hl', he⟩ := Option.map_eq_some_iff.1 hl
        cases he
        obtain ⟨a, b⟩ := law.2.2 t' ws' hl'
        refine ⟨fun v hv => ?_, fun v hv => ?_⟩
        · rw [List.mem_filter] at hv
          have e : v ≠ w := by simpa using hv.2
          rw [hwin v e]
          exact a v hv.1
        · by_cases e : v = w
          · subst e
            rw [hself (members_lt hv), hx]
            exact ⟨nofun, nofun⟩
          · rw [hwin v e]
            refine ⟨fun hf => ⟨List.mem_filter.2 ⟨((b v hv).1 hf).1, by simpa using e⟩, ((b v hv).1 hf).2⟩, (b v hv).2⟩
    · refine groupLaw_congr (s := s) rfl ?_ ?_ (h.group k hk hu)
      · rw [group_setGroup, if_neg (fun e => hkg e.1)]
        rfl
      · intro v hv
        exact hwin v (fun e => hkg (hm k hu (e ▸ hv)).symm)
  · rw [group_setGroup] at hl
    split at hl
    · next e =>
      rw [lead_without] at hl
      obtain ⟨⟨t', ws'⟩, hl', he⟩ := Option.map_eq_some_iff.1 hl
      cases he
      rw [e.1] at hl'
      exact h.other k hk hu t' ws' hl' v (List.mem_filter.1 hv).1 j hj hj'
    · exact h.other k hk hu t ws hl v hv j hj hj'
  · by_cases e : v = w
    · subst e; exact hi hv
    · have := h.input v ⟨hv, e⟩
      intro c hc
      have hc' := this c hc
      rw [← hwin v e] at hc'
      exact hc'

/-- A window outside the groups held to the law may be set freely; its input is to be judged apart. -/
theorem AlarmLaw.free {U V : Nat → Prop} {s : State} {w : Nat} (h : AlarmLaw U (fun v => V v ∧ v ≠ w) s) {x : Window}
   
    (hm : ∀ k, k < 32 → U k → w ∉ s.members k) (hi : V w → (s.setWindow w x).inputLaw w) : AlarmLaw U V (s.setWindow w x) := by
  have hwin : ∀ v, v ≠ w → (s.setWindow w x).window v = s.window v := fun v hv => by
    rw [window_setWindow, if_neg (fun e => hv e.1.symm)]
  refine ⟨fun k hk hu => ?_, h.other, fun v hv => ?_⟩
  · exact groupLaw_congr (s := s) rfl rfl (fun v hv => hwin v (fun e => hm k hk hu (e ▸ hv))) (h.group k hk hu)
  · by_cases e : v = w
    · subst e; exact hi hv
    · intro c hc
      have hc' := h.input v ⟨hv, e⟩ c hc
      rw [← hwin v e] at hc'
      exact hc'

/-- A window that keeps its alarm time and its mark, and does not come to QUIET, keeps the law; its input is to be judged apart. -/
theorem AlarmLaw.stays {U V : Nat → Prop} {s : State} {w : Nat} (h : AlarmLaw U (fun v => V v ∧ v ≠ w) s) {x : Window}
    (hx : x.mark = (s.window w).mark)
    (ha : x.alarm = (s.window w).alarm) (hq : x.state = .quiet → (s.window w).state = .quiet)
    (hi : V w → (s.setWindow w x).inputLaw w) : AlarmLaw U V (s.setWindow w x) := by
  have hmark : ∀ v, ((s.setWindow w x).window v).mark = (s.window v).mark := fun v => by
    rw [window_setWindow]; split
    · next e => rw [hx, e.1]
    · rfl
  have halarm : ∀ v, ((s.setWindow w x).window v).alarm = (s.window v).alarm := fun v => by
    rw [window_setWindow]; split
    · next e => rw [ha, e.1]
    · rfl
  have hquiet : ∀ v, ((s.setWindow w x).window v).state = .quiet → (s.window v).state = .quiet := fun v => by
    rw [window_setWindow]; split
    · next e => rw [← e.1]; exact hq
    · exact id
  refine ⟨fun k hk hu => ?_, h.other, fun v hv => ?_⟩
  · have := h.group k hk hu
    unfold State.groupLaw at *
    simp only [setWindow_members, setWindow_group, hmark, halarm]
    exact ⟨fun v hv hs => this.1 v hv (hquiet v hs), this.2⟩
  · by_cases e : v = w
    · subst e; exact hi hv
    · intro c hc
      have hc' := h.input v ⟨hv, e⟩ c hc
      have hwin : (s.setWindow w x).window v = s.window v := by rw [window_setWindow, if_neg (fun e' => e e'.1.symm)]
      rw [← hwin] at hc'
      exact hc'

/-- Marks set change nothing else of a window. -/
theorem setMark_window (w v : Nat) (m : Mark) (s : State) :
    (setMark w m s).window v = { s.window v with mark := if w = v ∧ v < 384 then m else (s.window v).mark } := by
  unfold setMark
  rw [window_setWindow]
  split
  · next e => rw [e.1]
  · rfl

theorem setMarks_window (m : Mark) : ∀ (ws : List Nat) (s : State) (v : Nat), v < 384 →
    (ws.foldl (fun s v => setMark v m s) s).window v = { s.window v with mark := if v ∈ ws then m else (s.window v).mark }
  | [], _, _, _ => by simp
  | w :: ws, s, v, hv => by
    rw [List.foldl_cons, setMarks_window m ws _ v hv, setMark_window]
    by_cases h1 : v ∈ ws
    · simp [h1]
    · by_cases h2 : w = v
      · simp [h2, hv]
      · simp [h1, h2, Ne.symm h2]

theorem setMarks_same (m : Mark) (ws : List Nat) (s : State) :
    (∀ g, (ws.foldl (fun s v => setMark v m s) s).group g = s.group g) ∧
      (∀ v, (ws.foldl (fun s v => setMark v m s) s).winSet v = s.winSet v) ∧
      ∀ v, v ∉ ws → (ws.foldl (fun s v => setMark v m s) s).window v = s.window v := by
  induction ws generalizing s with
  | nil => exact ⟨fun _ => rfl, fun _ => rfl, fun _ _ => rfl⟩
  | cons w ws ih =>
    obtain ⟨a, b, c⟩ := ih (setMark w m s)
    refine ⟨a, b, fun v hv => ?_⟩
    have e : ¬(w = v ∧ v < 384) := fun e => hv (e.1 ▸ List.mem_cons_self)
    rw [List.foldl_cons, c v (fun h => hv (List.mem_cons_of_mem _ h)), setMark_window, if_neg e]

theorem AlarmLaw.mark {U V : Nat → Prop} {s : State} (h : AlarmLaw U V s) {w : Nat} (m : Mark)
    (hm : ∀ k, k < 32 → U k → w ∉ s.members k) : AlarmLaw U V (setMark w m s) :=
  (h.but w).free hm fun hv c hc => by
    have := h.input w hv c hc
    change _ ∧ _
    have e : ((setMark w m s).window w).state = (s.window w).state ∧ ((setMark w m s).window w).input = (s.window w).input := by
      rw [setMark_window]; exact ⟨rfl, rfl⟩
    unfold setMark at e
    rw [e.1, e.2]
    exact this

theorem AlarmLaw.marks {U V : Nat → Prop} (m : Mark) : ∀ (ws : List Nat) {s : State}, AlarmLaw U V s →
    (∀ v ∈ ws, ∀ k, k < 32 → U k → v ∉ s.members k) → AlarmLaw U V (ws.foldl (fun s v => setMark v m s) s)
  | [], _, h, _ => h
  | w :: ws, _, h, hm =>
    AlarmLaw.marks m ws (h.mark m (hm w List.mem_cons_self)) fun v hv => hm v (List.mem_cons_of_mem _ hv)

/-- A group that is not held to the law may be set, if no member of a group that is stands in its first set. -/
theorem AlarmLaw.regroup {U V : Nat → Prop} {s : State} (h : AlarmLaw U V s) {g : Nat} {f : FirstOut} (hg : g < 32 → ¬U g)
    (hf : ∀ t ws, f.lead = some (t, ws) → ∀ v ∈ ws, ∀ k, k < 32 → U k → v ∉ s.members k) : AlarmLaw U V (s.setGroup g f) := by
  refine ⟨fun k hk hu => groupLaw_congr (s := s) rfl ?_ (fun _ _ => rfl) (h.group k hk hu), fun k hk hu t ws hl => ?_, h.input⟩
  · rw [group_setGroup, if_neg]
    rintro ⟨rfl, _⟩
    exact hg hk hu
  · rw [group_setGroup] at hl
    split at hl
    · exact hf t ws hl
    · exact h.other k hk hu t ws hl

/-- A change of the marks and the state of one group held to the law. -/
theorem AlarmLaw.retrack {U V : Nat → Prop} {s t : State} (h : AlarmLaw U V s) {g : Nat} (hs : t.settings = s.settings)
    (hw : ∀ v, v ∉ s.members g → t.window v = s.window v)
    (hi : ∀ v, (t.window v).state = (s.window v).state ∧ (t.window v).input = (s.window v).input)
    (hg : ∀ k, k ≠ g → t.group k = s.group k) (hu : U g) (law : t.groupLaw g) : AlarmLaw U V t := by
  have hm : ∀ k, t.members k = s.members k := fun k => by unfold State.members; rw [hs]
  refine ⟨fun k hk hu => ?_, fun k hk hn a ws hl => ?_, fun v hv c hc => ?_⟩
  · by_cases e : k = g
    · subst e; exact law
    · exact groupLaw_congr (hm k) (hg k e) (fun v hv => hw v (fun hv' => e (members_one hv hv'))) (h.group k hk hu)
  · have e : k ≠ g := fun e => hn (e ▸ hu)
    rw [hg k e] at hl
    simp only [hm]
    exact h.other k hk hn a ws hl
  · rw [(hi v).1, (hi v).2]
    refine h.input v hv c ?_
    unfold State.winSet at *
    rw [← hs]
    exact hc

theorem insertRising_mem (w : Nat) : ∀ (l : List Nat) (v : Nat), v ∈ insertRising w l ↔ v = w ∨ v ∈ l
  | [], v => by simp [insertRising]
  | x :: l, v => by
    unfold insertRising
    split
    · simp
    · rw [List.mem_cons, insertRising_mem w l, List.mem_cons]
      tauto

/-- The group's marks set and the group put into a state that fits them. -/
theorem AlarmLaw.latch {U V : Nat → Prop} {s : State} {g : Nat} {a : HallTime} {ws : List Nat}
    (h : AlarmLaw U V (s.setGroup g (.latched a ws))) : AlarmLaw U V (latch g a ws s) := h.congr rfl rfl rfl

/-- A member's entry into ALERT, judged once it has left the first set, keeps the law. -/
theorem judgeAlert_law {U V : Nat → Prop} {s : State} {g w : Nat} (hw : w ∈ s.members g) (hx : (s.window w).mark = .none)
    (ha : (s.window w).state = .alert) (h : AlarmLaw U V (s.setGroup g ((s.group g).without w))) :
    AlarmLaw U V (judgeAlert g w s) := by
  have hw' : w < 384 := members_lt hw
  unfold judgeAlert
  extract_lets s1 x s2
  change AlarmLaw U V s1 at h
  have hm1 : w ∈ s1.members g := hw
  have hx1 : (s1.window w).mark = .none := hx
  have ha1 : (s1.window w).state = .alert := ha
  have hnot : ∀ t ws, (s1.group g).lead = some (t, ws) → w ∉ ws := by
    intro t ws hl
    by_cases hg : g < 32
    · have e : s1.group g = (s.group g).without w := by simp only [s1]; rw [group_setGroup, if_pos ⟨rfl, hg⟩]
      rw [e, lead_without] at hl
      obtain ⟨x, _, he⟩ := Option.map_eq_some_iff.1 hl
      cases he
      simp
    · have e : s1.group g = default := look_beyond _ _ (by omega)
      rw [e] at hl
      cases hl
  have hxs : x = s1.window w := rfl
  clear_value s1
  refine ite_rel (R := fun _ t => AlarmLaw U V t) (s := s) h ?_
  by_cases hg : g < 32 ∧ U g
  · obtain ⟨hg, hu⟩ := hg
    have law := h.group g hg hu
    -- what a result with these marks, this group and everything else as in s1 needs
    have fin : ∀ t : State, t.settings = s1.settings → (∀ v, v ∉ s1.members g → t.window v = s1.window v) →
        (∀ v, t.window v = { s1.window v with mark := (t.window v).mark }) → (∀ k, k ≠ g → t.group k = s1.group k) →
        (∀ v ∈ s1.members g, (s1.window v).state = .quiet → (t.window v).mark = .none) →
        (∃ a ws, (t.group g).lead = some (a, ws) ∧ (∀ v ∈ ws, v ∈ s1.members g ∧ (t.window v).mark = .first) ∧
          ∀ v ∈ s1.members g, ((t.window v).mark = .first → v ∈ ws ∧ (s1.window v).alarm = a) ∧
            ((t.window v).mark = .subsequent → a ≤ (s1.window v).alarm)) → AlarmLaw U V t := by
      intro t hs hwin hrest hgrp hquiet ⟨a, ws, hl, h1, h2⟩
      have hmem : t.members g = s1.members g := by unfold State.members; rw [hs]
      have hst : ∀ v, (t.window v).state = (s1.window v).state := fun v => by rw [hrest v]
      have hal : ∀ v, (t.window v).alarm = (s1.window v).alarm := fun v => by rw [hrest v]
      refine h.retrack hs hwin (fun v => ⟨hst v, by rw [hrest v]⟩) hgrp hu ⟨?_, fun hc => ?_, fun a' ws' hl' => ?_⟩
      · rw [hmem]; intro v hv hq; exact hquiet v hv (by rw [← hst v]; exact hq)
      · rw [hc] at hl; cases hl
      · rw [hl] at hl'
        cases hl'
        rw [hmem]
        refine ⟨h1, fun v hv => ?_⟩
        rw [hal v]
        exact h2 v hv
    have notw : ∀ v, v ∉ s1.members g → ¬(w = v ∧ v < 384) := fun v hv e => hv (e.1 ▸ hm1)
    split
    · next hc =>
      have none_marked := law.2.1 hc
      have mk : ∀ v, (s2.window v).mark = if w = v ∧ v < 384 then .first else (s1.window v).mark := fun v => by
        simp only [s2]; rw [setMark_window]
      have clearCase : ∀ f : FirstOut, f.lead = some (x.alarm, [w]) → AlarmLaw U V (s2.setGroup g f) := by
        intro f hf
        refine fin _ rfl (fun v hv => ?_) (fun v => ?_) (fun k hk => ?_) (fun v hv hq => ?_)
          ⟨x.alarm, [w], by rw [group_setGroup, if_pos ⟨rfl, hg⟩]; exact hf, fun v hv => ?_, fun v hv => ?_⟩
        · show (setMark w .first s1).window v = _
          rw [setMark_window, if_neg (notw v hv)]
        · show (setMark w .first s1).window v = { s1.window v with mark := ((setMark w .first s1).window v).mark }
          rw [setMark_window]
        · rw [group_setGroup, if_neg (fun e => hk e.1.symm)]; rfl
        · rw [setGroup_window, mk, if_neg]
          · exact none_marked v hv
          · rintro ⟨rfl, _⟩; rw [ha1] at hq; cases hq
        · rw [List.mem_singleton] at hv; subst hv
          exact ⟨hm1, by rw [setGroup_window, mk, if_pos ⟨rfl, hw'⟩]⟩
        · rw [setGroup_window, mk]
          split
          · next e => exact ⟨fun _ => ⟨by rw [e.1]; exact List.mem_singleton_self _, by rw [← e.1]⟩, nofun⟩
          · rw [none_marked v hv]; exact ⟨nofun, nofun⟩
      exact ite_rel (R := fun _ t => AlarmLaw U V t) (s := s) (AlarmLaw.latch (clearCase _ rfl)) (clearCase _ rfl)
    · next a ws d hc =>
      have hl : (s1.group g).lead = some (a, ws) := by rw [hc]; rfl
      obtain ⟨l1, l2⟩ := law.2.2 a ws hl
      have hnw := hnot a ws hl
      split
      · next hlt =>
        have wins : ∀ v ∈ s1.members g, (setMark w .first ((ws.foldl (fun s v => setMark v .subsequent s) s1).setGroup g
            (.deciding x.alarm [w] d))).window v = { s1.window v with mark :=
              if w = v then .first else if v ∈ ws then .subsequent else (s1.window v).mark } := by
          intro v hv
          have hv' := members_lt hv
          rw [setMark_window, setGroup_window, setMarks_window _ _ _ _ hv']
          by_cases e : w = v <;> simp [e, hv']
        have out : ∀ v, v ∉ s1.members g → (setMark w .first ((ws.foldl (fun s v => setMark v .subsequent s) s1).setGroup g
            (.deciding x.alarm [w] d))).window v = s1.window v := by
          intro v hv
          rw [setMark_window, if_neg (notw v hv), setGroup_window,
            (setMarks_same .subsequent ws s1).2.2 v (fun e => hv (l1 v e).1)]
        refine fin _ ?_ out (fun v => ?_) (fun k hk => ?_) (fun v hv hq => ?_)
          ⟨x.alarm, [w], ?_, fun v hv => ?_, fun v hv => ?_⟩
        · exact (foldl_rel WinStep.refl WinStep.trans _ (fun s v => setMark_winStep v .subsequent s) ws s1).settings
        · by_cases hv : v ∈ s1.members g
          · rw [wins v hv]
          · rw [out v hv]
        · show ((ws.foldl (fun s v => setMark v .subsequent s) s1).setGroup g _).group k = _
          rw [group_setGroup, if_neg (fun e => hk e.1.symm), (setMarks_same .subsequent ws s1).1]
        · rw [wins v hv]
          have hm := law.1 v hv hq
          have h1 : w ≠ v := by rintro rfl; rw [ha1] at hq; cases hq
          have h2 : v ∉ ws := fun e => by rw [(l1 v e).2] at hm; cases hm
          simp [h1, h2, hm]
        · show (((ws.foldl (fun s v => setMark v .subsequent s) s1).setGroup g _).group g).lead = _
          rw [group_setGroup, if_pos ⟨rfl, hg⟩]
          rfl
        · rw [List.mem_singleton] at hv; subst hv
          exact ⟨hm1, by rw [wins v hm1]; simp⟩
        · rw [wins v hv]
          by_cases e : w = v
          · subst e; simp [hxs]
          · simp only [e, if_false]
            by_cases hvw : v ∈ ws
            · simp only [hvw, if_true]
              refine ⟨nofun, fun _ => ?_⟩
              rw [((l2 v hv).1 (l1 v hvw).2).2]
              exact BitVec.le_of_lt hlt
            · simp only [hvw, if_false]
              exact ⟨fun hf => absurd ((l2 v hv).1 hf).1 hvw, fun hf => BitVec.le_trans (BitVec.le_of_lt hlt) ((l2 v hv).2 hf)⟩
      · split
        · next heq =>
          have wins : ∀ v, (setMark w .first (s1.setGroup g (.deciding a (insertRising w ws) d))).window v =
              { s1.window v with mark := if w = v ∧ v < 384 then .first else (s1.window v).mark } := fun v => by
            rw [setMark_window]; rfl
          refine fin _ rfl (fun v hv => ?_) (fun v => ?_) (fun k hk => ?_) (fun v hv hq => ?_)
            ⟨a, insertRising w ws, ?_, fun v hv => ?_, fun v hv => ?_⟩
          · rw [wins, if_neg (notw v hv)]
          · rw [wins]
          · show (s1.setGroup g _).group k = _
            rw [group_setGroup, if_neg (fun e => hk e.1.symm)]
          · have h1 : w ≠ v := by rintro rfl; rw [ha1] at hq; cases hq
            rw [wins]
            simp only [h1, false_and, if_false]
            exact law.1 v hv hq
          · show ((s1.setGroup g _).group g).lead = _
            rw [group_setGroup, if_pos ⟨rfl, hg⟩]
            rfl
          · rcases (insertRising_mem w ws v).1 hv with rfl | hv
            · exact ⟨hm1, by rw [wins]; simp [hw']⟩
            · refine ⟨(l1 v hv).1, ?_⟩
              rw [wins]
              simp only
              split
              · rfl
              · exact (l1 v hv).2
          · rw [wins]
            simp only
            split
            · next e =>
              refine ⟨fun _ => ⟨(insertRising_mem w ws v).2 (Or.inl e.1.symm), ?_⟩, nofun⟩
              rw [← e.1, ← hxs]; exact heq
            · exact ⟨fun hf => ⟨(insertRising_mem w ws v).2 (Or.inr ((l2 v hv).1 hf).1), ((l2 v hv).1 hf).2⟩, (l2 v hv).2⟩
        · next hge hne =>
          have wins : ∀ v, (setMark w .subsequent s1).window v =
              { s1.window v with mark := if w = v ∧ v < 384 then .subsequent else (s1.window v).mark } := fun v => setMark_window _ _ _ _
          refine fin _ rfl (fun v hv => ?_) (fun v => ?_) (fun _ _ => rfl) (fun v hv hq => ?_)
            ⟨a, ws, hl, fun v hv => ?_, fun v hv => ?_⟩
          · rw [wins, if_neg (notw v hv)]
          · rw [wins]
          · have h1 : w ≠ v := by rintro rfl; rw [ha1] at hq; cases hq
            rw [wins]
            simp only [h1, false_and, if_false]
            exact law.1 v hv hq
          · have h1 : w ≠ v := by rintro rfl; exact hnw hv
            rw [wins]
            simp only [h1, false_and, if_false]
            exact l1 v hv
          · rw [wins]
            simp only
            split
            · next e =>
              refine ⟨nofun, fun _ => ?_⟩
              rw [← e.1, ← hxs]
              exact BitVec.not_lt.1 hge
            · exact l2 v hv
    · next a ws hc =>
      have hl : (s1.group g).lead = some (a, ws) := by rw [hc]; rfl
      obtain ⟨l1, l2⟩ := law.2.2 a ws hl
      have hnw := hnot a ws hl
      split
      · next hle =>
        have wins : ∀ v, (setMark w .subsequent s1).window v =
            { s1.window v with mark := if w = v ∧ v < 384 then .subsequent else (s1.window v).mark } := fun v => setMark_window _ _ _ _
        refine fin _ rfl (fun v hv => ?_) (fun v => ?_) (fun _ _ => rfl) (fun v hv hq => ?_)
          ⟨a, ws, hl, fun v hv => ?_, fun v hv => ?_⟩
        · rw [wins, if_neg (notw v hv)]
        · rw [wins]
        · have h1 : w ≠ v := by rintro rfl; rw [ha1] at hq; cases hq
          rw [wins]
          simp only [h1, false_and, if_false]
          exact law.1 v hv hq
        · have h1 : w ≠ v := by rintro rfl; exact hnw hv
          rw [wins]
          simp only [h1, false_and, if_false]
          exact l1 v hv
        · rw [wins]
          simp only
          split
          · next e =>
            refine ⟨nofun, fun _ => ?_⟩
            rw [← e.1, ← hxs]
            exact hle
          · exact l2 v hv
      · exact h
  · have free : ∀ k, k < 32 → U k → w ∉ s1.members k := fun k hk hu hm => hg (members_one hm1 hm ▸ ⟨hk, hu⟩)
    have hng : g < 32 → ¬U g := fun a b => hg ⟨a, b⟩
    have ws_free : ∀ t ws, (s1.group g).lead = some (t, ws) → ∀ v ∈ ws, ∀ k, k < 32 → U k → v ∉ s1.members k := by
      intro t ws hl
      by_cases hg' : g < 32
      · exact h.other g hg' (hng hg') t ws hl
      · have e : s1.group g = default := look_beyond _ _ (by omega)
        rw [e] at hl
        cases hl
    have one : ∀ (t : HallTime) ws, some (t, [w]) = some (t, ws) → ∀ v ∈ ws, ∀ k, k < 32 → U k → v ∉ s1.members k := by
      rintro t ws ⟨⟩ v hv
      rw [List.mem_singleton] at hv
      subst hv
      exact free
    have m1 : AlarmLaw U V s2 := h.mark .first free
    split
    · have clearCase : ∀ f : FirstOut, f.lead = some (x.alarm, [w]) → AlarmLaw U V (s2.setGroup g f) := by
        intro f hf
        refine m1.regroup hng fun t ws hl => ?_
        rw [hf] at hl
        cases hl
        exact one x.alarm _ rfl
      exact ite_rel (R := fun _ t => AlarmLaw U V t) (s := s) (AlarmLaw.latch (clearCase _ rfl)) (clearCase _ rfl)
    · next a ws d hc =>
      have hws := ws_free a ws (by rw [hc]; rfl)
      split
      · have h2 := h.marks .subsequent ws hws
        have e : ∀ k, (ws.foldl (fun s v => setMark v .subsequent s) s1).members k = s1.members k := fun k => by
          unfold State.members
          rw [(foldl_rel WinStep.refl WinStep.trans _ (fun s v => setMark_winStep v .subsequent s) ws s1).settings]
        refine AlarmLaw.mark (h2.regroup hng fun t ws' hl => ?_) .first (fun k hk hu => ?_)
        · cases hl
          simp only [e]
          exact one x.alarm _ rfl
        · show w ∉ (ws.foldl (fun s v => setMark v .subsequent s) s1).members k
          rw [e]
          exact free k hk hu
      · split
        · refine AlarmLaw.mark (h.regroup hng fun t ws' hl v hv => ?_) .first free
          cases hl
          rcases (insertRising_mem w ws v).1 hv with rfl | hv
          · exact free
          · exact hws v hv
        · exact h.mark .subsequent free
    · exact ite_rel (R := fun _ t => AlarmLaw U V t) (s := s) (h.mark .subsequent free) h

/-- A member's return to QUIET keeps the law. -/
theorem judgeQuiet_law {U V : Nat → Prop} {s : State} {g w : Nat} (h : AlarmLaw U V (s.setGroup g ((s.group g).without w))) :
    AlarmLaw U V (judgeQuiet g w s) := by
  unfold judgeQuiet
  extract_lets s1
  change AlarmLaw U V s1 at h
  clear_value s1
  split
  · next hq =>
    by_cases hg : g < 32 ∧ U g
    · have law := h.group g hg.1 hg.2
      have none_marked : ∀ v ∈ s1.members g, (s1.window v).mark = .none := fun v hv =>
        law.1 v hv (by simpa using List.all_eq_true.1 hq v hv)
      refine h.retrack rfl (fun _ _ => rfl) (fun _ => ⟨rfl, rfl⟩) (fun k hk => ?_) hg.2 ⟨law.1, fun _ => none_marked, fun t ws hl => ?_⟩
      · rw [group_setGroup, if_neg (fun e => hk e.1.symm)]
      · rw [group_setGroup, if_pos ⟨rfl, hg.1⟩] at hl
        cases hl
    · exact h.regroup (fun a b => hg ⟨a, b⟩) nofun
  · exact h

theorem put_put {α : Type} {n : Nat} (v : Vector α n) (i : Nat) (a b : α) : put (put v i a) i b = put v i b := by
  unfold put
  apply Vector.ext
  intro j hj
  simp only [Vector.getElem_setIfInBounds]
  split <;> rfl

theorem setWindow_setWindow (s : State) (w : Nat) (x y : Window) : (s.setWindow w x).setWindow w y = s.setWindow w y := by
  unfold State.setWindow
  simp only [put_put]

/-- A window that enters ALERT or QUIET from whatever it held, or another state with alarm time and mark kept, keeps the law if its input
fits the state it enters. -/
theorem enterWindow_law {U V : Nat → Prop} {s : State} {w : Nat} {c : WindowSettings} {new : WindowState} (cause : Cause) {y : Window}
    (h : AlarmLaw U (fun v => V v ∧ v ≠ w) s) (hc : s.winSet w = some c)
    (hy : ¬(new = .alert ∨ new = .quiet) → y.mark = (s.window w).mark ∧ y.alarm = (s.window w).alarm)
    (hi : (y.input = true → new = .alert ∨ new = .steady) ∧ (y.input = false → c.sequence.next new .active = some .alert)) :
    AlarmLaw U V (enterWindow w c new cause (s.setWindow w y)) := by
  have hw : w < 384 := by
    by_contra hn
    unfold State.winSet at hc
    rw [look_beyond _ _ (by omega)] at hc
    cases hc
  have hold : (s.setWindow w y).window w = y := by rw [window_setWindow, if_pos ⟨rfl, hw⟩]
  unfold enterWindow
  extract_lets old s1 s2 s3 s4
  have hold' : old = y := hold
  let z : Window := { y with state := new, mark := if new = .quiet ∨ new = .alert then Mark.none else y.mark }
  have e1 : s1 = s.setWindow w z := by
    simp only [s1, hold']
    exact setWindow_setWindow _ _ _ _
  have input : V w → (s.setWindow w z).inputLaw w := by
    intro _ c' hc'
    rw [show (s.setWindow w z).window w = z by rw [window_setWindow, if_pos ⟨rfl, hw⟩]]
    have : c' = c := by
      change s.winSet w = some c' at hc'
      rw [hc] at hc'
      exact (Option.some.inj hc').symm
    subst this
    exact hi
  -- the requests and the horn change neither windows nor groups
  have same : s4.win.windows = s1.win.windows ∧ s4.win.groups = s1.win.groups ∧ s4.settings = s1.settings := by
    have h2 : s2.win.windows = s1.win.windows ∧ s2.win.groups = s1.win.groups ∧ s2.settings = s1.settings := by
      simp only [s2]; split <;> exact ⟨rfl, rfl, rfl⟩
    have h3 : s3.win.windows = s1.win.windows ∧ s3.win.groups = s1.win.groups ∧ s3.settings = s1.settings := by
      simp only [s3]; split
      · exact h2
      · exact h2
    simp only [s4]; split
    · exact h3
    · exact h3
  have win4 : ∀ v, s4.window v = s1.window v := fun v => by unfold State.window; rw [same.1]
  have grp4 : ∀ g, s4.group g = s1.group g := fun g => by unfold State.group; rw [same.2.1]
  have mem4 : ∀ g, s4.members g = s.members g := fun g => by
    unfold State.members; rw [same.2.2, e1]; rfl
  have self4 : s4.window w = z := by rw [win4, e1, window_setWindow, if_pos ⟨rfl, hw⟩]
  by_cases hn : new = .alert ∨ new = .quiet
  · have hz : z.mark = .none := by simp only [z]; rw [if_pos hn.symm]
    cases hg : c.group with
    | none =>
      have hfree : ∀ k, k < 32 → U k → w ∉ s.members k := by
        intro k _ _ hm
        obtain ⟨d, hd, he⟩ := (mem_members s k w).1 hm
        rw [hc] at hd
        cases hd
        rw [hg] at he
        cases he
      exact (h.free hfree input).congr (same.1.trans (by rw [e1])) (same.2.1.trans (by rw [e1])) (same.2.2.trans (by rw [e1]))
    | some g =>
      have hm : w ∈ s.members g := (mem_members s g w).2 ⟨c, hc, hg⟩
      have left := h.left (w := w) (g := g) (x := z) (fun k _ hk => members_one hk hm) hz input
      have left4 : AlarmLaw U V (s4.setGroup g ((s4.group g).without w)) := by
        refine left.congr ?_ ?_ ?_
        · exact same.1.trans (by rw [e1]; rfl)
        · show put s4.win.groups g _ = put s.win.groups g _
          rw [grp4, same.2.1, e1]
          rfl
        · exact same.2.2.trans (by rw [e1]; rfl)
      simp only
      split
      · next ha => exact judgeAlert_law (by rw [mem4]; exact hm) (by rw [self4]; exact hz) (by rw [self4]; exact ha) left4
      · split
        · exact judgeQuiet_law left4
        · next h1 h2 => exact absurd hn (by tauto)
  · have base : AlarmLaw U V s4 := by
      refine (h.stays (w := w) (x := z) ?_ ?_ ?_ input).congr (same.1.trans (by rw [e1])) (same.2.1.trans (by rw [e1])) (same.2.2.trans (by rw [e1]))
      · simp only [z]
        rw [if_neg (fun e => hn e.symm)]
        exact (hy hn).1
      · exact (hy hn).2
      · exact fun e => absurd (Or.inr e) hn
    split
    · exact base
    · rw [if_neg (fun e => hn (Or.inl e)), if_neg (fun e => hn (Or.inr e))]
      exact base

/-! ## Offers -/

/-- An offer of ACK or RESET moves a window to a state that fits the same input. -/
theorem next_fits (q : Sequence) (x new : WindowState) (ev : WindowEvent) (hev : ev = .ack ∨ ev = .reset) (h : q.next x ev = some new)
    (input : Bool) (hi : (input = true → x = .alert ∨ x = .steady) ∧ (input = false → q.next x .active = some .alert)) :
    (input = true → new = .alert ∨ new = .steady) ∧ (input = false → q.next new .active = some .alert) := by
  rcases hev with rfl | rfl <;> cases q <;> cases x <;> cases input <;> simp_all [Sequence.next] <;> subst h <;> simp

/-- An offer of CLEAR moves a window in ALERT or STEADY to a state that fits an inactive input. -/
theorem next_clear (q : Sequence) (x : WindowState) (h : x = .alert ∨ x = .steady) :
    ∃ new, q.next x .clear = some new ∧ q.next new .active = some .alert := by
  rcases h with rfl | rfl <;> cases q <;> exact ⟨_, rfl, rfl⟩

theorem setWindow_self (s : State) (w : Nat) : s.setWindow w (s.window w) = s := by
  unfold State.setWindow
  have : put s.win.windows w (s.window w) = s.win.windows := by
    unfold put State.window look
    apply Vector.ext
    intro j hj
    simp only [Vector.getElem_setIfInBounds]
    split
    · next e => subst e; rw [Vector.getElem?_eq_getElem hj]; rfl
    · rfl
  rw [this]

/-- An offer of ACK or RESET keeps the law. -/
theorem offer_law {U V : Nat → Prop} {s : State} (h : AlarmLaw U V s) {w : Nat} (hv : V w) {ev : WindowEvent}
    (hev : ev = .ack ∨ ev = .reset) (cause : Cause) : AlarmLaw U V (offer w ev cause s) := by
  unfold offer
  split
  · exact h
  · next c hc =>
    split
    · exact h
    · next new hn =>
      have := enterWindow_law (new := new) cause (y := s.window w) (h.but w) hc (fun _ => ⟨rfl, rfl⟩)
        (next_fits _ _ _ ev hev hn _ (h.input w hv c hc))
      rw [setWindow_self] at this
      exact this

theorem offerAll_law {U V : Nat → Prop} (hv : ∀ w, V w) {ev : WindowEvent} (hev : ev = .ack ∨ ev = .reset) (cause : Cause) :
    ∀ (ws : List Nat) {s : State}, AlarmLaw U V s → AlarmLaw U V (offerAll ev cause ws s).1
  | [], _, h => h
  | w :: ws, _, h => offerAll_law hv hev cause ws (offer_law h (hv w) hev cause)

/-- An activation of a window that brings ALERT keeps the law, whatever the window held before. -/
theorem offerActive_law {U V : Nat → Prop} {s : State} {w : Nat} (h : AlarmLaw U (fun v => V v ∧ v ≠ w) s) {c : WindowSettings} (hc : s.winSet w = some c)
    {y : Window} (hy : y.input = true) (hn : c.sequence.next y.state .active = some .alert) (cause : Cause) :
    AlarmLaw U V (offer w .active cause (s.setWindow w y)) := by
  have hw : w < 384 := by
    by_contra hw
    unfold State.winSet at hc
    rw [look_beyond _ _ (by omega)] at hc
    cases hc
  unfold offer
  rw [setWindow_winSet, hc, window_setWindow, if_pos ⟨rfl, hw⟩]
  simp only [hn]
  exact enterWindow_law cause h hc (fun e => absurd (Or.inl rfl) e) ⟨fun _ => Or.inl rfl, fun e => by rw [hy] at e; cases e⟩

/-- An input put at an event of a source keeps the law. -/
theorem putInput_law {U V : Nat → Prop} {s : State} (h : AlarmLaw U V s) (input : Bool) (time : HallTime) (standing : Bool) (cause : Cause)
    {w : Nat} {c : WindowSettings} (hc : s.winSet w = some c) (hv : V w) : AlarmLaw U V (putInput input time standing cause c w s) := by
  have hw : w < 384 := by
    by_contra hw
    unfold State.winSet at hc
    rw [look_beyond _ _ (by omega)] at hc
    cases hc
  have law := h.input w hv c hc
  unfold putInput
  extract_lets old s1 read
  have hself : read = { old with input := input, doubt := s.doubtOf c } := by
    simp only [read, s1]; rw [window_setWindow, if_pos ⟨rfl, hw⟩]
  split
  · next hx =>
    simp only [Bool.and_eq_true, Bool.not_eq_true'] at hx
    rw [hself]
    simp only [s1]
    rw [setWindow_setWindow]
    exact offerActive_law (h.but w) hc (y := { old with input := input, doubt := s.doubtOf c, alarm := time, standing := standing }) hx.2
      (law.2 hx.1) cause
  · next h1 =>
    split
    · next hx =>
      simp only [Bool.and_eq_true, Bool.not_eq_true'] at hx
      obtain ⟨new, hn, ha⟩ := next_clear c.sequence old.state (law.1 hx.1)
      unfold offer
      simp only [s1]
      rw [setWindow_winSet, hc, window_setWindow, if_pos ⟨rfl, hw⟩]
      simp only [hn]
      exact enterWindow_law cause (h.but w) hc (fun _ => ⟨rfl, rfl⟩) ⟨fun e => by simp [hx.2] at e, fun _ => ha⟩
    · next h2 =>
      have same : input = old.input := by
        cases hi : input <;> cases ho : old.input <;> simp [hi, ho] at h1 h2 ⊢
      refine (h.but w).stays (w := w) (x := { old with input := input, doubt := s.doubtOf c }) rfl rfl id fun _ c' hc' => ?_
      rw [window_setWindow, if_pos ⟨rfl, hw⟩]
      simp only [same]
      exact h.input w hv c' hc'

/-- An event of a source keeps the law. -/
theorem takeInput_law {U V : Nat → Prop} {s : State} (h : AlarmLaw U V s) (time : HallTime) (standing : Bool) (cause : Cause) {w : Nat}
    (hv : V w) : AlarmLaw U V (takeInput time standing cause s w) := by
  unfold takeInput
  split
  · exact h
  · next c hc => exact putInput_law h _ _ _ _ hc hv

theorem takeInputAwaiting_law {U V : Nat → Prop} {s : State} (h : AlarmLaw U V s) (await : Awaited) (time : HallTime) (standing : Bool)
    (cause : Cause) {w : Nat} (hv : V w) : AlarmLaw U V (takeInputAwaiting await time standing cause s w) := by
  unfold takeInputAwaiting
  split
  · exact h
  · next c hc => exact putInput_law h _ _ _ _ hc hv

theorem windowsTake_law {U V : Nat → Prop} (hv : ∀ w, V w) {s : State} (h : AlarmLaw U V s) (n : Nat) (time : HallTime)
    (standing : Bool) : AlarmLaw U V (windowsTake n time standing s) := by
  unfold windowsTake
  split
  · exact h
  · exact foldl_rel (R := fun s t => AlarmLaw U V s → AlarmLaw U V t) (fun _ => id) (fun a b h => b (a h)) _
      (fun _ w h => takeInput_law h time standing .input (hv w)) _ s h

theorem windowsTakeAwaiting_law {U V : Nat → Prop} (hv : ∀ w, V w) {s : State} (h : AlarmLaw U V s) (await : Awaited) (n : Nat)
    (time : HallTime) (standing : Bool) : AlarmLaw U V (windowsTakeAwaiting await n time standing s) := by
  unfold windowsTakeAwaiting
  split
  · exact h
  · exact foldl_rel (R := fun s t => AlarmLaw U V s → AlarmLaw U V t) (fun _ => id) (fun a b h => b (a h)) _
      (fun _ w h => takeInputAwaiting_law h await time standing .input (hv w)) _ s h

/-! ## A group set CLEAR, the settle timer, and a changed window -/

/-- A group set CLEAR is lawful, and the others stay so. -/
theorem clearGroup_groupLaw (g k : Nat) (s : State) (hk : k < 32) (h : k = g ∨ s.groupLaw k) : (clearGroup g s).groupLaw k := by
  have hm : ∀ j, (clearGroup g s).members j = s.members j := fun j => by
    unfold State.members; rw [(clearGroup_winStep g s).settings]
  unfold clearGroup at *
  by_cases e : k = g
  · subst e
    have none_marked : ∀ v ∈ s.members k, ((((s.members k).foldl (fun s v => setMark v .none s) s).setGroup k .clear).window v).mark = .none := by
      intro v hv
      rw [setGroup_window, setMarks_window _ _ _ _ (members_lt hv)]
      simp [hv]
    refine ⟨?_, ?_, fun t ws hl => ?_⟩
    · rw [hm]; exact fun v hv _ => none_marked v hv
    · rw [hm]; exact fun _ => none_marked
    · rw [group_setGroup, if_pos ⟨rfl, hk⟩] at hl; cases hl
  · refine groupLaw_congr (hm k) ?_ (fun v hv => ?_) (h.resolve_left e)
    · rw [group_setGroup, if_neg (fun e' => e e'.1.symm), (setMarks_same _ _ _).1]
    · rw [setGroup_window]
      exact (setMarks_same _ _ _).2.2 v (fun hv' => e (members_one hv hv'))

theorem clearGroup_input (g : Nat) (s : State) (w : Nat) (h : s.inputLaw w) : (clearGroup g s).inputLaw w := by
  have key : ∀ (ws : List Nat) (s : State), ((ws.foldl (fun s v => setMark v .none s) s).window w).state = (s.window w).state ∧
      ((ws.foldl (fun s v => setMark v .none s) s).window w).input = (s.window w).input := by
    intro ws
    induction ws with
    | nil => exact fun _ => ⟨rfl, rfl⟩
    | cons v ws ih =>
      intro s
      obtain ⟨a, b⟩ := ih (setMark v .none s)
      rw [List.foldl_cons, a, b, setMark_window]
      exact ⟨rfl, rfl⟩
  intro c hc
  have hc' : s.winSet w = some c := by
    unfold State.winSet at hc ⊢; rw [← (clearGroup_winStep g s).settings]; exact hc
  unfold clearGroup
  rw [setGroup_window, (key _ s).1, (key _ s).2]
  exact h c hc'

theorem clearGroup_law (g : Nat) {s : State} (h : s.alarmLaw) : (clearGroup g s).alarmLaw :=
  ⟨fun k hk => clearGroup_groupLaw g k s hk (Or.inr (h.1 k hk)), fun w => clearGroup_input g s w (h.2 w)⟩

theorem clearGroups_law : ∀ (l : List Nat) {s : State}, (∀ k, k < 32 → k ∈ l ∨ s.groupLaw k) → (∀ w, s.inputLaw w) →
    (l.foldl (fun s g => clearGroup g s) s).alarmLaw
  | [], _, h, hi => ⟨fun k hk => (h k hk).resolve_left List.not_mem_nil, hi⟩
  | g :: l, s, h, hi => by
    refine clearGroups_law l (fun k hk => ?_) fun w => clearGroup_input g s w (hi w)
    by_cases e : k = g
    · exact Or.inr (clearGroup_groupLaw g k s hk (Or.inl e))
    · rcases h k hk with hm | hl
      · exact Or.inl ((List.mem_cons.1 hm).resolve_left e)
      · exact Or.inr (clearGroup_groupLaw g k s hk (Or.inr hl))

theorem settleEnd_law (g : Nat) {s : State} (h : s.alarmLaw) : (settleEnd g s).alarmLaw := by
  unfold settleEnd
  split
  · next t ws d hg =>
    refine ⟨fun k hk => ?_, h.2⟩
    have law := h.1 k hk
    by_cases e : k = g
    · subst e
      refine ⟨law.1, fun hc => ?_, fun t' ws' hl => ?_⟩
      · have : (latch k t ws s).group k = .latched t ws := group_setGroup s k k (.latched t ws) |>.trans (if_pos ⟨rfl, hk⟩)
        rw [this] at hc; cases hc
      · have : (latch k t ws s).group k = .latched t ws := group_setGroup s k k (.latched t ws) |>.trans (if_pos ⟨rfl, hk⟩)
        rw [this] at hl
        exact law.2.2 t' ws' (by rw [hg]; exact hl)
    · exact groupLaw_congr (s := s) rfl (group_setGroup s g k (.latched t ws) |>.trans (if_neg (fun x => e x.1.symm))) (fun _ _ => rfl) law
  · exact h
  · exact h

end Sys2Proof.Machine
end

