-- ==== Sys2Proof/Laws/Waiting.lean ====
section
/-! SUPPORT. What the window sequencer and the switch controller keep of the laws of the coil queue (R105), the shelf list (R52) and the
first-out groups (R63). -/

namespace Sys2Proof.Machine

/-- A step that keeps the laws of queue, shelf list and groups. -/
def Keeps (s t : State) : Prop := s.listLaws → t.listLaws

theorem Keeps.refl (s : State) : Keeps s s := id
theorem Keeps.trans {s t u : State} (a : Keeps s t) (b : Keeps t u) : Keeps s u := fun h => b (a h)

/-- The law of the queue reads the switches and the queue. -/
theorem waitLaw_congr {s t : State} (hx : t.sw.switches = s.sw.switches) (hq : t.sw.queue = s.sw.queue) (h : s.waitLaw) :
    t.waitLaw := by
  unfold State.waitLaw State.queueLaw State.swi at *
  rw [hx, hq]
  exact h

theorem alarmLaw_congr {s t : State} (hw : t.win.windows = s.win.windows) (hg : t.win.groups = s.win.groups)
    (hs : t.settings.live = s.settings.live) (h : s.alarmLaw) : t.alarmLaw := by
  unfold State.alarmLaw State.groupLaw State.inputLaw State.window State.group State.members State.winSet at *
  rw [hw, hg, hs]
  exact h

/-- A state that agrees with s in what the laws read. -/
theorem keeps_of_fields {s t : State} (hs : t.settings.live = s.settings.live) (hw : t.win = s.win)
    (hx : t.sw.switches = s.sw.switches) (hq : t.sw.queue = s.sw.queue) : Keeps s t := fun h =>
  ⟨waitLaw_congr hx hq h.1, by unfold State.shelfLaw at *; rw [hw]; exact h.2.1, alarmLaw_congr (by rw [hw]) (by rw [hw]) hs h.2.2⟩

/-- A step that leaves windows and settings, judged by the queue alone. -/
theorem keeps_of_wait {s t : State} (hs : t.settings.live = s.settings.live) (hw : t.win = s.win) (h : s.waitLaw → t.waitLaw) :
    Keeps s t := fun l =>
  ⟨h l.1, by unfold State.shelfLaw at *; rw [hw]; exact l.2.1, alarmLaw_congr (by rw [hw]) (by rw [hw]) hs l.2.2⟩

theorem request_keeps (s : State) (e : Entry) : Keeps s (s.request e) := keeps_of_fields rfl rfl rfl rfl
theorem setPt_keeps (s : State) (n : Nat) (p : Point) : Keeps s (s.setPt n p) := keeps_of_fields rfl rfl rfl rfl
theorem setTrm_keeps (s : State) (t : Nat) (x : Term) : Keeps s (s.setTrm t x) := keeps_of_fields rfl rfl rfl rfl
theorem setChan_keeps (s : State) (c : Nat) (x : Channel) : Keeps s (s.setChan c x) := keeps_of_fields rfl rfl rfl rfl
theorem setConc_keeps (s : State) (c : Nat) (x : Concentrator) : Keeps s (s.setConc c x) := keeps_of_fields rfl rfl rfl rfl
theorem setPan_keeps (s : State) (p : Nat) (x : Panel) : Keeps s (s.setPan p x) := keeps_of_fields rfl rfl rfl rfl

theorem foldl_keeps {α : Type} (f : State → α → State) (h : ∀ s a, Keeps s (f s a)) (l : List α) (s : State) :
    Keeps s (l.foldl f s) := foldl_rel Keeps.refl Keeps.trans f h l s

/-! ## Windows -/

/-- The shelf list stays. -/
def SameShelf (s t : State) : Prop := t.win.shelf = s.win.shelf

theorem SameShelf.refl (s : State) : SameShelf s s := rfl
theorem SameShelf.trans {s t u : State} (a : SameShelf s t) (b : SameShelf t u) : SameShelf s u := Eq.trans b a

theorem setMarks_shelf (m : Mark) (ws : List Nat) (s : State) : SameShelf s (ws.foldl (fun s v => setMark v m s) s) :=
  foldl_rel SameShelf.refl SameShelf.trans (fun s v => setMark v m s) (fun _ _ => rfl) ws s

theorem judgeAlert_shelf (g w : Nat) (s : State) : SameShelf s (judgeAlert g w s) := by
  unfold judgeAlert
  extract_lets s1 x s2
  refine ite_rel (R := SameShelf) rfl ?_
  split
  · exact ite_rel (R := SameShelf) rfl rfl
  · next t ws d _ =>
    exact ite_rel (R := SameShelf) (SameShelf.trans (t := ws.foldl (fun s v => setMark v .subsequent s) s1) (setMarks_shelf _ _ _) rfl)
      (ite_rel (R := SameShelf) rfl rfl)
  · exact ite_rel (R := SameShelf) rfl rfl

theorem judgeQuiet_shelf (g w : Nat) (s : State) : SameShelf s (judgeQuiet g w s) := ite_rel (R := SameShelf) rfl rfl

theorem enterWindow_shelf (w : Nat) (c : WindowSettings) (new : WindowState) (cause : Cause) (s : State) :
    SameShelf s (enterWindow w c new cause s) := by
  unfold enterWindow
  extract_lets old s1 s2 s3 s4
  have h1 : SameShelf s s1 := rfl
  have h2 : SameShelf s s2 := ite_rel (R := SameShelf) h1 h1
  have h3 : SameShelf s s3 := ite_rel (R := SameShelf) h2 h2
  have h4 : SameShelf s s4 := ite_rel (R := SameShelf) h3 h3
  clear_value s4
  split
  · exact h4
  · exact h4.trans (ite_rel (judgeAlert_shelf _ _ _) (ite_rel (judgeQuiet_shelf _ _ _) (SameShelf.refl _)))

theorem offer_shelf (w : Nat) (ev : WindowEvent) (cause : Cause) (s : State) : SameShelf s (offer w ev cause s) := by
  unfold offer
  split
  · exact SameShelf.refl _
  · split
    · exact SameShelf.refl _
    · exact enterWindow_shelf _ _ _ _ _

theorem offerAll_shelf (ev : WindowEvent) (cause : Cause) : ∀ (ws : List Nat) (s : State), SameShelf s (offerAll ev cause ws s).1
  | [], s => SameShelf.refl s
  | w :: ws, s => (offer_shelf w ev cause s).trans (offerAll_shelf ev cause ws _)

theorem putInput_shelf (input : Bool) (time : HallTime) (standing : Bool) (cause : Cause) (c : WindowSettings) (w : Nat) (s : State) :
    SameShelf s (putInput input time standing cause c w s) :=
  ite_rel (R := SameShelf) (SameShelf.trans (by rfl) (offer_shelf _ _ _ _))
    (ite_rel (R := SameShelf) (SameShelf.trans (by rfl) (offer_shelf _ _ _ _)) (by rfl))

theorem takeInput_shelf (time : HallTime) (standing : Bool) (cause : Cause) (s : State) (w : Nat) :
    SameShelf s (takeInput time standing cause s w) := by
  unfold takeInput
  split
  · exact SameShelf.refl _
  · exact putInput_shelf _ _ _ _ _ _ _

theorem takeInputAwaiting_shelf (await : Awaited) (time : HallTime) (standing : Bool) (cause : Cause) (s : State) (w : Nat) :
    SameShelf s (takeInputAwaiting await time standing cause s w) := by
  unfold takeInputAwaiting
  split
  · exact SameShelf.refl _
  · exact putInput_shelf _ _ _ _ _ _ _

theorem windowsTakeAwaiting_shelf (await : Awaited) (n : Nat) (time : HallTime) (standing : Bool) (s : State) :
    SameShelf s (windowsTakeAwaiting await n time standing s) :=
  ite_rel (SameShelf.refl _)
    (foldl_rel SameShelf.refl SameShelf.trans _ (fun s w => takeInputAwaiting_shelf await time standing .input s w) _ _)

theorem windowsTake_shelf (n : Nat) (time : HallTime) (standing : Bool) (s : State) : SameShelf s (windowsTake n time standing s) :=
  ite_rel (SameShelf.refl _) (foldl_rel SameShelf.refl SameShelf.trans _ (fun s w => takeInput_shelf time standing .input s w) _ _)

/-- A step of the windows that leaves the shelf list and keeps the law of groups and inputs. -/
theorem WinStep.keeps {s t : State} (h : WinStep s t) (hs : SameShelf s t)
    (ha : AlarmLaw (fun _ => True) (fun _ => True) s → AlarmLaw (fun _ => True) (fun _ => True) t) : Keeps s t := fun l =>
  ⟨waitLaw_congr (by rw [h.sw]) (by rw [h.sw]) l.1, by unfold State.shelfLaw at *; rw [hs]; exact l.2.1,
    (alarmLaw_iff t).2 (ha ((alarmLaw_iff s).1 l.2.2))⟩

theorem windowsTake_keeps (n : Nat) (time : HallTime) (standing : Bool) (s : State) : Keeps s (windowsTake n time standing s) :=
  (windowsTake_winStep _ _ _ _).keeps (windowsTake_shelf _ _ _ _) fun h => windowsTake_law (fun _ => trivial) h _ _ _

theorem windowsTakeAwaiting_keeps (await : Awaited) (n : Nat) (time : HallTime) (standing : Bool) (s : State) :
    Keeps s (windowsTakeAwaiting await n time standing s) :=
  (windowsTakeAwaiting_winStep _ _ _ _ _).keeps (windowsTakeAwaiting_shelf _ _ _ _ _) fun h =>
    windowsTakeAwaiting_law (fun _ => trivial) h _ _ _ _

theorem offerAll_keeps {ev : WindowEvent} (hev : ev = .ack ∨ ev = .reset) (cause : Cause) (ws : List Nat) (s : State) :
    Keeps s (offerAll ev cause ws s).1 :=
  (offerAll_winStep _ _ _ _).keeps (offerAll_shelf _ _ _ _) fun h => offerAll_law (fun _ => trivial) hev _ _ h

theorem clearGroup_keeps (g : Nat) (s : State) : Keeps s (clearGroup g s) := fun l =>
  ⟨waitLaw_congr (by rw [(clearGroup_winStep g s).sw]) (by rw [(clearGroup_winStep g s).sw]) l.1,
    by have := setMarks_shelf .none (s.members g) s
       unfold State.shelfLaw SameShelf at *
       rw [show (clearGroup g s).win.shelf = s.win.shelf from this]
       exact l.2.1,
    clearGroup_law g l.2.2⟩

theorem settleEnd_keeps (g : Nat) (s : State) : Keeps s (settleEnd g s) := fun l => by
  refine ⟨waitLaw_congr (by rw [(settleEnd_winStep g s).sw]) (by rw [(settleEnd_winStep g s).sw]) l.1, ?_, settleEnd_law g l.2.2⟩
  have : SameShelf s (settleEnd g s) := by unfold settleEnd; split <;> rfl
  unfold State.shelfLaw SameShelf at *
  rw [this]
  exact l.2.1

/-- Windows, groups and shelf list left as they are. -/
theorem keeps_of_win {s t : State} (hs : t.settings.live = s.settings.live) (hw : t.win.windows = s.win.windows)
    (hg : t.win.groups = s.win.groups) (hx : t.sw = s.sw) (h : s.shelfLaw → t.shelfLaw) : Keeps s t := fun l =>
  ⟨waitLaw_congr (by rw [hx]) (by rw [hx]) l.1, h l.2.1, alarmLaw_congr hw hg hs l.2.2⟩

theorem setSilence_keeps (s : State) : Keeps s (setSilence s) := keeps_of_win rfl rfl rfl rfl id
theorem clearSilence_keeps (s : State) : Keeps s (clearSilence s) := keeps_of_win rfl rfl rfl rfl id

theorem dropShelf_keeps (w : Nat) (s : State) : Keeps s (dropShelf w s) :=
  keeps_of_win rfl rfl rfl rfl fun h =>
    ⟨(List.filter_sublist.map _).nodup h.1, le_trans (List.length_filter_le _ _) h.2⟩

theorem endShelving_keeps (w : Nat) (mark : ShelfMark) (s : State) : Keeps s (endShelving w mark s) := by
  unfold endShelving
  extract_lets s1
  have h1 : Keeps s s1 := (dropShelf_keeps _ _).trans (request_keeps _ _)
  clear_value s1
  split
  · exact ite_rel (h1.trans (clearSilence_keeps _)) h1
  · exact h1

theorem unshelveWindow_keeps (w : Nat) (s : State) : Keeps s (unshelveWindow w s).1 := by
  unfold unshelveWindow
  split
  · exact endShelving_keeps _ _ _
  · exact Keeps.refl _

theorem insertShelf_perm (e : ShelfEntry) : ∀ l : List ShelfEntry, (insertShelf e l).Perm (e :: l)
  | [] => List.Perm.refl _
  | x :: l => by
    unfold insertShelf
    split
    · exact List.Perm.refl _
    · exact ((insertShelf_perm e l).cons x).trans (List.Perm.swap _ _ _)

/-- Shelving keeps the laws where the window stands in the list already or the list has room (R52). -/
theorem shelveWindow_keeps (w minutes : Nat) (s : State) (h : s.shelved w = true ∨ s.win.shelf.length < 64) :
    Keeps s (shelveWindow w minutes s) := by
  unfold shelveWindow
  extract_lets mark s1 e
  have h1 : Keeps s s1 := dropShelf_keeps _ _
  refine keeps_of_win rfl rfl rfl rfl fun l => ?_
  have p := insertShelf_perm e s1.win.shelf
  have l1 : s1.shelfLaw := ⟨(List.filter_sublist.map _).nodup l.1, le_trans (List.length_filter_le _ _) l.2⟩
  have room : s1.win.shelf.length < 64 := by
    rcases h with h | h
    · obtain ⟨x, hx, he⟩ := List.any_eq_true.1 h
      have : (s.win.shelf.filter fun e => e.window != w).length < s.win.shelf.length :=
        List.length_filter_lt_length_iff_exists.2 ⟨x, hx, by simpa using he⟩
      exact lt_of_lt_of_le this l.2
    · exact lt_of_le_of_lt (List.length_filter_le _ _) h
  refine ⟨?_, ?_⟩
  · refine ((p.map _).nodup_iff).2 ?_
    rw [List.map_cons, List.nodup_cons]
    refine ⟨fun hm => ?_, l1.1⟩
    obtain ⟨x, hx, he⟩ := List.mem_map.1 hm
    have := (List.mem_filter.1 hx).2
    rw [he] at this
    simp [e] at this
  · show (insertShelf e s1.win.shelf).length ≤ 64
    rw [p.length_eq, List.length_cons]
    omega

theorem pressKeys_keeps (p : Nat) (old new : Keys) (s : State) : Keeps s (pressKeys p old new s) := by
  unfold pressKeys
  extract_lets s1 s2
  have h1 : Keeps s s1 := ite_rel (offerAll_keeps (Or.inl rfl) _ _ _) (Keeps.refl _)
  have h2 : Keeps s s2 := ite_rel (h1.trans (offerAll_keeps (Or.inr rfl) _ _ _)) h1
  exact ite_rel (h2.trans (setSilence_keeps _)) h2

/-! ## System points -/

theorem setSystemPoint_keeps (n : Nat) (v : Bool) (s : State) : Keeps s (setSystemPoint n v s) :=
  ite_rel (Keeps.refl _) ((setPt_keeps _ _ _).trans (windowsTake_keeps _ _ _ _))

theorem syncSwitchPoints_keeps (i : Nat) (s : State) : Keeps s (syncSwitchPoints i s) :=
  (setSystemPoint_keeps _ _ _).trans (setSystemPoint_keeps _ _ _)

theorem setSystemPoint_sw (n : Nat) (v : Bool) (s : State) : (setSystemPoint n v s).sw = s.sw := by
  unfold setSystemPoint
  split
  · rfl
  · exact (windowsTake_winStep _ _ _ _).sw

theorem syncSwitchPoints_sw (i : Nat) (s : State) : (syncSwitchPoints i s).sw = s.sw := by
  unfold syncSwitchPoints
  extract_lets shown s1
  rw [setSystemPoint_sw, setSystemPoint_sw]

theorem requestSwitch_keeps (i : Nat) (c : SwitchSettings) (mark : SwitchMark) (iso : Bool) (source : Option Source)
    (cls a last : Nat) (second : HallTime) (s : State) :
    Keeps s (requestSwitch i c mark iso source cls a last second s) := request_keeps _ _

/-! ## The coil queue -/

/-- No entry of the queue is the switch's. -/
abbrev State.unqueued (s : State) (i : Nat) : Prop := ∀ e ∈ s.sw.queue, e.switch ≠ i

theorem unqueued_iff (s : State) (i : Nat) : s.entryOf i = none ↔ s.unqueued i := by
  unfold State.entryOf
  simp

/-- A switch in another state than QUEUED, RESET-QUEUED and READY has no entry, and in another than READY no test in flight. -/
theorem unqueued_of_state {s : State} (h : s.waitLaw) {i : Nat} (h1 : (s.swi i).state ≠ .queued) (h2 : (s.swi i).state ≠ .resetQueued)
    (h3 : (s.swi i).state ≠ .ready) : s.unqueued i ∧ (s.swi i).testStart = none := by
  refine ⟨fun e he hi => ?_, ?_⟩
  · have := (h.2.1 e he).2
    rw [hi] at this
    split at this
    · exact h1 this
    · exact h2 this
    · exact h3 this
  · by_contra hn
    exact h3 (h.2.2 i hn)

/-- A switch set: its state may change where it has no entry, and its test where it ends. -/
theorem setSwi_wait {s : State} {i : Nat} {x : Switch} (h : s.waitLaw)
    (ht : x.testStart = none ∨ (x.testStart = (s.swi i).testStart ∧ x.state = (s.swi i).state))
    (hx : x.state = (s.swi i).state ∨ s.unqueued i) : (s.setSwi i x).waitLaw := by
  refine ⟨h.1, fun e he => ?_, fun j hj => ?_⟩
  · have f := h.2.1 e he
    rw [swi_setSwi]
    split
    · next hi =>
      rw [← hi.1] at f
      have hs : x.state = (s.swi i).state := hx.resolve_right fun hu => hu e he hi.1.symm
      refine ⟨ht.elim id (fun t => t.1.trans f.1), ?_⟩
      rw [hs]
      exact f.2
    · exact f
  · rw [swi_setSwi] at hj ⊢
    split at hj
    · next hi =>
      rw [if_pos hi]
      rcases ht with ht | ht
      · exact absurd ht hj
      · rw [ht.2]
        exact h.2.2 i (ht.1 ▸ hj)
    · next hi =>
      rw [if_neg hi]
      exact h.2.2 j hj

theorem setSwi_same_keeps (s : State) (i : Nat) (x : Switch) (hs : x.state = (s.swi i).state)
    (ht : x.testStart = none ∨ x.testStart = (s.swi i).testStart) : Keeps s (s.setSwi i x) :=
  keeps_of_wait rfl rfl fun h => setSwi_wait h (ht.imp id fun e => ⟨e, hs⟩) (Or.inl hs)

/-- A switch put into another state, where it had none that goes with an entry or a test. -/
theorem setSwi_change_keeps (s : State) (i : Nat) (x : Switch) (ht : x.testStart = (s.swi i).testStart)
    (h1 : (s.swi i).state ≠ .queued) (h2 : (s.swi i).state ≠ .resetQueued) (h3 : (s.swi i).state ≠ .ready) : Keeps s (s.setSwi i x) :=
  keeps_of_wait rfl rfl fun h => by
    obtain ⟨a, b⟩ := unqueued_of_state h h1 h2 h3
    exact setSwi_wait h (Or.inl (ht.trans b)) (Or.inr a)

/-- A switch put into another state, where it has no entry and no test. -/
theorem setSwi_free_keeps (s : State) (i : Nat) (x : Switch) (ht : x.testStart = none) (hu : s.unqueued i) : Keeps s (s.setSwi i x) :=
  keeps_of_wait rfl rfl fun h => setSwi_wait h (Or.inl ht) (Or.inr hu)

theorem dropEntry_wait {s : State} (i : Nat) (h : s.waitLaw) : (dropEntry i s).waitLaw :=
  ⟨(List.filter_sublist.map _).nodup h.1, fun e he => h.2.1 e (List.mem_filter.1 he).1, h.2.2⟩

theorem dropEntry_keeps (i : Nat) (s : State) : Keeps s (dropEntry i s) := keeps_of_wait rfl rfl (dropEntry_wait i)

theorem dropEntry_unqueued (i : Nat) (s : State) : (dropEntry i s).unqueued i := fun e he => by
  simpa using (List.mem_filter.1 he).2

theorem insertEntry_perm (e : QueueEntry) : ∀ l : List QueueEntry, (insertEntry e l).Perm (e :: l)
  | [] => List.Perm.refl _
  | x :: l => by
    unfold insertEntry
    split
    · exact List.Perm.refl _
    · exact ((insertEntry_perm e l).cons x).trans (List.Perm.swap _ _ _)

theorem insertByAge_perm (e : QueueEntry) : ∀ l : List QueueEntry, (insertByAge e l).Perm (e :: l)
  | [] => List.Perm.refl _
  | x :: l => by
    unfold insertByAge
    split
    · exact ((insertByAge_perm e l).cons x).trans (List.Perm.swap _ _ _)
    · exact List.Perm.refl _

/-- A fitting entry put into the queue of a switch that has none. -/
theorem queue_wait {s : State} {q : List QueueEntry} {e : QueueEntry} (h : s.waitLaw) (hu : s.unqueued e.switch)
    (he : e.fits (s.swi e.switch)) (p : q.Perm (e :: s.sw.queue)) : ({ s with sw := { s.sw with queue := q } } : State).waitLaw := by
  refine ⟨?_, fun x hx => ?_, h.2.2⟩
  · refine ((p.map _).nodup_iff).2 ?_
    rw [List.map_cons, List.nodup_cons]
    refine ⟨fun hm => ?_, h.1⟩
    obtain ⟨x, hx, hs⟩ := List.mem_map.1 hm
    exact hu x hx hs
  · rcases List.mem_cons.1 (p.subset hx) with rfl | hx
    · exact he
    · exact h.2.1 x hx

theorem entryOf_some {s : State} {i : Nat} {e : QueueEntry} (h : s.entryOf i = some e) : e ∈ s.sw.queue ∧ e.switch = i :=
  ⟨List.mem_of_find?_eq_some h, by simpa using List.find?_some h⟩

theorem raiseEntry_keeps (i : Nat) (s : State) : Keeps s (raiseEntry i s) := by
  unfold raiseEntry
  split
  · exact Keeps.refl _
  · next e he =>
    obtain ⟨hm, hi⟩ := entryOf_some he
    subst hi
    exact keeps_of_wait rfl rfl fun h =>
      queue_wait (e := { e with cls := 1 }) (dropEntry_wait e.switch h) (dropEntry_unqueued _ s) (h.2.1 e hm) (insertByAge_perm _ _)

/-! ## Supervision and tests -/

theorem changeSupervision_keeps (i : Nat) (c : SwitchSettings) (new : SupervisionState) (count sample limit : Nat) (s : State) :
    Keeps s (changeSupervision i c new count sample limit s) :=
  ((setSwi_same_keeps _ _ _ (by rfl) (Or.inr (by rfl))).trans (request_keeps _ _)).trans (syncSwitchPoints_keeps _ _)

theorem loseTest_keeps (i : Nat) (s : State) : Keeps s (loseTest i s) := by
  unfold loseTest
  split
  · exact Keeps.refl _
  · extract_lets n src s1
    have h1 : Keeps s s1 := setSwi_same_keeps _ _ _ (by rfl) (Or.inr (by rfl))
    clear_value s1 n
    exact ite_rel (Keeps.refl _) (ite_rel (h1.trans (changeSupervision_keeps _ _ _ _ _ _ _)) h1)

theorem freeChannel_keeps (i : Nat) (s : State) : Keeps s (freeChannel i s) := by
  unfold freeChannel
  split
  · exact Keeps.refl _
  · exact setChan_keeps _ _ _

theorem cutTest_keeps (i : Nat) (s : State) : Keeps s (cutTest i s) :=
  (setSwi_same_keeps _ _ _ (by rfl) (Or.inl (by rfl))).trans (freeChannel_keeps _ _)

theorem giveUpTest_keeps (i : Nat) (s : State) : Keeps s (giveUpTest i s) := by
  unfold giveUpTest
  refine ite_rel ((cutTest_keeps _ _).trans (loseTest_keeps _ _)) ?_
  split
  · exact ite_rel ((dropEntry_keeps _ _).trans (loseTest_keeps _ _)) (Keeps.refl _)
  · exact Keeps.refl _

/-- What the loss of a test leaves: the queue, and of every switch its state and its test. -/
structure TestStep (s t : State) : Prop where
  queue : t.sw.queue = s.sw.queue
  state : ∀ j, (t.swi j).state = (s.swi j).state
  test : ∀ j, (t.swi j).testStart = (s.swi j).testStart

theorem TestStep.refl (s : State) : TestStep s s := ⟨rfl, fun _ => rfl, fun _ => rfl⟩
theorem TestStep.trans {s t u : State} (a : TestStep s t) (b : TestStep t u) : TestStep s u :=
  ⟨b.queue.trans a.queue, fun j => (b.state j).trans (a.state j), fun j => (b.test j).trans (a.test j)⟩

theorem testStep_of_sw {s t : State} (h : t.sw = s.sw) : TestStep s t :=
  ⟨by rw [h], fun j => by unfold State.swi; rw [h], fun j => by unfold State.swi; rw [h]⟩

theorem setSwi_testStep (s : State) (i : Nat) (x : Switch) (hs : x.state = (s.swi i).state) (ht : x.testStart = (s.swi i).testStart) :
    TestStep s (s.setSwi i x) :=
  ⟨rfl, fun j => look_put_map Switch.state s.sw.switches i x hs j, fun j => look_put_map Switch.testStart s.sw.switches i x ht j⟩

theorem loseTest_testStep (i : Nat) (s : State) : TestStep s (loseTest i s) := by
  unfold loseTest
  split
  · exact TestStep.refl _
  · extract_lets n src s1
    have h1 : TestStep s s1 := setSwi_testStep _ _ _ (by rfl) (by rfl)
    clear_value s1 n
    refine ite_rel (TestStep.refl _) (ite_rel (h1.trans ?_) h1)
    unfold changeSupervision
    extract_lets old src2 s2
    have h2 : TestStep s1 s2 := setSwi_testStep _ _ _ (by rfl) (by rfl)
    exact h2.trans (testStep_of_sw (syncSwitchPoints_sw _ _))

/-- A switch whose test is given up has none; READY, it has no entry either. -/
theorem giveUpTest_free (i : Nat) {s : State} (h : s.waitLaw) :
    ((giveUpTest i s).swi i).testStart = none ∧ ((s.swi i).state = .ready → (giveUpTest i s).unqueued i) ∧
      ((giveUpTest i s).swi i).state = (s.swi i).state := by
  unfold giveUpTest
  split
  · next ht =>
    have hu : s.unqueued i := fun e he hi => by
      have := (h.2.1 e he).1
      rw [hi] at this
      rw [this] at ht
      cases ht
    have l := loseTest_testStep i (cutTest i s)
    have c : ((cutTest i s).swi i).testStart = none ∧ ((cutTest i s).swi i).state = (s.swi i).state ∧
        (cutTest i s).sw.queue = s.sw.queue := by
      have key : ((s.setSwi i { s.swi i with testStart := none }).swi i).testStart = none ∧
          ((s.setSwi i { s.swi i with testStart := none }).swi i).state = (s.swi i).state := by
        rw [swi_setSwi]
        split
        · exact ⟨rfl, rfl⟩
        · next hn =>
          refine ⟨?_, rfl⟩
          unfold State.swi
          rw [look_beyond _ _ (by omega)]
          rfl
      unfold cutTest freeChannel
      split
      · exact ⟨key.1, key.2, rfl⟩
      · exact ⟨key.1, key.2, rfl⟩
    refine ⟨(l.test i).trans c.1, fun _ e he => ?_, (l.state i).trans c.2.1⟩
    rw [l.queue, c.2.2] at he
    exact hu e he
  · next ht =>
    have ht' : (s.swi i).testStart = none := by simpa using ht
    split
    · next e he =>
      obtain ⟨hm, hi⟩ := entryOf_some he
      have f := h.2.1 e hm
      rw [hi] at f
      split
      · have l := loseTest_testStep i (dropEntry i s)
        refine ⟨(l.test i).trans ht', fun _ x hx => ?_, l.state i⟩
        rw [l.queue] at hx
        exact dropEntry_unqueued i s x hx
      · next hk =>
        refine ⟨ht', fun hr => ?_, rfl⟩
        exfalso
        have := f.2
        rw [hr] at this
        split at this
        · cases this
        · cases this
        · next hk' => exact hk hk'
    · next hn => exact ⟨ht', fun _ => (unqueued_iff s i).1 hn, rfl⟩

/-! ## Trip requests and the coil driver -/

theorem absorbRequest_keeps (i : Nat) (c : SwitchSettings) (source : Source) (s : State) :
    Keeps s (absorbRequest i c source s) := by
  unfold absorbRequest
  extract_lets x s1
  have h1 : Keeps s s1 := setSwi_same_keeps _ _ _ (by rfl) (Or.inr (by rfl))
  clear_value s1
  split
  · exact ite_rel (h1.trans (raiseEntry_keeps _ _)) h1
  · exact h1

theorem waitLaw_lt {s : State} {i : Nat} {c : SwitchSettings} (h : s.swSet i = some c) : i < 48 := by
  by_contra hn
  unfold State.swSet at h
  rw [look_beyond _ _ (by omega)] at h
  cases h

theorem queueTrip_keeps (i : Nat) (c : SwitchSettings) (source : Source) (s : State) (hi : i < 48) :
    Keeps s (queueTrip i c source s) := by
  unfold queueTrip
  extract_lets s1
  have h1 : Keeps s s1 := (giveUpTest_keeps _ _).trans (dropEntry_keeps _ _)
  refine Keeps.trans (fun l => ?_) (syncSwitchPoints_keeps _ _)
  have l1 := h1 l
  have hu : s1.unqueued i := dropEntry_unqueued _ _
  have ht : (s1.swi i).testStart = none := (giveUpTest_free i l.1).1
  let s2 := s1.setSwi i { s1.swi i with state := .queued }
  have l2 : s2.listLaws := setSwi_free_keeps _ _ _ ht hu l1
  refine keeps_of_wait (s := s2) rfl rfl (fun w => ?_) l2
  refine queue_wait (s := s2) (e := { switch := i, kind := .trip, cls := requestClass c source, joined := s1.clock.elapsed, joinedHall := s1.now, source := source }) w (fun e he => hu e he) ?_ (insertEntry_perm _ s1.sw.queue)
  have : s2.swi i = { s1.swi i with state := .queued } := by simp only [s2]; rw [swi_setSwi, if_pos ⟨rfl, hi⟩]
  show QueueEntry.fits _ (s2.swi i)
  rw [this]
  exact ⟨ht, rfl⟩

section
variable {again : State → State}

theorem tripRequest_keeps (ha : ∀ s, Keeps s (again s)) (source : Source) (i : Nat) (s : State) :
    Keeps s (tripRequest again source i s) := by
  unfold tripRequest
  split
  · exact Keeps.refl _
  · next c hc =>
    refine ite_rel (Keeps.refl _) ?_
    split
    · exact requestSwitch_keeps _ _ _ _ _ _ _ _ _ _
    · exact (queueTrip_keeps _ _ _ _ (waitLaw_lt hc)).trans (ha _)
    · exact (queueTrip_keeps _ _ _ _ (waitLaw_lt hc)).trans (ha _)
    · exact absorbRequest_keeps _ _ _ _

theorem requestSuccessors_keeps (ha : ∀ s, Keeps s (again s)) (i : Nat) (c : SwitchSettings) (wanted : Trigger → Bool)
    (s : State) : Keeps s (requestSuccessors again i c wanted s) :=
  ite_rel (Keeps.refl _) (foldl_keeps _ (fun s (x : Nat × Trigger) => tripRequest_keeps ha (.cascade i) x.1 s) _ _)

theorem confirmHold_keeps (ha : ∀ s, Keeps s (again s)) (i : Nat) (c : SwitchSettings) (s : State) :
    Keeps s (confirmHold again i c s) := by
  unfold confirmHold
  extract_lets src s1
  have h1 : Keeps s s1 := setSwi_same_keeps _ _ _ (by rfl) (Or.inr (by rfl))
  clear_value s1
  exact (h1.trans (requestSwitch_keeps _ _ _ _ _ _ _ _ _ _)).trans (requestSuccessors_keeps ha _ _ _ _)

theorem startTrip_keeps (ha : ∀ s, Keeps s (again s)) (e : QueueEntry) (c : SwitchSettings) (s : State)
    (hu : s.unqueued e.switch) (ht : (s.swi e.switch).testStart = none) : Keeps s (startTrip again e c s) := by
  unfold startTrip
  extract_lets i hold src s1 s2 s3
  have h1 : Keeps s s1 := setSwi_free_keeps _ _ _ ht hu
  have h2 : Keeps s s2 := (h1.trans (requestSwitch_keeps _ _ _ _ _ _ _ _ _ _)).trans (syncSwitchPoints_keeps _ _)
  clear_value s2
  have h3 : Keeps s s3 := h2.trans (requestSuccessors_keeps ha _ _ _ _)
  clear_value s3
  exact ite_rel (h3.trans (confirmHold_keeps ha _ _ _)) h3

theorem startReset_keeps (i : Nat) (s : State) (hu : s.unqueued i) (ht : (s.swi i).testStart = none) : Keeps s (startReset i s) := by
  unfold startReset
  refine Keeps.trans ?_ (syncSwitchPoints_keeps _ _)
  exact setSwi_free_keeps s i _ ht hu

theorem startTest_keeps (i : Nat) (s : State) (hu : s.unqueued i) (hr : (s.swi i).state = .ready) : Keeps s (startTest i s) := by
  unfold startTest
  extract_lets src s1
  have h1 : Keeps s s1 := keeps_of_wait rfl rfl fun h => by
    refine ⟨h.1, fun e he => ?_, fun j hj => ?_⟩
    · have : s1.swi e.switch = s.swi e.switch := by
        simp only [s1]
        rw [swi_setSwi, if_neg (fun x => hu e he x.1.symm)]
      rw [this]
      exact h.2.1 e he
    · simp only [s1] at hj ⊢
      rw [swi_setSwi] at hj ⊢
      split at hj
      · next hi => rw [if_pos hi]; exact hr
      · next hi => rw [if_neg hi]; exact h.2.2 j hj
  clear_value s1
  split
  · exact h1
  · exact h1.trans (setChan_keeps _ _ _)

theorem startEntry_keeps (ha : ∀ s, Keeps s (again s)) (e : QueueEntry) (s : State) (he : e ∈ s.sw.queue) :
    Keeps s (startEntry again e s) := by
  intro l
  unfold startEntry
  extract_lets s1 src s2
  have f := l.1.2.1 e he
  have l2 : s2.listLaws := keeps_of_fields (s := s1) rfl rfl rfl rfl (dropEntry_keeps _ _ l)
  have hu : s2.unqueued e.switch := dropEntry_unqueued e.switch s
  have hx : s2.swi e.switch = s.swi e.switch := rfl
  clear_value s2
  rw [← hx] at f
  obtain ⟨ht, hk⟩ := f
  generalize e.kind = k at hk ⊢
  cases k
  · simp only
    split
    · exact startTrip_keeps ha _ _ _ hu ht l2
    · exact l2
  · exact startReset_keeps _ _ hu ht l2
  · exact startTest_keeps _ _ hu hk l2

end

theorem lookAtQueue_keeps : ∀ (n : Nat) (s : State), Keeps s (lookAtQueue n s)
  | 0, s => Keeps.refl s
  | n + 1, s => by
    unfold lookAtQueue
    refine ite_rel (Keeps.refl _) ?_
    split
    · exact Keeps.refl _
    · next e h =>
      have hm : e ∈ s.sw.queue := by
        unfold State.nextStart at h
        split at h
        · exact List.mem_of_find?_eq_some h
        · cases h
      exact (startEntry_keeps (lookAtQueue_keeps n) _ _ hm).trans (lookAtQueue_keeps n _)

theorem runQueue_keeps (s : State) : Keeps s (runQueue s) := lookAtQueue_keeps 5 s

theorem requestTrip_keeps (source : Source) (i : Nat) (s : State) : Keeps s (requestTrip source i s) :=
  tripRequest_keeps runQueue_keeps _ _ _

/-! ## Pulses and feedback -/

/-- A switch's state changed where none of those that go with an entry or a test stood. -/
theorem setSwitchState_keeps (i : Nat) (x : SwitchState) (s : State) (h1 : (s.swi i).state ≠ .queued)
    (h2 : (s.swi i).state ≠ .resetQueued) (h3 : (s.swi i).state ≠ .ready) : Keeps s (setSwitchState i x s) :=
  setSwi_change_keeps _ _ _ (by rfl) h1 h2 h3

theorem recloseBreaker_keeps (i : Nat) (c : SwitchSettings) (s : State) : Keeps s (recloseBreaker i c s) := by
  unfold recloseBreaker
  split
  · next h =>
    have hc : (s.swi i).state = .confirmed := by
      rw [Bool.and_eq_true, beq_iff_eq] at h
      exact h.1
    exact ((setSwitchState_keeps _ _ _ (by rw [hc]; nofun) (by rw [hc]; nofun) (by rw [hc]; nofun)).trans
      (requestSwitch_keeps _ _ _ _ _ _ _ _ _ _)).trans (syncSwitchPoints_keeps _ _)
  · exact Keeps.refl _

theorem confirmPulse_keeps (i : Nat) (c : SwitchSettings) (s : State) (hp : (s.swi i).state = .pulsing) :
    Keeps s (confirmPulse i c s) := by
  unfold confirmPulse
  extract_lets x length s1 s2
  have h1 : Keeps s s1 := setSwi_change_keeps _ _ _ (by rfl) (by rw [hp]; nofun) (by rw [hp]; nofun) (by rw [hp]; nofun)
  have h2 : Keeps s s2 := (h1.trans (requestSwitch_keeps _ _ _ _ _ _ _ _ _ _)).trans (syncSwitchPoints_keeps _ _)
  exact ((h2.trans (requestSuccessors_keeps runQueue_keeps _ _ _ _)).trans (recloseBreaker_keeps _ _ _)).trans (runQueue_keeps _)

theorem failPulse_keeps (i : Nat) (c : SwitchSettings) (s : State) (hp : (s.swi i).state = .pulsing) : Keeps s (failPulse i c s) := by
  unfold failPulse
  extract_lets x q failed s1 s2 s3
  have h1 : Keeps s s1 := setSwi_change_keeps _ _ _ (by rfl) (by rw [hp]; nofun) (by rw [hp]; nofun) (by rw [hp]; nofun)
  have h2 : Keeps s s2 := (h1.trans (requestSwitch_keeps _ _ _ _ _ _ _ _ _ _)).trans (syncSwitchPoints_keeps _ _)
  have h3 : Keeps s s3 := by
    simp only [s3]
    split
    · exact ite_rel (h2.trans (requestTrip_keeps _ _ _)) h2
    · exact h2
  exact h3.trans (runQueue_keeps _)

theorem lateConfirm_keeps (i : Nat) (c : SwitchSettings) (s : State) (hp : (s.swi i).state = .failed ∨ (s.swi i).state = .unconfirmed) :
    Keeps s (lateConfirm i c s) := by
  unfold lateConfirm
  extract_lets x t s1 s2 s3
  have h1 : Keeps s s1 := keeps_of_fields (by rfl) (by rfl) (by rfl) (by rfl)
  have hp1 : (s1.swi i).state = .failed ∨ (s1.swi i).state = .unconfirmed := hp
  have h2 : Keeps s s2 := h1.trans (setSwi_change_keeps _ _ _ (by rfl) (by rcases hp1 with h | h <;> rw [h] <;> nofun)
    (by rcases hp1 with h | h <;> rw [h] <;> nofun) (by rcases hp1 with h | h <;> rw [h] <;> nofun))
  have h3 : Keeps s s3 := (h2.trans (requestSwitch_keeps _ _ _ _ _ _ _ _ _ _)).trans (syncSwitchPoints_keeps _ _)
  exact h3.trans (requestSuccessors_keeps runQueue_keeps _ _ _ _)

/-- What giving up a test leaves of queue and switches: the switch's TEST entry goes, its test ends, every state stays. -/
theorem giveUpTest_leaves (i : Nat) (u : State) (hk : ∀ e ∈ u.sw.queue, e.switch = i → e.kind = .test ∧ (u.swi i).testStart = none) :
    (∀ e ∈ (giveUpTest i u).sw.queue, e ∈ u.sw.queue ∧ e.switch ≠ i) ∧ (u.queueLaw → (giveUpTest i u).queueLaw) ∧
      (∀ j, ((giveUpTest i u).swi j).state = (u.swi j).state) ∧ ((giveUpTest i u).swi i).testStart = none ∧
      ∀ j, j ≠ i → ((giveUpTest i u).swi j).testStart = (u.swi j).testStart := by
  unfold giveUpTest
  split
  · next ht =>
    have hu : u.unqueued i := fun e he hi => by
      rw [(hk e he hi).2] at ht
      cases ht
    have l := loseTest_testStep i (cutTest i u)
    have c : (cutTest i u).sw = (u.setSwi i { u.swi i with testStart := none }).sw := by
      unfold cutTest freeChannel
      split <;> rfl
    have cs : ∀ j, (cutTest i u).swi j = (u.setSwi i { u.swi i with testStart := none }).swi j := fun j =>
      congrArg (fun x : Switches => look x.switches j) c
    refine ⟨fun e he => ?_, fun h => ?_, fun j => ?_, ?_, fun j hj => ?_⟩
    · rw [l.queue, c] at he
      exact ⟨he, hu e he⟩
    · unfold State.queueLaw
      rw [l.queue, c]
      exact h
    · rw [l.state, cs, swi_setSwi]
      split
      · next e => rw [e.1]
      · rfl
    · rw [l.test, cs, swi_setSwi]
      split
      · rfl
      · unfold State.swi
        rw [look_beyond _ _ (by omega)]
        rfl
    · rw [l.test, cs, swi_setSwi, if_neg (fun e => hj e.1.symm)]
  · next ht =>
    have ht' : (u.swi i).testStart = none := by simpa using ht
    split
    · next e he =>
      obtain ⟨hm, hi⟩ := entryOf_some he
      rw [if_pos (hk e hm hi).1]
      have l := loseTest_testStep i (dropEntry i u)
      refine ⟨fun x hx => ?_, fun h => ?_, l.state, (l.test i).trans ht', fun j _ => l.test j⟩
      · rw [l.queue] at hx
        exact ⟨(List.mem_filter.1 hx).1, dropEntry_unqueued i u x hx⟩
      · unfold State.queueLaw
        rw [l.queue]
        exact (List.filter_sublist.map _).nodup h
    · next hn => exact ⟨fun x hx => ⟨hx, (unqueued_iff u i).1 hn x hx⟩, id, fun _ => rfl, ht', fun _ _ => rfl⟩

/-- The laws of shelf list, groups and inputs alone. -/
def KeepsWin (s t : State) : Prop := s.shelfLaw ∧ s.alarmLaw → t.shelfLaw ∧ t.alarmLaw

theorem KeepsWin.refl (s : State) : KeepsWin s s := id
theorem KeepsWin.trans {s t u : State} (a : KeepsWin s t) (b : KeepsWin t u) : KeepsWin s u := fun h => b (a h)

theorem keepsWin_of_fields {s t : State} (hs : t.settings.live = s.settings.live) (hw : t.win = s.win) : KeepsWin s t := fun h =>
  ⟨by unfold State.shelfLaw at *; rw [hw]; exact h.1, alarmLaw_congr (by rw [hw]) (by rw [hw]) hs h.2⟩

theorem setSystemPoint_keepsWin (n : Nat) (v : Bool) (s : State) : KeepsWin s (setSystemPoint n v s) := by
  have take : ∀ u : State, KeepsWin u (windowsTake n s.now false u) := fun u h => by
    refine ⟨?_, (alarmLaw_iff _).2 (windowsTake_law (fun _ => trivial) ((alarmLaw_iff _).1 h.2) _ _ _)⟩
    have := windowsTake_shelf n s.now false u
    unfold State.shelfLaw SameShelf at *
    rw [this]
    exact h.1
  exact ite_rel (KeepsWin.refl _) (KeepsWin.trans (keepsWin_of_fields (by rfl) (by rfl)) (take _))

theorem syncSwitchPoints_keepsWin (i : Nat) (s : State) : KeepsWin s (syncSwitchPoints i s) :=
  (setSystemPoint_keepsWin _ _ _).trans (setSystemPoint_keepsWin _ _ _)

theorem loseTest_keepsWin (i : Nat) (s : State) : KeepsWin s (loseTest i s) := by
  unfold loseTest
  split
  · exact KeepsWin.refl _
  · refine ite_rel (KeepsWin.refl _) (ite_rel ?_ (keepsWin_of_fields (by rfl) (by rfl)))
    exact KeepsWin.trans (keepsWin_of_fields (by rfl) (by rfl)) (syncSwitchPoints_keepsWin _ _)

theorem giveUpTest_keepsWin (i : Nat) (s : State) : KeepsWin s (giveUpTest i s) := by
  unfold giveUpTest
  refine ite_rel (KeepsWin.trans (keepsWin_of_fields ?_ ?_) (loseTest_keepsWin _ _)) ?_
  · unfold cutTest freeChannel; split <;> rfl
  · unfold cutTest freeChannel; split <;> rfl
  · split
    · exact ite_rel (KeepsWin.trans (keepsWin_of_fields (by rfl) (by rfl)) (loseTest_keepsWin _ _)) (KeepsWin.refl _)
    · exact KeepsWin.refl _

/-- A LOCKOUT found operated gives up its test, so that neither an entry nor a test is left beside LOCKED-OUT. -/
theorem foundOperated_keeps (i : Nat) (c : SwitchSettings) (s : State) (hr : (s.swi i).state = .ready) :
    Keeps s (foundOperated i c s) := by
  intro l
  let s1 := enterLockedOut i c s
  change (runQueue (giveUpTest i (syncSwitchPoints i s1))).listLaws
  refine runQueue_keeps _ ?_
  have hsw : (syncSwitchPoints i s1).sw = (s.setSwi i { s.swi i with state := .lockedOut }).sw := syncSwitchPoints_sw _ _
  have hi : i < 48 := by
    by_contra hn
    unfold State.swi at hr
    rw [look_beyond _ _ (by omega)] at hr
    cases hr
  have hswi : ∀ j, (syncSwitchPoints i s1).swi j = if i = j ∧ j < 48 then { s.swi i with state := .lockedOut } else s.swi j := fun j => by
    have := swi_setSwi s i j { s.swi i with state := .lockedOut }
    unfold State.swi at *
    rw [hsw]
    exact this
  have win : KeepsWin s (giveUpTest i (syncSwitchPoints i s1)) :=
    (KeepsWin.trans (keepsWin_of_fields (by rfl) (by rfl)) (syncSwitchPoints_keepsWin i s1)).trans (giveUpTest_keepsWin _ _)
  have hself : (syncSwitchPoints i s1).swi i = { s.swi i with state := .lockedOut } := by rw [hswi, if_pos ⟨rfl, hi⟩]
  have hk : ∀ e ∈ (syncSwitchPoints i s1).sw.queue, e.switch = i → e.kind = .test ∧ ((syncSwitchPoints i s1).swi i).testStart = none := by
    intro e he hei
    rw [hsw] at he
    have f := l.1.2.1 e he
    rw [hei] at f
    rw [hself]
    refine ⟨?_, f.1⟩
    have := f.2
    rw [hr] at this
    generalize e.kind = k at this ⊢
    cases k
    · cases this
    · cases this
    · rfl
  obtain ⟨a, b, d, e, f⟩ := giveUpTest_leaves i (syncSwitchPoints i s1) hk
  refine ⟨⟨b ?_, fun x hx => ?_, fun j hj => ?_⟩, win l.2⟩
  · unfold State.queueLaw
    rw [hsw]
    exact l.1.1
  · obtain ⟨hx', hxi⟩ := a x hx
    rw [hsw] at hx'
    have fit := l.1.2.1 x hx'
    have hne : ¬(i = x.switch ∧ x.switch < 48) := fun y => hxi y.1.symm
    refine ⟨?_, ?_⟩
    · rw [f _ hxi, hswi, if_neg hne]
      exact fit.1
    · rw [d, hswi, if_neg hne]
      exact fit.2
  · by_cases hji : j = i
    · subst hji
      exact absurd e hj
    · have hne : ¬(i = j ∧ j < 48) := fun y => hji y.1.symm
      rw [d, hswi, if_neg hne]
      rw [f _ hji, hswi, if_neg hne] at hj
      exact l.1.2.2 j hj

theorem settleSwitch_keeps (i : Nat) (c : SwitchSettings) (s : State) : Keeps s (settleSwitch i c s) := by
  unfold settleSwitch
  split
  · next h =>
    have hc : (s.swi i).state = .settling := by
      rw [Bool.and_eq_true, beq_iff_eq] at h
      exact h.1
    exact ((setSwitchState_keeps _ _ _ (by rw [hc]; nofun) (by rw [hc]; nofun) (by rw [hc]; nofun)).trans
      (requestSwitch_keeps _ _ _ _ _ _ _ _ _ _)).trans (syncSwitchPoints_keeps _ _)
  · exact Keeps.refl _

theorem takeFeedback_keeps (s : State) (i : Nat) : Keeps s (takeFeedback s i) := by
  unfold takeFeedback
  split
  · exact Keeps.refl _
  · split
    · next hp =>
      extract_lets src s1
      have h1 : Keeps s s1 := setSwi_same_keeps _ _ _ (by rfl) (Or.inr (by rfl))
      have hp1 : (s1.swi i).state = .pulsing := by
        simp only [s1]
        rw [swi_setSwi]
        split <;> exact hp
      clear_value s1
      exact ite_rel (ite_rel (h1.trans (confirmPulse_keeps _ _ _ hp1)) h1) (Keeps.refl _)
    · next hp => exact ite_rel (lateConfirm_keeps _ _ _ (Or.inl hp)) (Keeps.refl _)
    · next hp => exact ite_rel (lateConfirm_keeps _ _ _ (Or.inr hp)) (Keeps.refl _)
    · exact recloseBreaker_keeps _ _ _
    · exact ite_rel (confirmHold_keeps runQueue_keeps _ _ _) (Keeps.refl _)
    · exact settleSwitch_keeps _ _ _
    · next hp => exact ite_rel (foundOperated_keeps _ _ _ hp) (Keeps.refl _)
    all_goals exact Keeps.refl _

theorem switchesTake_keeps (n : Nat) (s : State) : Keeps s (switchesTake n s) := foldl_keeps _ takeFeedback_keeps _ _

theorem endReset_keeps (i : Nat) (c : SwitchSettings) (s : State) (hp : (s.swi i).state = .resetPulsing) : Keeps s (endReset i c s) :=
  (((setSwi_change_keeps _ _ _ (by rfl) (by rw [hp]; nofun) (by rw [hp]; nofun) (by rw [hp]; nofun)).trans
    (requestSwitch_keeps _ _ _ _ _ _ _ _ _ _)).trans (syncSwitchPoints_keeps _ _)).trans (runQueue_keeps _)

/-- A TEST entry joins the queue of a READY switch that has none and no test in flight. -/
theorem queueTest_keeps (i : Nat) (s : State) (h : s.testTaken i = true) : Keeps s (queueTest i s) := by
  unfold State.testTaken at h
  simp only [Bool.and_eq_true, beq_iff_eq, Option.isNone_iff_eq_none] at h
  unfold queueTest
  refine Keeps.trans (t := joinQueue i .test 4 (.order 0) s) (keeps_of_wait rfl rfl fun w => ?_) (runQueue_keeps _)
  exact queue_wait (e := { switch := i, kind := .test, cls := 4, joined := s.clock.elapsed, joinedHall := s.now, source := .order 0 }) w
    ((unqueued_iff s i).1 h.1.2) ⟨h.2, h.1.1⟩ (insertEntry_perm _ s.sw.queue)

theorem tick_keeps (i : Nat) (c : SwitchSettings) (s : State) : Keeps s (tick i c s) := by
  unfold tick
  extract_lets src s1
  have h1 : Keeps s s1 := setSwi_same_keeps _ _ _ (by rfl) (Or.inr (by rfl))
  clear_value s1
  split
  · next h => exact h1.trans (queueTest_keeps _ _ h)
  · exact h1.trans (loseTest_keeps _ _)

theorem judgeTest_keeps (i : Nat) (c : SwitchSettings) (ch : Nat) (v : BitVec 10) (s : State) : Keeps s (judgeTest i c ch v s) := by
  unfold judgeTest
  extract_lets limit new src s1
  have h1 : Keeps s s1 := setSwi_same_keeps _ _ _ (by rfl) (Or.inr (by rfl))
  exact ite_rel h1 (h1.trans (changeSupervision_keeps _ _ _ _ _ _ _))

theorem endTest_keeps (i : Nat) (c : SwitchSettings) (ch : Nat) (v : BitVec 10) (s : State) : Keeps s (endTest i c ch v s) := by
  unfold endTest
  extract_lets src s1 src2 s2
  have h1 : Keeps s s1 := setSwi_same_keeps _ _ _ (by rfl) (Or.inl (by rfl))
  have h2 : Keeps s s2 := h1.trans (setChan_keeps _ _ _)
  exact ite_rel h2 ((h2.trans (judgeTest_keeps _ _ _ _ _)).trans (runQueue_keeps _))

/-! ## Orders of the switch controller -/

theorem releaseHold_keeps (i : Nat) (c : SwitchSettings) (s : State) (hp : (s.swi i).state = .held) : Keeps s (releaseHold i c s) :=
  Keeps.trans (setSwi_change_keeps s i { s.swi i with state := .ready, confirmedMark := false } (by rfl) (by rw [hp]; nofun)
    (by rw [hp]; nofun) (by rw [hp]; nofun)) (requestSwitch_keeps _ _ _ _ _ _ _ _ _ _)

theorem clearFailed_keeps (i : Nat) (c : SwitchSettings) (s : State) (hp : (s.swi i).state = .failed ∨ (s.swi i).state = .unconfirmed) :
    Keeps s (clearFailed i c s) := by
  unfold clearFailed
  extract_lets new
  refine Keeps.trans (setSwitchState_keeps i new s ?_ ?_ ?_) (requestSwitch_keeps _ _ _ _ _ _ _ _ _ _) <;>
    rcases hp with hp | hp <;> rw [hp] <;> nofun

theorem queueReset_keeps {i : Nat} {c : SwitchSettings} {s : State} (hc : s.swSet i = some c) (hp : (s.swi i).state = .lockedOut) :
    Keeps s (queueReset i s) := fun l => by
  obtain ⟨hu, ht⟩ := unqueued_of_state l.1 (by rw [hp]; nofun) (by rw [hp]; nofun) (by rw [hp]; nofun)
  let s2 := s.setSwi i { s.swi i with state := .resetQueued }
  have l2 : s2.listLaws := setSwi_free_keeps _ _ _ ht hu l
  refine keeps_of_wait (s := s2) rfl rfl (fun w => ?_) l2
  refine queue_wait (s := s2) (e := { switch := i, kind := .reset, cls := 3, joined := s.clock.elapsed, joinedHall := s.now, source := .order 0 }) w (fun e he => hu e he) ?_ (insertEntry_perm _ s.sw.queue)
  have : s2.swi i = { s.swi i with state := .resetQueued } := by simp only [s2]; rw [swi_setSwi, if_pos ⟨rfl, waitLaw_lt hc⟩]
  show QueueEntry.fits _ (s2.swi i)
  rw [this]
  exact ⟨ht, rfl⟩

theorem resetSwitch_keeps (i : Nat) (s : State) : Keeps s (resetSwitch i s).1 := by
  unfold resetSwitch
  split
  · exact Keeps.refl _
  · next c hc =>
    split
    · next hp => exact ((queueReset_keeps hc hp).trans (syncSwitchPoints_keeps _ _)).trans (runQueue_keeps _)
    · next hp => exact (releaseHold_keeps _ _ _ hp).trans (syncSwitchPoints_keeps _ _)
    · next hp => exact (clearFailed_keeps _ _ _ (Or.inl hp)).trans (syncSwitchPoints_keeps _ _)
    · next hp => exact (clearFailed_keeps _ _ _ (Or.inr hp)).trans (syncSwitchPoints_keeps _ _)
    all_goals exact Keeps.refl _

theorem tripManual_keeps (i slot : Nat) (s : State) : Keeps s (tripManual i slot s).1 := requestTrip_keeps _ _ _

theorem testCircuit_keeps (i : Nat) (s : State) : Keeps s (testCircuit i s).1 := by
  unfold testCircuit
  split
  · next h => exact queueTest_keeps _ _ h
  · exact Keeps.refl _

theorem markIsolated_keeps (i : Nat) (s : State) : Keeps s (markIsolated i s) :=
  Keeps.trans (setSwi_same_keeps s i { s.swi i with isolated := true } (by rfl) (Or.inr (by rfl))) (request_keeps _ _)

/-- A switch whose TRIP entry is withdrawn goes to READY without an entry and a test, and the laws stay. -/
theorem withdrawTrip_laws {i : Nat} {c : SwitchSettings} {e : QueueEntry} {s : State} (hi : i < 48) (he : s.entryOf i = some e)
    (l : s.listLaws) :
    (withdrawTrip i c e s).listLaws ∧ (withdrawTrip i c e s).unqueued i ∧
      (withdrawTrip i c e s).swi i = { s.swi i with state := .ready } ∧ (s.swi i).testStart = none := by
  obtain ⟨hm, hx⟩ := entryOf_some he
  have ht : (s.swi i).testStart = none := hx ▸ (l.1.2.1 e hm).1
  unfold withdrawTrip
  have l2 := requestSwitch_keeps i c .withheld false (some e.source) 0 0 0 0 _ (dropEntry_keeps i s l)
  have hu : (requestSwitch i c .withheld false (some e.source) 0 0 0 0 (dropEntry i s)).unqueued i := dropEntry_unqueued i s
  have hs : (requestSwitch i c .withheld false (some e.source) 0 0 0 0 (dropEntry i s)).swi i = s.swi i := rfl
  generalize requestSwitch i c .withheld false (some e.source) 0 0 0 0 (dropEntry i s) = u at *
  refine ⟨setSwi_free_keeps u i _ (hs ▸ ht) hu l2, hu, ?_, ht⟩
  unfold setSwitchState
  rw [swi_setSwi, if_pos ⟨rfl, hi⟩, hs]

/-- A switch without an entry and a test enters LOCKED-OUT. -/
theorem enterLockedOut_keeps (i : Nat) (c : SwitchSettings) (s : State) (ht : (s.swi i).testStart = none) (hu : s.unqueued i) :
    Keeps s (enterLockedOut i c s) :=
  Keeps.trans (setSwi_free_keeps s i { s.swi i with state := .lockedOut } ht hu) (requestSwitch_keeps _ _ _ _ _ _ _ _ _ _)

theorem isolateSwitch_keeps (i : Nat) (s : State) : Keeps s (isolateSwitch i s).1 := by
  unfold isolateSwitch
  split
  · exact Keeps.refl _
  · extract_lets s1
    have h1 : Keeps s s1 := markIsolated_keeps _ _
    clear_value s1
    split
    · next c e hc he =>
      split
      · extract_lets s2 s3
        intro l
        obtain ⟨l2, -, hr, -⟩ := withdrawTrip_laws (c := c) (waitLaw_lt hc) he (h1 l)
        have l3 : s2.listLaws := syncSwitchPoints_keeps _ _ l2
        have hr3 : (s2.swi i).state = .ready := by
          have : s2.swi i = (withdrawTrip i c e s1).swi i :=
            congrArg (fun x : Switches => look x.switches i) (syncSwitchPoints_sw i (withdrawTrip i c e s1))
          rw [this, hr]
        clear_value s2
        have h4 : Keeps s2 s3 := ite_rel (foundOperated_keeps _ _ _ hr3) (Keeps.refl _)
        exact runQueue_keeps _ (h4 l3)
      · exact h1
    · exact h1

theorem restoreSwitch_keeps (i : Nat) (s : State) : Keeps s (restoreSwitch i s).1 := by
  unfold restoreSwitch
  split
  · exact (setSwi_same_keeps _ _ _ (by rfl) (Or.inr (by rfl))).trans (request_keeps _ _)
  · exact Keeps.refl _

end Sys2Proof.Machine
end

