-- ==== Sys2Proof/Laws/Kept.lean ====
section
/-! SUPPORT. What every block, the orders and the swap of an adoption keep of the laws of the coil queue (R105), the shelf list (R52) and
the first-out groups (R63). -/

namespace Sys2Proof.Machine

/-! ## Terms and points handed on -/

theorem setTermState_keeps (t : Nat) (x : TermState) (s : State) : Keeps s (setTermState t x s) := setTrm_keeps _ _ _

theorem becomeActive_keeps (t : Nat) (c : TermSettings) (start : HallTime) (s : State) : Keeps s (becomeActive t c start s) :=
  ((setTermState_keeps t .active s).trans (setTrm_keeps _ _ _)).trans (request_keeps _ _)

theorem enterActive_keeps (t : Nat) (c : TermSettings) (start : HallTime) (s : State) : Keeps s (enterActive t c start s) :=
  (becomeActive_keeps t c start s).trans (foldl_keeps _ (fun s i => requestTrip_keeps _ i s) _ _)

theorem enterTiming_keeps (t : Nat) (c : TermSettings) (s : State) : Keeps s (enterTiming t c s) :=
  ite_rel (enterActive_keeps _ _ _ _) ((setTermState_keeps _ _ _).trans (setTrm_keeps _ _ _))

theorem enterIdle_keeps (t : Nat) (c : TermSettings) (s : State) : Keeps s (enterIdle t c s) :=
  ite_rel ((setTermState_keeps _ _ _).trans (enterTiming_keeps _ _ _)) (setTermState_keeps _ _ _)

theorem lookWhileHeld_keeps (t : Nat) (c : TermSettings) (s : State) : Keeps s (lookWhileHeld t c s) := by
  unfold lookWhileHeld
  extract_lets src s1
  have h1 : Keeps s s1 := setTrm_keeps _ _ _
  exact ite_rel (ite_rel (h1.trans (enterIdle_keeps _ _ _)) (h1.trans (setTermState_keeps _ _ _))) h1

theorem takePoint_keeps (s : State) (t : Nat) : Keeps s (takePoint s t) := by
  unfold takePoint
  split
  · exact Keeps.refl _
  · extract_lets x
    split
    · exact Keeps.refl _
    · exact lookWhileHeld_keeps _ _ _
    · exact Keeps.refl _
    · exact ite_rel (enterTiming_keeps _ _ _) (Keeps.refl _)
    · exact ite_rel (Keeps.refl _) ((request_keeps _ _).trans (enterIdle_keeps _ _ _))
    · exact ite_rel (Keeps.refl _) ((request_keeps _ _).trans (enterIdle_keeps _ _ _))

theorem termsTake_keeps (n : Nat) (s : State) : Keeps s (termsTake n s) := ite_rel (Keeps.refl _) (foldl_keeps _ takePoint_keeps _ _)

theorem takeMode_keeps (s : State) (t : Nat) : Keeps s (takeMode s t) := by
  unfold takeMode
  split
  · exact Keeps.refl _
  · extract_lets x mode
    refine ite_rel (ite_rel (enterIdle_keeps _ _ _) (Keeps.refl _)) ?_
    split
    · exact setTermState_keeps _ _ _
    · exact (setTermState_keeps _ _ _).trans (request_keeps _ _)
    · exact (setTermState_keeps _ _ _).trans (request_keeps _ _)
    all_goals exact Keeps.refl _

theorem takeModeAlone_keeps (s : State) (t : Nat) : Keeps s (takeModeAlone s t) := by
  unfold takeModeAlone
  split
  · exact Keeps.refl _
  · refine ite_rel ?_ (takeMode_keeps s t)
    extract_lets s1
    have h1 : Keeps s s1 := setTermState_keeps _ _ _
    exact ite_rel (h1.trans (ite_rel (becomeActive_keeps _ _ _ _) (enterTiming_keeps _ _ _))) h1

theorem setModeBy_keeps {take : State → Nat → State} (h : ∀ s t, Keeps s (take s t)) (u : Nat) (mode : Mode) (slot : Nat) (s : State) :
    Keeps s (setModeBy take u mode slot s).1 := by
  unfold setModeBy
  extract_lets old terms disarmed src s1 s2
  split
  · exact Keeps.refl _
  · have h1 : Keeps s s1 := keeps_of_fields rfl rfl rfl rfl
    exact (h1.trans (request_keeps _ _)).trans (foldl_keeps _ h _ _)

theorem setMode_keeps (u : Nat) (mode : Mode) (slot : Nat) (s : State) : Keeps s (setMode u mode slot s).1 :=
  setModeBy_keeps takeMode_keeps u mode slot s

theorem handOn_keeps (n : Nat) (time : HallTime) (standing : Bool) (s : State) : Keeps s (handOn n time standing s) :=
  ((termsTake_keeps _ _).trans (switchesTake_keeps _ _)).trans (windowsTake_keeps _ _ _ _)

/-! ## Points -/

theorem setQuality_keeps (n : Nat) (c : PointSettings) (q : LiveQuality) (time : HallTime) (s : State) :
    Keeps s (setQuality n c q time s) := by
  unfold setQuality
  extract_lets p s1 s2
  have h1 : Keeps s s1 := setPt_keeps _ _ _
  have h2 : Keeps s s2 := ite_rel (h1.trans (request_keeps _ _)) h1
  exact ite_rel (Keeps.refl _) (ite_rel h2 (h2.trans (handOn_keeps _ _ _ _)))

theorem recordChange_keeps (n : Nat) (c : PointSettings) (p : Point) (before counted : Bool) (f : ChangeFlags) (s : State) :
    Keeps s (recordChange n c p before counted f s) := by
  unfold recordChange
  extract_lets q
  split
  · exact (setPt_keeps _ _ _).trans (request_keeps _ _)
  · exact setPt_keeps _ _ _

theorem makeChange_keeps (n : Nat) (c : PointSettings) (p : Point) (before counted : Bool) (f : ChangeFlags) (w : Bool)
    (s : State) : Keeps s (makeChange n c p before counted f w s) :=
  ite_rel (setPt_keeps _ _ _) ((recordChange_keeps _ _ _ _ _ _ _).trans (handOn_keeps _ _ _ _))

theorem samplePoint_keeps (n : Nat) (c : PointSettings) (value : Bool) (time : HallTime) (elapsed : Nat) (s : State) :
    Keeps s (samplePoint n c value time elapsed s) := by
  unfold samplePoint
  extract_lets src p d
  exact ite_rel (setPt_keeps _ _ _)
    (ite_rel (makeChange_keeps _ _ _ _ _ _ _ _) (setPt_keeps _ _ _))

theorem takeDirect_keeps (n : Nat) (value : Bool) (q : LiveQuality) (time : HallTime) (s : State) :
    Keeps s (takeDirect n value q time s) := by
  unfold takeDirect
  extract_lets p s1
  have h1 : Keeps s s1 := setPt_keeps _ _ _
  exact ite_rel h1 (h1.trans (handOn_keeps _ _ _ _))

theorem sampleField_keeps (n : Nat) (closed fault : Bool) (time : HallTime) (elapsed : Nat) (s : State) :
    Keeps s (sampleField n closed fault time elapsed s) := by
  unfold sampleField
  split
  · exact Keeps.refl _
  · extract_lets q
    exact ite_rel (takeDirect_keeps _ _ _ _ _) ((setQuality_keeps _ _ _ _ _).trans (samplePoint_keeps _ _ _ _ _ _))

theorem foundField_keeps (n : Nat) (closed fault : Bool) (time : HallTime) (s : State) :
    Keeps s (foundField n closed fault time s) := by
  unfold foundField
  split
  · exact Keeps.refl _
  · exact takeDirect_keeps _ _ _ _ _

theorem regainField_keeps (n : Nat) (closed fault : Bool) (time : HallTime) (s : State) :
    Keeps s (regainField n closed fault time s) := by
  unfold regainField
  split
  · exact Keeps.refl _
  · extract_lets value q p
    exact ite_rel ((setPt_keeps _ _ _).trans (setQuality_keeps _ _ _ _ _)) (makeChange_keeps _ _ _ _ _ _ _ _)

theorem loseField_keeps (s : State) (n : Nat) : Keeps s (loseField s n) := by
  unfold loseField
  split
  · exact Keeps.refl _
  · exact (setPt_keeps _ _ _).trans (setQuality_keeps _ _ _ _ _)

theorem sampleSupervision_keeps (n : Nat) (value : Bool) (s : State) : Keeps s (sampleSupervision n value s) := by
  unfold sampleSupervision
  split
  · exact Keeps.refl _
  · exact ite_rel (takeDirect_keeps _ _ _ _ _) (samplePoint_keeps _ _ _ _ _ _)

theorem releaseChatter_keeps (s : State) (n : Nat) : Keeps s (releaseChatter s n) := by
  unfold releaseChatter
  extract_lets p s1
  have h1 : Keeps s s1 := (setPt_keeps _ _ _).trans (request_keeps _ _)
  exact h1.trans (windowsTake_keeps _ _ _ _)

/-! ## The field loop -/

theorem field_keeps (s : State) (x : FieldLoop) : Keeps s { s with field := x } :=
  keeps_of_fields rfl rfl rfl rfl

theorem setFieldCycle_keeps (s : State) (y : FieldCycle) : Keeps s (s.setFieldCycle y) := field_keeps _ _

theorem sendCall_keeps (y : FieldCycle) (address : Nat) (isRepeat : Bool) (s : State) :
    Keeps s (sendCall y address isRepeat s) := ite_rel (field_keeps _ _) (setFieldCycle_keeps _ _)

theorem handSamples_keeps (c contacts wiring : Nat) (time : HallTime) (elapsed : Nat) (s : State) :
    Keeps s (handSamples c contacts wiring time elapsed s) :=
  foldl_keeps _ (fun s n => sampleField_keeps n _ _ _ _ s) _ _

theorem foundConcentrator_keeps (c contacts wiring : Nat) (k : Concentrator) (time : HallTime) (s : State) :
    Keeps s (foundConcentrator c contacts wiring k time s) := by
  unfold foundConcentrator
  extract_lets s1 s2
  have h1 : Keeps s s1 := setConc_keeps _ _ _
  have h2 : Keeps s s2 := h1.trans (request_keeps _ _)
  exact h2.trans (foldl_keeps _ (fun s n => foundField_keeps n _ _ _ s) _ _)

theorem regainConcentrator_keeps (c contacts wiring : Nat) (k : Concentrator) (time : HallTime) (s : State) :
    Keeps s (regainConcentrator c contacts wiring k time s) := by
  unfold regainConcentrator
  extract_lets s1 differ s2 s3
  have h1 : Keeps s s1 := setConc_keeps _ _ _
  have h2 : Keeps s s2 := h1.trans (request_keeps _ _)
  have h3 : Keeps s s3 := h2.trans (setSystemPoint_keeps _ _ _)
  exact h3.trans (foldl_keeps _ (fun s n => regainField_keeps n _ _ _ s) _ _)

theorem goodCycle_keeps (c : Nat) (set : ConcentratorSettings) (contacts wiring : Nat) (y : FieldCycle) (s : State) :
    Keeps s (goodCycle c set contacts wiring y s) := by
  unfold goodCycle
  extract_lets k
  split
  · exact Keeps.refl _
  · exact foundConcentrator_keeps _ _ _ _ _ _
  · exact (setConc_keeps _ _ _).trans (handSamples_keeps _ _ _ _ _ _)
  · exact (setConc_keeps _ _ _).trans (handSamples_keeps _ _ _ _ _ _)
  · exact ite_rel (regainConcentrator_keeps _ _ _ _ _ _) (setConc_keeps _ _ _)
  · exact ite_rel (regainConcentrator_keeps _ _ _ _ _ _) (setConc_keeps _ _ _)

theorem loseConcentrator_keeps (c : Nat) (set : ConcentratorSettings) (k : Concentrator) (s : State) :
    Keeps s (loseConcentrator c set k s) := by
  unfold loseConcentrator
  extract_lets s1 s2 s3
  have h1 : Keeps s s1 := setConc_keeps _ _ _
  have h2 : Keeps s s2 := h1.trans (request_keeps _ _)
  have h3 : Keeps s s3 := h2.trans (setSystemPoint_keeps _ _ _)
  exact h3.trans (foldl_keeps _ loseField_keeps _ _)

theorem failedCycle_keeps (c : Nat) (set : ConcentratorSettings) (s : State) : Keeps s (failedCycle c set s) := by
  unfold failedCycle
  extract_lets k
  split
  · exact Keeps.refl _
  · exact setConc_keeps _ _ _
  · exact setConc_keeps _ _ _
  · exact setConc_keeps _ _ _
  · exact ite_rel (loseConcentrator_keeps _ _ _ _) (setConc_keeps _ _ _)
  · exact setConc_keeps _ _ _

theorem endCycleOf_keeps (y : FieldCycle) (s : State) (c : Nat) : Keeps s (endCycleOf y s c) := by
  unfold endCycleOf
  split
  · exact Keeps.refl _
  · extract_lets s1
    have h1 : Keeps s s1 := ite_rel (Keeps.refl _) (failedCycle_keeps _ _ _)
    exact h1.trans (setConc_keeps _ _ _)

/-! ## The panel loop -/

theorem panel_keeps (s : State) (x : PanelLoop) : Keeps s { s with panel := x } :=
  keeps_of_fields rfl rfl rfl rfl

theorem setPanelCycle_keeps (s : State) (y : PanelCycle) : Keeps s (s.setPanelCycle y) := panel_keeps _ _

theorem sendFrame_keeps (y : PanelCycle) (p : Nat) (s : State) : Keeps s (sendFrame y p s) :=
  ite_rel (panel_keeps _ _) (setPanelCycle_keeps _ _)

theorem takeKeyReply_keeps (p : Nat) (set : PanelSettings) (keys : Keys) (faults : Nat) (start : HallTime) (s : State) :
    Keeps s (takeKeyReply p set keys faults start s) := by
  unfold takeKeyReply
  extract_lets x new s1 s2
  have h1 : Keeps s s1 := setPan_keeps _ _ _
  have h2 : Keeps s s2 := by
    simp only [s2]
    split
    · exact h1.trans (request_keeps _ _)
    · exact (h1.trans (request_keeps _ _)).trans (setSystemPoint_keeps _ _ _)
    · exact h1
  exact ite_rel (h2.trans (pressKeys_keeps _ _ _ _)) h2

theorem losePanel_keeps (p : Nat) (s : State) : Keeps s (losePanel p s) := by
  unfold losePanel
  extract_lets x s1
  have h1 : Keeps s s1 := setPan_keeps _ _ _
  exact (h1.trans (request_keeps _ _)).trans (setSystemPoint_keeps _ _ _)

theorem failedPanelCycle_keeps (p : Nat) (s : State) : Keeps s (failedPanelCycle p s) := by
  unfold failedPanelCycle
  extract_lets x n s1
  have h1 : Keeps s s1 := setPan_keeps _ _ _
  exact ite_rel (h1.trans (losePanel_keeps _ _)) h1

theorem endPanelCycleOf_keeps (y : PanelCycle) (s : State) (p : Nat) : Keeps s (endPanelCycleOf y s p) :=
  ite_rel (Keeps.refl _) (failedPanelCycle_keeps _ _)

/-! ## Supervision -/

theorem sup_keeps (s : State) (x : Supervision) : Keeps s { s with sup := x } :=
  keeps_of_fields rfl rfl rfl rfl

theorem sampleChannel_keeps (samples : List (BitVec 10)) (s : State) (c : Nat) : Keeps s (sampleChannel samples s c) := by
  unfold sampleChannel
  split
  · exact Keeps.refl _
  · refine ite_rel ?_ (Keeps.refl _)
    exact ((setChan_keeps _ _ _).trans (sampleSupervision_keeps _ _ _)).trans (sampleSupervision_keeps _ _ _)

/-! ## What closes a command -/

theorem updateCondition_keeps (d : Option (TableName × Nat)) (s : State) : Keeps s (updateCondition d s) := by
  refine ite_rel (Keeps.refl _) (Keeps.trans ?_ (request_keeps _ _))
  exact keeps_of_fields rfl rfl rfl rfl

theorem handNews_keeps (s : State) : Keeps s (handNews s) := by
  refine Keeps.trans (t := { s with jr := { s.jr with news := [] } }) (keeps_of_fields rfl rfl rfl rfl) ?_
  exact foldl_keeps _ (fun s v => setSystemPoint_keeps 672 v s) _ _

theorem settleRounds_keeps : ∀ (n : Nat) (s : State), Keeps s (settleRounds n s)
  | 0, s => Keeps.refl s
  | n + 1, s => by
    unfold settleRounds
    exact ite_rel (Keeps.refl _) (((handNews_keeps _).trans (updateCondition_keeps _ _)).trans (settleRounds_keeps n _))

theorem finish_keeps (s : State) : Keeps s (finish s) := settleRounds_keeps _ _

/-! ## Table checks -/

/-- With the adopted copy as the live tables, mending an entry changes nothing (R167). -/
theorem mendEntry_same (table : TableName) (e : Nat) (s : State) (h : s.copyLaw) : mendEntry table e s = s := by
  unfold mendEntry
  simp only
  have hc : s.settings.copy = s.settings.live := h
  rw [hc]
  have pl : ∀ {α : Type} {n : Nat} [Inhabited α] (v : Vector α n), put v e (look v e) = v := by
    intro α n _ v
    unfold put look
    apply Vector.ext
    intro i hi
    rw [Vector.getElem_setIfInBounds]
    split
    · next h => subst h; rw [Vector.getElem?_eq_getElem hi]; rfl
    · rfl
  cases table <;> simp only [pl] <;> (rcases s with ⟨_, _, _, _, _, _, _, _, _, _, _, ⟨live, copy, _, _, _, _⟩, _, _, _⟩; simp only at hc; subst hc; rfl)

theorem haltPart_keeps (a b : TableName × Nat) (s : State) : Keeps s (haltPart a b s) := by
  refine Keeps.trans (request_keeps _ _) (keeps_of_wait rfl rfl fun h => ⟨List.nodup_nil, fun e he => ?_, h.2.2⟩)
  exact absurd he List.not_mem_nil

theorem uncorrectable_keeps (table : TableName) (e : Nat) (s : State) : Keeps s (uncorrectable table e s) := by
  unfold uncorrectable
  refine ite_rel (Keeps.refl _) ?_
  split
  · exact Keeps.trans (keeps_of_fields (by rfl) (by rfl) (by rfl) (by rfl)) (updateCondition_keeps _ _)
  · exact haltPart_keeps _ _ _

theorem checkEntry_keeps (table : TableName) (e : Nat) (finding : CheckFinding) (s : State) (h : s.copyLaw) :
    Keeps s (checkEntry table e finding s) := by
  unfold checkEntry
  refine ite_rel (Keeps.refl _) ?_
  split
  · exact Keeps.refl _
  · exact keeps_of_fields rfl rfl rfl rfl
  · rw [mendEntry_same _ _ _ h]
    exact uncorrectable_keeps _ _ _
  · exact (uncorrectable_keeps _ _ _).trans (uncorrectable_keeps _ _ _)

/-! ## Orders -/

theorem markStepped_keeps (s : State) : Keeps s (markStepped s) :=
  ite_rel (Keeps.trans (keeps_of_fields (by rfl) (by rfl) (by rfl) (by rfl)) (setSystemPoint_keeps _ _ _)) (Keeps.refl _)

theorem stepTime_keeps (bySync : Bool) (new : HallTime) (s : State) : Keeps s (stepTime bySync new s) := by
  unfold stepTime
  extract_lets old src s1
  have h1 : Keeps s s1 := keeps_of_fields rfl rfl rfl rfl
  clear_value s1
  exact (h1.trans (request_keeps _ _)).trans (markStepped_keeps _)

theorem markForced_keeps (n : Nat) (v : Bool) (s : State) : Keeps s (markForced n v s) := by
  unfold markForced
  extract_lets p s1 s2
  have h1 : Keeps s s1 := setPt_keeps _ _ _
  have h2 : Keeps s s2 := ite_rel (h1.trans (request_keeps _ _)) h1
  exact h2.trans (request_keeps _ _)

theorem forcePoint_keeps (n : Nat) (v : Bool) (s : State) : Keeps s (forcePoint n v s).1 :=
  (markForced_keeps n v s).trans (handOn_keeps _ _ _ _)

theorem markUnforced_keeps (n : Nat) (v : Bool) (s : State) : Keeps s (markUnforced n v s) :=
  (setPt_keeps _ _ _).trans (request_keeps _ _)

theorem releasePoint_keeps (n : Nat) (s : State) : Keeps s (releasePoint n s).1 := by
  unfold releasePoint
  extract_lets p
  split
  · extract_lets s1
    have h1 : Keeps s s1 := markUnforced_keeps _ _ _
    split
    · exact h1.trans (handOn_keeps _ _ _ _)
    · exact h1.trans (makeChange_keeps _ _ _ _ _ _ _ _)
  · exact Keeps.refl _

theorem clearCounters_keeps (scope subject : Nat) (s : State) : Keeps s (clearCounters scope subject s).1 := by
  unfold clearCounters
  extract_lets src1 src2 src3 cleared
  have h : Keeps s cleared := by
    simp only [cleared]
    split <;> exact keeps_of_fields rfl rfl rfl rfl
  exact h.trans (request_keeps _ _)

theorem clearFaultLatch_keeps (s : State) : Keeps s (clearFaultLatch s).1 := by
  unfold clearFaultLatch
  split
  · exact Keeps.refl _
  · exact Keeps.trans (keeps_of_fields (by rfl) (by rfl) (by rfl) (by rfl)) (updateCondition_keeps _ _)

/-- The effect of any order keeps the laws, a SHELVE where the list has room or holds the window (R52). -/
theorem applyOrder_keeps (k : Nat) (s : State) (o : Order)
    (h : ∀ w minutes, o = .shelve w minutes → s.shelved w = true ∨ s.win.shelf.length < 64) : Keeps s (applyOrder k s o).1 := by
  cases o <;> simp only [applyOrder]
  case adopt => exact Keeps.refl _
  case setTime => exact stepTime_keeps _ _ _
  case setMode u m =>
    split
    · exact setMode_keeps _ _ _ _
    · exact Keeps.refl _
  case ackWindows => exact offerAll_keeps (Or.inl rfl) _ _ _
  case resetWindows => exact offerAll_keeps (Or.inr rfl) _ _ _
  case silence => exact setSilence_keeps _
  case shelve w minutes => exact shelveWindow_keeps _ _ _ (h w minutes rfl)
  case unshelve => exact unshelveWindow_keeps _ _
  case resetFirstOut => exact clearGroup_keeps _ _
  case forcePoint => exact forcePoint_keeps _ _ _
  case releasePoint => exact releasePoint_keeps _ _
  case isolate => exact isolateSwitch_keeps _ _
  case restore => exact restoreSwitch_keeps _ _
  case tripManual => exact tripManual_keeps _ _ _
  case resetSwitch => exact resetSwitch_keeps _ _
  case testCircuit => exact testCircuit_keeps _ _
  case clearCounters => exact clearCounters_keeps _ _ _
  case clearFault => exact clearFaultLatch_keeps _
  case restart => exact Keeps.refl _

/-- An order that no state-dependent step turns away keeps the laws. -/
theorem applyOrder_keeps_unrefused (k : Nat) (live s : State) (o : Order) (hb : o.badParameters s = false)
    (h : o.refusal live s = none) : Keeps s (applyOrder k s o).1 := by
  refine applyOrder_keeps k s o fun w minutes e => ?_
  subst e
  simp only [Order.badParameters, Order.refusal, shelveRefusal] at hb h
  split at h
  · next hn => simp [hn] at hb
  · split at h
    · cases h
    · split at h
      · cases h
      · next hf =>
        simp only [Bool.and_eq_true, Bool.not_eq_true', decide_eq_true_eq, not_and, not_le] at hf
        cases hs : s.shelved w
        · exact Or.inr (hf hs)
        · exact Or.inl rfl

/-! ## The swap -/

theorem clearChatter_keeps (s : State) : Keeps s (clearChatter s) := keeps_of_fields rfl rfl rfl rfl
theorem restartChatter_keeps (s : State) : Keeps s (restartChatter s) := keeps_of_fields rfl rfl rfl rfl
theorem wakeSystemPoints_keeps (s : State) : Keeps s (wakeSystemPoints s) := keeps_of_fields rfl rfl rfl rfl

/-- Before the windows have been swapped only points and chatter counts have changed. -/
theorem swapPoint_win (old new : Tables) (s : State) (n : Nat) :
    (swapPoint old new s n).win = s.win ∧ (swapPoint old new s n).sw = s.sw ∧ (swapPoint old new s n).settings = s.settings := by
  unfold swapPoint
  split
  · exact ⟨rfl, rfl, rfl⟩
  · exact ⟨rfl, rfl, rfl⟩
  · exact ⟨rfl, rfl, rfl⟩
  · extract_lets s1
    have h1 : s1.win = s.win ∧ s1.sw = s.sw ∧ s1.settings = s.settings := by
      simp only [s1, invertPoint]
      split
      · exact ⟨rfl, rfl, rfl⟩
      · split <;> exact ⟨rfl, rfl, rfl⟩
    split
    · exact h1
    · exact h1

theorem handSwapChange_keeps (before s : State) (n : Nat) : Keeps s (handSwapChange before s n) :=
  ite_rel (handOn_keeps _ _ _ _) (ite_rel (windowsTake_keeps _ _ _ _) (Keeps.refl _))

theorem swapConcentrator_keeps (old new : Tables) (s : State) (c : Nat) : Keeps s (swapConcentrator old new s c) := by
  unfold swapConcentrator
  split
  · exact setConc_keeps _ _ _
  · exact ((setConc_keeps _ _ _).trans (field_keeps _ _)).trans (setSystemPoint_keeps _ _ _)
  · exact Keeps.refl _
  · exact Keeps.refl _

theorem swapPanel_keeps (old new : Tables) (s : State) (p : Nat) : Keeps s (swapPanel old new s p) := by
  unfold swapPanel
  split
  · exact setPan_keeps _ _ _
  · exact ((setPan_keeps _ _ _).trans (panel_keeps _ _)).trans (setSystemPoint_keeps _ _ _)
  · exact ite_rel (Keeps.refl _) (setPan_keeps _ _ _)
  · exact Keeps.refl _

theorem startLoops_keeps (s : State) : Keeps s (startLoops s) := keeps_of_fields rfl rfl rfl rfl

theorem swapTerm_keeps (s : State) (t : Nat) : Keeps s (swapTerm s t) := by
  unfold swapTerm
  extract_lets x
  split
  · exact setTrm_keeps _ _ _
  · exact (setTrm_keeps _ _ _).trans (lookWhileHeld_keeps _ _ _)

theorem dropTest_keeps (i : Nat) (s : State) : Keeps s (dropTest i s) := by
  unfold dropTest
  extract_lets src s1
  have h1 : Keeps s s1 := (setSwi_same_keeps s i { s.swi i with testStart := none } rfl (Or.inl rfl)).trans (dropEntry_keeps i _)
  clear_value s1
  exact h1.trans (keeps_of_fields rfl rfl rfl rfl)

/-- A changed switch leaves the queue and has no test before it is set up afresh (R121). -/
theorem swapSwitch_keeps (old : Tables) (s : State) (i : Nat) : Keeps s (swapSwitch old s i) := by
  unfold swapSwitch
  extract_lets s1
  have h1 : Keeps s s1 := dropTest_keeps i s
  have hu : s1.unqueued i := dropEntry_unqueued i _
  have ht : (s1.swi i).testStart = none := dropTest_testStart i s
  clear_value s1
  split
  · exact h1.trans ((setSwi_free_keeps s1 i _ rfl hu).trans (syncSwitchPoints_keeps _ _))
  · next c hc =>
    extract_lets x
    have hx : x.testStart = none := by
      have hs : ∀ y : Switch, (y.supervised c s1.clock.elapsed).testStart = y.testStart := fun y => by
        unfold Switch.supervised
        split <;> rfl
      simp only [x]
      rw [hs]
      unfold Switch.changed
      split
      · rfl
      · split <;> exact ht
    clear_value x
    exact h1.trans ((setSwi_free_keeps s1 i x hx hu).trans ((syncSwitchPoints_keeps _ _).trans (settleSwitch_keeps _ _ _)))

theorem swapSwitches_keeps (old new : Tables) (s : State) : Keeps s (swapSwitches old new s) := by
  unfold swapSwitches
  extract_lets changed u
  have h : Keeps s u := (foldl_keeps _ (swapSwitch_keeps old) _ _).trans (foldl_keeps _ (fun s c => setChan_keeps s c _) _ _)
  exact ite_rel h (h.trans (runQueue_keeps _))

/-! ## Windows and groups at the swap -/

theorem swapShelving_keepsShelf (s : State) (w : Nat) : (s.shelfLaw → (swapShelving s w).shelfLaw) ∧
    (swapShelving s w).win.windows = s.win.windows ∧ (swapShelving s w).win.groups = s.win.groups := by
  have ended : ∀ mark, (s.shelfLaw → (endShelving w mark s).shelfLaw) ∧ (endShelving w mark s).win.windows = s.win.windows ∧
      (endShelving w mark s).win.groups = s.win.groups := by
    intro mark
    have drop : s.shelfLaw → (dropShelf w s).shelfLaw := fun h =>
      ⟨(List.filter_sublist.map _).nodup h.1, le_trans (List.length_filter_le _ _) h.2⟩
    unfold endShelving
    extract_lets s1
    split
    · split
      · exact ⟨drop, rfl, rfl⟩
      · exact ⟨drop, rfl, rfl⟩
    · exact ⟨drop, rfl, rfl⟩
  unfold swapShelving
  extract_lets keeps
  split
  · exact ended _
  · exact ⟨id, rfl, rfl⟩

theorem judgeQuiet_window (g w v : Nat) (s : State) : (judgeQuiet g w s).window v = s.window v := by
  unfold judgeQuiet
  extract_lets s1
  split
  · rfl
  · rfl

theorem clearGroup_shelf (g : Nat) (s : State) : SameShelf s (clearGroup g s) :=
  SameShelf.trans (setMarks_shelf .none (s.members g) s) rfl

/-- A changed window leaves its group's first set, is put to QUIET and judged afresh; the groups whose members stay keep their law. -/
theorem swapWindow_law {U V : Nat → Prop} {s : State} {old : Tables} {w : Nat}
    (hU : ∀ g, U g → w ∈ s.members g → ∃ c, look old.windows w = some c ∧ c.group = some g) (h : AlarmLaw U V s) :
    AlarmLaw U (fun v => V v ∨ v = w) (swapWindow old s w) ∧ SameShelf s (swapWindow old s w) ∧
      (swapWindow old s w).settings = s.settings := by
  have hb : AlarmLaw U (fun v => (V v ∨ v = w) ∧ v ≠ w) s := h.mono fun v hv => hv.1.resolve_right hv.2
  let x0 : Window := { s.window w with state := .quiet, mark := .none, input := false, doubt := false }
  have fits : ∀ (u : State) (c : WindowSettings), u.winSet w = some c → (u.window w).state = .quiet → (u.window w).input = false →
      ((u.window w).input = true → (u.window w).state = .alert ∨ (u.window w).state = .steady) ∧
        ((u.window w).input = false → c.sequence.next (u.window w).state .active = some .alert) := by
    intro u c _ hs hi
    rw [hs, hi]
    exact ⟨nofun, fun _ => by cases c.sequence <;> rfl⟩
  have x0_law : (s.setWindow w x0).inputLaw w := by
    intro c hc
    have hw : w < 384 := by
      by_contra hn
      change look s.settings.live.windows w = some c at hc
      rw [look_beyond _ _ (by omega)] at hc
      cases hc
    have hself : (s.setWindow w x0).window w = x0 := by rw [window_setWindow, if_pos ⟨rfl, hw⟩]
    exact fits _ c hc (by rw [hself]) (by rw [hself])
  unfold swapWindow
  extract_lets src s1 s2
  have l2 : AlarmLaw U (fun v => V v ∨ v = w) s2 := by
    simp only [s2]
    cases ho : (look old.windows w).bind fun c => c.group with
    | some g =>
      refine judgeQuiet_law ((hb.left (x := x0) (fun k hk hm => ?_) rfl fun _ => x0_law).congr rfl rfl rfl)
      obtain ⟨c, hc, hg⟩ := hU k hk hm
      rw [hc] at ho
      change c.group = some g at ho
      rw [hg] at ho
      exact Option.some.inj ho
    | none =>
      refine hb.free (x := x0) (fun k _ hk hm => ?_) fun _ => x0_law
      obtain ⟨c, hc, hg⟩ := hU k hk hm
      rw [hc] at ho
      change c.group = none at ho
      rw [hg] at ho
      cases ho
  have e1 : s1 = s.setWindow w x0 := rfl
  have same1 : SameShelf s1 s2 ∧ s2.settings = s1.settings ∧ s2.window w = s1.window w := by
    clear_value s1
    simp only [s2]
    split
    · exact ⟨judgeQuiet_shelf _ _ _, (judgeQuiet_winStep _ _ _).settings, judgeQuiet_window _ _ _ _⟩
    · exact ⟨rfl, rfl, rfl⟩
  have same : SameShelf s s2 ∧ s2.settings = s.settings ∧ s2.window w = (s.setWindow w x0).window w := by
    rw [e1] at same1
    exact same1
  clear_value s2
  split
  · exact ⟨l2, same.1, same.2.1⟩
  · next c hc =>
    have hw : w < 384 := by
      by_contra hn
      unfold State.winSet at hc
      rw [look_beyond _ _ (by omega)] at hc
      cases hc
    have hself : s2.window w = x0 := by rw [same.2.2, window_setWindow, if_pos ⟨rfl, hw⟩]
    extract_lets input s3 read
    have hread : read = { x0 with input := input, doubt := s2.doubtOf c } := by
      simp only [read, s3]
      rw [window_setWindow, if_pos ⟨rfl, hw⟩, ← hself]
    split
    · next hi =>
      rw [hread]
      simp only [s3]
      rw [setWindow_setWindow]
      refine ⟨?_, SameShelf.trans (SameShelf.trans same.1 rfl) (offer_shelf _ _ _ _),
        (offer_winStep _ _ _ _).settings.trans same.2.1⟩
      exact offerActive_law (l2.but w) hc (y := { x0 with input := input, doubt := s2.doubtOf c, alarm := s2.now, standing := true }) hi
        (by cases c.sequence <;> rfl) .settings
    · next hi =>
      refine ⟨(l2.but w).stays (by rfl) (by rfl) (fun e => e) fun _ c' hc' => ?_, same.1, same.2.1⟩
      have e : (s2.setWindow w { s2.window w with input := input, doubt := s2.doubtOf c }).window w =
          { x0 with input := input, doubt := s2.doubtOf c } := by rw [window_setWindow, if_pos ⟨rfl, hw⟩, hself]
      exact fits _ c' hc' (by rw [e]) (by rw [e]; simpa using hi)

theorem swapWindowList_law {U : Nat → Prop} {old : Tables} : ∀ (l : List Nat) {V : Nat → Prop} {s : State},
    (∀ w g, U g → w ∈ s.members g → ∃ c, look old.windows w = some c ∧ c.group = some g) → AlarmLaw U V s →
    AlarmLaw U (fun v => V v ∨ v ∈ l) (l.foldl (swapWindow old) s) ∧ SameShelf s (l.foldl (swapWindow old) s) ∧
      (l.foldl (swapWindow old) s).settings = s.settings
  | [], _, s, _, h => ⟨h.mono fun v hv => hv.resolve_right List.not_mem_nil, SameShelf.refl s, rfl⟩
  | w :: l, V, s, hU, h => by
    obtain ⟨h1, h2, h3⟩ := swapWindow_law (w := w) (hU w) h
    obtain ⟨k1, k2, k3⟩ := swapWindowList_law l (s := swapWindow old s w) (fun v g hu hm => hU v g hu (by
      unfold State.members at hm ⊢
      rw [← h3]
      exact hm)) h1
    refine ⟨k1.mono fun v hv => ?_, h2.trans k2, k3.trans h3⟩
    rcases hv with hv | hv
    · exact Or.inl (Or.inl hv)
    · rcases List.mem_cons.1 hv with hv | hv
      · exact Or.inl (Or.inr hv)
      · exact Or.inr hv

theorem members_of_tables (s : State) (g : Nat) : s.members g = s.settings.live.members g := rfl

theorem mem_tableMembers (t : Tables) (g v : Nat) : v ∈ t.members g ↔ ∃ c, look t.windows v = some c ∧ c.group = some g := by
  unfold Tables.members
  rw [mem_configuredWhere]
  refine exists_congr fun c => and_congr Iff.rfl ?_
  simp

theorem not_changedGroups {old new : Tables} {g : Nat} (hg : g < 32) (h : g ∉ changedGroups old new) : old.members g = new.members g := by
  unfold changedGroups at h
  simp only [List.mem_filter, List.mem_range, Bool.or_eq_true, decide_eq_true_eq, not_and, not_or] at h
  exact not_not.1 (h hg).1

/-- Windows and groups swapped keep the laws, where they held under the tables before (R59, R72). -/
theorem swapWindowsGroups_law {old new : Tables} {s u : State} (hs : s.settings.live = old) (h : s.listLaws) (hw : u.win = s.win)
    (hu : u.settings.live = new) :
    (swapGroups old new (swapWindows old new u)).shelfLaw ∧ (swapGroups old new (swapWindows old new u)).alarmLaw := by
  obtain ⟨_, hsh, hg, hi⟩ := h
  -- the shelving of windows ends first
  have shelving : ∀ (l : List Nat) (v : State), v.shelfLaw → (l.foldl swapShelving v).shelfLaw ∧
      (l.foldl swapShelving v).win.windows = v.win.windows ∧ (l.foldl swapShelving v).win.groups = v.win.groups ∧
      (l.foldl swapShelving v).settings = v.settings := by
    intro l
    induction l with
    | nil => exact fun v h => ⟨h, rfl, rfl, rfl⟩
    | cons w l ih =>
      intro v h
      obtain ⟨a, b, c⟩ := swapShelving_keepsShelf v w
      obtain ⟨d, e, f, g⟩ := ih (swapShelving v w) (a h)
      exact ⟨d, e.trans b, f.trans c, g.trans (swapShelving_winStep v w).settings⟩
  obtain ⟨a, b, c, d⟩ := shelving (List.range 384) u (by unfold State.shelfLaw at *; rw [hw]; exact hsh)
  unfold swapWindows
  generalize (List.range 384).foldl swapShelving u = v at a b c d
  rw [hw] at b c
  have hv : v.settings.live = new := by rw [d, hu]
  let U : Nat → Prop := fun g => g < 32 ∧ g ∉ changedGroups old new
  have mems : ∀ g, U g → v.members g = s.members g := fun g hg => by
    rw [members_of_tables, members_of_tables, hs, hv]
    exact (not_changedGroups hg.1 hg.2).symm
  have ev : ∀ w, v.window w = s.window w := fun w => by unfold State.window; rw [b]
  have eg : ∀ g, v.group g = s.group g := fun g => by unfold State.group; rw [c]
  have start : AlarmLaw U (fun w => w ∉ changedIn old.windows new.windows) v := by
    refine ⟨fun g hlt hug => groupLaw_congr (mems g hug) (eg g) (fun w _ => ev w) (hg g hlt), fun g hlt hn t ws hl w hw k hk hu hm => ?_,
      fun w hw => ?_⟩
    · rw [eg] at hl
      rw [mems k hu] at hm
      have hwg := ((hg g hlt).2.2 t ws hl).1 w hw
      rw [members_one hm hwg.1] at hu
      exact hn hu
    · intro c hc
      rw [ev]
      refine hi w c ?_
      unfold State.winSet at hc ⊢
      rw [hs]
      rw [hv] at hc
      by_cases hlt : w < 384
      · have : look old.windows w = look new.windows w := by
          by_contra hne
          exact hw ((mem_changedIn _ _ _ hlt).2 hne)
        rw [this]
        exact hc
      · rw [look_beyond _ _ (by omega)] at hc
        cases hc
  have hU : ∀ w g, U g → w ∈ v.members g → ∃ c, look old.windows w = some c ∧ c.group = some g := fun w g hg hm => by
    rw [mems g hg, members_of_tables, hs] at hm
    exact (mem_tableMembers _ _ _).1 hm
  obtain ⟨k1, k2, k3⟩ := swapWindowList_law (changedIn old.windows new.windows) hU start
  generalize (changedIn old.windows new.windows).foldl (swapWindow old) v = y at k1 k2 k3
  unfold swapGroups
  refine ⟨?_, clearGroups_law _ (fun g hlt => ?_) fun w => k1.input w (Classical.em _).symm⟩
  · have shelf : SameShelf y ((changedGroups old new).foldl (fun s g => clearGroup g s) y) :=
      foldl_rel SameShelf.refl SameShelf.trans _ (fun s g => clearGroup_shelf g s) _ _
    unfold State.shelfLaw SameShelf at *
    rw [shelf, k2]
    exact a
  · by_cases hc : g ∈ changedGroups old new
    · exact Or.inl hc
    · exact Or.inr (k1.group g hlt ⟨hlt, hc⟩)

/-- A swap keeps the laws. -/
theorem swap_keeps (scope : Scope) (t : Tables) (s : State) : Keeps s (swap scope t s) := by
  intro l
  unfold swap
  generalize hfirst : (!s.settings.adopted && scope.isFull) = first
  generalize hold : s.settings.live = old
  have h0 : (swapTables scope t s).win = s.win ∧ (swapTables scope t s).sw = s.sw ∧ (swapTables scope t s).settings.live = t := ⟨rfl, rfl, rfl⟩
  generalize swapTables scope t s = u at h0
  unfold applyChanges
  extract_lets before points s1 s2 s3 s4 s5 s6 s7 s8
  have hp : ∀ (l : List Nat) (v : State), (l.foldl (swapPoint old t) v).win = v.win ∧ (l.foldl (swapPoint old t) v).sw = v.sw ∧
      (l.foldl (swapPoint old t) v).settings = v.settings := by
    intro l
    induction l with
    | nil => exact fun v => ⟨rfl, rfl, rfl⟩
    | cons n l ih =>
      intro v
      obtain ⟨a, b, c⟩ := ih (swapPoint old t v n)
      obtain ⟨a', b', c'⟩ := swapPoint_win old t v n
      exact ⟨a.trans a', b.trans b', c.trans c'⟩
  have hp0 := hp points (if first = true then wakeSystemPoints u else u)
  have hw0 : (if first = true then wakeSystemPoints u else u).win = u.win ∧ (if first = true then wakeSystemPoints u else u).sw = u.sw ∧
      (if first = true then wakeSystemPoints u else u).settings = u.settings := by
    split
    · exact ⟨rfl, rfl, rfl⟩
    · exact ⟨rfl, rfl, rfl⟩
  have h1 : s1.win = s.win ∧ s1.sw = s.sw ∧ s1.settings.live = t := by
    refine ⟨(hp0.1.trans hw0.1).trans h0.1, (hp0.2.1.trans hw0.2.1).trans h0.2.1, ?_⟩
    rw [← h0.2.2, ← hw0.2.2]
    exact congrArg Settings.live hp0.2.2
  clear_value s1
  have h2 : s2.win = s.win ∧ s2.sw = s.sw ∧ s2.settings.live = t := h1
  clear_value s2
  have h3 : s3.listLaws := by
    obtain ⟨a, b⟩ := swapWindowsGroups_law hold l h2.1 h2.2.2
    refine ⟨?_, a, b⟩
    have hw : s3.sw = s2.sw := ((swapWindows_winStep _ _ _).trans (swapGroups_winStep _ _ _)).sw
    exact waitLaw_congr (by rw [hw, h2.2.1]) (by rw [hw, h2.2.1]) l.1
  clear_value s3
  have h8 : Keeps s3 s8 := by
    have h4 : Keeps s3 s4 := foldl_keeps _ (swapConcentrator_keeps old t) _ _
    have h5 : Keeps s3 s5 := h4.trans (foldl_keeps _ (swapPanel_keeps old t) _ _)
    have h6 : Keeps s3 s6 := ite_rel (h5.trans (startLoops_keeps _)) h5
    have h7 : Keeps s3 s7 := h6.trans (swapSwitches_keeps _ _ _)
    exact h7.trans (foldl_keeps _ swapTerm_keeps _ _)
  exact foldl_keeps _ (handSwapChange_keeps before) _ _ (h8 h3)

end Sys2Proof.Machine
end

