-- ==== Sys2Proof/Laws/Chains.lean ====
section
/-! SUPPORT. What the members of a chain, and the events they leave to other blocks, can do (R163): beside an order alone they change
nothing that it does not, and they keep the same laws. -/

namespace Sys2Proof.Machine

/-! ## The events that members leave -/

theorem act_block (rest : List Following) (s : State) (f : Following) : BlockStep s (f.act rest s) := by
  cases f with
  | point =>
    exact (((termsTake_hand _ _).trans (switchesTake_coil _ _).toHandStep).trans
      (windowsTakeAwaiting_winStep _ _ _ _ _).coil.toHandStep).toBlockStep
  | trip => exact (requestTrip_hand _ _ _).toBlockStep
  | shown => exact syncSwitchPoints_block _ _
  | test => exact (giveUpTest_coil _ _).block
  | look => exact runQueue_block _

theorem act_keeps (rest : List Following) (s : State) (f : Following) : Keeps s (f.act rest s) := by
  cases f with
  | point => exact ((termsTake_keeps _ _).trans (switchesTake_keeps _ _)).trans (windowsTakeAwaiting_keeps _ _ _ _ _)
  | trip => exact requestTrip_keeps _ _ _
  | shown => exact syncSwitchPoints_keeps _ _
  | test => exact giveUpTest_keeps _ _
  | look => exact runQueue_keeps _

theorem follow_block : ∀ (fs : List Following) (s : State), BlockStep s (follow fs s)
  | [], s => BlockStep.refl s
  | f :: fs, s => (act_block fs s f).trans (follow_block fs _)

theorem follow_core (fs : List Following) (s : State) : CoreStep s (follow fs s) := (follow_block fs s).core

theorem follow_keeps : ∀ (fs : List Following) (s : State), Keeps s (follow fs s)
  | [], s => Keeps.refl s
  | f :: fs, s => (act_keeps fs s f).trans (follow_keeps fs _)

/-! ## The members -/

theorem releaseMember_core (n : Nat) (s : State) : CoreStep s (releaseMember n s).state := by
  unfold releaseMember
  extract_lets p
  split
  · extract_lets s1
    have h1 : CoreStep s s1 := markUnforced_core _ _ _
    split
    · exact h1
    · exact h1.trans (recordChange_core _ _ _ _ _ _ _)
  · exact CoreStep.refl _

theorem isolateMember_core (i : Nat) (s : State) : CoreStep s (isolateMember i s).state := by
  unfold isolateMember
  split
  · exact CoreStep.refl _
  · extract_lets s1
    have h1 : CoreStep s s1 := markIsolated_core _ _
    clear_value s1
    split
    · split
      · extract_lets s2
        have h2 : CoreStep s s2 := h1.trans (withdrawTrip_core _ _ _ _)
        split
        · exact h2.trans (enterLockedOut_coil _ _ _).block.core
        · exact h2
      · exact h1
    · exact h1

theorem resetMember_core (i : Nat) (s : State) : CoreStep s (resetMember i s).state := by
  unfold resetMember
  split
  · exact CoreStep.refl _
  · split
    · exact (queueReset_coil _ _).block.core
    · exact (releaseHold_coil _ _ _).block.core
    · exact (clearFailed_coil _ _ _).block.core
    · exact (clearFailed_coil _ _ _).block.core
    all_goals exact CoreStep.refl _

/-- A member leaves the engine, the slots, the memory and the mask as they are. -/
theorem applyInChain_core (k : Nat) (s : State) (o : Order) : CoreStep s (applyInChain k s o).state := by
  unfold applyInChain
  split
  · exact markForced_core _ _ _
  · exact releaseMember_core _ _
  · split
    · exact (setModeBy_hand takeModeAlone_hand takeModeAlone_armedAt _ _ _ _).toBlockStep.core
    · exact CoreStep.refl _
  · exact isolateMember_core _ _
  · exact resetMember_core _ _
  · exact applyOrder_core _ _ _

theorem releaseMember_keeps (n : Nat) (s : State) : Keeps s (releaseMember n s).state := by
  unfold releaseMember
  extract_lets p
  split
  · extract_lets s1
    have h1 : Keeps s s1 := markUnforced_keeps _ _ _
    split
    · exact h1
    · exact h1.trans (recordChange_keeps _ _ _ _ _ _ _)
  · exact Keeps.refl _

theorem isolateMember_keeps (i : Nat) (s : State) : Keeps s (isolateMember i s).state := by
  unfold isolateMember
  split
  · exact Keeps.refl _
  · extract_lets s1
    have h1 : Keeps s s1 := markIsolated_keeps _ _
    clear_value s1
    split
    · next c e hc he =>
      split
      · extract_lets s2
        intro l
        obtain ⟨l2, hu, hr, ht⟩ := withdrawTrip_laws (c := c) (waitLaw_lt hc) he (h1 l)
        split
        · exact enterLockedOut_keeps i c s2 (by simp only [s2, hr]; exact ht) hu l2
        · exact l2
      · exact h1
    · exact h1

theorem resetMember_keeps (i : Nat) (s : State) : Keeps s (resetMember i s).state := by
  unfold resetMember
  split
  · exact Keeps.refl _
  · next c hc =>
    split
    · next hp => exact queueReset_keeps hc hp
    · next hp => exact releaseHold_keeps _ _ _ hp
    · next hp => exact clearFailed_keeps _ _ _ (Or.inl hp)
    · next hp => exact clearFailed_keeps _ _ _ (Or.inr hp)
    all_goals exact Keeps.refl _

/-- A member that no check turns away keeps the laws. -/
theorem applyInChain_keeps_unrefused (k : Nat) (live s : State) (o : Order) (hb : o.badParameters s = false)
    (h : o.refusal live s = none) : Keeps s (applyInChain k s o).state := by
  have alone := applyOrder_keeps_unrefused k live s o hb h
  unfold applyInChain
  split
  · exact markForced_keeps _ _ _
  · exact releaseMember_keeps _ _
  · split
    · exact setModeBy_keeps takeModeAlone_keeps _ _ _ _
    · exact Keeps.refl _
  · exact isolateMember_keeps _ _
  · exact resetMember_keeps _ _
  · exact alone

end Sys2Proof.Machine
end

