-- ==== Sys2Proof/Tests/Slice0.lean ====
section
/-! SUPPORT. The model's own tests: operands that well-formedness refuses, single steps on small states, and for each statement with
hypotheses a concrete state and operands that meet them, each clause at a boundary of its range. -/

namespace Sys2Proof.Tests

open Sys2Proof.Machine

/-! ## Well-formedness -/

theorem test_ready_slot_32_refused : (Instr.holderReadyWrite 32).wellFormed = false := by decide
theorem test_empty_slot_32_refused : (Instr.holderEmptyWrite 32).wellFormed = false := by decide
theorem test_fifteen_samples_refused : (Instr.continuousSample (List.replicate 15 0)).wellFormed = false := by decide
theorem test_settle_group_32_refused : (Instr.settleTimerExpiry 32).wellFormed = false := by decide
theorem test_term_128_refused : (Instr.termDelayExpiry 128).wellFormed = false := by decide
theorem test_min_pulse_switch_48_refused : (Instr.minPulseExpiry 48).wellFormed = false := by decide
theorem test_max_pulse_switch_48_refused : (Instr.maxPulseExpiry 48).wellFormed = false := by decide
theorem test_reset_pulse_switch_48_refused : (Instr.resetPulseEnd 48).wellFormed = false := by decide
theorem test_test_pulse_switch_48_refused : (Instr.testPulseEnd 48 0).wellFormed = false := by decide
theorem test_tick_switch_48_refused : (Instr.supervisionTick 48).wellFormed = false := by decide
theorem test_check_window_384_refused : (Instr.tableCheck .windows 384 .sound).wellFormed = false := by decide
theorem test_last_operands_accepted :
    (Instr.holderReadyWrite 31).wellFormed = true ∧ (Instr.termDelayExpiry 127).wellFormed = true ∧
      (Instr.supervisionTick 47).wellFormed = true ∧ (Instr.tableCheck .windows 383 .sound).wellFormed = true := by decide

/-- The table gives no row any bits: no word spells a command. -/
theorem test_no_word_spells_a_command : decodeTableWord 32 0 = none ∧ decodeTableWord 0 0 = none := ⟨rfl, rfl⟩

/-! ## Small states -/

/-- The last entry of each table configured, with what the entries name: point 480 on concentrator 15, points 0 and 543, a term of unit 7
that lists point 0 and trips switch 47, whose feedback is point 480 and whose test channel is 15. -/
def pointEntry0 : PointSettings :=
  { activeOpen := false, journal := true, setFilter := 4, clearFilter := 0, threshold := 3, release := 1 }
def windowEntry0 (q : Sequence) : WindowSettings :=
  { sources := [0], sequence := q, unit := 8, group := some 31, place := some (15, 23), horn := true, chime := true, shelvable := true,
    journal := true }
def termEntry0 : TermSettings :=
  { unit := 7, modes := [.stopping], points := [0], vote := 1, delay := 5, outputs := [47], policy := .holdLast }
def switchEntry0 (k : SwitchKind) : SwitchSettings :=
  { kind := k, unit := 0, cls := 1, feedback := some 480, minPulse := 10, maxPulse := 40, resetPulse := 20, successors := [],
    backup := some 46, supervision := some (15, 1) }
def tables (q : Sequence) (k : SwitchKind) : Tables :=
  { Tables.reset with
    general := { Tables.reset.general with rate := 4, cycle := 1, chatterPeriod := 1 }
    concentrators := put Tables.reset.concentrators 15 (some { lostThreshold := 2, regainCount := 2, errorThreshold := 1 })
    points := put (put (put Tables.reset.points 0 (some pointEntry0)) 480 (some pointEntry0)) 543 (some pointEntry0)
    channels := put Tables.reset.channels 15 { mode := .testReturn, hysteresis := 0, low := 100, high := 0 }
    windows := put Tables.reset.windows 383 (some (windowEntry0 q))
    panels := put Tables.reset.panels 15 (some { keysAccepted := true })
    terms := put Tables.reset.terms 127 (some termEntry0)
    switches := put Tables.reset.switches 47 (some (switchEntry0 k)) }

/-- A part after a first FULL adoption of these tables, as far as the tests need it. -/
def part (q : Sequence := .lockin) (k : SwitchKind := .lockout) : State :=
  { State.reset with settings := { Settings.reset with live := tables q k, copy := tables q k, adopted := true } }

def withTime (t : Nat) (s : State) : State := { s with clock := { s.clock with hall := BitVec.ofNat 48 t, elapsed := t } }
def halt (s : State) : State := { s with monitor := { s.monitor with shown := .halted } }

/-- Slot 31 at the head of the intake list with an order: its code, its chain mark and its words from word 3 on. -/
def order (code mark : Nat) (words : List Nat) (s : State) : State :=
  { s with
    port := { s.port with
      holders := put s.port.holders 31 .queued
      mem := words.zipIdx.foldl (fun m x => Memory.writeWord m (slotAddress 31 (3 + x.2)) (BitVec.ofNat 32 x.1))
        (Memory.writeWord s.port.mem (slotAddress 31 2) (BitVec.ofNat 32 (code + 256 * mark))) }
    engine := { s.engine with intake := [31] } }

/-- What a command leads to, if it leads on. -/
def after (c : Instr) (s : State) : State :=
  match exec c s with
  | .next t => t
  | .fault _ => s
  | .refused _ => s

def switchIn (x : Switch) (s : State := part) : State := s.setSwi 47 x
def swi (x : SwitchState) : Switch := { Switch.reset with state := x }

theorem test_hall_time_wraps : (after .hallTimeAdvance (withTime (2 ^ 48 - 1) State.reset)).clock.hall = 0 := by decide +kernel
theorem test_mask_write_5_is_refused :
    (after (.maskWrite 5) State.reset).port.mask = 0 ∧ (after (.maskWrite 5) State.reset).port.lastRefused = 0x0C := by decide +kernel
theorem test_silence_is_set_and_answered : (after .silence (order 6 0 [] part)).win.silence = true ∧
    (after .silence (order 6 0 [] part)).holder 31 = .done := by decide +kernel
theorem test_order_before_the_first_adoption : slotWord (after .silence (order 6 0 [] State.reset)).port 31 27 = 3 := by decide +kernel
theorem test_undefined_order : slotWord (after .badOrder (order 0x14 0 [] part)).port 31 27 = 1 := by decide +kernel
theorem test_activation_alerts : ((offer 383 .active .input part).window 383).state = .alert := by decide +kernel
theorem test_activation_sounds_the_horn : (offer 383 .active .input part).hornPin = true := by decide +kernel
theorem test_manual_trip_pulses : ((after .tripManual (order 0x0E 0 [47] (switchIn (swi .ready)))).swi 47).state = .pulsing := by decide +kernel
theorem test_force_of_a_listed_point_refused :
    slotWord (after .forcePoint (order 0x0A 0 [0, 1] part)).port 31 27 = 10 ∧
      slotWord (after .forcePoint (order 0x0A 0 [0, 1] part)).port 31 28 = 127 := by decide +kernel
theorem test_isolated_switch_lets_force_through :
    ((after .forcePoint (order 0x0A 0 [0, 1] (after .isolate (order 0x0C 0 [47] part)))).pt 0).effective = true := by decide +kernel
theorem test_first_entry : ((part.request (timeEntry false 1 2)).jr.places[0]).map Stored.bytes =
    some [1, 0, 0, 0, 4, 0, 0, 0, 2, 0, 0, 0, 0, 0, 0, 0, 1, 0, 0, 0, 0, 0, 0, 0, 0, 0, 0, 0, 0, 0, 0, 0] := by decide +kernel
theorem test_two_uncorrectable_errors_halt :
    (after (.tableCheck .points 0 .uncorrectable) (after (.tableCheck .general 0 .uncorrectable) part)).halted = true := by
  decide +kernel
theorem test_crc_of_123456789 : crc [0x31, 0x32, 0x33, 0x34, 0x35, 0x36, 0x37, 0x38, 0x39] = 0x29B1#16 := by decide +kernel

theorem test_frame_bits_go_low_bit_first : receivedBytes (frameBits [0x01#8, 0x80#8]) = some [0x01#8, 0x80#8] ∧
    (frameBits [0x01#8]).take 3 = [.start, .data true, .data false] ∧ (frameBits [0x01#8]).length = 10 := by decide
theorem test_refused_word_of_a_burst_keeps_the_error_acknowledge :
    (after (.hostWordWrite 0x1004 ⟨0xF#4, true⟩ 7) (after (.hostWordWrite 0x2000 ⟨0xF#4, false⟩ 7) part)).port.errorAck = true ∧
      (after (.hostWordWrite 0x1004 ⟨0xF#4, false⟩ 7) (after (.hostWordWrite 0x2000 ⟨0xF#4, false⟩ 7) part)).port.errorAck = false := by
  decide +kernel
theorem test_cause_without_a_panel_is_0xFF :
    ((windowEntry 383 .quiet .alert Window.reset .settings 0).detail[3]?) = some 0xFF ∧
      ((windowEntry 383 .quiet .alert Window.reset (.panel 15) 0).detail[3]?) = some 15 := by decide +kernel

/-- The image of a forced point shows its live quality, and that of a window on a panel in lamp test the pattern STEADY. -/
theorem test_images_of_a_forced_point_and_of_a_lamp_test :
    (((part.setPt 0 { part.pt 0 with forced := some true }).pointImage 0).head?).map (fun w => w / 256 % 256) = some Quality.lost.code ∧
      (((part.setPan 15 { part.pan 15 with lampTest := true }).windowImage 383).head?).map (fun w => w / 65536 % 256) =
        some Pattern.steady.code := by decide +kernel
/-- A concentrator made unconfigured stays out of the cycle in progress, though a later adoption configures it again. -/
theorem test_withdrawn_concentrator_is_not_called :
    (sendCall
      { count := 0, start := 0, startElapsed := 0, schedule := [15], slots := 12, slot := 0, call := none, retry := [], retried := [],
        taken := [], errors := [], withdrawn := [15], thresholds := Vector.replicate 16 0 } 15 false part).field.line = [] := by
  decide +kernel

/-! ## The hypotheses of the statements are met -/

/-- The order in slot 31, alone, at the head of the list. -/
abbrev orderAlone (code : Nat) (words : List Nat) (s : State := part) : State := order code 0 words s

theorem test_met_every_step_leads_on : State.reset.pending = [] := rfl
theorem test_met_closing_settles : State.reset.settledLaw ∧ part.settings.adopted = true ∧
    ¬ { part with jr := { part.jr with lostTrip := 1, news := [true] } }.settledLaw ∧
    ({ part with jr := { part.jr with lostTrip := 1, news := [true] } } : State).jr.news.getLast?.getD (part.pt 672).qualified =
      ({ part with jr := { part.jr with lostTrip := 1, news := [true] } } : State).jr.losing := by decide +kernel
theorem test_met_restart :
    Offered (orderAlone 0x13 []) 31 .alone .restart ∧ Offered (orderAlone 0x13 [] State.reset) 31 .alone .restart := by decide +kernel
theorem test_met_sync :
    (withTime 499 part).clock.hall.toNat % 1000 < 500 ∧ 500 ≤ (withTime 500 part).clock.hall.toNat % 1000 ∧
      (withTime 20 part).clock.hall.toNat % 1000 ≤ 20 ∧ 980 ≤ (withTime 980 part).clock.hall.toNat % 1000 ∧
      (21 ≤ (withTime 21 part).clock.hall.toNat % 1000 ∧ (withTime 979 part).clock.hall.toNat % 1000 ≤ 979) ∧
      part.settings.adopted = true := by decide +kernel
theorem test_met_set_time :
    Offered (orderAlone 2 [0xFFFFFFFF, 0xFFFF]) 31 .alone (.setTime 0xFFFFFFFF 0xFFFF) ∧ 0xFFFF < 2 ^ 16 ∧
      (orderAlone 2 []).settings.adopted = true := by decide +kernel

def timersDue (s : State) : State :=
  { withTime 125 s with
    win := { s.win with chimeUntil := some 125 }
    clock := { (withTime 125 s).clock with steppedUntil := some 125 } }
theorem test_met_timers : (timersDue part).clock.nextFlash ≤ (timersDue part).clock.elapsed ∧
    (timersDue part).win.chimeUntil = some 125 ∧ 125 ≤ (timersDue part).clock.elapsed ∧
    (timersDue part).clock.steppedUntil = some 125 ∧ part.settings.adopted = true := by decide +kernel

theorem test_met_mask : (4 : Word).toNat ≤ 4 ∧ 4 < (5 : Word).toNat := by decide

/-- Unreleased entries and pending losses. -/
structure JournalAt where
  written : Nat
  lostOrdinary : Nat
  lostTrip : Nat

def JournalAt.put (x : JournalAt) (s : State) : State :=
  { s with jr := { s.jr with written := BitVec.ofNat 32 x.written, lostOrdinary := x.lostOrdinary, lostTrip := x.lostTrip } }
def journal (written lostOrdinary lostTrip : Nat) (s : State := part) : State := JournalAt.put ⟨written, lostOrdinary, lostTrip⟩ s
theorem test_met_release :
    (journal 1024 0 0).journalLaw ∧ (journal 1024 0 0).jr.unreleased < ((1025 : Word) - (journal 1024 0 0).jr.released).toNat ∧
      (0 : Word) = (journal 1024 0 0).jr.released ∧
      (1 ≤ ((1 : Word) - (journal 1024 0 0).jr.released).toNat ∧
        ((1024 : Word) - (journal 1024 0 0).jr.released).toNat ≤ (journal 1024 0 0).jr.unreleased) ∧
      (journal 1024 0 0).jr.losing = false ∧ 0 < (journal 1024 0 1).jr.lostTrip ∧
      (0 < (journal 1024 1 0).jr.lostOrdinary ∧ (journal 1024 1 0).jr.lostTrip = 0) ∧
      17 ≤ ({ (journal 1024 1 0).jr with released := 17 } : Journal).free ∧
      ({ (journal 1024 1 0).jr with released := 16 } : Journal).free ≤ 16 := by decide +kernel

/-- Slot k with a holder. -/
def held (k : Nat) (h : Holder) (s : State := part) : State := s.setHolder k h
theorem test_met_holders : (held 31 .empty).holder 31 = .empty ∧ (held 31 .done).holder 31 = .done ∧
    (held 31 .queued).holder 31 = .queued ∧ (held 31 .working).holder 31 = .working := by decide +kernel

def adopting (scope : Scope) (s : State := part) : State :=
  { s with engine := { s.engine with working := some { slot := 31, scope := scope, since := 0 } } }
theorem test_met_host_writes :
    part.memoryLaw ∧ (0x7 : BitVec 4) ≠ 0xF#4 ∧ (0x0F : BitVec 17).toNat / 4 * 4 = 0x0C ∧ (0x14 : BitVec 17).toNat / 4 * 4 = 0x14 ∧
      (0xFFF : BitVec 17).toNat / 4 * 4 < 0x1000 ∧ (0x1000 : BitVec 17).toNat / 4 * 4 = slotAddress 0 0 ∧
      (0x1FFF : BitVec 17).toNat / 4 * 4 = slotAddress 31 31 ∧ 0x2000 ≤ (0x2000 : BitVec 17).toNat / 4 * 4 ∧
      (0xFFFF : BitVec 17).toNat / 4 * 4 < 0x10000 ∧ 0x10000 ≤ (0x10000 : BitVec 17).toNat / 4 * 4 ∧
      part.engine.working = none ∧ (adopting .full).engine.working ≠ none := by and_intros <;> decide +kernel

/-- The journal's room at the boundaries: an ordinary entry at 17 and 16 free places, a trip entry at 1 and 0; with a GAP 18 and 17, 2 and 1. -/
theorem test_met_room :
    (journal 1007 0 0).jr.free = 17 ∧ (journal 1008 0 0).jr.free = 16 ∧ (journal 1023 0 0).jr.free = 1 ∧
      (journal 1024 0 0).jr.free = 0 ∧ (journal 1007 0 0).jr.losing = false ∧ (journal 1006 1 0).jr.losing = true ∧
      (journal 1006 1 0).jr.free = 18 ∧ (journal 1007 1 0).jr.free = 17 ∧ (journal 1022 1 0).jr.free = 2 ∧
      (journal 1023 1 0).jr.free = 1 ∧ (timeEntry false 0 0).trip = false ∧ (haltEntry (.general, 0) (.general, 0) 0).trip = true := by
  decide +kernel
/-- Settled states with no loss pending and with losses pending, point 672 as the losses are. -/
theorem test_met_losses_shown :
    ((finish part).settledLaw ∧ (finish part).settings.adopted = true ∧ ((finish part).pt 672).qualified = (finish part).jr.losing) ∧
      ((finish (journal 1024 65535 65535)).setPt 672 { part.pt 672 with qualified := true }).settledLaw ∧
      (finish (journal 1024 65535 65535)).jr.losing = true := by decide +kernel

/-! ### Windows -/

/-- A sequence and a state of it. -/
structure WindowAt where
  sequence : Sequence
  state : WindowState

def WindowAt.put (x : WindowAt) : State :=
  (part x.sequence).setWindow 383 { (part x.sequence).window 383 with state := x.state }
/-- Window 383 of this sequence in this state. -/
def inState (q : Sequence) (x : WindowState) : State := WindowAt.put ⟨q, x⟩
theorem test_met_sequences : ∀ q ∈ [Sequence.lockin, .nonlock, .ringback],
    ∀ x ∈ [WindowState.quiet, .alert, .alertGone, .steady, .cleared, .ringback],
      (inState q x).winSet 383 = some (windowEntry0 q) ∧ ((inState q x).window 383).state = x ∧ (windowEntry0 q).sequence = q ∧
        (windowEntry0 q).chime = true ∧ (inState q x).shelved 383 = false := by decide +kernel
theorem test_met_entries_into_quiet_and_ringback :
    ((offer 383 .reset .input (inState .lockin .cleared)).window 383).state = .quiet ∧
      ((offer 383 .clear .input (inState .ringback .steady)).window 383).state = .ringback := by decide +kernel
/-- Point 0, the source of window 383, active and GOOD. -/
def active0 (s : State := part) : State := s.setPt 0 { s.pt 0 with live := .good, qualified := true, termHeld := true, held := true }
theorem test_met_source_events :
    (part.window 383).input = false ∧ ((active0 part).pt 0).facing = true ∧ (part.pt 0).facing = false ∧
      ((part.setWindow 383 { part.window 383 with input := true }).window 383).input = true ∧ (part.pt 0).doubtful = true ∧
      ((active0 part).pt 0).doubtful = false ∧ (windowEntry0 .lockin).group = some 31 := by decide +kernel
theorem test_met_event_without_transition :
    (windowEntry0 .lockin).sequence.next ((inState .lockin .quiet).window 383).state .ack = none := by decide +kernel

/-! ### Orders: refusals -/

/-- Each order with parameters just outside its range. -/
theorem test_met_refused_parameters :
    (State.reset.settings.adopted = false ∧ Offered (orderAlone 6 [] State.reset) 31 .alone .silence) ∧ part.settings.adopted = true ∧
    (Offered (orderAlone 2 [0, 2 ^ 16]) 31 .alone (.setTime 0 (2 ^ 16)) ∧ Order.outOfRange part (.setTime 0 (2 ^ 16))) ∧
    (Offered (orderAlone 3 [8, 0]) 31 .alone (.setMode 8 0) ∧ Order.outOfRange part (.setMode 8 0)) ∧
    (Offered (orderAlone 3 [7, 7]) 31 .alone (.setMode 7 7) ∧ Order.outOfRange part (.setMode 7 7)) ∧
    (Offered (orderAlone 7 [384, 1]) 31 .alone (.shelve 384 1) ∧ Order.outOfRange part (.shelve 384 1)) ∧
    (Offered (orderAlone 7 [382, 1]) 31 .alone (.shelve 382 1) ∧ part.winSet 382 = none) ∧
    (Offered (orderAlone 7 [383, 0]) 31 .alone (.shelve 383 0) ∧ Offered (orderAlone 7 [383, 481]) 31 .alone (.shelve 383 481)) ∧
    (Offered (orderAlone 8 [384]) 31 .alone (.unshelve 384) ∧ Offered (orderAlone 9 [32]) 31 .alone (.resetFirstOut 32)) ∧
    (Offered (orderAlone 0x0A [544, 0]) 31 .alone (.forcePoint 544 0) ∧ Offered (orderAlone 0x0A [0, 2]) 31 .alone (.forcePoint 0 2)) ∧
    Offered (orderAlone 0x0B [544]) 31 .alone (.releasePoint 544) := by and_intros <;> decide +kernel
theorem test_met_refused_switches :
    part.swSet 46 = none ∧ Offered (orderAlone 0x0C [48]) 31 .alone (.isolate 48) ∧ Offered (orderAlone 0x0D [46]) 31 .alone (.restore 46) ∧
      Offered (orderAlone 0x0E [48]) 31 .alone (.tripManual 48) ∧ Offered (orderAlone 0x0F [48]) 31 .alone (.resetSwitch 48) ∧
      Offered (orderAlone 0x10 [48]) 31 .alone (.testCircuit 48) ∧ Offered (orderAlone 0x11 [3, 0]) 31 .alone (.clearCounters 3 0) ∧
      Offered (orderAlone 0x11 [1, 16]) 31 .alone (.clearCounters 1 16) := by and_intros <;> decide +kernel
theorem test_met_refused_selectors :
    Offered (orderAlone 4 [5, 0]) 31 .alone (.ackWindows ⟨5, 0, []⟩) ∧ Selector.refused ⟨5, 0, []⟩ ∧ Selector.refused ⟨0, 0, []⟩ ∧
      Selector.refused ⟨0, 17, []⟩ ∧ (Offered (orderAlone 5 [0, 1, 384]) 31 .alone (.resetWindows ⟨0, 1, [384]⟩) ∧
      Selector.refused ⟨0, 1, [384]⟩) ∧ Selector.refused ⟨1, 32, []⟩ ∧ Selector.refused ⟨2, 16, []⟩ ∧ Selector.refused ⟨3, 9, []⟩ := by
  and_intros <;> decide +kernel

theorem not_unsafe_of {s : State} {n : Nat} (h : unsafeTerms s n = []) (t : Nat) : ¬ UnsafeTerm s n t := by
  rintro ⟨c, hc, hn, i, hi, hx⟩
  have : t ∈ unsafeTerms s n := (mem_configuredWhere _ _ _).2 ⟨c, hc, by simp [hn]; exact ⟨i, hi, hx⟩⟩
  rw [h] at this
  cases this
theorem not_acting_of {s : State} {i : Nat} (h : actingOn s i = false) : ¬ ActingOn s i := by
  rintro ⟨t, c, hc, hi, hx⟩
  have : actingOn s i = true := List.any_eq_true.2 ⟨t, (mem_configuredWhere _ _ _).2 ⟨c, hc, by simp [hi]⟩, by
    unfold Term.acting
    rcases hx with e | e <;> rw [e] <;> rfl⟩
  rw [h] at this
  cases this
theorem not_feeding_of {s : State} {i : Nat} (h : forcedFeeds s i = false) : ¬ ForcedFeeds s i := by
  rintro ⟨t, c, hc, hi, n, hn, hx⟩
  have : (s.pt n).forced.isSome = true := by
    unfold Point.quality LiveQuality.quality at hx
    revert hx
    cases (s.pt n).forced <;> cases (s.pt n).live <;> simp
  unfold forcedFeeds at h
  simp only [Bool.not_eq_false', List.isEmpty_iff] at h
  have hm := (mem_configuredWhere s.settings.live.terms (fun c => c.outputs.contains i && c.points.any fun n => (s.pt n).forced.isSome) t).2
    ⟨c, hc, by simp only [Bool.and_eq_true, List.contains_eq_mem, decide_eq_true_eq, List.any_eq_true]; exact ⟨hi, n, hn, this⟩⟩
  rw [h] at hm
  cases hm

def termIn (x : TermState) (s : State := part) : State := s.setTrm 127 { s.trm 127 with state := x }
def forcedAt (n : Nat) (v : Bool) (s : State := part) : State := s.setPt n { s.pt n with forced := some v }
/-- An entry of the coil queue for switch 47. -/
structure QueuedAt where
  kind : OpKind
  cls : Nat

def QueuedAt.put (x : QueuedAt) (s : State) : State :=
  { s with sw := { s.sw with queue := [{ switch := 47, kind := x.kind, cls := x.cls, joined := 0, joinedHall := 0, source := .order 3 }] } }
def queued (kind : OpKind) (cls : Nat) (s : State := part) : State := QueuedAt.put ⟨kind, cls⟩ s
def isolated (x : Switch) : Switch := { x with isolated := true }

theorem test_met_force_unsafe :
    Offered (orderAlone 0x0A [0, 1]) 31 .alone (.forcePoint 0 1) ∧ ¬ Order.outOfRange part (.forcePoint 0 1) ∧
      (part.termSet 127 = some termEntry0 ∧ 0 ∈ termEntry0.points ∧ 47 ∈ termEntry0.outputs ∧ (part.swi 47).isolated = false) ∧
      ∀ t, t < 127 → part.termSet t = none := by decide +kernel
def shelfOf (n : Nat) (s : State := part) : State :=
  { s with win := { s.win with shelf := (List.range n).map fun i => { window := i, expiry := i, began := 0, minutes := 1 } } }
def unshelvable (s : State := part) : State :=
  { s with settings := { s.settings with live := { s.settings.live with
      windows := put s.settings.live.windows 383 (some { windowEntry0 .lockin with shelvable := false }) } } }
theorem test_met_shelve_refused :
    (Offered (orderAlone 7 [383, 1] (shelfOf 64)) 31 .alone (.shelve 383 1) ∧ (∀ e ∈ (shelfOf 64).win.shelf, e.window ≠ 383) ∧
      64 ≤ (shelfOf 64).win.shelf.length) ∧
    (Offered (orderAlone 7 [383, 1] unshelvable) 31 .alone (.shelve 383 1) ∧
      ((unshelvable part).winSet 383).map (fun c => c.shelvable) = some false) := by and_intros <;> decide +kernel
theorem test_met_restore_refused :
    Offered (orderAlone 0x0D [47] (forcedAt 0 true (switchIn (isolated (swi .ready))))) 31 .alone (.restore 47) ∧
      ((switchIn (isolated (swi .ready))).swi 47).isolated = true ∧
      ForcedFeeds (forcedAt 0 true) 47 ∧ ¬ ForcedFeeds (termIn .active) 47 ∧ ActingOn (termIn .active) 47 :=
  ⟨by decide +kernel, by decide +kernel, ⟨127, termEntry0, by decide +kernel, by decide, 0, by decide, by decide +kernel⟩,
    not_feeding_of (by decide +kernel), ⟨127, termEntry0, by decide +kernel, by decide, Or.inr (by decide +kernel)⟩⟩
theorem test_met_reset_switch_refused :
    (Offered (orderAlone 0x0F [47] (termIn .timing)) 31 .alone (.resetSwitch 47) ∧ ActingOn (termIn .timing) 47) ∧
      ¬ ActingOn (switchIn (swi .settling)) 47 ∧
      ∀ x ∈ [SwitchState.queued, .pulsing, .resetQueued, .resetPulsing, .settling], ((switchIn (swi x)).swi 47).state = x :=
  ⟨⟨by decide +kernel, 127, termEntry0, by decide +kernel, by decide, Or.inl (by decide +kernel)⟩, not_acting_of (by decide +kernel),
    by decide +kernel⟩
def unsupervised (s : State := part) : State :=
  { s with settings := { s.settings with live := { s.settings.live with
      switches := put s.settings.live.switches 47 (some { switchEntry0 .lockout with supervision := none }) } } }
theorem test_met_test_refused :
    Offered (orderAlone 0x10 [47] unsupervised) 31 .alone (.testCircuit 47) ∧
      ((unsupervised part).swSet 47).map (fun c => c.supervision) = some none ∧
      (part.swSet 47 = some (switchEntry0 .lockout) ∧ (switchEntry0 .lockout).supervision ≠ none ∧
        ((switchIn (swi .held)).swi 47).testStart = none ∧ (switchIn (swi .held)).entryOf 47 = none ∧
        ((switchIn (swi .held)).swi 47).state ≠ .ready) := by and_intros <;> decide +kernel
theorem test_met_bad_orders :
    (order 0 0 [] part).memoryLaw ∧ (order 0 0 [] part).halted = false ∧ (order 0 0 [] part).engine.working = none ∧
      (order 0 0 [] part).engine.intake.head? = some 31 ∧
      (Memory.read (order 0 0 [] part).port.mem (slotAddress 31 2)).toNat = 0 ∧
      0x13 < (Memory.read (order 0x14 0 [] part).port.mem (slotAddress 31 2)).toNat ∧
      3 < (Memory.read (order 1 4 [] part).port.mem (slotAddress 31 2 + 1)).toNat ∧
      orderCode (order 0 0 [] part).port 31 ≠ 1 := by and_intros <;> decide +kernel

/-! ### Orders: effects -/

theorem test_met_set_mode :
    Offered (orderAlone 3 [7, 6]) 31 .alone (.setMode 7 6) ∧ part.settings.adopted = true ∧ Mode.ofCode 6 = some .stopping ∧
      look part.term.modes 7 ≠ .stopping ∧ (Mode.ofCode 0 = some .undeclared ∧ look part.term.modes 7 = .undeclared) ∧
      part.termSet 127 = some termEntry0 ∧ termEntry0.unit = 7 ∧ termEntry0.unit ≠ 6 ∧ Mode.stopping ∈ termEntry0.modes ∧
      Mode.generating ∉ termEntry0.modes ∧ (∀ n ∈ termEntry0.points, n < 544) ∧
      ∀ x ∈ [TermState.disarmed, .idle, .timing, .active, .held], ((termIn x).trm 127).state = x := by and_intros <;> decide +kernel
theorem test_met_selectors :
    Offered (orderAlone 4 [0, 16, 383]) 31 .alone
        (.ackWindows ⟨0, 16, [383, 0, 0, 0, 0, 0, 0, 0, 0, 0, 0, 0, 0, 0, 0, 0]⟩) ∧
      ¬ Selector.refused ⟨0, 16, [383, 0, 0, 0, 0, 0, 0, 0, 0, 0, 0, 0, 0, 0, 0, 0]⟩ ∧
      ¬ Selector.refused ⟨0, 1, [383]⟩ ∧ ¬ Selector.refused ⟨1, 31, []⟩ ∧ ¬ Selector.refused ⟨2, 15, []⟩ ∧
      ¬ Selector.refused ⟨3, 8, []⟩ ∧ ¬ Selector.refused ⟨4, 0, []⟩ ∧
      (windowEntry0 .lockin).group = some 31 ∧ ((windowEntry0 .lockin).place.map fun q => q.1) = some 15 ∧ (windowEntry0 .lockin).unit = 8 ∧
      Offered (orderAlone 5 [4, 0]) 31 .alone (.resetWindows ⟨4, 0, []⟩) := by and_intros <;> decide +kernel
theorem test_met_silence : Offered (orderAlone 6 []) 31 .alone .silence ∧ part.settings.adopted = true := by decide +kernel
/-- A window shelved until an elapsed time. -/
structure ShelvedAt where
  window : Nat
  expiry : Nat

def ShelvedAt.put (x : ShelvedAt) (s : State) : State :=
  { s with win := { s.win with shelf := [{ window := x.window, expiry := x.expiry, began := 0, minutes := 1 }] } }
def shelved383 (s : State := part) : State := ShelvedAt.put ⟨383, 60000⟩ s
theorem test_met_shelve :
    Offered (orderAlone 7 [383, 1]) 31 .alone (.shelve 383 1) ∧ Offered (orderAlone 7 [383, 480]) 31 .alone (.shelve 383 480) ∧
      part.winSet 383 = some (windowEntry0 .lockin) ∧ (windowEntry0 .lockin).shelvable = true ∧
      (∃ e ∈ (shelved383 part).win.shelf, e.window = 383) ∧ (shelfOf 63).win.shelf.length < 64 ∧
      ∀ e ∈ (shelfOf 63).win.shelf, e.window ≠ 383 := by and_intros <;> decide +kernel
theorem test_met_unshelve :
    Offered (orderAlone 8 [383]) 31 .alone (.unshelve 383) ∧ (∀ x ∈ part.win.shelf, x.window ≠ 383) ∧
      (∃ x ∈ (shelved383 part).win.shelf, x.window = 383) ∧ (windowEntry0 .lockin).horn = true ∧
      ((inState .lockin .alert).window 383).state = .alert ∧ ((inState .lockin .steady).window 383).state ≠ .alert := by and_intros <;> decide +kernel
theorem test_met_reset_first_out :
    Offered (orderAlone 9 [31]) 31 .alone (.resetFirstOut 31) ∧ 383 ∈ part.members 31 ∧ 0 ∉ part.members 31 := by decide +kernel
theorem test_met_force :
    Offered (orderAlone 0x0A [543, 1]) 31 .alone (.forcePoint 543 1) ∧ Offered (orderAlone 0x0A [543, 0]) 31 .alone (.forcePoint 543 0) ∧
      part.settings.adopted = true ∧ part.ptSet 543 ≠ none ∧ ∀ t, ¬ UnsafeTerm part 543 t :=
  ⟨by decide +kernel, by decide +kernel, by decide +kernel, by decide +kernel, not_unsafe_of (by decide +kernel)⟩
theorem test_met_release_point :
    Offered (orderAlone 0x0B [543] (forcedAt 543 true)) 31 .alone (.releasePoint 543) ∧ (part.pt 543).forced = none ∧
      ((forcedAt 543 true).pt 543).forced = some true ∧ ((forcedAt 543 true).pt 543).qualified ≠ true ∧
      ((forcedAt 543 false).pt 543).qualified = false ∧ part.ptSet 543 = some pointEntry0 := by decide +kernel
/-- The feedback point of switch 47, GOOD and active. -/
def operated (s : State := part) : State := s.setPt 480 { s.pt 480 with live := .good, qualified := true }
theorem test_met_isolate :
    Offered (orderAlone 0x0C [47]) 31 .alone (.isolate 47) ∧ part.swSet 47 = some (switchEntry0 .lockout) ∧
      ((switchIn (isolated (swi .ready))).swi 47).isolated = true ∧ (part.swi 47).isolated = false ∧ part.entryOf 47 = none ∧
      ((queued .trip 1).entryOf 47).map (fun e => e.kind) = some .trip ∧ (switchEntry0 .lockout).kind = .lockout ∧
      (syncSwitchPoints 47 (operated part)).operated (switchEntry0 .lockout) = true ∧
      (syncSwitchPoints 47 part).operated (switchEntry0 .lockout) = false := by and_intros <;> decide +kernel
theorem test_met_restore :
    Offered (orderAlone 0x0D [47] (switchIn (isolated (swi .ready)))) 31 .alone (.restore 47) ∧ part.swSet 47 ≠ none ∧
      (part.swi 47).isolated = false ∧ ((switchIn (isolated (swi .ready))).swi 47).isolated = true ∧
      ¬ ForcedFeeds (switchIn (isolated (swi .ready))) 47 ∧ ¬ ActingOn (switchIn (isolated (swi .ready))) 47 :=
  ⟨by decide +kernel, by decide +kernel, by decide +kernel, by decide +kernel, not_feeding_of (by decide +kernel),
    not_acting_of (by decide +kernel)⟩
theorem test_met_reset_switch :
    Offered (orderAlone 0x0F [47] (switchIn (swi .lockedOut))) 31 .alone (.resetSwitch 47) ∧ ¬ ActingOn part 47 ∧
      (∀ x ∈ [SwitchState.lockedOut, .held, .failed, .unconfirmed, .ready, .confirmed], ((switchIn (swi x)).swi 47).state = x) ∧
      (operated part).operated (switchEntry0 .lockout) = true ∧ part.operated (switchEntry0 .lockout) = false :=
  ⟨by decide +kernel, not_acting_of (by decide +kernel), by decide +kernel, by decide +kernel, by decide +kernel⟩
theorem test_met_trip_manual :
    Offered (orderAlone 0x0E [47]) 31 .alone (.tripManual 47) ∧ ((switchIn (isolated (swi .ready))).swi 47).isolated = true ∧
      (∀ x ∈ [SwitchState.ready, .settling, .resetQueued, .resetPulsing, .failed, .unconfirmed, .queued, .pulsing, .confirmed, .lockedOut,
        .held], ((switchIn (swi x)).swi 47).state = x ∧ ((switchIn (swi x)).swi 47).isolated = false) ∧
      ((queued .trip 2 (switchIn (swi .queued))).entryOf 47).map (fun e => (e.kind, e.cls)) = some (.trip, 2) ∧
      ((queued .trip 1 (switchIn (swi .queued))).entryOf 47).map (fun e => (e.kind, e.cls)) = some (.trip, 1) ∧
      (switchEntry0 .lockout).cls = 1 ∧ ({ switchEntry0 .lockout with cls := 2 } : SwitchSettings).cls ≠ 1 := by decide +kernel
theorem test_met_test_circuit :
    Offered (orderAlone 0x10 [47] (switchIn (swi .ready))) 31 .alone (.testCircuit 47) ∧ (switchEntry0 .lockout).supervision ≠ none ∧
      ((switchIn { swi .ready with testStart := some 0 }).swi 47).testStart ≠ none ∧
      ((queued .test 4).entryOf 47).map (fun e => e.kind) = some .test ∧ ((switchIn (swi .ready)).swi 47).testStart = none ∧
      (switchIn (swi .ready)).entryOf 47 = none ∧ ((switchIn (swi .ready)).swi 47).state = .ready := by and_intros <;> decide +kernel
theorem test_met_clear_counters :
    Offered (orderAlone 0x11 [0, 15]) 31 .alone (.clearCounters 0 15) ∧ Offered (orderAlone 0x11 [1, 0xFF]) 31 .alone (.clearCounters 1 0xFF) ∧
      Offered (orderAlone 0x11 [2, 16]) 31 .alone (.clearCounters 2 16) := by decide +kernel
def latched (s : State := part) : State := { s with monitor := { s.monitor with latch := some (.windows, 383) } }
theorem test_met_clear_fault :
    Offered (orderAlone 0x12 [] (latched part)) 31 .alone .clearFault ∧ part.monitor.latch = none ∧
      (latched part).monitor.latch = some (.windows, 383) ∧ (latched part).causes ≠ 0 ∧
      ({ latched part with settings := { part.settings with live := Tables.reset } } : State).causes = 0 := by decide +kernel

/-! ### Chains -/

/-- An open chain of the slots below a number. -/
structure ChainAt where
  length : Nat
  deadline : Nat

def ChainAt.put (x : ChainAt) (s : State) : State :=
  { s with engine := { s.engine with
      chain := some { members := (List.range x.length).map fun k => { slot := k, failure := none }, deadline := x.deadline } } }
def chainOf (n : Nat) (s : State := part) : State := ChainAt.put ⟨n, 2000⟩ s
/-- Fifteen slots that hold SILENCE. -/
def filled (s : State) : State :=
  { s with port := { s.port with mem := (List.range 15).foldl (fun m k => Memory.writeWord m (slotAddress k 2) 6) s.port.mem } }

theorem test_met_chains :
    Offered (order 6 1 [] part) 31 .opening .silence ∧ Offered (order 6 2 [] part) 31 .continuing .silence ∧
      Offered (order 6 3 [] part) 31 .closing .silence ∧ Offered (order 6 1 [] State.reset) 31 .opening .silence ∧
      State.reset.settings.adopted = false ∧ part.settings.adopted = true ∧ (chainOf 1).engine.chain ≠ none ∧ part.engine.chain = none ∧
      (((chainOf 15).engine.chain).map fun c => c.members.length) = some 15 ∧
      (((chainOf 16).engine.chain).map fun c => c.members.length) = some 16 ∧
      MembersDistinct ((List.range 16).map fun k => { slot := k, failure := none }) ∧
      ∀ m ∈ (List.range 16).map (fun k => ({ slot := k, failure := none } : Member)), m.slot ≠ 31 := by and_intros <;> decide +kernel
theorem test_met_join_failures :
    Order.silence.chainable = false ∧ (Order.unshelve 383).chainable = true ∧ Order.outOfRange part (.unshelve 384) ∧
      ¬ Order.outOfRange part (.unshelve 383) := by decide
theorem test_met_close :
    Offered (order 6 3 [] (filled (chainOf 15))) 31 .closing .silence ∧
      MembersDistinct ((List.range 15).map fun k => { slot := k, failure := none }) ∧
      ∀ m ∈ (List.range 15).map (fun k => ({ slot := k, failure := none } : Member)),
        m.slot ≠ 31 ∧ orderIn (order 6 3 [] (filled (chainOf 15))).port m.slot ≠ none := by and_intros <;> decide +kernel
/-- Point 0 live active but forced inactive, its term armed without delay, its switch isolated; slot 0 releases the point and slot 1
restores the switch. -/
structure ForcedAt where
  delay : Nat

def ForcedAt.made (x : ForcedAt) : State :=
  let s := forcedAt 0 false (active0 (termIn .idle (switchIn (isolated (swi .ready)))))
  { s with
    settings := { s.settings with live := { s.settings.live with terms := put s.settings.live.terms 127 (some { termEntry0 with delay := x.delay }) } }
    term := { s.term with modes := put s.term.modes 7 .stopping }
    port := { s.port with
      mem := [(0, 2, 0x0B), (0, 3, 0), (1, 2, 0x0D), (1, 3, 47)].foldl (fun m x => Memory.writeWord m (slotAddress x.1 x.2.1) x.2.2) s.port.mem } }
def releaseAndRestore : List Member := [{ slot := 0, failure := none }, { slot := 1, failure := none }]
/-- A member hands nothing on: the term of a released point acts when the chain is applied whole, so that its trip finds the switch
restored; taken alone, the release has its trip withheld. -/
theorem test_members_before_other_blocks :
    ((applyInChain 0 (ForcedAt.made ⟨0⟩) (.releasePoint 0)).state.trm 127).state = .idle ∧
      ((closeChain releaseAndRestore (ForcedAt.made ⟨0⟩)).trm 127).state = .active ∧
      ((closeChain releaseAndRestore (ForcedAt.made ⟨0⟩)).swi 47).state = .pulsing ∧
      ((applyOrder 1 (applyOrder 0 (ForcedAt.made ⟨0⟩) (.releasePoint 0)).1 (.restore 47)).1.swi 47).state = .ready := by
  and_intros <;> decide +kernel
/-- A window on points 0 and 480, point 480 forced inactive and its live value inactive, the switch of the term of point 0 isolated; slot 0
releases point 480 and slot 1 forces point 0 active. -/
structure PairAt where
  sources : List Nat

def PairAt.made (x : PairAt) : State :=
  let s := forcedAt 480 false (switchIn (isolated (swi .ready)))
  { s with
    settings := { s.settings with live := { s.settings.live with
      windows := put s.settings.live.windows 383 (some { windowEntry0 .lockin with sources := x.sources }) } }
    port := { s.port with
      mem := [(0, 2, 0x0B), (0, 3, 480), (1, 2, 0x0A), (1, 3, 0), (1, 4, 1)].foldl (fun m x => Memory.writeWord m (slotAddress x.1 x.2.1) x.2.2)
        s.port.mem } }
def pair : State := PairAt.made ⟨[0, 480]⟩
/-- The event of the force activates the window, whichever member comes first, so that its standing mark is kept (R40). -/
theorem test_force_activates_its_window :
    ((closeChain releaseAndRestore pair).window 383).state = .alert ∧ ((closeChain releaseAndRestore pair).window 383).standing = false ∧
      ((closeChain releaseAndRestore.reverse pair).window 383).standing = false ∧
      ((follow [.point 480 0 true false, .point 0 0 false false] (forcedAt 0 true pair)).window 383).standing = false := by
  and_intros <;> decide +kernel
/-- An event that activates a window although one is still to come, one that does not, and a window that is active already. -/
theorem test_met_events_to_come :
    (pair.halted = false ∧ (halt pair).halted = true ∧ pair.winSet 383 ≠ none ∧ (pair.window 383).input = false ∧
      ((pair.setWindow 383 { pair.window 383 with input := true }).window 383).input = true) ∧
    (∀ rest, rest <:+ [(480, false)] → ∃ n ∈ [0, 480], ActiveSoFar (forcedAt 0 true pair) rest n) ∧
    ¬ ∀ rest, rest <:+ [(0, false)] → ∃ n ∈ [0, 480], ActiveSoFar (forcedAt 0 true pair) rest n := by
  refine ⟨by and_intros <;> decide +kernel, fun rest h => ⟨0, by simp, ?_⟩, fun h => ?_⟩
  · rcases List.suffix_cons_iff.1 h with e | e
    · subst e; exact ⟨fun x hx => by simp at hx, fun _ => by decide +kernel⟩
    · rw [List.suffix_nil] at e; subst e; exact ⟨fun x hx => by simp at hx, fun _ => by decide +kernel⟩
  · obtain ⟨n, hn, ha, hb⟩ := h _ List.suffix_rfl
    have : n = 0 ∨ n = 480 := by simpa using hn
    rcases this with e | e <;> subst e
    · exact absurd (ha (0, false) (by simp)) (by decide)
    · exact absurd (hb (by simp)) (by decide +kernel)
theorem test_met_hold_timer :
    (withTime 2000 (chainOf 15)).memoryLaw ∧ 2000 ≤ (withTime 2000 (chainOf 15)).clock.elapsed ∧ part.halted = false ∧
      (halt part).halted = true := by decide +kernel

/-! ### Adoptions -/

def frozen0 : State := part.setPt 0 { part.pt 0 with frozen := some true }

/-- No point is forced while the points are as after a reset. -/
theorem pt_of_reset (s : State) (h : s.pts = Points.reset) (n : Nat) : (s.pt n).forced = none ∧ (s.pt n).quality ≠ .forced := by
  have : s.pt n = Point.reset ∨ s.pt n = default := by
    unfold State.pt look
    rw [h]
    by_cases hn : n < 680
    · exact Or.inl (by simp [Points.reset, hn])
    · exact Or.inr (by simp [Points.reset, hn])
  rcases this with e | e <;> rw [e] <;> exact ⟨rfl, by decide⟩

theorem test_met_adopt :
    (Offered (orderAlone 1 [1] State.reset) 31 .alone (.adopt 1) ∧ State.reset.settings.adopted = false) ∧
      Offered (orderAlone 1 [3]) 31 .alone (.adopt 3) ∧ Offered (orderAlone 1 [0]) 31 .alone (.adopt 0) ∧
      Offered (orderAlone 1 [2] State.reset) 31 .alone (.adopt 2) ∧ Offered (orderAlone 1 [1]) 31 .alone (.adopt 1) := by
  and_intros <;> decide +kernel

/-- Bytes staged at an address. -/
def staged (a : Nat) (bytes : List Nat) (m : List Host.Cell) : List Host.Cell := Memory.writeBytes m a (bytes.map (BitVec.ofNat 8))

/-- A staging region that passes validation in FULL scope: general table, concentrator 0, point 0 on it, channels with high limit 1, and a
term of COMMON that lists point 0 and trips the HOLD switch 0. -/
def stagedCells : List Host.Cell :=
  staged (switchPlace 0) [1, 2, 8, 1, 0xFF, 0xFF, 0, 0, 0, 0, 0, 0, 0, 0xFF, 0xFF, 0]
    (staged (termPlace 0) [1, 8, 0, 0, 1, 1, 0, 0, 0, 0, 0, 0, 0, 0, 0, 0, 1, 0, 0, 0, 0]
      ((List.range 16).foldl (fun m e => staged (channelPlace e) [0, 0, 0, 0, 1] m)
        (staged (pointPlace 0) [1] (staged (concentratorPlace 0) [1]
          (staged 0x10000 [4, 1, 1, 0, 0xD0, 7, 0xF0, 3, 0, 0, 0, 0] [])))))

theorem firstBad_none {t : TableName} {f : Nat → Option Reason} (h : ∀ e, e < t.entries → f e = none) : firstBad t f = none := by
  unfold firstBad
  rw [List.findSome?_eq_none_iff]
  intro e he
  rw [h e (List.mem_range.1 he)]
  rfl

theorem no_windows (e : Nat) (h : e < 384) : stagedWindow stagedCells e = none := by
  have : ∀ e, e < 384 → stagedByte stagedCells (windowPlace e) = 0 := by decide +kernel
  unfold stagedWindow whenConfigured
  simp only [this e h]
  rfl

theorem stagedCells_valid : validate stagedCells .full part.settings.live = none := by
  generalize ht : stagedTables stagedCells .full part.settings.live = t
  have windows : ∀ e, e < 384 → look t.windows e = none := fun e he => by
    rw [← ht]
    exact (look_tabulate 384 _ e he).trans (no_windows e he)
  have members : ∀ p : WindowSettings → Bool, configuredWhere t.windows p = [] := fun p => by
    rw [List.eq_nil_iff_forall_not_mem]
    intro e he
    obtain ⟨c, hc, _⟩ := (mem_configuredWhere _ _ _).1 he
    by_cases h : e < 384
    · rw [windows e h] at hc
      cases hc
    · rw [look_beyond _ _ (by omega)] at hc
      cases hc
  unfold validate
  rw [ht]
  have h1 : firstBad .general (fun _ => checkGeneral .full t.general) = none := by rw [← ht]; decide +kernel
  have h2 : firstBad .concentrators (checkConcentrator stagedCells t) = none := by rw [← ht]; decide +kernel
  have h3 : firstBad .points (checkPoint stagedCells .full part.settings.live t) = none := firstBad_none fun e he => by
    have zero : ∀ e, e < 544 → e ≠ 0 → stagedByte stagedCells (pointPlace e) = 0 := by decide +kernel
    by_cases h : e = 0
    · rw [h, ← ht]; decide +kernel
    · unfold checkPoint checkConfigured
      simp only [zero e he h]
      rfl
  have h4 : firstBad .channels (checkChannel stagedCells .full part.settings.live t) = none := by rw [← ht]; decide +kernel
  have h5 : firstBad .windows (checkWindow stagedCells t) = none := firstBad_none fun e he => by
    have zero : ∀ e, e < 384 → stagedByte stagedCells (windowPlace e) = 0 := by decide +kernel
    unfold checkWindow
    rw [windows e he]
    simp only [checkConfigured, zero e he]
  have h6 : firstBad .groups (checkGroup t) = none := firstBad_none fun e he => by
    have settle : look t.groups e = 0 := by
      have zero : ∀ e, e < 32 → stagedHalf stagedCells (groupPlace e) = 0 := by decide +kernel
      rw [← ht]
      exact (look_tabulate 32 _ e he).trans (zero e he)
    unfold checkGroup
    rw [settle, members]
    rfl
  have h7 : firstBad .panels (checkPanel stagedCells) = none := by decide +kernel
  have h8 : firstBad .terms (checkTerm stagedCells t) = none := by rw [← ht]; decide +kernel
  have h9 : firstBad .switches (checkSwitch stagedCells t) = none := by rw [← ht]; decide +kernel
  have h10 : cascadeLoop t = none := by rw [← ht]; decide +kernel
  simp only [h1, h2, h3, h4, h5, h6, h7, h8, h9, h10]
  rfl

/-- A FULL ADOPT in slot 31 that is being worked, the region above staged. -/
def working (s : State := part) : State :=
  { adopting .full s with port := { s.port with mem := staged (slotAddress 31 2) [1, 0, 0, 0, 2] stagedCells } }
def keyOn (s : State) : State := { s with port := { s.port with key := true } }

theorem test_met_adoption_end :
    (working part).memoryLaw ∧ (working part).engine.working = some { slot := 31, scope := .full, since := 0 } ∧
      orderIn (working part).port 31 = some (.adopt Scope.full.code) ∧ (working (halt part)).halted = true ∧
      (working part).halted = false := by and_intros <;> decide +kernel
theorem test_met_annunciation_adoption :
    (adopting .annunciation).engine.working = some { slot := 31, scope := .annunciation, since := 0 } ∧
      (adopting .annunciation).memoryLaw := by decide +kernel
/-- Configured bytes of 0, 1 and 2. -/
theorem test_met_validation :
    stagedByte stagedCells (concentratorPlace 0) = 1 ∧ stagedByte stagedCells (concentratorPlace 15) = 0 ∧
      stagedByte (staged (concentratorPlace 15) [2] []) (concentratorPlace 15) = 2 ∧
      look (stagedTables stagedCells .full part.settings.live).terms 0 ≠ none ∧
      look (stagedTables stagedCells .full part.settings.live).switches 0 ≠ none ∧
      (Scope.annunciation ≠ .full ∧ (look part.settings.live.channels 15).mode = .testReturn) := by and_intros <;> decide +kernel
/-- The order slot lies outside the staging region. -/
theorem test_met_adoption_refused :
    (validate [] .full part.settings.live = some (.general, 0, .badLoop)) ∧
      (part.settings.adopted = true ∧ (working part).port.key = false ∧ (working (keyOn part)).port.key = true) ∧
      TripSideChanged part.settings.live (stagedTables stagedCells .full part.settings.live) ∧
      (AdoptionBusy (termIn .timing) 127 ∧ AdoptionBusy (switchIn (swi .queued)) (47 + 65536)) ∧
      UnsafeAfter (forcedAt 0 true) (stagedTables stagedCells .full part.settings.live) 0 ∧
      ∀ t, ¬ UnsafeAfter part (stagedTables stagedCells .full part.settings.live) t := by
  have still : ∀ t, t < 128 → (part.trm t).state = .unconfigured := by decide +kernel
  have rest : ∀ t, t < 128 → t ≠ 127 → ((termIn .timing).trm t).state = .unconfigured := by decide +kernel
  refine ⟨by decide +kernel, by and_intros <;> decide +kernel, Or.inl ⟨127, by decide, by decide +kernel⟩, ⟨?_, ?_⟩, ?_, ?_⟩
  · refine Or.inl ⟨⟨by decide, Or.inl (by decide +kernel)⟩, fun t ht h => ?_⟩
    rcases h.2 with e | e <;> rw [rest t h.1 (by omega)] at e <;> cases e
  · refine Or.inr ⟨fun t h => ?_, 47, rfl, ⟨by decide, Or.inl (by decide +kernel)⟩, ?_⟩
    · have e0 : ((switchIn (swi .queued)).trm t).state = .unconfigured := still t h.1
      rcases h.2 with e | e <;> rw [e0] at e <;> cases e
    · intro j hj h
      have e0 : ∀ j, j < 47 → ((switchIn (swi .queued)).swi j).state = .unconfigured := by decide +kernel
      rcases h.2 with e | e | e | e <;> rw [e0 j hj] at e <;> cases e
  · exact ⟨_, (by decide +kernel : look (stagedTables stagedCells .full part.settings.live).terms 0 =
      some { unit := 8, modes := [], points := [0], vote := 1, delay := 0, outputs := [0], policy := .holdLast }),
      ⟨0, by decide, by decide +kernel, by decide +kernel⟩, 0, by decide, by decide +kernel⟩
  · rintro t ⟨c, _, ⟨n, _, hn, _⟩, _⟩
    exact hn (pt_of_reset part rfl n).1

/-- Every kind of change: entries newly configured, made unconfigured, and kept with other settings. -/
def inverted0 : PointSettings := { pointEntry0 with activeOpen := true, threshold := 0 }
theorem test_met_swap_changes :
    part.settings.live = tables .lockin .lockout ∧ State.reset.settings.live = Tables.reset ∧
      (∀ n ∈ [0, 480, 543], look Tables.reset.points n = none ∧ part.ptSet n ≠ none) ∧
      (pointEntry0.activeOpen ≠ inverted0.activeOpen ∧ inverted0.threshold = 0 ∧ pointEntry0.threshold ≠ 0) ∧
      ((frozen0.pt 0).frozen ≠ none ∧ (part.pt 0).frozen = none) ∧
      (look Tables.reset.concentrators 15 = none ∧ part.concSet 15 ≠ none ∧ look Tables.reset.panels 15 = none ∧
        part.panSet 15 = some { keysAccepted := true }) ∧
      (look Tables.reset.windows 383 = none ∧ part.winSet 383 = some (windowEntry0 .lockin) ∧ (windowEntry0 .lockin).group = some 31) ∧
      (look Tables.reset.switches 47 = none ∧ part.swSet 47 = some (switchEntry0 .lockout) ∧ (switchEntry0 .lockout).kind = .lockout ∧
        (part .lockin .hold).swSet 47 = some (switchEntry0 .hold) ∧ ((switchIn (swi .held) (part .lockin .hold)).swi 47).state = .held ∧
        (switchEntry0 .lockout).supervision = some (15, 1)) ∧
      (part.termSet 127 = some termEntry0 ∧ part.termSet 0 = none) ∧
      (∃ e ∈ (shelved383 unshelvable).win.shelf, e.window = 383) ∧
      ((syncSwitchPoints 47 (operated (switchIn (swi .settling)))).pt 480).quality ≠ .lost := by
  refine ⟨rfl, rfl, ?_⟩
  and_intros <;> decide +kernel
/-- What the swap does on small states: the blocks act as their rules say. -/
theorem test_swap_of_one_point :
    ((swapPoint (tables .lockin .lockout) { tables .lockin .lockout with points := put (tables .lockin .lockout).points 0 (some inverted0) }
      (active0 part) 0).pt 0).qualified = false ∧
    ((swapPoint (tables .lockin .lockout) Tables.reset (active0 part) 0).pt 0).live = .lost ∧
    (swapSwitches Tables.reset Tables.reset (queued .trip 1)).sw.queue = (queued .trip 1).sw.queue ∧
    ((swapPanel (tables .lockin .lockout) Tables.reset (part.setPan 15 { part.pan 15 with keys := ⟨true, false, false, true⟩ }) 15).pan 15).keys =
      ⟨true, false, false, true⟩ := by
  decide +kernel

/-! ### The field loop -/

def fieldDue (s : State := part) : State := { s with field := { s.field with nextAt := some 0 } }
/-- A call and a slot of a cycle. -/
structure CallAt where
  call : Option (Nat × Bool)
  slot : Nat

def CallAt.cycle (x : CallAt) (schedule retry : List Nat) : FieldCycle :=
  { count := 255, start := 0, startElapsed := 0, schedule := schedule, slots := 12, slot := x.slot, call := x.call, retry := retry,
    retried := [], taken := [], errors := [], withdrawn := [14], thresholds := put (Vector.replicate 16 0) 15 1 }
def fieldCycle (call : Option (Nat × Bool)) (slot : Nat) (schedule retry : List Nat) : FieldCycle :=
  CallAt.cycle ⟨call, slot⟩ schedule retry
def inField (y : FieldCycle) (s : State := part) : State := { s with field := { s.field with cycle := some y } }
def linkIn (x : LinkState) (s : State := part) : State := s.setConc 15 { s.conc 15 with link := x, goodCount := 1, failedCount := 1 }

theorem test_met_field_cycles :
    (fieldDue part).field.nextAt = some 0 ∧ (fieldDue part).field.cycle = none ∧ 0 ≤ (fieldDue part).clock.elapsed ∧
      (halt (fieldDue part)).halted = true ∧ (fieldDue part).halted = false ∧
      (fieldCycle none 0 [15] []).schedule[0]? = some 15 ∧ part.concSet 15 ≠ none ∧ part.concSet 14 = none ∧
      15 ∉ (fieldCycle none 0 [15] []).withdrawn ∧ 14 ∈ (fieldCycle none 0 [15] []).withdrawn ∧
      (fieldCycle none 1 [15] [15]).schedule.length ≤ (fieldCycle none 1 [15] [15]).slot ∧
      (fieldCycle none 11 [15] []).slot < (fieldCycle none 11 [15] []).slots ∧ (fieldCycle none 1 [15] [15]).retry = [15] ∧
      (inField (fieldCycle none 1 [15] [15])).field.cycle = some (fieldCycle none 1 [15] [15]) := by decide +kernel
theorem test_met_field_replies :
    ((inField (fieldCycle (some (15, true)) 11 [15] [])).field.cycle = some (fieldCycle (some (15, true)) 11 [15] []) ∧
      part.concSet 15 = some { lostThreshold := 2, regainCount := 2, errorThreshold := 1 } ∧ part.concSet 14 = none) ∧
      ((0 : Byte) ≠ (fieldCycle none 0 [] []).count) ∧ (2 ^ 32 - 1 < 2 ^ 32) ∧
      (∀ x ∈ [LinkState.absent, .seeking, .healthy, .suspect, .lost, .regaining], ((linkIn x).conc 15).link = x) ∧
      min (((linkIn .lost).conc 15).goodCount + 1) 255 = 2 ∧ min (((part).conc 15).goodCount + 1) 255 < 2 ∧
      part.ptSet 480 = some pointEntry0 ∧ 480 / 32 = 15 := by and_intros <;> decide +kernel
theorem test_met_bytes_that_are_no_reply :
    (∀ e contacts wiring, [] ≠ scanReply 15 e contacts wiring) ∧ ∀ e, [] ≠ holdOffReply 15 e :=
  ⟨fun _ _ _ h => by simp [scanReply, withCrc] at h, fun _ h => by simp [holdOffReply, withCrc] at h⟩
/-- A sample: fresh, unchanged, pending for its filter, and pending for less. -/
theorem test_met_samples :
    FilterRun pointEntry0 { Point.reset with pending := some { start := 0, startElapsed := 0, filter := 4 } } true 4 ∧
      ¬ FilterRun pointEntry0 { Point.reset with pending := some { start := 0, startElapsed := 0, filter := 4 } } true 3 ∧
      FilterRun pointEntry0 Point.reset false 0 ∧ ¬ FilterRun pointEntry0 Point.reset true 0 :=
  ⟨show 4 ≤ 4 - 0 by decide, show ¬ 4 ≤ 3 - 0 by decide, show 0 = 0 from rfl, show ¬ 4 = 0 by decide⟩
/-- A qualified change of a point: forced or not, counted to a suppression or not, and suppressed, with and without entries. -/
theorem test_met_qualified_changes :
    (Point.reset.forced = none ∧ ((forcedAt 0 true).pt 0).forced ≠ none) ∧
      (pointEntry0.threshold ≠ 0 ∧ pointEntry0.threshold < min (({ Point.reset with chatter := 3 } : Point).chatter + 1) 255 ∧
        ¬ pointEntry0.threshold < min (({ Point.reset with chatter := 2 } : Point).chatter + 1) 255 ∧
        min (({ Point.reset with chatter := 255 } : Point).chatter + 1) 255 = 255) ∧
      (pointEntry0.journal = true ∧ ({ pointEntry0 with journal := false } : PointSettings).journal = false) ∧
      ((frozen0.pt 0).frozen ≠ none ∧ (part.pt 0).frozen = none) ∧
      ((part.pt 0).qualified ≠ true ∧ ((active0 part).pt 0).qualified ≠ false ∧ part.ptSet 0 = some pointEntry0) ∧
      (part.pt 0).pending = none ∧ ((active0 part).pt 0).pending = none := by and_intros <;> decide +kernel
/-- A filter that has run for a change, with none pending and with one. -/
theorem test_met_changes_of_samples :
    (FilterRun pointEntry0 { Point.reset with qualified := true } false 0 ∧ false ≠ ({ Point.reset with qualified := true } : Point).qualified ∧
      (part.setPt 0 { Point.reset with qualified := true }).pt 0 = { Point.reset with qualified := true }) ∧
    FilterRun pointEntry0 { Point.reset with pending := some { start := 0, startElapsed := 0, filter := 4 } } true 4 ∧
      true ≠ Point.reset.qualified :=
  ⟨⟨show 0 = 0 from rfl, by decide, by decide +kernel⟩, show 4 ≤ 4 - 0 by decide, by decide⟩
/-- A suppression, with the value frozen, and one not reached. -/
theorem test_counted_change_suppresses :
    ((makeChange 0 pointEntry0 { (part.pt 0) with qualified := true, chatter := 3 } false true ChangeFlags.plain false part).pt 0).frozen =
        some false ∧
      ((makeChange 0 pointEntry0 { (part.pt 0) with qualified := true, chatter := 2 } false true ChangeFlags.plain false part).pt 0).frozen =
        none := by decide +kernel
theorem test_met_field_cycle_end :
    (inField (fieldCycle none 12 [15] [])).field.cycle = some (fieldCycle none 12 [15] []) ∧ (fieldCycle none 12 [15] []).call = none ∧
      (fieldCycle none 12 [15] []).slots ≤ (fieldCycle none 12 [15] []).slot ∧ (fieldCycle none 12 [15] []).schedule.Nodup ∧
      15 ∉ (fieldCycle none 12 [15] []).taken ∧ look (fieldCycle none 12 [15] []).thresholds 15 = 1 ∧ ((linkIn .suspect).conc 15).link ≠ .absent ∧
      min (((linkIn .suspect).conc 15).failedCount + 1) 255 = 2 ∧ part.ptSet 480 ≠ none := by decide +kernel

/-! ### Timed events -/

def frozenAt (n : Nat) (count : Nat) (s : State := part) : State :=
  (s.setPt n { s.pt n with frozen := some true, chatter := count })
theorem test_met_chatter :
    ({ part with pts := { part.pts with nextBoundary := some 0 } } : State).pts.nextBoundary = some 0 ∧ 0 ≤ part.clock.elapsed ∧
      ((frozenAt 543 1).pt 543).frozen ≠ none ∧ ((frozenAt 543 1).pt 543).chatter ≤ pointEntry0.release ∧
      ¬ ((frozenAt 543 2).pt 543).chatter ≤ pointEntry0.release := by decide +kernel
theorem test_met_continuous_samples :
    ({ part with sup := { part.sup with nextSample := some 0 } } : State).sup.nextSample = some 0 ∧ 0 ≤ part.clock.elapsed ∧
      (List.replicate 16 (0 : BitVec 10)).length = 16 ∧ (List.replicate 16 (0 : BitVec 10))[15]? = some 0 ∧
      (part.chanSet 15).mode = .testReturn ∧ (part.chanSet 14).mode = .continuous ∧ part.ptSet 543 = some pointEntry0 ∧
      part.ptSet 542 = none ∧ (part.pt 543).live = .lost ∧ ((operated part).pt 480).live ≠ .lost := by decide +kernel
theorem test_met_samples_of_comparators :
    (part.chan 14).started = false ∧ ((part.setChan 14 { part.chan 14 with started := true, low := true }).chan 14).low = true ∧
      ((part.setChan 14 { part.chan 14 with started := true, high := true }).chan 14).high = true := by decide +kernel
def groupIn (f : FirstOut) (s : State := part) : State := s.setGroup 31 f
def alarmAt (t : Nat) (standing : Bool) (s : State := part) : State :=
  s.setWindow 383 { s.window 383 with alarm := BitVec.ofNat 48 t, standing := standing }
/-- The entry of a member into ALERT: its group CLEAR, DECIDING and LATCHED at a first time before, at and behind its alarm time. -/
theorem test_met_first_out :
    (∀ f ∈ [FirstOut.clear, .deciding 5 [382] 9, .latched 5 [382]], (groupIn f).group 31 = f) ∧
      ((alarmAt 4 false).window 383).alarm < (5 : HallTime) ∧ ((alarmAt 5 false).window 383).alarm = (5 : HallTime) ∧
      (5 : HallTime) < ((alarmAt 6 false).window 383).alarm ∧ ((alarmAt 6 true).window 383).standing = true ∧
      ((alarmAt 6 false).window 383).standing = false ∧ part.settleTime 31 = 0 ∧
      ({ part with settings := { part.settings with live := { part.settings.live with
        groups := put part.settings.live.groups 31 12 } } } : State).settleTime 31 ≠ 0 ∧
      ((inState .lockin .alert).window 383).state ≠ .quiet ∧ (part.window 383).state = .quiet := by decide +kernel
theorem test_met_settle_and_shelf_timers :
    (part.setGroup 31 (.deciding 0 [383] 0)).group 31 = .deciding 0 [383] 0 ∧ 0 ≤ part.clock.elapsed ∧
      (shelved383 part).win.shelf.head? = some { window := 383, expiry := 60000, began := 0, minutes := 1 } ∧
      60000 ≤ (withTime 60000 (shelved383 part)).clock.elapsed := by decide +kernel

/-! ### The panel loop -/

/-- A frame and a slot of a panel cycle. -/
structure FrameAt where
  target : Option Nat
  slot : Nat

def FrameAt.cycle (x : FrameAt) (schedule retry : List Nat) : PanelCycle :=
  { start := 0, schedule := schedule, slot := x.slot, target := x.target, retry := retry, retried := [], taken := [],
    withdrawn := [14] }
def panelCycle (target : Option Nat) (slot : Nat) (schedule retry : List Nat) : PanelCycle := FrameAt.cycle ⟨target, slot⟩ schedule retry
def inPanel (y : PanelCycle) (s : State := part) : State := { s with panel := { s.panel with cycle := some y } }
def panelIn (x : LinkState) (s : State := part) : State := s.setPan 15 { s.pan 15 with link := x, goodCount := 1, failedCount := 2 }

theorem test_met_panel_cycles :
    ({ part with panel := { part.panel with nextAt := some 0 } } : State).panel.nextAt = some 0 ∧ part.panel.cycle = none ∧
      (inPanel (panelCycle none 15 [15] [])).panel.cycle = some (panelCycle none 15 [15] []) ∧
      (panelCycle none 15 [15] []).schedule[15]? = none ∧ (panelCycle none 0 [15] []).schedule[0]? = some 15 ∧
      (16 ≤ (panelCycle none 16 [15] [15]).slot ∧ (panelCycle none 19 [15] [15]).slot < 20) ∧
      (panelCycle none 16 [15] [15]).retry = [15] ∧ (panelCycle none 19 [15] []).retry = [] ∧ part.panSet 15 ≠ none ∧
      part.panSet 14 = none ∧ 15 ∉ (panelCycle none 0 [15] []).withdrawn ∧ 14 ∈ (panelCycle none 0 [15] []).withdrawn := by
  decide +kernel
theorem test_met_key_replies :
    ((inPanel (panelCycle (some 15) 0 [15] [])).panel.cycle = some (panelCycle (some 15) 0 [15] []) ∧
      part.panSet 15 = some { keysAccepted := true } ∧ part.panSet 14 = none ∧ (24 : Byte).toNat ≤ 24) ∧
      (∀ x ∈ [LinkState.seeking, .healthy, .lost], ((panelIn x).pan 15).link = x) ∧ ((panelIn .lost).pan 15).goodCount + 1 = 2 ∧
      ((0x4#8).getLsbD 2 = true ∧ ((panelIn .healthy).pan 15).keys.silence = false) ∧
      (windowEntry0 .lockin).place.map (fun q => q.1) = some 15 ∧ part.shelved 383 = false ∧ (shelved383 part).shelved 383 = true :=
  by and_intros <;> decide +kernel
theorem test_met_bytes_that_are_no_key_reply : ∀ keys faults : Byte, faults.toNat ≤ 24 → [] ≠ keyReply 15 keys faults :=
  fun _ _ _ h => by simp [keyReply, withCrc] at h
theorem test_met_panel_cycle_end :
    (inPanel (panelCycle none 20 [15] [])).panel.cycle = some (panelCycle none 20 [15] []) ∧ 20 ≤ (panelCycle none 20 [15] []).slot ∧
      (panelCycle none 20 [15] []).schedule.Nodup ∧ 15 ∉ (panelCycle none 20 [15] []).taken ∧
      min (((panelIn .healthy).pan 15).failedCount + 1) 255 = 3 ∧ ((panelIn .healthy).pan 15).link = .healthy := by decide +kernel

/-! ### Terms, switches, tests, checks -/

theorem test_met_term_delay :
    part.termSet 127 = some termEntry0 ∧ ((termIn .timing).trm 127).state = .timing ∧
      ((termIn .timing).trm 127).deadline ≤ (termIn .timing).clock.elapsed := by decide +kernel
/-- What counts active by quality and policy, and a listed point's event in every state of a term, satisfied or not. -/
theorem test_met_term_events :
    (∀ x ∈ [TermState.held, .disarmed, .unconfigured, .idle, .timing, .active], ((termIn x).trm 127).state = x) ∧
      (active0 part).satisfied termEntry0 = true ∧ part.satisfied termEntry0 = false ∧ part.armed termEntry0 = false ∧
      ({ part with term := { part.term with modes := put part.term.modes 7 .stopping } } : State).armed termEntry0 = true ∧
      (part.halted = false ∧ (halt part).halted = true) ∧ (termEntry0.delay ≠ 0 ∧ ({ termEntry0 with delay := 0 } : TermSettings).delay = 0) ∧
      ((part.pt 0).quality = .lost ∧ ((active0 part).pt 0).quality = .good) := by decide +kernel
theorem test_met_coil_driver :
    (part.coilLaw ∧ part.nextStart = none) ∧
      ((queued .trip 1).nextStart).map (fun e => (e.switch, e.kind)) = some (47, .trip) ∧
      ((queued .reset 3).nextStart).map (fun e => (e.switch, e.kind)) = some (47, .reset) ∧
      ((queued .test 4).nextStart).map (fun e => (e.switch, e.kind)) = some (47, .test) ∧
      part.swSet 47 = some (switchEntry0 .lockout) ∧ ((switchEntry0 .lockout).supervision.map fun x => x.1) = some 15 ∧
      (part .lockin .hold).swSet 47 = some (switchEntry0 .hold) ∧ (switchEntry0 .hold).feedback ≠ none ∧
      ({ switchEntry0 .hold with feedback := none } : SwitchSettings).feedback = none := by and_intros <;> decide +kernel
/-- A request by the state of its switch: withheld, queued and absorbed, raising a waiting class-2 entry or not; requests of successors. -/
theorem test_met_requests :
    (part.swSet 46 = none ∧ part.swSet 47 = some (switchEntry0 .lockout) ∧ part.halted = false ∧ (halt part).halted = true) ∧
      (((switchIn (isolated (swi .ready))).swi 47).isolated = true ∧ (part.swi 47).isolated = false) ∧
      (((switchIn (swi .queued) (queued .trip 2)).entryOf 47).map fun e => (e.kind, e.cls)) = some (.trip, 2) ∧
      ((switchIn (swi .queued) (queued .trip 2)).swi 47).state = .queued ∧ (switchEntry0 .lockout).cls = 1 ∧
      (((queued .trip 1).entryOf 47).map fun e => e.cls) = some 1 ∧ Source.term 127 ≠ Source.backup 0 ∧
      ((requestTrip (.term 127) 47 (switchIn (swi .failed))).swi 47).absorbed = 1 ∧
      ((requestTrip (.term 127) 47 (switchIn (swi .queued) (queued .trip 2))).entryOf 47).map (fun e => e.cls) = some 1 ∧
      ((requestSuccessors runQueue 46 { switchEntry0 .lockout with successors := [(47, .onStart)] } (· == .onStart)
        (switchIn (swi .ready))).swi 47).state = .pulsing := by and_intros <;> decide +kernel
theorem test_met_pulses :
    ((switchIn { swi .pulsing with seen := true }).swi 47).seen = true ∧
      ((switchIn (swi .pulsing)).swi 47).opStartElapsed + (switchEntry0 .lockout).minPulse ≤ (withTime 10 part).clock.elapsed ∧
      ((switchIn (swi .pulsing)).swi 47).opStartElapsed + (switchEntry0 .lockout).maxPulse ≤ (withTime 40 part).clock.elapsed ∧
      ((switchIn (swi .resetPulsing)).swi 47).state = .resetPulsing ∧ (switchEntry0 .lockout).resetPulse ≤ (withTime 20 part).clock.elapsed ∧
      ((operated part).pt 480).quality = .good ∧ (part.pt 480).quality ≠ .good ∧ (switchEntry0 .lockout).backup = some 46 := by
  decide +kernel
theorem test_met_feedback :
    (∀ x ∈ [SwitchState.pulsing, .failed, .unconfirmed, .confirmed, .held, .settling, .ready, .unconfigured, .queued, .lockedOut,
      .resetQueued, .resetPulsing], ((switchIn (swi x)).swi 47).state = x) ∧
      (operated part).operated (switchEntry0 .lockout) = true ∧ part.operated (switchEntry0 .lockout) = false ∧
      (withTime 9 part).clock.elapsed < (swi .pulsing).opStartElapsed + (switchEntry0 .lockout).minPulse ∧
      (withTime 65535 part).clock.elapsed - 0 < 65536 ∧ 65536 ≤ (withTime 65536 part).clock.elapsed - 0 ∧
      ((queued .test 4).entryOf 47).map (fun e => e.kind) = some .test ∧
      ((switchIn { swi .ready with testStart := some 0 }).swi 47).testStart ≠ none := by decide +kernel
theorem test_met_system_points_of_switches :
    part.settings.adopted = true ∧ 47 < 48 ∧ (part.swSet 0 = none ∧ part.swSet 47 ≠ none) ∧
      ((syncSwitchPoints 47 (switchIn (swi .failed))).pt 591).qualified = true ∧
      ((syncSwitchPoints 47 (switchIn (swi .failed))).pt 639).qualified = true ∧
      ((syncSwitchPoints 47 (switchIn (swi .pulsing))).pt 591).qualified = false := by decide +kernel
theorem test_met_tests_and_ticks :
    (switchEntry0 .lockout).supervision = some (15, 1) ∧ ((switchIn { swi .ready with testStart := some 0 }).swi 47).testStart = some 0 ∧
      0 + 2 ≤ (withTime 2 part).clock.elapsed ∧ (part.chanSet 15).low ≤ (100 : BitVec 10).toNat ∧
      (99 : BitVec 10).toNat < (part.chanSet 15).low ∧ (part.swi 47).supervision ≠ .healthy ∧
      ((switchIn { swi .ready with supervision := .healthy }).swi 47).supervision = .healthy ∧ (part.swi 47).nextTick ≤ part.clock.elapsed ∧
      min (((switchIn { swi .held with postponed := 7 }).swi 47).postponed + 1) 255 = 8 ∧
      min (((switchIn { swi .held with postponed := 6 }).swi 47).postponed + 1) 255 ≠ 8 := by decide +kernel
theorem test_met_table_checks :
    part.copyLaw ∧ part.settings.adopted = true ∧ State.reset.settings.adopted = false ∧ part.monitor.latch = none ∧
      (latched part).monitor.latch = some (.windows, 383) := ⟨rfl, rfl, rfl, rfl, rfl⟩

/-- A part that keeps every law, with a command waiting, and the state a step leads to. -/
def ticking : State := { State.reset with pending := [.hallTimeAdvance] }
theorem test_met_step : step ticking = .next (withTime 1 State.reset) := rfl
theorem test_met_exchange_laws : ticking.exchangeLaws :=
  ⟨by decide, by decide, by decide, ⟨List.nodup_nil, fun _ h => absurd h List.not_mem_nil, by decide +kernel⟩,
    fun _ h => absurd h (by simp [ticking, State.reset, Engine.reset]), fun _ h => absurd h (by simp [ticking, State.reset, Engine.reset]),
    fun _ h => absurd h (by simp [ticking, State.reset, Engine.reset])⟩
theorem test_met_plant_laws : ticking.plantLaws := by
  have none_isolated : ∀ i, (ticking.swi i).isolated = false := by
    intro i
    unfold State.swi
    by_cases h : i < 48
    · have : ∀ i, i < 48 → (look ticking.sw.switches i).isolated = false := by decide +kernel
      exact this i h
    · rw [look_beyond _ _ (by omega)]
      rfl
  have no_term : ∀ t, t < 128 → ticking.termSet t = none := by decide +kernel
  refine ⟨?_, rfl, ⟨?_, fun i _ => none_isolated i⟩, by decide +kernel, fun t ht c hc => ?_, rfl, by decide +kernel⟩
  · exact fun n _ h => absurd h (pt_of_reset ticking rfl n).2
  · exact fun n _ _ => (pt_of_reset ticking rfl n).1
  · rw [no_term t ht] at hc
    cases hc
/-- An entry of every table is as after a reset. -/
theorem look_replicate {α : Type} [Inhabited α] (n : Nat) (x : α) (i : Nat) :
    look (Vector.replicate n x) i = x ∨ look (Vector.replicate n x) i = default := by
  unfold look
  by_cases h : i < n
  · left; rw [Vector.getElem?_replicate, if_pos h]; rfl
  · right; rw [Vector.getElem?_replicate, if_neg h]; rfl
theorem test_met_list_laws : ticking.listLaws := by
  have no_window : ∀ w c, ticking.winSet w ≠ some c := fun w c h => by
    rcases look_replicate 384 (none : Option WindowSettings) w with e | e
    all_goals
      have h : look (Vector.replicate 384 (none : Option WindowSettings)) w = some c := h
      rw [e] at h
      cases h
  have no_member : ∀ g, ticking.members g = [] := fun g => List.eq_nil_iff_forall_not_mem.2 fun v hv => by
    obtain ⟨c, hc, _⟩ := (mem_configuredWhere _ _ _).1 hv
    exact no_window v c hc
  have none_of : ∀ {g v : Nat}, v ∈ ticking.members g → False := fun {g v} hv => by
    rw [no_member] at hv
    cases hv
  refine ⟨⟨List.nodup_nil, fun e he => absurd he List.not_mem_nil, fun i hi => absurd ?_ hi⟩, ⟨List.nodup_nil, Nat.zero_le _⟩,
    fun g hg => ⟨fun v hv => (none_of hv).elim, fun _ v hv => (none_of hv).elim, fun t ws hl => ?_⟩,
    fun w c hc => absurd hc (no_window w c)⟩
  · rcases look_replicate 48 Switch.reset i with e | e
    all_goals exact (congrArg Switch.testStart (show ticking.swi i = _ from e)).trans rfl
  · have h : ticking.group g = .clear := by
      rcases look_replicate 32 FirstOut.clear g with e | e
      all_goals exact (show ticking.group g = _ from e).trans rfl
    rw [h] at hl
    cases hl

end Sys2Proof.Tests
end

section
/-! The hall clock: its advance, its reset value and the two header words that show it (R17, R156, R170, 13.3). -/

namespace Sys2Proof.Machine

/-! ## The order that the engine takes next -/

theorem nextSlot_of_free {s : State} (running : s.halted = false) (free : s.engine.working = none) :
    s.nextSlot = s.engine.intake.head? := by
  simp [State.nextSlot, running, free]

theorem nextAlone_of_offered {s : State} {k : Nat} {o : Order} (h : Offered s k .alone o) : s.nextAlone = some (k, o) := by
  obtain ⟨_, _, running, free, head, mark, order⟩ := h
  have slot : s.nextSlot = some k := (nextSlot_of_free running free).trans head
  simp only [State.nextAlone, slot, mark, order]

/-! ## The commands that advance hall time or reset it -/

theorem exec_hallTimeAdvance (s : State) :
    exec .hallTimeAdvance s =
      .next { s with clock := { s.clock with hall := s.clock.hall + 1, elapsed := s.clock.elapsed + 1 } } := rfl

theorem exec_powerOn (s : State) : exec .powerOn s = .next (powerOn s) := rfl

theorem exec_resetNPulse (s : State) : exec .resetNPulse s = .next (resetPart s) := rfl

theorem exec_restart_of_offered {s : State} {k : Nat} (h : Offered s k .alone .restart) :
    exec .restart s = .next (publish k .restarted 0 (resetPart s)) := by
  change execRestart s = _
  simp only [execRestart, nextAlone_of_offered h]

/-- The commands that reset the part: power-on, a pulse at RESET_N, and RESTART when its order is taken (R170). -/
def Resets (c : Instr) (s : State) : Prop :=
  c = .powerOn ∨ c = .resetNPulse ∨ (c = .restart ∧ ∃ k, Offered s k .alone .restart)

@[simp] theorem resetPart_clock (s : State) : (resetPart s).clock = Clock.reset := rfl

@[simp] theorem powerOn_clock (s : State) : (powerOn s).clock = Clock.reset := rfl

/-- Publishing the outcome of RESTART after the reset does not move the clock. -/
theorem exec_clock_of_resets {c : Instr} {s : State} (h : Resets c s) : ∃ t, exec c s = .next t ∧ t.clock = Clock.reset := by
  obtain rfl | rfl | ⟨rfl, k, offered⟩ := h
  · exact ⟨_, exec_powerOn s, powerOn_clock s⟩
  · exact ⟨_, exec_resetNPulse s, resetPart_clock s⟩
  · exact ⟨_, exec_restart_of_offered offered, (publish_clock ..).trans (resetPart_clock s)⟩

theorem hallTime_succ_toNat (t : HallTime) : (t + 1).toNat = (t.toNat + 1) % 2 ^ 48 := BitVec.toNat_add t 1

/-! ## The words that show hall time -/

theorem readWord_header (s : State) {a : Nat} (h : a < 0x100) : s.readWord a = BitVec.ofNat 32 (s.headerWord a) := by
  simp only [State.readWord, if_pos h]

theorem readWord_hall_low (s : State) : (s.readWord 0x20).toNat = s.clock.hall.toNat % 2 ^ 32 := by
  have word : s.headerWord 0x20 = s.clock.hall.toNat % 2 ^ 32 := rfl
  rw [readWord_header s (by decide), word, BitVec.toNat_ofNat, Nat.mod_mod]

/-- The quotient of a 48-bit time has 16 bits, so the word of the header cuts nothing off. -/
theorem readWord_hall_high (s : State) : (s.readWord 0x24).toNat = s.clock.hall.toNat / 2 ^ 32 := by
  have word : s.headerWord 0x24 = s.clock.hall.toNat / 2 ^ 32 := rfl
  have bound : s.clock.hall.toNat < 2 ^ 48 := s.clock.hall.isLt
  rw [readWord_header s (by decide), word, BitVec.toNat_ofNat, Nat.mod_eq_of_lt (by omega)]

theorem readWord_hall (s : State) :
    (s.readWord 0x20).toNat + 2 ^ 32 * (s.readWord 0x24).toNat = s.clock.hall.toNat := by
  rw [readWord_hall_low, readWord_hall_high, Nat.mod_add_div]

/-- An aligned burst reads the four words of its line in one state (R156). -/
theorem readLine_of_aligned (s : State) {a : Nat} (h : a % 16 = 0) :
    s.readLine a = [s.readWord a, s.readWord (a + 4), s.readWord (a + 8), s.readWord (a + 12)] := by
  have start : a / 16 * 16 = a := by omega
  simp only [State.readLine, start]
  rfl

/-- Settles O8: the advance writes the next value, every reset ends with the reset clock, and the two header words are the halves of
hall time in the line at 0x20. -/
theorem hallTimeAdvances : Obligations.HallTimeAdvances := by
  refine ⟨fun s => ⟨_, exec_hallTimeAdvance s, hallTime_succ_toNat s.clock.hall, rfl⟩, fun c s resets => ?_,
    fun s => ⟨readWord_hall s, readLine_of_aligned s rfl⟩⟩
  obtain ⟨t, run, clock⟩ := exec_clock_of_resets resets
  exact ⟨t, run, by rw [clock, Clock.reset]⟩

end Sys2Proof.Machine
end

section
/-! The sequences of the windows: what an event, and one after another, does to a window's state (R41 to R45). -/

namespace Sys2Proof.Machine

/-! ## The tables of the sequences -/

/-- The state a window of this sequence is in after an event: the one its transition gives, or its own where there is none (R44). -/
def Sequence.after (q : Sequence) (x : WindowState) (ev : WindowEvent) : WindowState := (q.next x ev).getD x

theorem Sequence.next_after_ack (q : Sequence) (x : WindowState) : q.next (q.after x .ack) .ack = none := by
  cases q <;> cases x <;> rfl

theorem Sequence.next_after_reset (q : Sequence) (x : WindowState) : q.next (q.after x .reset) .reset = none := by
  cases q <;> cases x <;> rfl

theorem Sequence.after_quiet_ack (q : Sequence) : q.after .quiet .ack = .quiet := by cases q <;> rfl

theorem Sequence.after_quiet_active (q : Sequence) : q.after .quiet .active = .alert := by cases q <;> rfl

theorem Sequence.after_alert_ack (q : Sequence) : q.after .alert .ack = .steady := by cases q <;> rfl

theorem Sequence.after_alert_clear (q : Sequence) :
    q.after .alert .clear = if q = .nonlock then .quiet else .alertGone := by cases q <;> rfl

theorem Sequence.after_alertGone_ack {q : Sequence} (h : q ≠ .nonlock) :
    q.after .alertGone .ack = if q = .lockin then .cleared else .ringback := by
  cases q
  case lockin => rfl
  case nonlock => exact absurd rfl h
  case ringback => rfl

/-- In the two orders the window passes through STEADY or through ALERT-GONE (for NONLOCK, QUIET), and both lead to one state. -/
theorem Sequence.after_alert_ack_clear_comm (q : Sequence) :
    q.after (q.after .alert .ack) .clear = q.after (q.after .alert .clear) .ack := by cases q <;> rfl

theorem Sequence.common_cells_next_none (q : Sequence) :
    q.next .quiet .ack = none ∧ q.next .steady .ack = none ∧ q.next .alert .reset = none ∧ q.next .alert .active = none := by
  cases q <;> exact ⟨rfl, rfl, rfl, rfl⟩

/-! ## The first-out tracker leaves the states of the windows -/

/-- Every window's state stays. -/
def SameStates (s t : State) : Prop := ∀ v, (t.window v).state = (s.window v).state

theorem SameStates.refl (s : State) : SameStates s s := fun _ => rfl

theorem SameStates.trans {s t u : State} (a : SameStates s t) (b : SameStates t u) : SameStates s u :=
  fun v => (b v).trans (a v)

theorem setGroup_states (s : State) (g : Nat) (f : FirstOut) : SameStates s (s.setGroup g f) := fun _ => rfl

theorem latch_states (g : Nat) (t : HallTime) (ws : List Nat) (s : State) : SameStates s (latch g t ws s) := fun _ => rfl

theorem setMark_states (w : Nat) (m : Mark) (s : State) : SameStates s (setMark w m s) := fun v => by rw [setMark_window]

theorem judgeAlert_states (g w : Nat) (s : State) : SameStates s (judgeAlert g w s) := by
  unfold judgeAlert
  extract_lets s1 x s2
  have left : SameStates s s1 := setGroup_states s g _
  have marked : SameStates s1 s2 := setMark_states w .first s1
  clear_value s2 x s1
  refine ite_rel left (left.trans ?_)
  split
  case h_1 => exact marked.trans (ite_rel (latch_states _ _ _ _) (setGroup_states _ _ _))
  case h_2 t ws d _ =>
    have earlier : SameStates s1 (ws.foldl (fun s v => setMark v .subsequent s) s1) :=
      foldl_rel SameStates.refl SameStates.trans _ (fun s v => setMark_states v .subsequent s) ws s1
    exact ite_rel ((earlier.trans (setGroup_states _ _ _)).trans (setMark_states _ _ _))
      (ite_rel ((setGroup_states _ _ _).trans (setMark_states _ _ _)) (setMark_states _ _ _))
  case h_3 => exact ite_rel (setMark_states _ _ _) (SameStates.refl _)

theorem judgeQuiet_states (g w : Nat) (s : State) : SameStates s (judgeQuiet g w s) :=
  fun v => by rw [judgeQuiet_window]

/-! ## An event at a window -/

theorem winSet_lt {s : State} {w : Nat} {c : WindowSettings} (h : s.winSet w = some c) : w < 384 := by
  by_contra beyond
  rw [State.winSet, look_beyond _ _ (by omega)] at h
  cases h

theorem enterWindow_state {w : Nat} (hw : w < 384) (c : WindowSettings) (new : WindowState) (cause : Cause) (s : State) :
    ((enterWindow w c new cause s).window w).state = new := by
  unfold enterWindow
  extract_lets old s1 s2 s3 s4
  have entered : (s1.window w).state = new := by rw [window_setWindow, if_pos ⟨rfl, hw⟩]
  have journalled : SameStates s1 s2 := ite_rel (fun _ => rfl) (SameStates.refl s1)
  have unsilenced : SameStates s1 s3 := ite_rel (journalled.trans fun _ => rfl) journalled
  have chimed : SameStates s1 s4 := ite_rel (unsilenced.trans fun _ => rfl) unsilenced
  clear_value s4
  refine Eq.trans (SameStates.trans chimed ?_ w) entered
  split
  · exact SameStates.refl s4
  · exact ite_rel (judgeAlert_states _ _ _) (ite_rel (judgeQuiet_states _ _ _) (SameStates.refl s4))

@[simp] theorem offer_winSet (w v : Nat) (ev : WindowEvent) (cause : Cause) (s : State) :
    (offer w ev cause s).winSet v = s.winSet v := by
  rw [State.winSet, (offer_winStep w ev cause s).settings, State.winSet]

section
variable {s : State} {w : Nat} {c : WindowSettings} (hc : s.winSet w = some c)
include hc

theorem offer_of_next_none {ev : WindowEvent} (stays : c.sequence.next (s.window w).state ev = none) (cause : Cause) :
    offer w ev cause s = s := by simp only [offer, hc, stays]

theorem offer_of_next_some {ev : WindowEvent} {new : WindowState} (moves : c.sequence.next (s.window w).state ev = some new)
    (cause : Cause) : offer w ev cause s = enterWindow w c new cause s := by simp only [offer, hc, moves]

theorem offerMoves_of_next_none {ev : WindowEvent} (stays : c.sequence.next (s.window w).state ev = none) :
    offerMoves w ev s = false := by simp only [offerMoves, hc, stays, Option.isSome_none]

theorem offerAll_of_next_none {ev : WindowEvent} (stays : c.sequence.next (s.window w).state ev = none) (cause : Cause) :
    offerAll ev cause [w] s = (s, 0) := by
  simp only [offerAll, offer_of_next_none hc stays, offerMoves_of_next_none hc stays, bit, Bool.false_eq_true, if_false]

theorem offer_state (ev : WindowEvent) (cause : Cause) :
    ((offer w ev cause s).window w).state = c.sequence.after (s.window w).state ev := by
  unfold Sequence.after
  cases outcome : c.sequence.next (s.window w).state ev with
  | none => rw [offer_of_next_none hc outcome, Option.getD_none]
  | some new => rw [offer_of_next_some hc outcome, enterWindow_state (winSet_lt hc), Option.getD_some]

theorem offer_offer_state (ev ev' : WindowEvent) (cause cause' : Cause) :
    ((offer w ev' cause' (offer w ev cause s)).window w).state =
      c.sequence.after (c.sequence.after (s.window w).state ev) ev' := by
  rw [offer_state ((offer_winSet ..).trans hc), offer_state hc]

/-- An event whose transitions all end in states without one for it does nothing when it comes again (R44). -/
theorem offer_again {ev : WindowEvent} (again : ∀ x, c.sequence.next (c.sequence.after x ev) ev = none) (cause cause' : Cause) :
    offer w ev cause' (offer w ev cause s) = offer w ev cause s := by
  refine offer_of_next_none ((offer_winSet ..).trans hc) ?_ cause'
  rw [offer_state hc]
  exact again _

end

/-- Settles O21: every clause is a fact about the table of the window's sequence, carried to the window by `offer_state`. -/
theorem eventsWithoutTransition : Obligations.EventsWithoutTransition := by
  refine ⟨Sequence.common_cells_next_none, fun s w c hc => ⟨fun ev cause stays => ?_, fun cause cause' => ?_, fun quiet cause cause' => ?_,
    fun gone lasting cause => ?_, fun alert cause cause' => ?_⟩⟩
  · exact ⟨offer_of_next_none hc stays cause, offerAll_of_next_none hc stays cause⟩
  · exact ⟨offer_again hc c.sequence.next_after_ack cause cause', offer_again hc c.sequence.next_after_reset cause cause'⟩
  · rw [offer_offer_state hc, quiet, Sequence.after_quiet_ack, Sequence.after_quiet_active]
  · rw [offer_state hc, gone, Sequence.after_alertGone_ack lasting]
  · simp only [offer_state hc, offer_offer_state hc, alert]
    refine ⟨Sequence.after_alert_ack _, Sequence.after_alert_clear _, Sequence.after_alert_ack_clear_comm _, ?_⟩
    cases c.sequence <;> rfl

end Sys2Proof.Machine
end

section
/-! The HORN output and the header word that shows it with the chime and silence (R49, 13.3). -/

namespace Sys2Proof.Machine

theorem alarming_iff (s : State) :
    s.alarming = true ↔ ∃ w c, s.winSet w = some c ∧ c.horn = true ∧ s.shelved w = false ∧
      ((s.window w).state = .alert ∨ (s.window w).state = .alertGone) := by
  have sounds : ∀ w, (((s.window w).state == .alert || (s.window w).state == .alertGone) && !s.shelved w) = true ↔
      s.shelved w = false ∧ ((s.window w).state = .alert ∨ (s.window w).state = .alertGone) := fun w => by
    simp only [Bool.and_eq_true, Bool.or_eq_true, beq_iff_eq, Bool.not_eq_true', and_comm]
  have horned : ∀ w, (w ∈ configuredWhere s.settings.live.windows fun c => c.horn) ↔
      ∃ c, s.winSet w = some c ∧ c.horn = true := fun w => mem_configuredWhere _ _ w
  simp only [State.alarming, List.any_eq_true, horned, sounds]
  constructor
  · rintro ⟨w, ⟨c, hc, horn⟩, audible⟩
    exact ⟨w, c, hc, horn, audible⟩
  · rintro ⟨w, c, hc, horn, audible⟩
    exact ⟨w, ⟨c, hc, horn⟩, audible⟩

theorem hornPin_iff (s : State) : s.hornPin = true ↔ s.alarming = true ∧ s.win.silence = false := by
  simp only [State.hornPin, Bool.and_eq_true, Bool.not_eq_true']

theorem ofBits_lt : ∀ bs : List Bool, ofBits bs < 2 ^ bs.length
  | [] => by decide
  | b :: bs => by
    have tail : ofBits bs < 2 ^ bs.length := ofBits_lt bs
    have head : bit b ≤ 1 := by cases b <;> decide
    rw [ofBits, List.length_cons, Nat.pow_succ]
    omega

theorem ofBits_three (a b c : Bool) :
    ofBits [a, b, c] = (if a then 1 else 0) + (if b then 2 else 0) + if c then 4 else 0 := by
  simp [ofBits, bit, mul_add, add_assoc]

theorem readWord_horn (s : State) : (s.readWord 0x40).toNat = ofBits [s.hornPin, s.chimePin, s.win.silence] := by
  have word : s.headerWord 0x40 = ofBits [s.hornPin, s.chimePin, s.win.silence] := rfl
  have bound : ofBits [s.hornPin, s.chimePin, s.win.silence] < 2 ^ 3 := ofBits_lt _
  rw [readWord_header s (by decide), word, BitVec.toNat_ofNat, Nat.mod_eq_of_lt (by omega)]

/-- Settles O17: HORN by the windows that sound it, and the three bits of the header word at 0x40. -/
theorem hornFollowsWindows : Obligations.HornFollowsWindows := by
  refine fun s => ⟨?_, (readWord_horn s).trans (ofBits_three _ _ _)⟩
  rw [hornPin_iff, alarming_iff]

end Sys2Proof.Machine
end

section
/-! The write to the released-through word: how its advance is judged, and the GAP that a taken one may write alone (R147, R151, R158). -/

namespace Sys2Proof.Machine

/-! ## Giving room back -/

/-- The journal with released-through moved and no GAP written. -/
abbrev Journal.releasedTo (j : Journal) (v : Word) : Journal := { j with released := v }

/-- The journal after an advance that is taken: a GAP alone stands behind it where losses are pending and its class finds room (R151). -/
def Journal.advanced (j : Journal) (now : HallTime) (v : Word) : Journal :=
  if (j.releasedTo v).losing ∧ roomAlone (decide (0 < j.lostTrip)) ≤ (j.releasedTo v).free then (j.releasedTo v).writeGap now
  else j.releasedTo v

theorem unreleased_releasedTo {j : Journal} {v : Word} (within : (v - j.released).toNat ≤ j.unreleased) :
    (j.releasedTo v).unreleased + (v - j.released).toNat = j.unreleased := by
  have difference : j.written - v = (j.written - j.released) - (v - j.released) := by ring
  change (j.written - v).toNat + _ = _
  rw [difference, BitVec.toNat_sub_of_le (BitVec.le_def.2 within)]
  exact Nat.sub_add_cancel within

/-- Under the law of R147 every advance frees at least one place. -/
theorem free_releasedTo_pos {j : Journal} {v : Word} (law : j.unreleased ≤ 1024) (moves : 1 ≤ (v - j.released).toNat)
    (within : (v - j.released).toNat ≤ j.unreleased) : 1 ≤ (j.releasedTo v).free := by
  have falls := unreleased_releasedTo within
  rw [Journal.free]
  omega

theorem losing_iff (j : Journal) : j.losing = true ↔ 0 < j.lostOrdinary ∨ 0 < j.lostTrip := decide_eq_true_iff

/-! ## What a release write answers, by its advance -/

theorem release_beyond {j : Journal} {v : Word} (now : HallTime) (beyond : j.unreleased < (v - j.released).toNat) :
    j.release now v = none := if_pos beyond

theorem release_same (j : Journal) (now : HallTime) : j.release now j.released = some j := by
  have still : (j.released - j.released).toNat = 0 := by rw [BitVec.sub_self]; rfl
  simp only [Journal.release, still, Nat.not_lt_zero, if_false, if_true]

theorem release_within {j : Journal} {v : Word} (now : HallTime) (moves : 1 ≤ (v - j.released).toNat)
    (within : (v - j.released).toNat ≤ j.unreleased) : j.release now v = some (j.advanced now v) := by
  rw [Journal.release, if_neg (Nat.not_lt.2 within), if_neg (Nat.one_le_iff_ne_zero.1 moves)]
  rfl

/-! ## The GAP of an advance -/

@[simp] theorem advanced_released (j : Journal) (now : HallTime) (v : Word) : (j.advanced now v).released = v := by
  unfold Journal.advanced
  split
  · exact writeGap_released _ now
  · rfl

theorem advanced_of_room {j : Journal} {v : Word} (now : HallTime) (losing : j.losing = true)
    (room : roomAlone (decide (0 < j.lostTrip)) ≤ (j.releasedTo v).free) :
    j.advanced now v = (j.releasedTo v).writeGap now := if_pos ⟨losing, room⟩

theorem advanced_of_no_room {j : Journal} {v : Word} (now : HallTime)
    (short : (j.releasedTo v).free < roomAlone (decide (0 < j.lostTrip))) : j.advanced now v = j.releasedTo v :=
  if_neg fun gap => Nat.not_le.2 short gap.2

theorem advanced_of_not_losing {j : Journal} {v : Word} (now : HallTime) (whole : j.losing = false) :
    j.advanced now v = j.releasedTo v := if_neg fun gap => Bool.false_ne_true (whole.symm.trans gap.1)

/-- The class of the GAP that carries a trip loss is trip, and of any other ordinary (R149). -/
theorem roomAlone_of_lostTrip {j : Journal} (trip : 0 < j.lostTrip) : roomAlone (decide (0 < j.lostTrip)) = 1 := by
  rw [decide_eq_true trip]; rfl

theorem roomAlone_of_no_lostTrip {j : Journal} (noTrip : j.lostTrip = 0) : roomAlone (decide (0 < j.lostTrip)) = 17 := by
  rw [noTrip]; rfl

/-! ## The write as the port judges it -/

theorem saturate_eq_min (greatest x : Nat) : saturate greatest x = min x greatest := by
  rw [saturate]
  split <;> omega

theorem refuseWrite_eq (a : Nat) (s : State) : refuseWrite a s = WriteRefused a s := by
  rw [refuseWrite, saturate_eq_min]

theorem exec_releasedThroughWrite_of_none {s : State} {v : Word} (refused : s.jr.release s.clock.hall v = none) :
    exec (.releasedThroughWrite v) s = .next (finish (WriteRefused 0x14 s)) := by
  change Host.Outcome.next (finish (writeReleased 0x14 v s)) = _
  rw [writeReleased, State.now, refused, ← refuseWrite_eq]

theorem exec_releasedThroughWrite_of_some {s : State} {v : Word} {j : Journal} (taken : s.jr.release s.clock.hall v = some j) :
    exec (.releasedThroughWrite v) s = .next (finish { s with jr := j, port := { s.port with errorAck := false } }) := by
  change Host.Outcome.next (finish (writeReleased 0x14 v s)) = _
  rw [writeReleased, State.now, taken]
  rfl

theorem readWord_released (s : State) : s.readWord 0x14 = s.jr.released := by
  have word : s.headerWord 0x14 = s.jr.released.toNat := rfl
  rw [readWord_header s (by decide), word, BitVec.ofNat_toNat, BitVec.setWidth_eq]

/-- Settles O13, by the three kinds of advance; a trip GAP always finds room because the law of R147 lets the advance free a place. -/
theorem releaseWriteJudged : Obligations.ReleaseWriteJudged := by
  refine fun s v law => ⟨fun beyond => exec_releasedThroughWrite_of_none (release_beyond _ beyond), ?_, fun ⟨moves, within⟩ => ?_⟩
  · rintro rfl
    exact exec_releasedThroughWrite_of_some (release_same s.jr _)
  · refine ⟨_, exec_releasedThroughWrite_of_some (release_within _ moves within), rfl, advanced_released .., ?_,
      fun whole => ?_, fun trip => ?_, fun ordinary noTrip => ⟨fun room => ?_, fun short => ?_⟩⟩
    · rw [readWord_released, advanced_released]
    · rw [advanced_of_not_losing _ whole]
      exact ⟨rfl, unreleased_releasedTo within⟩
    · refine advanced_of_room _ ((losing_iff _).2 (.inr trip)) ?_
      rw [roomAlone_of_lostTrip trip]
      exact free_releasedTo_pos law moves within
    · refine advanced_of_room _ ((losing_iff _).2 (.inl ordinary)) ?_
      rwa [roomAlone_of_no_lostTrip noTrip]
    · refine advanced_of_no_room _ ?_
      rw [roomAlone_of_no_lostTrip noTrip]
      exact Nat.lt_succ_of_le short

end Sys2Proof.Machine
end

section
/-! CLEAR-FAULT (R169): what taking and publishing an order marked ALONE answers, and the condition worked out without the fault latch. -/

namespace Sys2Proof.Machine

/-! ## The outcome words of a published slot -/

section
variable (k d : Nat) (r : Result) (done : HallTime) {m : List Host.Cell} (wf : Memory.wf m)
include wf

/-- Each outcome word reads the value written to it, since the words written after it lie behind it. -/
theorem readNat_outcomeWords :
    Memory.readNat (outcomeWords k r d done m) (slotAddress k 27) 4 = (BitVec.ofNat 32 r.code).toNat ∧
      Memory.readNat (outcomeWords k r d done m) (slotAddress k 28) 4 = (BitVec.ofNat 32 d).toNat ∧
      Memory.readNat (outcomeWords k r d done m) (slotAddress k 29) 4 = (done.setWidth 32).toNat ∧
      Memory.readNat (outcomeWords k r d done m) (slotAddress k 30) 4 = ((done >>> 32).setWidth 32).toNat := by
  have wf27 := writeWord_wf m (slotAddress k 27) (BitVec.ofNat 32 r.code) wf
  have wf28 := writeWord_wf _ (slotAddress k 28) (BitVec.ofNat 32 d) wf27
  have wf29 := writeWord_wf _ (slotAddress k 29) (done.setWidth 32) wf28
  have behind : ∀ {v w : Nat}, v < w → slotAddress k v + 4 ≤ slotAddress k w := fun h => by simp only [slotAddress]; omega
  have kept : ∀ {v w : Nat} (m' : List Host.Cell) (x : Word), Memory.wf m' → v < w →
      Memory.readNat (Memory.writeWord m' (slotAddress k w) x) (slotAddress k v) 4 = Memory.readNat m' (slotAddress k v) 4 :=
    fun m' x h lt => readNat_writeWord_other m' _ _ 4 x h (.inl (behind lt))
  refine ⟨?_, ?_, ?_, readNat_writeWord _ _ _ wf29⟩
  · rw [outcomeWords, kept _ _ wf29 (by decide), kept _ _ wf28 (by decide), kept _ _ wf27 (by decide), readNat_writeWord _ _ _ wf]
  · rw [outcomeWords, kept _ _ wf29 (by decide), kept _ _ wf28 (by decide), readNat_writeWord _ _ _ wf27]
  · rw [outcomeWords, kept _ _ wf29 (by decide), readNat_writeWord _ _ _ wf28]

/-- Publishing writes the four outcome words of its slot and no other byte. -/
theorem read_outcomeWords_other {a : Nat} (outside : a < slotAddress k 27 ∨ slotAddress k 31 ≤ a) :
    Memory.read (outcomeWords k r d done m) a = Memory.read m a := by
  have apart : ∀ {w : Nat}, 27 ≤ w → w ≤ 30 → a < slotAddress k w ∨ slotAddress k w + 4 ≤ a := fun low high => by
    simp only [slotAddress] at outside ⊢
    omega
  have wf27 := writeWord_wf m (slotAddress k 27) (BitVec.ofNat 32 r.code) wf
  have wf28 := writeWord_wf _ (slotAddress k 28) (BitVec.ofNat 32 d) wf27
  have wf29 := writeWord_wf _ (slotAddress k 29) (done.setWidth 32) wf28
  rw [outcomeWords, read_writeWord_other _ _ _ _ wf29 (apart (by decide) (by decide)),
    read_writeWord_other _ _ _ _ wf28 (apart (by decide) (by decide)),
    read_writeWord_other _ _ _ _ wf27 (apart (by decide) (by decide)),
    read_writeWord_other _ _ _ _ wf (apart (by decide) (by decide))]

end

theorem toNat_ofNat_code (r : Result) : (BitVec.ofNat 32 r.code).toNat = r.code := by cases r <;> rfl

/-- The high word of a done time cuts nothing off, as a hall time has 48 bits. -/
theorem hallTime_of_words (done : HallTime) :
    (done.setWidth 32).toNat + 2 ^ 32 * ((done >>> 32).setWidth 32).toNat = done.toNat := by
  have bound : done.toNat < 2 ^ 48 := done.isLt
  rw [BitVec.toNat_setWidth, BitVec.toNat_setWidth, BitVec.toNat_ushiftRight, Nat.shiftRight_eq_div_pow]
  omega

/-! ## An order taken and published -/

theorem orderCode_ne_one {p : Port} {k : Nat} {o : Order} (held : orderIn p k = some o) (other : ∀ c, o ≠ .adopt c) :
    orderCode p k ≠ 1 := by
  intro code
  simp only [orderIn, code, Option.some.injEq] at held
  exact other _ held.symm

/-- Only a published ADOPT changes the last adoption outcome (R176). -/
theorem publish_of_not_adopt {k : Nat} {s : State} (other : orderCode s.port k ≠ 1) (r : Result) (d : Nat) :
    publish k r d s =
      { s with port := { s.port with mem := outcomeWords k r d s.clock.hall s.port.mem, holders := put s.port.holders k .done } } := by
  rw [publish, recordAdoption, if_neg other]
  rfl

/-- The slot taken is answered when the state the order leaves behind is published, whatever the order did beside port and engine. -/
theorem published_publish {k : Nat} {s t : State} (slot : k < 32) (wf : s.memoryLaw) (other : orderCode s.port k ≠ 1)
    (port : t.port = (takeHead k s).port) (engine : t.engine = (takeHead k s).engine) (r : Result) (d : Nat) :
    Published k r d s (publish k r d t) := by
  have mem : (publish k r d t).port.mem = outcomeWords k r d t.clock.hall s.port.mem := by rw [publish_mem, port, takeHead_mem]
  obtain ⟨outcome, detail, low, high⟩ := readNat_outcomeWords k d r t.clock.hall wf
  have holder : ∀ j, (publish k r d t).holder j = if j = k then .done else (takeHead k s).holder j := fun j => by
    rw [publish_holder k r d t slot, State.holder, port, State.holder]
  simp only [Published, Answered, slotWord, mem, publish_clock]
  refine ⟨⟨(holder k).trans (if_pos rfl), fun j apart => ?_, outcome.trans (toNat_ofNat_code r),
    detail.trans (BitVec.toNat_ofNat d 32), ?_, fun a outside => read_outcomeWords_other k d r _ wf outside, ?_⟩, ?_⟩
  · rw [holder, if_neg apart, takeHead_holder k s slot, if_neg apart]
  · rw [low, high, hallTime_of_words]
  · have code : orderCode t.port k ≠ 1 := by rw [port]; exact other
    simp only [publish_of_not_adopt code, port]
    rfl
  · rw [publish_engine, engine]
    rfl

/-- An order that leaves the state as in x, but for its slot taken, is carried out by publishing it. -/
theorem ordered_of_publish {c : Instr} {k d : Nat} {r : Result} {s t x : State} (slot : k < 32) (wf : s.memoryLaw)
    (other : orderCode s.port k ≠ 1) (runs : exec c s = .next (finish (publish k r d t)))
    (left : t = { x with port := (takeHead k s).port, engine := (takeHead k s).engine }) : Ordered c k r d s x := by
  refine ⟨_, runs, published_publish slot wf other (by rw [left]) (by rw [left]) r d, ?_⟩
  have code : orderCode t.port k ≠ 1 := by rw [left]; exact other
  rw [publish_of_not_adopt code, left]

/-! ## The condition without the fault latch -/

/-- What R166 leaves to show of an adopted part once the latch is clear: DEGRADED while a cause is reported, else RUNNING. -/
def State.unlatchedCondition (s : State) : Condition := if s.causes ≠ 0 then .degraded else .running

/-- The state after CLEAR-FAULT has cleared a set latch (R169). -/
abbrev State.faultCleared (s : State) : State :=
  { s with
    monitor := { s.monitor with latch := none, shown := s.unlatchedCondition }
    jr := if s.unlatchedCondition = s.monitor.shown then s.jr
      else s.jr.request s.clock.hall (conditionEntry s.monitor.shown s.unlatchedCondition s.causes none s.clock.hall) }

/-- The causes are read from blocks that taking a slot leaves alone. -/
@[simp] theorem takeHead_causes (k : Nat) (s : State) : (takeHead k s).causes = s.causes := rfl

@[simp] theorem takeHead_unlatchedCondition (k : Nat) (s : State) : (takeHead k s).unlatchedCondition = s.unlatchedCondition := by
  rw [State.unlatchedCondition, takeHead_causes, State.unlatchedCondition]

theorem takeHead_faultCleared (k : Nat) (s : State) :
    (takeHead k s).faultCleared = { s.faultCleared with port := (takeHead k s).port, engine := (takeHead k s).engine } := by
  simp only [State.faultCleared, takeHead_unlatchedCondition, takeHead_causes, takeHead_monitor, takeHead_jr, takeHead_clock]
  rfl

theorem conditionNow_unlatched {s : State} (adopted : s.settings.adopted = true) (running : s.halted = false) :
    State.conditionNow { s with monitor := { s.monitor with latch := none } } = s.unlatchedCondition := by
  have shown : State.halted { s with monitor := { s.monitor with latch := none } } = false := running
  simp only [State.conditionNow, adopted, shown, Option.isSome_none, Bool.not_true, Bool.false_eq_true, if_false]
  rfl

theorem clearFaultLatch_of_clear {s : State} (clear : s.monitor.latch = none) : clearFaultLatch s = (s, 0) := by
  simp only [clearFaultLatch, clear]

theorem clearFaultLatch_of_set {s : State} {x : TableName × Nat} (adopted : s.settings.adopted = true) (running : s.halted = false)
    (held : s.monitor.latch = some x) : clearFaultLatch s = (s.faultCleared, 1) := by
  simp only [clearFaultLatch, held, updateCondition, conditionNow_unlatched adopted running, State.faultCleared]
  split
  case isTrue same => rw [same]
  case isFalse => rfl

/-- CLEAR-FAULT has no parameters and no refusal of its own, so after the first FULL adoption it always takes effect. -/
theorem exec_clearFault_of_offered {s : State} {k : Nat} (offered : Offered s k .alone .clearFault)
    (adopted : s.settings.adopted = true) :
    exec .clearFault s =
      .next (finish (publish k .ok (clearFaultLatch (takeHead k s)).2 (clearFaultLatch (takeHead k s)).1)) := by
  have accepted : Order.refused (takeHead k s) .clearFault = none := by
    simp only [Order.refused, tooEarly, takeHead_settings, adopted, Order.badParameters, Order.refusal, Bool.not_true,
      Bool.false_and, Bool.false_eq_true, if_false]
  change execClearFault s = _
  simp only [execClearFault, nextAlone_of_offered offered, runAlone, accepted]
  rfl

/-- Settles O39, by the two states of the latch: `clearFaultLatch` on the slot just taken, then published. -/
theorem faultLatchCleared : Obligations.FaultLatchCleared := by
  refine ⟨rfl, fun s k offered adopted => ?_⟩
  have runs := exec_clearFault_of_offered offered adopted
  obtain ⟨slot, wf, running, _, _, _, order⟩ := offered
  have other : orderCode s.port k ≠ 1 := orderCode_ne_one order fun _ => Order.noConfusion
  refine ⟨fun clear => ?_, fun x held => ⟨s.unlatchedCondition, s.faultCleared, ?_, fun caused => if_pos caused,
    fun free => if_neg (not_not.2 free), rfl⟩⟩
  · rw [clearFaultLatch_of_clear (s := takeHead k s) clear] at runs
    exact ordered_of_publish slot wf other runs rfl
  · rw [clearFaultLatch_of_set (s := takeHead k s) adopted running held] at runs
    exact ordered_of_publish slot wf other runs (takeHead_faultCleared k s)

end Sys2Proof.Machine
end

section
/-! What every command that is neither an order, a host write nor a reset keeps: engine, slots and exchange memory (`CoreStep`), what the
laws of the plant read (`LawStep`), and the settled state (log entry 10). -/

namespace Sys2Proof.Machine

/-! ## Steps and the laws of the plant -/

/-- A step that leaves the tables, the forces and the isolations and keeps the budget of coils, the armed terms and the list laws. -/
structure LawStep (s t : State) : Prop where
  live : t.settings.live = s.settings.live
  copy : t.settings.copy = s.settings.copy
  forced : ∀ n, (t.pt n).forced = (s.pt n).forced
  isolated : ∀ i, (t.swi i).isolated = (s.swi i).isolated
  coil : s.coilLaw → t.coilLaw
  armed : ∀ j, s.armedAt j → t.armedAt j
  lists : Keeps s t

theorem LawStep.refl (s : State) : LawStep s s :=
  ⟨rfl, rfl, fun _ => rfl, fun _ => rfl, id, fun _ => id, Keeps.refl s⟩

theorem LawStep.trans {s t u : State} (a : LawStep s t) (b : LawStep t u) : LawStep s u :=
  ⟨b.live.trans a.live, b.copy.trans a.copy, fun n => (b.forced n).trans (a.forced n),
    fun i => (b.isolated i).trans (a.isolated i), fun h => b.coil (a.coil h), fun j h => b.armed j (a.armed j h), a.lists.trans b.lists⟩

theorem BlockStep.law {s t : State} (h : BlockStep s t) (lists : Keeps s t) : LawStep s t :=
  ⟨by rw [h.settings], by rw [h.settings], h.forced, h.isolated, h.coil, h.armed, lists⟩

/-- The law of armed terms reads the terms, the modes and the live tables. -/
theorem armedAt_congr_live {s t : State} (term : t.term = s.term) (live : t.settings.live = s.settings.live) (j : Nat)
    (h : s.armedAt j) : t.armedAt j := by
  unfold State.armedAt State.termSet State.trm State.armed at *
  rw [term, live]
  exact h

/-- A start that time has moved away from is counted no more, so the coil law lets time go on. -/
theorem coilLaw_later {s t : State} (switches : t.sw.switches = s.sw.switches) (starts : t.sw.starts = s.sw.starts)
    (later : s.clock.elapsed ≤ t.clock.elapsed) (h : s.coilLaw) : t.coilLaw := by
  obtain ⟨places, counted⟩ := h
  refine ⟨by unfold State.places at *; rwa [switches], le_trans ?_ counted⟩
  unfold State.counted
  rw [starts]
  refine (List.monotone_filter_right _ fun x still => ?_).length_le
  simp only [decide_eq_true_eq] at still ⊢
  omega

/-- A step that changes nothing the laws of the plant read. -/
theorem law_of_fields {s t : State} (live : t.settings.live = s.settings.live) (copy : t.settings.copy = s.settings.copy)
    (points : t.pts.points = s.pts.points) (win : t.win = s.win) (term : t.term = s.term) (sw : t.sw = s.sw)
    (later : s.clock.elapsed ≤ t.clock.elapsed) : LawStep s t :=
  ⟨live, copy, fun n => by simp only [State.pt, points], fun i => by simp only [State.swi, sw],
    coilLaw_later (by rw [sw]) (by rw [sw]) later, armedAt_congr_live term live,
    keeps_of_fields live win (by rw [sw]) (by rw [sw])⟩

/-! ## Events -/

/-- A step of an event: it leaves engine, slots, memory and mask, and keeps what the laws of the plant read. -/
structure EventStep (s t : State) : Prop extends CoreStep s t, LawStep s t

theorem BlockStep.event {s t : State} (h : BlockStep s t) (lists : Keeps s t) : EventStep s t := ⟨h.core, h.law lists⟩

theorem EventStep.refl (s : State) : EventStep s s := ⟨CoreStep.refl s, LawStep.refl s⟩

theorem EventStep.trans {s t u : State} (a : EventStep s t) (b : EventStep t u) : EventStep s u :=
  ⟨a.toCoreStep.trans b.toCoreStep, a.toLawStep.trans b.toLawStep⟩

/-- An event step that a settled state comes out of settled. -/
structure ClosedStep (s t : State) : Prop extends EventStep s t where
  settled : s.settledLaw → t.settledLaw

theorem ClosedStep.refl (s : State) : ClosedStep s s := ⟨EventStep.refl s, id⟩

theorem finish_event (s : State) : EventStep s (finish s) := (finish_block s).event (finish_keeps s)

theorem EventStep.closed {s t : State} (h : EventStep s t) : ClosedStep s (finish t) :=
  ⟨h.trans (finish_event t), fun _ => finish_settled t⟩

/-- Whether a state is settled rests on the adopted flag, the configured concentrators and panels with their links and marginal flags, the
switches, the monitor and the journal. -/
theorem settledLaw_congr {s t : State} (adopted : t.settings.adopted = s.settings.adopted)
    (live : t.settings.live = s.settings.live) (monitor : t.monitor = s.monitor)
    (conc : ∀ c, (t.conc c).link = (s.conc c).link ∧ (t.conc c).marginal = (s.conc c).marginal)
    (pan : ∀ p, (t.pan p).link = (s.pan p).link) (sw : t.sw = s.sw) (jr : t.jr = s.jr) (h : s.settledLaw) : t.settledLaw := by
  obtain ⟨news, shown⟩ := h
  refine ⟨by rw [jr]; exact news, ?_⟩
  rw [monitor, ← shown]
  unfold State.conditionNow State.causes State.causeConcentrator State.causePanel State.causeSwitch State.causeSupervision State.halted
  simp only [adopted, live, monitor, sw, jr, pan, fun c => (conc c).1, fun c => (conc c).2]

/-- A command leads on by a closed step. -/
abbrev LeadsClosed (o : Host.Outcome State Fault Refusal) (s : State) : Prop := ∃ t, o = .next t ∧ ClosedStep s t

theorem leadsClosed_stay (s : State) : LeadsClosed (.next s) s := ⟨s, rfl, ClosedStep.refl s⟩

theorem leadsClosed_finish {s u : State} (block : BlockStep s u) (lists : Keeps s u) : LeadsClosed (.next (finish u)) s :=
  ⟨_, rfl, (block.event lists).closed⟩

/-- A step that changes one of the loops' own records, and no link and no marginal flag, leaves a settled state settled. -/
theorem leadsClosed_loops {s t : State} (block : BlockStep s t) (lists : Keeps s t) (monitor : t.monitor = s.monitor)
    (conc : ∀ c, (t.conc c).link = (s.conc c).link ∧ (t.conc c).marginal = (s.conc c).marginal)
    (pan : ∀ p, (t.pan p).link = (s.pan p).link) (sw : t.sw = s.sw) (jr : t.jr = s.jr) : LeadsClosed (.next t) s :=
  ⟨t, rfl, block.event lists, settledLaw_congr (by rw [block.settings]) (by rw [block.settings]) monitor conc pan sw jr⟩

/-- A step that moves the clocks on and changes nothing else the laws read. -/
theorem leadsClosed_clock (s : State) (c : Clock) (later : s.clock.elapsed ≤ c.elapsed) : LeadsClosed (.next { s with clock := c }) s :=
  ⟨_, rfl, ⟨core_of_fields rfl rfl rfl rfl, law_of_fields rfl rfl rfl rfl rfl rfl later⟩,
    settledLaw_congr rfl rfl rfl (fun _ => ⟨rfl, rfl⟩) (fun _ => rfl) rfl rfl⟩

/-! ## The clocks -/

/-- Hall time alone changed. -/
theorem setHall_event (s : State) (c : Clock) (elapsed : c.elapsed = s.clock.elapsed) : EventStep s { s with clock := c } :=
  ⟨core_of_fields rfl rfl rfl rfl, law_of_fields rfl rfl rfl rfl rfl rfl (le_of_eq elapsed.symm)⟩

theorem setSystemPoint_event (n : Nat) (v : Bool) (s : State) : EventStep s (setSystemPoint n v s) :=
  (setSystemPoint_block n v s).event (setSystemPoint_keeps n v s)

theorem request_event (s : State) (e : Entry) : EventStep s (s.request e) := (request_block s e).event (request_keeps s e)

theorem markStepped_event (s : State) : EventStep s (markStepped s) := by
  unfold markStepped
  exact ite_rel ((setHall_event s { s.clock with steppedUntil := some (s.clock.elapsed + 10000) } rfl).trans
    (setSystemPoint_event 673 true _)) (EventStep.refl s)

theorem stepTime_event (bySync : Bool) (new : HallTime) (s : State) : EventStep s (stepTime bySync new s) :=
  ((setHall_event s { s.clock with hall := new } rfl).trans (request_event _ (timeEntry bySync s.clock.hall new))).trans (markStepped_event _)

theorem execSyncPulse_closed (s : State) : LeadsClosed (execSyncPulse s) s := by
  unfold execSyncPulse
  split
  · exact ⟨_, rfl, (stepTime_event true _ s).closed⟩
  · exact leadsClosed_clock s _ le_rfl

theorem execTimeSteppedExpiry_closed (s : State) : LeadsClosed (execTimeSteppedExpiry s) s := by
  unfold execTimeSteppedExpiry
  split
  · exact leadsClosed_stay s
  · split
    · exact ⟨_, rfl, ((setHall_event s { s.clock with steppedUntil := none } rfl).trans (setSystemPoint_event 673 false _)).closed⟩
    · exact leadsClosed_stay s

theorem execFlashPhaseAdvance_closed (s : State) : LeadsClosed (execFlashPhaseAdvance s) s := by
  unfold execFlashPhaseAdvance
  split
  · exact leadsClosed_clock s _ le_rfl
  · exact leadsClosed_stay s

/-! ## The field loop -/

/-- The field loop's own record replaced, the concentrators left. -/
theorem field_leadsClosed (s : State) (f : FieldLoop) (same : f.concentrators = s.field.concentrators) :
    LeadsClosed (.next { s with field := f }) s :=
  leadsClosed_loops (field_block s f) (field_keeps s f) rfl (fun c => by simp only [State.conc, same, and_self]) (fun _ => rfl) rfl rfl

theorem sendCall_closed (y : FieldCycle) (address : Nat) (again : Bool) (s : State) : LeadsClosed (.next (sendCall y address again s)) s := by
  unfold sendCall
  split
  · exact field_leadsClosed s _ rfl
  · exact field_leadsClosed s _ rfl

theorem execFieldCycleStart_closed (s : State) : LeadsClosed (execFieldCycleStart s) s := by
  unfold execFieldCycleStart
  split
  · split
    · exact field_leadsClosed s _ rfl
    · exact leadsClosed_stay s
  · exact leadsClosed_stay s

theorem execScanCall_closed (s : State) : LeadsClosed (execScanCall s) s := by
  unfold execScanCall
  split
  · exact leadsClosed_stay s
  · split
    · exact sendCall_closed _ _ _ s
    · exact leadsClosed_stay s

theorem execRepeatCall_closed (s : State) : LeadsClosed (execRepeatCall s) s := by
  unfold execRepeatCall
  split
  · exact leadsClosed_stay s
  · split
    · split
      · exact field_leadsClosed s _ rfl
      · exact sendCall_closed _ _ _ s
    · exact leadsClosed_stay s

theorem countCall_link (k : Concentrator) (j : FieldJudgement) : (k.countCall j).link = k.link := by cases j <;> rfl

theorem countCall_marginal (k : Concentrator) (j : FieldJudgement) : (k.countCall j).marginal = k.marginal := by cases j <;> rfl

/-- A call counted, and the cycle in progress replaced. -/
theorem countCall_leadsClosed (s : State) (a : Nat) (j : FieldJudgement) (y : FieldCycle) :
    LeadsClosed (.next ((s.setConc a ((s.conc a).countCall j)).setFieldCycle y)) s := by
  have conc : ∀ c, ((s.setConc a ((s.conc a).countCall j)).setFieldCycle y).conc c =
      if a = c ∧ c < 16 then (s.conc a).countCall j else s.conc c := fun c => conc_setConc s a c _
  refine leadsClosed_loops ((setConc_block s _ _).trans (setFieldCycle_block _ y)) ((setConc_keeps s _ _).trans (setFieldCycle_keeps _ y))
    rfl (fun c => ?_) (fun _ => rfl) rfl rfl
  rw [conc]
  split
  · next here => exact ⟨by rw [countCall_link, here.1], by rw [countCall_marginal, here.1]⟩
  · exact ⟨rfl, rfl⟩

theorem execFieldSlotEnd_closed (line : LineInput) (s : State) : LeadsClosed (execFieldSlotEnd line s) s := by
  unfold execFieldSlotEnd
  split
  · exact leadsClosed_stay s
  · split
    · exact leadsClosed_stay s
    · extract_lets y j u
      split
      · exact field_leadsClosed s _ rfl
      · have block : BlockStep s u := setConc_block s _ _
        have lists : Keeps s u := setConc_keeps s _ _
        clear_value j
        split
        · exact leadsClosed_finish ((block.trans (setFieldCycle_block _ _)).trans (goodCycle_block ..))
            ((lists.trans (setFieldCycle_keeps _ _)).trans (goodCycle_keeps _ _ _ _ _ _))
        · exact countCall_leadsClosed s _ j _

theorem execFieldCycleEnd_closed (s : State) : LeadsClosed (execFieldCycleEnd s) s := by
  unfold execFieldCycleEnd
  split
  · exact leadsClosed_stay s
  · next y _ =>
    split
    · exact leadsClosed_finish ((field_block s _).trans (foldl_block _ (endCycleOf_block y) _ _))
        ((field_keeps s _).trans (foldl_keeps _ (endCycleOf_keeps y) _ _))
    · exact leadsClosed_stay s

/-! ## The panel loop -/

/-- The panel loop's own record replaced, the panels left. -/
theorem panel_leadsClosed (s : State) (f : PanelLoop) (same : f.panels = s.panel.panels) : LeadsClosed (.next { s with panel := f }) s :=
  leadsClosed_loops (panel_block s f) (panel_keeps s f) rfl (fun _ => ⟨rfl, rfl⟩) (fun p => by simp only [State.pan, same]) rfl rfl

theorem sendFrame_closed (y : PanelCycle) (p : Nat) (s : State) : LeadsClosed (.next (sendFrame y p s)) s := by
  unfold sendFrame
  split
  · exact panel_leadsClosed s _ rfl
  · exact panel_leadsClosed s _ rfl

theorem execPanelCycleStart_closed (s : State) : LeadsClosed (execPanelCycleStart s) s := by
  unfold execPanelCycleStart
  split
  · split
    · exact panel_leadsClosed s _ rfl
    · exact leadsClosed_stay s
  · exact leadsClosed_stay s

theorem execLampFrame_closed (s : State) : LeadsClosed (execLampFrame s) s := by
  unfold execLampFrame
  split
  · exact leadsClosed_stay s
  · split
    · exact leadsClosed_stay s
    · split
      · split
        · exact sendFrame_closed _ _ s
        · exact panel_leadsClosed s _ rfl
      · split
        · exact sendFrame_closed _ _ s
        · exact panel_leadsClosed s _ rfl

/-- A panel's counters changed, its link left, and the cycle in progress replaced. -/
theorem setPan_leadsClosed (s : State) (p : Nat) (x : Panel) (y : PanelCycle) (link : x.link = (s.pan p).link) :
    LeadsClosed (.next ((s.setPan p x).setPanelCycle y)) s := by
  have pan : ∀ q, ((s.setPan p x).setPanelCycle y).pan q = if p = q ∧ q < 16 then x else s.pan q := fun q => pan_setPan s p q x
  refine leadsClosed_loops ((setPan_block s p x).trans (setPanelCycle_block _ y)) ((setPan_keeps s p x).trans (setPanelCycle_keeps _ y))
    rfl (fun _ => ⟨rfl, rfl⟩) (fun q => ?_) rfl rfl
  rw [pan]
  split
  · next here => rw [link, here.1]
  · rfl

theorem execPanelSlotEnd_closed (line : LineInput) (s : State) : LeadsClosed (execPanelSlotEnd line s) s := by
  unfold execPanelSlotEnd
  split
  · exact leadsClosed_stay s
  · split
    · exact leadsClosed_stay s
    · extract_lets y failed
      split
      · exact panel_leadsClosed s _ rfl
      · split
        · exact leadsClosed_finish ((setPanelCycle_block s _).trans (takeKeyReply_block ..))
            ((setPanelCycle_keeps s _).trans (takeKeyReply_keeps _ _ _ _ _ _))
        · exact setPan_leadsClosed s _ _ _ rfl
        · exact setPan_leadsClosed s _ _ _ rfl

theorem execPanelCycleEnd_closed (s : State) : LeadsClosed (execPanelCycleEnd s) s := by
  unfold execPanelCycleEnd
  split
  · exact leadsClosed_stay s
  · next y _ =>
    split
    · exact leadsClosed_finish ((panel_block s _).trans (foldl_block _ (endPanelCycleOf_block y) _ _))
        ((panel_keeps s _).trans (foldl_keeps _ (endPanelCycleOf_keeps y) _ _))
    · exact leadsClosed_stay s

/-! ## Points, windows and groups -/

theorem execChatterPeriodBoundary_closed (s : State) : LeadsClosed (execChatterPeriodBoundary s) s := by
  unfold execChatterPeriodBoundary
  split
  · exact leadsClosed_stay s
  · split
    · have block : BlockStep s (clearChatter (s.calmPoints.foldl releaseChatter s)) :=
        (foldl_block _ releaseChatter_block _ _).trans (clearChatter_block _)
      have lists : Keeps s (clearChatter (s.calmPoints.foldl releaseChatter s)) :=
        (foldl_keeps _ releaseChatter_keeps _ _).trans (clearChatter_keeps _)
      generalize clearChatter (s.calmPoints.foldl releaseChatter s) = u at block lists ⊢
      exact leadsClosed_finish (block.trans (block_of_fields rfl rfl rfl rfl rfl rfl rfl rfl rfl rfl))
        (lists.trans (keeps_of_fields rfl rfl rfl rfl))
    · exact leadsClosed_stay s

theorem execContinuousSample_closed (samples : List (BitVec 10)) (s : State) : LeadsClosed (execContinuousSample samples s) s := by
  unfold execContinuousSample
  split
  · exact leadsClosed_stay s
  · split
    · exact leadsClosed_finish ((sup_block s _).trans (foldl_block _ (sampleChannel_block samples) _ _))
        ((sup_keeps s _).trans (foldl_keeps _ (sampleChannel_keeps samples) _ _))
    · exact leadsClosed_stay s

theorem execSettleTimerExpiry_closed (g : Nat) (s : State) : LeadsClosed (execSettleTimerExpiry g s) s := by
  unfold execSettleTimerExpiry
  split
  · split
    · exact leadsClosed_finish (settleEnd_winStep g s).block (settleEnd_keeps g s)
    · exact leadsClosed_stay s
  all_goals exact leadsClosed_stay s

theorem execShelfExpiry_closed (s : State) : LeadsClosed (execShelfExpiry s) s := by
  unfold execShelfExpiry
  split
  · exact leadsClosed_stay s
  · split
    · exact leadsClosed_finish (endShelving_winStep ..).block (endShelving_keeps _ _ _)
    · exact leadsClosed_stay s

theorem execChimeEnd_closed (s : State) : LeadsClosed (execChimeEnd s) s := by
  unfold execChimeEnd
  split
  · exact leadsClosed_stay s
  · split
    · exact leadsClosed_loops (block_of_fields rfl rfl rfl rfl rfl rfl rfl rfl rfl rfl) (keeps_of_win rfl rfl rfl rfl id) rfl
        (fun _ => ⟨rfl, rfl⟩) (fun _ => rfl) rfl rfl
    · exact leadsClosed_stay s

/-! ## Terms and switches -/

theorem execTermDelayExpiry_closed (t : Nat) (s : State) : LeadsClosed (execTermDelayExpiry t s) s := by
  unfold execTermDelayExpiry
  split
  · exact leadsClosed_stay s
  · next c configured =>
    split
    · next due =>
      simp only [Bool.and_eq_true, beq_iff_eq] at due
      have armed : s.armedAt t → ∀ c', s.termSet t = some c' → s.armed c' = true :=
        fun law c' same => law c' same (Or.inr (Or.inl due.1.1))
      exact leadsClosed_finish (enterActive_hand t c _ s armed).toBlockStep (enterActive_keeps _ _ _ _)
    · exact leadsClosed_stay s

/-- Starts that are counted no more leave the history. -/
theorem forgetStarts_block (s : State) :
    BlockStep s { s with sw := { s.sw with starts := s.sw.starts.filter fun t => decide (s.clock.elapsed - t < 20) } } := by
  refine ⟨rfl, rfl, rfl, rfl, rfl, JournalStep.refl _, fun _ => rfl, fun _ => rfl, fun ⟨places, counted⟩ => ⟨places, ?_⟩, fun _ => id⟩
  unfold State.counted at *
  simpa only [List.filter_filter, Bool.and_self] using counted

theorem forgetStarts_keeps (s : State) :
    Keeps s { s with sw := { s.sw with starts := s.sw.starts.filter fun t => decide (s.clock.elapsed - t < 20) } } :=
  keeps_of_fields rfl rfl rfl rfl

theorem execStartHistoryExpiry_closed (s : State) : LeadsClosed (execStartHistoryExpiry s) s :=
  leadsClosed_finish ((forgetStarts_block s).trans (runQueue_block _)) ((forgetStarts_keeps s).trans (runQueue_keeps _))

theorem execCoilStart_closed (s : State) : LeadsClosed (execCoilStart s) s := leadsClosed_finish (runQueue_block s) (runQueue_keeps s)

theorem pulsing_state {s : State} {i : Nat} {c : SwitchSettings} (h : s.pulsing i = some c) :
    s.swSet i = some c ∧ (s.swi i).state = .pulsing := by
  unfold State.pulsing at h
  split at h
  · next runs => exact ⟨h, by simpa only [beq_iff_eq] using runs⟩
  · cases h

theorem execMinPulseExpiry_closed (i : Nat) (s : State) : LeadsClosed (execMinPulseExpiry i s) s := by
  unfold execMinPulseExpiry
  split
  · exact leadsClosed_stay s
  · next pulse =>
    split
    · exact leadsClosed_finish (confirmPulse_coil _ _ _).block (confirmPulse_keeps _ _ _ (pulsing_state pulse).2)
    · exact leadsClosed_stay s

theorem execMaxPulseExpiry_closed (i : Nat) (s : State) : LeadsClosed (execMaxPulseExpiry i s) s := by
  unfold execMaxPulseExpiry
  split
  · exact leadsClosed_stay s
  · next pulse =>
    split
    · exact leadsClosed_finish (failPulse_coil _ _ _).block (failPulse_keeps _ _ _ (pulsing_state pulse).2)
    · exact leadsClosed_stay s

theorem execResetPulseEnd_closed (i : Nat) (s : State) : LeadsClosed (execResetPulseEnd i s) s := by
  unfold execResetPulseEnd
  split
  · exact leadsClosed_stay s
  · split
    · next due =>
      simp only [Bool.and_eq_true, beq_iff_eq] at due
      exact leadsClosed_finish (endReset_coil _ _ _).block (endReset_keeps _ _ _ due.1)
    · exact leadsClosed_stay s

theorem execTestPulseEnd_closed (i : Nat) (sample : BitVec 10) (s : State) : LeadsClosed (execTestPulseEnd i sample s) s := by
  unfold execTestPulseEnd
  split
  · split
    · split
      · exact leadsClosed_finish (endTest_coil _ _ _ _ _).block (endTest_keeps _ _ _ _ _)
      · exact leadsClosed_stay s
    · exact leadsClosed_stay s
  · exact leadsClosed_stay s

theorem execSupervisionTick_closed (i : Nat) (s : State) : LeadsClosed (execSupervisionTick i s) s := by
  unfold execSupervisionTick
  split
  · exact leadsClosed_stay s
  · split
    · exact leadsClosed_finish (tick_coil _ _ _).block (tick_keeps _ _ _)
    · exact leadsClosed_stay s

/-! ## All of them -/

/-- The commands that are neither orders, host writes, table checks nor resets. -/
def Instr.isEvent : Instr → Bool
  | .syncPulse | .settingsKeyChange _ | .hallTimeAdvance | .fieldCycleStart | .scanCall | .repeatCall | .fieldSlotEnd _ | .fieldCycleEnd
  | .chatterPeriodBoundary | .timeSteppedExpiry | .continuousSample _ | .settleTimerExpiry _ | .shelfExpiry | .chimeEnd
  | .flashPhaseAdvance | .panelCycleStart | .lampFrame | .panelSlotEnd _ | .panelCycleEnd | .termDelayExpiry _ | .coilStart
  | .startHistoryExpiry | .minPulseExpiry _ | .maxPulseExpiry _ | .resetPulseEnd _ | .testPulseEnd _ _ | .supervisionTick _ => true
  | _ => false

/-- Every event leads on by a closed step. -/
theorem exec_event {c : Instr} (event : Instr.isEvent c = true) (s : State) : LeadsClosed (exec c s) s := by
  cases c with
  | syncPulse => exact execSyncPulse_closed s
  | settingsKeyChange enable =>
    exact ⟨_, rfl, ⟨⟨rfl, rfl, rfl, rfl, rfl, JournalStep.refl _⟩, law_of_fields rfl rfl rfl rfl rfl rfl le_rfl⟩,
      settledLaw_congr rfl rfl rfl (fun _ => ⟨rfl, rfl⟩) (fun _ => rfl) rfl rfl⟩
  | hallTimeAdvance => exact leadsClosed_clock s _ (Nat.le_succ _)
  | fieldCycleStart => exact execFieldCycleStart_closed s
  | scanCall => exact execScanCall_closed s
  | repeatCall => exact execRepeatCall_closed s
  | fieldSlotEnd line => exact execFieldSlotEnd_closed line s
  | fieldCycleEnd => exact execFieldCycleEnd_closed s
  | chatterPeriodBoundary => exact execChatterPeriodBoundary_closed s
  | timeSteppedExpiry => exact execTimeSteppedExpiry_closed s
  | continuousSample samples => exact execContinuousSample_closed samples s
  | settleTimerExpiry g => exact execSettleTimerExpiry_closed g s
  | shelfExpiry => exact execShelfExpiry_closed s
  | chimeEnd => exact execChimeEnd_closed s
  | flashPhaseAdvance => exact execFlashPhaseAdvance_closed s
  | panelCycleStart => exact execPanelCycleStart_closed s
  | lampFrame => exact execLampFrame_closed s
  | panelSlotEnd line => exact execPanelSlotEnd_closed line s
  | panelCycleEnd => exact execPanelCycleEnd_closed s
  | termDelayExpiry t => exact execTermDelayExpiry_closed t s
  | coilStart => exact execCoilStart_closed s
  | startHistoryExpiry => exact execStartHistoryExpiry_closed s
  | minPulseExpiry i => exact execMinPulseExpiry_closed i s
  | maxPulseExpiry i => exact execMaxPulseExpiry_closed i s
  | resetPulseEnd i => exact execResetPulseEnd_closed i s
  | testPulseEnd i sample => exact execTestPulseEnd_closed i sample s
  | supervisionTick i => exact execSupervisionTick_closed i s
  | _ => cases event

end Sys2Proof.Machine
end

section
/-! What the effect of an order, alone or as the member of a chain, and the swap of an adoption do to the laws of the plant (R12, R116, R174). -/

namespace Sys2Proof.Machine

/-- The laws of the plant but for the condition shown, which the close of the command brings about. -/
structure State.PlantHolds (s : State) : Prop where
  force : s.forceLaw
  copy : s.copyLaw
  bare : s.bareLaw
  coil : s.coilLaw
  armed : s.armedLaw

theorem quality_forced_iff (p : Point) : p.quality = .forced ↔ p.forced ≠ none := by
  unfold Point.quality
  cases p.forced with
  | some v => simp
  | none => cases p.live <;> simp [LiveQuality.quality]

theorem unsafeTerms_nil_iff (s : State) (n : Nat) :
    unsafeTerms s n = [] ↔ ∀ t c, s.termSet t = some c → n ∈ c.points → ∀ i ∈ c.outputs, (s.swi i).isolated = true := by
  unfold unsafeTerms
  simp only [List.eq_nil_iff_forall_not_mem, mem_configuredWhere, State.termSet, not_exists, not_and, Bool.and_eq_true, List.contains_iff_mem,
    List.any_eq_true, Bool.not_eq_true', Bool.not_eq_false]

/-- A step that forces no further point, restores no switch, isolates only configured ones and leaves the tables. -/
structure SafeStep (s t : State) : Prop where
  live : t.settings.live = s.settings.live
  copy : t.settings.copy = s.settings.copy
  forced : ∀ n, (t.pt n).forced ≠ none → (s.pt n).forced ≠ none
  isolated : ∀ i, (s.swi i).isolated = true → (t.swi i).isolated = true
  configured : ∀ i, (t.swi i).isolated = true → (s.swi i).isolated = true ∨ s.swSet i ≠ none
  coil : s.coilLaw → t.coilLaw
  armed : ∀ j, s.armedAt j → t.armedAt j

theorem LawStep.safe {s t : State} (h : LawStep s t) : SafeStep s t :=
  ⟨h.live, h.copy, fun n => by rw [h.forced]; exact id, fun i => by rw [h.isolated]; exact id,
    fun i on => Or.inl (by rw [← h.isolated i]; exact on), h.coil, h.armed⟩

theorem BlockStep.safe {s t : State} (h : BlockStep s t) : SafeStep s t :=
  ⟨by rw [h.settings], by rw [h.settings], fun n => by rw [h.forced]; exact id, fun i => by rw [h.isolated]; exact id,
    fun i on => Or.inl (by rw [← h.isolated i]; exact on), h.coil, h.armed⟩

theorem SafeStep.trans {s t u : State} (a : SafeStep s t) (b : SafeStep t u) : SafeStep s u where
  live := b.live.trans a.live
  copy := b.copy.trans a.copy
  forced n h := a.forced n (b.forced n h)
  isolated i h := b.isolated i (a.isolated i h)
  configured i h := (b.configured i h).elim (a.configured i) fun named =>
    Or.inr (by simpa only [State.swSet, a.live] using named)
  coil h := b.coil (a.coil h)
  armed j h := b.armed j (a.armed j h)

theorem SafeStep.holds {s t : State} (h : SafeStep s t) (laws : s.PlantHolds) : t.PlantHolds where
  force n small forced := by
    have was : (s.pt n).quality = .forced := (quality_forced_iff _).2 (h.forced n ((quality_forced_iff _).1 forced))
    rw [unsafeTerms_nil_iff]
    intro u c set listed i out
    refine h.isolated i ((unsafeTerms_nil_iff s n).1 (laws.force n small was) u c ?_ listed i out)
    simpa only [State.termSet, h.live] using set
  copy := h.copy.trans (Eq.trans laws.copy h.live.symm)
  bare := by
    obtain ⟨points, switches⟩ := laws.bare
    refine ⟨fun n small none => ?_, fun i none => ?_⟩
    · by_contra forced
      exact h.forced n forced (points n small (by simpa only [State.ptSet, h.live] using none))
    · have none' : s.swSet i = .none := by simpa only [State.swSet, h.live] using none
      by_contra on
      rcases h.configured i (by simpa using on) with was | named
      · rw [switches i none'] at was
        cases was
      · exact named none'
  coil := h.coil laws.coil
  armed j small := h.armed j (laws.armed j small)

/-! ## FORCE-POINT and RELEASE-POINT (R12, R13) -/

theorem setPt_forced (s : State) (n : Nat) (p : Point) (m : Nat) :
    ((s.setPt n p).pt m).forced = if n = m ∧ m < 680 then p.forced else (s.pt m).forced := by
  rw [pt_setPt, apply_ite Point.forced]

/-- The point's own part of FORCE-POINT changes the point and the journal. -/
theorem markForced_eq (n : Nat) (v : Bool) (s : State) : ∃ j,
    markForced n v s = { s.setPt n { s.pt n with forced := some v, frozen := none, chatter := 0 } with jr := j } := by
  unfold markForced
  extract_lets p u w
  refine ⟨(w.request (maintEntry n 0x0A 2 (bit v) p.quality.code w.now)).jr, ?_⟩
  simp only [w]
  split <;> rfl

/-- The point of an order that its check lets through may be forced: no term that lists it has an output that is not isolated. -/
theorem markForced_holds {n : Nat} {v : Bool} {s : State} (laws : s.PlantHolds) (configured : (s.ptSet n).isSome)
    (harmless : unsafeTerms s n = []) : (markForced n v s).PlantHolds := by
  obtain ⟨j, whole⟩ := markForced_eq n v s
  have forced : ∀ m, ((markForced n v s).pt m).forced ≠ none → m = n ∨ (s.pt m).forced ≠ none := by
    intro m
    rw [whole]
    show (((s.setPt n _).pt m).forced ≠ none) → _
    rw [setPt_forced]
    split
    · next here => exact fun _ => Or.inl here.1.symm
    · exact Or.inr
  have settings : (markForced n v s).settings = s.settings := by rw [whole]; rfl
  have sw : (markForced n v s).sw = s.sw := by rw [whole]; rfl
  refine ⟨fun m small now => ?_, by rw [whole]; exact laws.copy, ⟨fun m small none => ?_, fun i none => ?_⟩,
    coilLaw_congr sw (by rw [whole]; rfl) laws.coil, fun j small => armedAt_congr (by rw [whole]; rfl) settings j (laws.armed j small)⟩
  · have terms : unsafeTerms (markForced n v s) m = unsafeTerms s m := by simp only [unsafeTerms, State.swi, settings, sw]
    rw [terms]
    rcases forced m ((quality_forced_iff _).1 now) with rfl | was
    · exact harmless
    · exact laws.force m small ((quality_forced_iff _).2 was)
  · have none' : s.ptSet m = .none := by simpa only [State.ptSet, settings] using none
    by_contra now
    rcases forced m now with rfl | was
    · rw [none'] at configured
      cases configured
    · exact was (laws.bare.1 m small none')
  · simpa only [State.swi, sw] using laws.bare.2 i (by simpa only [State.swSet, settings] using none)

theorem markUnforced_safe (n : Nat) (v : Bool) (s : State) : SafeStep s (markUnforced n v s) := by
  have unforced : (s.pt n).unforced.forced = none := by unfold Point.unforced; split <;> rfl
  refine ⟨rfl, rfl, fun m => ?_, fun _ => id, fun _ => Or.inl, id, fun _ => id⟩
  show (((s.setPt n _).pt m).forced ≠ none) → _
  rw [setPt_forced, unforced]
  split
  · exact fun no => absurd rfl no
  · exact id

theorem pt_default_forced {s : State} {n : Nat} (large : ¬ n < 680) : (s.pt n).forced = none := by
  unfold State.pt
  rw [look_beyond _ _ (by omega)]
  rfl

/-- A released point carries no force, as the state it is put into. -/
theorem released_forced (n : Nat) (v : Bool) (s : State) :
    ((s.pt n).released s.now).forced = ((markUnforced n v s).pt n).forced := by
  have unforced : (s.pt n).unforced.forced = none := by unfold Point.unforced; split <;> rfl
  show (s.pt n).unforced.forced = ((s.setPt n (s.pt n).unforced).pt n).forced
  rw [setPt_forced, unforced]
  split
  · rfl
  · next out => exact (pt_default_forced fun small => out ⟨rfl, small⟩).symm

theorem releasePoint_safe (n : Nat) (s : State) : SafeStep s (releasePoint n s).1 := by
  unfold releasePoint
  extract_lets p
  split
  · next value c _ _ =>
    extract_lets u
    have first : SafeStep s u := markUnforced_safe n value s
    split
    · exact first.trans (handOn_block ..).safe
    · exact first.trans (makeChange_block _ _ _ _ _ _ _ _ (released_forced n value s)).safe
  · exact (LawStep.refl s).safe

theorem releaseMember_safe (n : Nat) (s : State) : SafeStep s (releaseMember n s).state := by
  unfold releaseMember
  extract_lets p
  split
  · next value c _ _ =>
    extract_lets u
    have first : SafeStep s u := markUnforced_safe n value s
    split
    · exact first
    · exact first.trans (recordChange_block _ _ _ _ _ _ _ (released_forced n value s)).safe
  · exact (LawStep.refl s).safe

/-! ## ISOLATE and RESTORE (R115, R116) -/

/-- The isolated flag of one switch set, and a request made. -/
theorem setIsolated_step (i : Nat) (on : Bool) (s : State) (j : Nat) :
    ((s.setSwi i { s.swi i with isolated := on }).swi j).isolated = if i = j ∧ j < 48 then on else (s.swi j).isolated := by
  rw [swi_setSwi, apply_ite Switch.isolated]

/-- The flag has no part in the coil law. -/
theorem setIsolated_coil (i : Nat) (on : Bool) (s : State) (h : s.coilLaw) : (s.setSwi i { s.swi i with isolated := on }).coilLaw :=
  ⟨le_trans ((places_setSwi s i _).2 (energized_same rfl rfl)) h.1, h.2⟩

theorem markIsolated_safe {i : Nat} {s : State} (configured : s.swSet i ≠ none) : SafeStep s (markIsolated i s) := by
  refine ⟨rfl, rfl, fun _ => id, fun j was => ?_, fun j now => ?_, setIsolated_coil i true s, fun _ => id⟩
  · show ((s.setSwi i _).swi j).isolated = true
    rw [setIsolated_step]
    split
    · rfl
    · exact was
  · have now' : ((s.setSwi i { s.swi i with isolated := true }).swi j).isolated = true := now
    rw [setIsolated_step] at now'
    split at now'
    · next here => exact Or.inr (here.1 ▸ configured)
    · exact Or.inl now'

theorem withdrawTrip_block (i : Nat) (c : SwitchSettings) (e : QueueEntry) (s : State) : BlockStep s (withdrawTrip i c e s) :=
  ((dropEntry_block _ _).trans (requestSwitch_block _ _ _ _ _ _ _ _ _ _)).trans (setSwitchState_block _ _ _)

theorem isolateSwitch_safe {i : Nat} {s : State} (configured : s.swSet i ≠ none) : SafeStep s (isolateSwitch i s).1 := by
  unfold isolateSwitch
  split
  · exact (LawStep.refl s).safe
  · extract_lets u
    have first : SafeStep s u := markIsolated_safe configured
    split
    · split
      · extract_lets v w
        have shown : BlockStep u v := (withdrawTrip_block _ _ _ _).trans (syncSwitchPoints_block _ _)
        have found : BlockStep u w := ite_rel (shown.trans (foundOperated_block _ _ _)) shown
        exact first.trans (found.trans (runQueue_block _)).safe
      · exact first
    · exact first

theorem isolateMember_safe {i : Nat} {s : State} (configured : s.swSet i ≠ none) : SafeStep s (isolateMember i s).state := by
  unfold isolateMember
  split
  · exact (LawStep.refl s).safe
  · extract_lets u
    have first : SafeStep s u := markIsolated_safe configured
    split
    · split
      · extract_lets v
        have taken : BlockStep u v := withdrawTrip_block _ _ _ _
        split
        · exact first.trans (taken.trans (enterLockedOut_coil _ _ _).block).safe
        · exact first.trans taken.safe
      · exact first
    · exact first

/-- A switch that no term with a forced point feeds may be restored. -/
theorem restoreSwitch_holds {i : Nat} {s : State} (laws : s.PlantHolds) (free : (s.swi i).isolated = true → forcedFeeds s i = false) :
    (restoreSwitch i s).1.PlantHolds := by
  unfold restoreSwitch
  split
  case isFalse => exact laws
  case isTrue was =>
    have isolated : ∀ j, (((s.setSwi i { s.swi i with isolated := false }).request (maintEntry i 0x0D 1 0 0 s.now)).swi j).isolated =
        if i = j ∧ j < 48 then false else (s.swi j).isolated := setIsolated_step i false s
    refine ⟨fun n small now => (unsafeTerms_nil_iff _ n).2 fun t c set listed j out => ?_, laws.copy,
      ⟨laws.bare.1, fun j none => ?_⟩, setIsolated_coil i false s laws.coil, laws.armed⟩
    · have before := (unsafeTerms_nil_iff s n).1 (laws.force n small now) t c set listed j out
      rw [isolated]
      split
      · next here =>
        have feeds : forcedFeeds s i = true := by
          have forced : ((s.pt n).forced).isSome = true := Option.isSome_iff_ne_none.2 ((quality_forced_iff _).1 now)
          simp only [forcedFeeds, Bool.not_eq_true', List.isEmpty_eq_false_iff_exists_mem, mem_configuredWhere]
          refine ⟨t, c, set, ?_⟩
          simp only [Bool.and_eq_true, List.contains_iff_mem, List.any_eq_true]
          exact ⟨here.1 ▸ out, n, listed, forced⟩
        rw [free was] at feeds
        cases feeds
      · exact before
    · rw [isolated]
      split
      · rfl
      · exact laws.bare.2 j none

/-! ## Every order -/

theorem setMonitor_event (s : State) (m : Monitor) : EventStep s { s with monitor := m } :=
  ⟨core_of_fields rfl rfl rfl rfl, law_of_fields rfl rfl rfl rfl rfl rfl le_rfl⟩

theorem clearFaultLatch_event (s : State) : EventStep s (clearFaultLatch s).1 := by
  unfold clearFaultLatch
  split
  · exact EventStep.refl s
  · exact (setMonitor_event s _).trans ((updateCondition_block _ _).event (updateCondition_keeps _ _))

theorem clearCounters_event (scope subject : Nat) (s : State) : EventStep s (clearCounters scope subject s).1 := by
  simp only [clearCounters]
  refine EventStep.trans ?_ (request_event _ _)
  split
  · exact (field_block s _).event (field_keeps s _)
  · exact (panel_block s _).event (panel_keeps s _)
  · exact ⟨⟨rfl, rfl, rfl, rfl, rfl, JournalStep.refl _⟩, law_of_fields rfl rfl rfl rfl rfl rfl le_rfl⟩

theorem unsafeTerms_of_unrefused {live s : State} {n v : Nat} (h : Order.refusal live s (.forcePoint n v) = none) :
    unsafeTerms s n = [] := by
  simpa only [Order.refusal, Option.map_eq_none_iff, List.head?_eq_none_iff] using h

theorem forcePoint_configured {s : State} {n v : Nat} (h : Order.badParameters s (.forcePoint n v) = false) :
    (s.ptSet n).isSome = true := by
  simp only [Order.badParameters, Bool.not_eq_false', Bool.and_eq_true] at h
  exact h.1.2

theorem swSet_of_namesSwitch {s : State} {i : Nat} (h : s.namesSwitch i = true) : s.swSet i ≠ none := by
  simp only [State.namesSwitch, Bool.and_eq_true] at h
  exact Option.isSome_iff_ne_none.1 h.2

theorem forcedFeeds_of_unrefused {live s : State} {i : Nat} (h : Order.refusal live s (.restore i) = none)
    (on : (s.swi i).isolated = true) : forcedFeeds s i = false := by
  simp only [Order.refusal, on, Bool.not_true, Bool.false_eq_true, if_false] at h
  split at h
  · cases h
  · next no => simpa only [Bool.not_eq_true] using no

/-- The effect of an order that no check turns away keeps the laws. -/
theorem applyOrder_holds (k : Nat) {live s : State} {o : Order} (fits : o.badParameters s = false)
    (allowed : o.refusal live s = none) (laws : s.PlantHolds) : (applyOrder k s o).1.PlantHolds := by
  cases o with
  | adopt | restart => exact laws
  | setTime => exact (stepTime_event _ _ _).toLawStep.safe.holds laws
  | setMode u m =>
    simp only [applyOrder]
    split
    · exact (setMode_block _ _ _ _).safe.holds laws
    · exact laws
  | ackWindows => exact (offerAll_winStep _ _ _ _).block.safe.holds laws
  | resetWindows => exact (offerAll_winStep _ _ _ _).block.safe.holds laws
  | silence => exact (setSilence_winStep _).block.safe.holds laws
  | shelve => exact (shelveWindow_winStep _ _ _).block.safe.holds laws
  | unshelve => exact (unshelveWindow_winStep _ _).block.safe.holds laws
  | resetFirstOut => exact (clearGroup_winStep _ _).block.safe.holds laws
  | forcePoint =>
    exact (handOn_block _ _ _ _).safe.holds (markForced_holds laws (forcePoint_configured fits) (unsafeTerms_of_unrefused allowed))
  | releasePoint => exact (releasePoint_safe _ _).holds laws
  | isolate i => exact (isolateSwitch_safe (swSet_of_namesSwitch (by simpa [Order.badParameters] using fits))).holds laws
  | restore => exact restoreSwitch_holds laws (forcedFeeds_of_unrefused allowed)
  | tripManual => exact (tripManual_block _ _ _).safe.holds laws
  | resetSwitch => exact (resetSwitch_block _ _).safe.holds laws
  | testCircuit => exact (testCircuit_block _ _).safe.holds laws
  | clearCounters => exact (clearCounters_event _ _ _).toLawStep.safe.holds laws
  | clearFault => exact (clearFaultLatch_event _).toLawStep.safe.holds laws

theorem resetMember_block (i : Nat) (s : State) : BlockStep s (resetMember i s).state := by
  unfold resetMember
  split
  · exact BlockStep.refl s
  · split
    · exact (queueReset_coil _ _).block
    · exact (releaseHold_coil _ _ _).block
    · exact (clearFailed_coil _ _ _).block
    · exact (clearFailed_coil _ _ _).block
    all_goals exact BlockStep.refl s

/-- A member that no check turns away keeps the laws. -/
theorem applyInChain_holds (k : Nat) {live s : State} {o : Order} (fits : o.badParameters s = false)
    (allowed : o.refusal live s = none) (laws : s.PlantHolds) : (applyInChain k s o).state.PlantHolds := by
  have alone := applyOrder_holds k fits allowed laws
  unfold applyInChain
  split
  · exact markForced_holds laws (forcePoint_configured fits) (unsafeTerms_of_unrefused allowed)
  · exact (releaseMember_safe _ _).holds laws
  · split
    · exact (setModeBy_hand takeModeAlone_hand takeModeAlone_armedAt _ _ _ _).toBlockStep.safe.holds laws
    · exact laws
  · exact (isolateMember_safe (swSet_of_namesSwitch (by simpa [Order.badParameters] using fits))).holds laws
  · exact (resetMember_block _ _).safe.holds laws
  · exact alone

end Sys2Proof.Machine
end

section
/-! The laws at the taking and publishing of a slot (R160, R161), at host writes (R156 to R160), at chains (R162 to R164), at an adoption (R172
to R176), at table checks (R167) and at resets (R170); with the events, every command. -/

namespace Sys2Proof.Machine

/-! ## What a command keeps -/

/-- A step that leaves the commands waiting and keeps the laws of the plant and of the lists. -/
structure Kept (s t : State) : Prop where
  pending : t.pending = s.pending
  holds : s.PlantHolds → t.PlantHolds
  lists : s.PlantHolds → Keeps s t

theorem Kept.refl (s : State) : Kept s s := ⟨rfl, id, fun _ => Keeps.refl s⟩

theorem Kept.trans {s t u : State} (a : Kept s t) (b : Kept t u) : Kept s u :=
  ⟨b.pending.trans a.pending, fun h => b.holds (a.holds h), fun h => (a.lists h).trans (b.lists (a.holds h))⟩

theorem EventStep.kept {s t : State} (h : EventStep s t) : Kept s t := ⟨h.pending, h.toLawStep.safe.holds, fun _ => h.lists⟩

theorem LawStep.kept {s t : State} (h : LawStep s t) (pending : t.pending = s.pending) : Kept s t :=
  ⟨pending, h.safe.holds, fun _ => h.lists⟩

theorem kept_of_fields {s t : State} (live : t.settings.live = s.settings.live) (copy : t.settings.copy = s.settings.copy)
    (points : t.pts.points = s.pts.points) (win : t.win = s.win) (term : t.term = s.term) (sw : t.sw = s.sw)
    (elapsed : t.clock.elapsed = s.clock.elapsed) (pending : t.pending = s.pending) : Kept s t :=
  (law_of_fields live copy points win term sw (le_of_eq elapsed.symm)).kept pending

/-- What every command does: it leaves the commands waiting and keeps the laws of the exchange, of the plant and of the lists. -/
structure Sound (s t : State) : Prop extends Kept s t where
  exchange : s.exchangeLaws → t.exchangeLaws
  settled : s.settledLaw → t.settledLaw

abbrev LeadsSound (o : Host.Outcome State Fault Refusal) (s : State) : Prop := ∃ t, o = .next t ∧ Sound s t

theorem leadsSound_stay (s : State) : LeadsSound (.next s) s := ⟨s, rfl, Kept.refl s, id, id⟩

/-! ## The laws of the exchange -/

/-- The laws of the exchange read the memory, the mask, the journal counts, the engine and the holders. -/
theorem exchange_of_fields {s t : State} (mem : Memory.wf t.port.mem) (mask : t.maskLaw) (jr : t.journalLaw)
    (engine : t.engine = s.engine) (holders : t.port.holders = s.port.holders) (laws : s.exchangeLaws) : t.exchangeLaws := by
  obtain ⟨_, _, _, intake, working⟩ := laws
  have holder : ∀ k, t.holder k = s.holder k := fun k => by simp only [State.holder, holders]
  refine ⟨mem, mask, jr, ?_, ?_⟩
  · simpa only [State.intakeLaw, engine, holder] using intake
  · simpa only [State.workingLaw, engine, holder] using working

theorem CoreStep.exchange {s t : State} (h : CoreStep s t) (laws : s.exchangeLaws) : t.exchangeLaws := by
  have ⟨mem, mask, jr, _⟩ := laws
  exact exchange_of_fields (by rw [h.mem]; exact mem) (by unfold State.maskLaw; rw [h.mask]; exact mask) (h.jr.law jr) h.engine h.holders laws

theorem leadsSound_finish {s u : State} (kept : Kept s u) (exchange : s.exchangeLaws → u.exchangeLaws) :
    LeadsSound (.next (finish u)) s :=
  ⟨_, rfl, kept.trans (finish_event u).kept, fun h => (finish_core u).exchange (exchange h), fun _ => finish_settled u⟩

theorem ClosedStep.sound {s t : State} (h : ClosedStep s t) : Sound s t := ⟨h.kept, h.exchange, h.settled⟩

/-- Slot k waits for nothing: it is not in the intake list, no member of the open chain and not the slot of an ADOPT being worked. -/
structure Loose (k : Nat) (s : State) : Prop where
  lt : k < 32
  notQueued : s.holder k ≠ .queued
  chain : ∀ c ∈ s.engine.chain, ∀ m ∈ c.members, m.slot ≠ k
  adopt : ∀ a ∈ s.engine.working, a.slot ≠ k

theorem CoreStep.loose {s t : State} (h : CoreStep s t) {k : Nat} (loose : Loose k s) : Loose k t :=
  ⟨loose.lt, by rw [h.holder]; exact loose.notQueued, by rw [h.engine]; exact loose.chain, by rw [h.engine]; exact loose.adopt⟩

/-- The holder of a loose slot set to anything but QUEUED. -/
theorem exchange_of_holder {s t : State} {k : Nat} {h : Holder} (mem : Memory.wf t.port.mem) (mask : t.maskLaw) (jr : t.journalLaw)
    (engine : t.engine = s.engine) (holder : ∀ j, t.holder j = if j = k then h else s.holder j) (idle : h ≠ .queued)
    (loose : Loose k s) (laws : s.exchangeLaws) : t.exchangeLaws := by
  obtain ⟨_, _, _, ⟨once, small, queued⟩, members, adopting, apart⟩ := laws
  refine ⟨mem, mask, jr, ⟨by rwa [engine], by rwa [engine], fun j lt => ?_⟩, ?_, ?_, by rwa [engine]⟩
  · rw [holder, engine]
    split
    · next here =>
      subst here
      exact ⟨fun no => absurd no idle, fun listed => absurd ((queued j lt).2 listed) loose.notQueued⟩
    · exact queued j lt
  · rw [engine]
    intro c open_ m listed
    rw [holder, if_neg (loose.chain c open_ m listed)]
    exact members c open_ m listed
  · rw [engine]
    intro a worked
    rw [holder, if_neg (loose.adopt a worked)]
    exact adopting a worked

/-! ## Taking and publishing a slot -/

theorem nextSlot_some {s : State} {k : Nat} (h : s.nextSlot = some k) : s.engine.working = none ∧ s.engine.intake.head? = some k := by
  unfold State.nextSlot at h
  split at h
  · cases h
  · next free =>
    simp only [Bool.or_eq_true, Option.isSome_iff_ne_none, not_or, not_not] at free
    exact ⟨free.2, h⟩

theorem nextAlone_some {s : State} {k : Nat} {o : Order} (h : s.nextAlone = some (k, o)) : s.nextSlot = some k := by
  unfold State.nextAlone at h
  split at h
  · cases h
  · next slot =>
    split at h
    · simp only [Option.some.injEq, Prod.mk.injEq] at h
      rw [← h.1]; exact slot
    · cases h

theorem nextMarked_some {s : State} {mark : ChainMark} {k : Nat} {o : Order} (h : s.nextMarked mark = some (k, o)) :
    s.nextSlot = some k := by
  unfold State.nextMarked at h
  split at h
  · cases h
  · next slot =>
    split at h
    · split at h
      · simp only [Option.some.injEq, Prod.mk.injEq] at h
        rw [← h.1]; exact slot
      · cases h
    · cases h

/-- A slot just taken is WORKING, and neither the chain nor an ADOPT names it. -/
structure Taken (k : Nat) (s : State) : Prop where
  laws : s.exchangeLaws
  loose : Loose k s
  holder : s.holder k = .working
  free : s.engine.working = none

theorem takeHead_taken {s : State} {k : Nat} (slot : s.nextSlot = some k) (laws : s.exchangeLaws) : Taken k (takeHead k s) := by
  obtain ⟨free, head⟩ := nextSlot_some slot
  obtain ⟨mem, mask, jr, ⟨once, small, queued⟩, members, adopting, _⟩ := laws
  obtain ⟨rest, intake⟩ : ∃ rest, s.engine.intake = k :: rest := by
    cases list : s.engine.intake with
    | nil => rw [list] at head; cases head
    | cons j rest => rw [list] at head; cases head; exact ⟨rest, rfl⟩
  have lt : k < 32 := small k (by rw [intake]; exact List.mem_cons_self)
  have was : s.holder k = .queued := (queued k lt).2 (by rw [intake]; exact List.mem_cons_self)
  have holder := takeHead_holder k s lt
  rw [intake, List.nodup_cons] at once
  have apart : ∀ c ∈ s.engine.chain, ∀ m ∈ c.members, m.slot ≠ k := fun c open_ m listed same => by
    have working := (members c open_ m listed).2
    rw [same, was] at working
    cases working
  have now : (takeHead k s).holder k = .working := by rw [holder, if_pos rfl]
  refine ⟨⟨mem, mask, jr, ⟨?_, ?_, fun j ltj => ?_⟩, fun c open_ m listed => ?_, ?_, ?_⟩, ⟨lt, by rw [now]; decide, apart, ?_⟩, now, free⟩
  · rw [takeHead_intake, intake]
    exact once.2
  · rw [takeHead_intake, intake]
    exact fun j listed => small j (by rw [intake]; exact List.mem_cons_of_mem _ listed)
  · rw [holder, takeHead_intake, intake, List.tail_cons]
    split
    · next here => exact ⟨fun no => (by cases no), fun listed => absurd (here ▸ listed) once.1⟩
    · next other => rw [queued j ltj, intake, List.mem_cons, or_iff_right other]
  · rw [holder, if_neg (apart c open_ m listed)]
    exact members c open_ m listed
  all_goals rw [takeHead_working, free]; exact fun a no => by cases no

theorem CoreStep.taken {s t : State} (h : CoreStep s t) {k : Nat} (taken : Taken k s) : Taken k t :=
  ⟨h.exchange taken.laws, h.loose taken.loose, by rw [h.holder]; exact taken.holder, by rw [h.engine]; exact taken.free⟩

theorem publish_exchange {s : State} {k : Nat} (r : Result) (d : Nat) (loose : Loose k s) (laws : s.exchangeLaws) :
    (publish k r d s).exchangeLaws :=
  exchange_of_holder (by rw [publish_mem]; exact outcomeWords_wf _ _ _ _ _ laws.1)
    (by unfold State.maskLaw; rw [publish_mask]; exact laws.2.1) (by unfold State.journalLaw; rw [publish_jr]; exact laws.2.2.1)
    (publish_engine k r d s) (publish_holder k r d s loose.lt) (by decide) loose laws

theorem publish_loose {s : State} {j k : Nat} (r : Result) (d : Nat) (lt : k < 32) (loose : Loose j s) : Loose j (publish k r d s) := by
  refine ⟨loose.lt, ?_, by rw [publish_engine]; exact loose.chain, by rw [publish_engine]; exact loose.adopt⟩
  rw [publish_holder k r d s lt]
  split
  · decide
  · exact loose.notQueued

theorem publishAll_exchange : ∀ (outcomes : List (Nat × Result × Nat)) (s : State), (∀ x ∈ outcomes, Loose x.1 s) → s.exchangeLaws →
    (publishAll outcomes s).exchangeLaws
  | [], _, _, laws => laws
  | x :: xs, s, loose, laws => by
    have here := loose x List.mem_cons_self
    exact publishAll_exchange xs (publish x.1 x.2.1 x.2.2 s)
      (fun y listed => publish_loose _ _ here.lt (loose y (List.mem_cons_of_mem _ listed))) (publish_exchange _ _ here laws)

theorem publishAll_loose {j : Nat} : ∀ (outcomes : List (Nat × Result × Nat)) (s : State), (∀ x ∈ outcomes, x.1 < 32) → Loose j s →
    Loose j (publishAll outcomes s)
  | [], _, _, loose => loose
  | x :: xs, s, small, loose =>
    publishAll_loose xs (publish x.1 x.2.1 x.2.2 s) (fun y listed => small y (List.mem_cons_of_mem _ listed))
      (publish_loose _ _ (small x List.mem_cons_self) loose)

@[simp] theorem recordAdoption_win (k : Nat) (r : Result) (s : State) : (recordAdoption k r s).win = s.win := by
  unfold recordAdoption; split <;> rfl

@[simp] theorem recordAdoption_term (k : Nat) (r : Result) (s : State) : (recordAdoption k r s).term = s.term := by
  unfold recordAdoption; split <;> rfl

@[simp] theorem publish_win (k : Nat) (r : Result) (d : Nat) (s : State) : (publish k r d s).win = s.win := by
  unfold publish; simp

@[simp] theorem publish_term (k : Nat) (r : Result) (d : Nat) (s : State) : (publish k r d s).term = s.term := by
  unfold publish; simp

theorem takeHead_kept (k : Nat) (s : State) : Kept s (takeHead k s) := kept_of_fields rfl rfl rfl rfl rfl rfl rfl rfl

theorem publish_kept (k : Nat) (r : Result) (d : Nat) (s : State) : Kept s (publish k r d s) :=
  kept_of_fields (publish_live k r d s) (publish_copy k r d s) (by rw [publish_pts]) (publish_win k r d s) (publish_term k r d s)
    (publish_sw k r d s) (by rw [publish_clock]) (publish_pending k r d s)

theorem publishAll_kept : ∀ (outcomes : List (Nat × Result × Nat)) (s : State), Kept s (publishAll outcomes s)
  | [], s => Kept.refl s
  | x :: xs, s => (publish_kept x.1 x.2.1 x.2.2 s).trans (publishAll_kept xs _)

/-- A slot taken, an effect that leaves the exchange, and the outcome published. -/
theorem publishTaken_sound {s u : State} {k : Nat} (slot : s.nextSlot = some k) (r : Result) (d : Nat) (core : CoreStep (takeHead k s) u)
    (kept : Kept (takeHead k s) u) : LeadsSound (.next (finish (publish k r d u))) s := by
  refine leadsSound_finish (((takeHead_kept k s).trans kept).trans (publish_kept k r d u)) fun laws => ?_
  have taken := core.taken (takeHead_taken slot laws)
  exact publish_exchange r d taken.loose taken.laws

/-! ## Orders marked ALONE -/

/-- The commands of the orders that act at once. -/
def Instr.isOrder : Instr → Bool
  | .setTime | .setMode | .ackWindows | .resetWindows | .silence | .shelve | .unshelve | .resetFirstOut | .forcePoint | .releasePoint
  | .isolate | .restore | .resetSwitch | .tripManual | .testCircuit | .clearCounters | .clearFault => true
  | _ => false

/-- The command of an order leaves the state as it is, or runs the order at the head of the intake list. -/
theorem exec_order {c : Instr} (order : Instr.isOrder c = true) (s : State) :
    exec c s = .next s ∨ ∃ k o, s.nextAlone = some (k, o) ∧ exec c s = .next (runAlone k o s) := by
  cases c
  case setTime | setMode | ackWindows | resetWindows | silence | shelve | unshelve | resetFirstOut | forcePoint | releasePoint | isolate
      | restore | resetSwitch | tripManual | testCircuit | clearCounters | clearFault =>
    simp only [exec, execSetTime, execSetMode, execAckWindows, execResetWindows, execSilence, execShelve, execUnshelve, execResetFirstOut,
      execForcePoint, execReleasePoint, execIsolate, execRestore, execResetSwitch, execTripManual, execTestCircuit, execClearCounters,
      execClearFault]
    split
    · next alone => exact Or.inr ⟨_, _, alone, rfl⟩
    · exact Or.inl rfl
  all_goals cases order

theorem unrefused_iff {s : State} {o : Order} :
    o.refused s = none ↔ tooEarly o s = false ∧ o.badParameters s = false ∧ o.refusal s s = none := by
  unfold Order.refused
  cases tooEarly o s <;> cases o.badParameters s <;> simp

theorem applyOrder_kept (k : Nat) {live s : State} {o : Order} (fits : o.badParameters s = false) (allowed : o.refusal live s = none) :
    Kept s (applyOrder k s o).1 :=
  ⟨(applyOrder_core k s o).pending, applyOrder_holds k fits allowed, fun _ => applyOrder_keeps_unrefused k live s o fits allowed⟩

theorem runAlone_sound {s : State} {k : Nat} (slot : s.nextSlot = some k) (o : Order) : LeadsSound (.next (runAlone k o s)) s := by
  unfold runAlone
  extract_lets t
  split
  · exact publishTaken_sound slot _ _ (CoreStep.refl t) (Kept.refl t)
  · next unrefused =>
    obtain ⟨_, fits, allowed⟩ := unrefused_iff.1 unrefused
    exact publishTaken_sound slot _ _ (applyOrder_core k t o) (applyOrder_kept k fits allowed)

theorem exec_order_sound {c : Instr} (order : Instr.isOrder c = true) (s : State) : LeadsSound (exec c s) s := by
  rcases exec_order order s with stays | ⟨k, o, alone, runs⟩
  · rw [stays]
    exact leadsSound_stay s
  · rw [runs]
    exact runAlone_sound (nextAlone_some alone) o

theorem execBadOrder_sound (s : State) : LeadsSound (execBadOrder s) s := by
  unfold execBadOrder
  split
  · exact leadsSound_stay s
  · next slot =>
    split
    · exact publishTaken_sound slot _ _ (CoreStep.refl _) (Kept.refl _)
    · exact leadsSound_stay s

/-! ## ADOPT (R172 to R176) -/

theorem execAdopt_sound (s : State) : LeadsSound (execAdopt s) s := by
  unfold execAdopt
  split
  · next k code alone =>
    extract_lets t
    have slot := nextAlone_some alone
    split
    · refine ⟨_, rfl, ⟨(takeHead_kept k s).trans (kept_of_fields rfl rfl rfl rfl rfl rfl rfl rfl), fun laws => ?_,
        settledLaw_congr rfl rfl rfl (fun _ => ⟨rfl, rfl⟩) (fun _ => rfl) rfl rfl⟩⟩
      obtain ⟨⟨mem, mask, jr, intake, members, _, _⟩, loose, holder, _⟩ := takeHead_taken slot laws
      refine ⟨mem, mask, jr, intake, members, fun a worked => ?_, fun a worked c open_ m listed => ?_⟩
      · cases worked
        exact ⟨loose.lt, holder⟩
      · cases worked
        exact loose.chain c open_ m listed
    · exact publishTaken_sound slot _ _ (CoreStep.refl t) (Kept.refl t)
    · exact leadsSound_stay s
  · exact leadsSound_stay s

theorem unsafeAfter_of_unrefused {scope : Scope} {t : Tables} {s : State} (h : adoptionRefusal scope t s = none) : unsafeAfter s t = [] := by
  unfold adoptionRefusal at h
  split at h
  · cases h
  · split at h
    · cases h
    · split at h
      · cases h
      · cases h
      · next none => exact List.head?_eq_none_iff.1 none

/-- Every output of a term being adopted that lists a point which stays forced is isolated and stays configured. -/
theorem isolated_of_unsafeAfter {s : State} {t : Tables} (harmless : unsafeAfter s t = []) {u n i : Nat} {c : TermSettings}
    (set : look t.terms u = some c) (listed : n ∈ c.points) (forced : (s.pt n).forced ≠ none) (stays : (look t.points n).isSome = true)
    (out : i ∈ c.outputs) : (s.swi i).isolated = true ∧ (look t.switches i).isSome = true := by
  by_contra loose
  have harmful : u ∈ unsafeAfter s t := by
    unfold unsafeAfter
    rw [mem_configuredWhere]
    refine ⟨c, set, ?_⟩
    simp only [Bool.and_eq_true, List.any_eq_true, isolatedAfter, Bool.not_eq_true', Bool.and_eq_false_iff]
    refine ⟨⟨n, listed, Option.isSome_iff_ne_none.2 forced, stays⟩, i, out, ?_⟩
    by_contra on
    simp only [not_or, Bool.not_eq_false] at on
    exact loose on
  rw [harmless] at harmful
  cases harmful

theorem swi_default_isolated {s : State} {i : Nat} (large : ¬ i < 48) : (s.swi i).isolated = false := by
  unfold State.swi
  rw [look_beyond _ _ (by omega)]
  rfl

/-- A swap that the live checks let through keeps the laws of the plant (R174). -/
theorem swap_holds {scope : Scope} {t : Tables} {s : State} (harmless : unsafeAfter s t = []) (laws : s.PlantHolds) :
    (swap scope t s).PlantHolds := by
  obtain ⟨_, _, _, _, _, settings⟩ := swap_step scope t s
  have live : (swap scope t s).settings.live = t := by rw [settings]
  have forced : ∀ n, n < 544 → ((swap scope t s).pt n).forced ≠ none → (s.pt n).forced ≠ none ∧ (look t.points n).isSome = true := by
    intro n small now
    obtain ⟨same, stays⟩ := applyChanges_forced _ _ _ _ n now
    have was : (s.pt n).forced ≠ none := fun no => now (same.trans no)
    have configured : (look s.settings.live.points n).isSome = true :=
      Option.isSome_iff_ne_none.2 fun no => was (laws.bare.1 n small no)
    refine ⟨was, ?_⟩
    by_cases changed : n ∈ changedIn s.settings.live.points t.points
    · rw [← stays changed]
      exact configured
    · rw [mem_changedIn _ _ _ small, not_not] at changed
      rw [← changed]
      exact configured
  have isolated : ∀ i, i < 48 → ((swap scope t s).swi i).isolated = ((s.swi i).isolated && (look t.switches i).isSome) := by
    intro i small
    have change := applyChanges_isolated (!s.settings.adopted && scope.isFull) s.settings.live t (swapTables scope t s) rfl i small
    have known : (s.swi i).isolated = true → (look s.settings.live.switches i).isSome = true := fun on =>
      Option.isSome_iff_ne_none.2 fun no => by rw [laws.bare.2 i no] at on; cases on
    refine change.trans ?_
    change (if _ then _ && _ && (s.swi i).isolated else (s.swi i).isolated) = _
    split
    · cases on : (s.swi i).isolated
      · simp
      · rw [known on]; simp
    · next same =>
      rw [mem_changedIn _ _ _ small, not_not] at same
      rw [← same]
      cases on : (s.swi i).isolated
      · rfl
      · rw [known on]; rfl
  refine ⟨fun n small now => (unsafeTerms_nil_iff _ n).2 fun u c set listed i out => ?_, by unfold State.copyLaw; rw [settings],
    ⟨fun n small none => ?_, fun i none => ?_⟩, swap_coil scope t s laws.coil, fun j small => swap_armedAt scope t s j (laws.armed j small)⟩
  · obtain ⟨was, stays⟩ := forced n small ((quality_forced_iff _).1 now)
    obtain ⟨on, configured⟩ := isolated_of_unsafeAfter harmless (by simpa only [State.termSet, live] using set) listed was stays out
    have lt : i < 48 := by
      by_contra large
      rw [swi_default_isolated large] at on
      cases on
    rw [isolated i lt, on, configured]
    rfl
  · by_contra now
    have stays := (forced n small now).2
    have none' : look t.points n = .none := by simpa only [State.ptSet, live] using none
    rw [none'] at stays
    cases stays
  · have none' : look t.switches i = .none := by simpa only [State.swSet, live] using none
    by_cases lt : i < 48
    · rw [isolated i lt, none', Option.isSome_none, Bool.and_false]
    · exact swi_default_isolated lt

/-- The engine free of the ADOPT being worked: its slot waits for nothing more. -/
theorem endAdopting_exchange {s : State} {a : Adopting} (worked : s.engine.working = some a) (laws : s.exchangeLaws) :
    (endAdopting s).exchangeLaws ∧ Loose a.slot (endAdopting s) := by
  obtain ⟨mem, mask, jr, intake, members, adopting, apart⟩ := laws
  obtain ⟨lt, working⟩ := adopting a worked
  refine ⟨⟨mem, mask, jr, intake, members, fun _ no => (by cases no), fun _ no => (by cases no)⟩, lt, ?_, fun c open_ m listed =>
    apart a worked c open_ m listed, fun _ no => (by cases no)⟩
  show s.holder a.slot ≠ .queued
  rw [working]
  decide

theorem endAdopting_kept (s : State) : Kept s (endAdopting s) := kept_of_fields rfl rfl rfl rfl rfl rfl rfl rfl

theorem execAdoptValidationEnd_sound (s : State) : LeadsSound (execAdoptValidationEnd s) s := by
  unfold execAdoptValidationEnd
  split
  · exact leadsSound_stay s
  · next a worked =>
    split
    · exact leadsSound_stay s
    · unfold endAdoption
      extract_lets t
      split
      · refine leadsSound_finish ((endAdopting_kept s).trans (publish_kept _ _ _ _)) fun laws => ?_
        obtain ⟨free, loose⟩ := endAdopting_exchange worked laws
        exact publish_exchange _ _ loose free
      · next unrefused =>
        have swapped : Kept s (swap a.scope t s) :=
          ⟨(swap_core _ _ _).pending, swap_holds (unsafeAfter_of_unrefused unrefused), fun _ => swap_keeps _ _ _⟩
        refine leadsSound_finish ((swapped.trans (endAdopting_kept _)).trans (publish_kept _ _ _ _)) fun laws => ?_
        have core := swap_core a.scope t s
        obtain ⟨free, loose⟩ := endAdopting_exchange (by rw [core.engine]; exact worked) (core.exchange laws)
        exact publish_exchange _ _ loose free

/-! ## Chains (R162 to R164) -/

theorem setChain_kept (c : Option Chain) (s : State) : Kept s (s.setChain c) := kept_of_fields rfl rfl rfl rfl rfl rfl rfl rfl

/-- With the chain gone its members wait for nothing more. -/
theorem dropChain_exchange {s : State} {c : Chain} (open_ : s.engine.chain = some c) (laws : s.exchangeLaws) :
    (s.setChain none).exchangeLaws ∧ ∀ m ∈ c.members, Loose m.slot (s.setChain none) := by
  obtain ⟨mem, mask, jr, intake, members, adopting, apart⟩ := laws
  refine ⟨⟨mem, mask, jr, intake, fun _ no => (by cases no), adopting, fun _ _ _ no => (by cases no)⟩, fun m listed => ?_⟩
  obtain ⟨lt, working⟩ := members c open_ m listed
  refine ⟨lt, ?_, fun _ no => (by cases no), fun a worked => (apart a worked c open_ m listed).symm⟩
  show s.holder m.slot ≠ .queued
  rw [working]
  decide

theorem dropChain_loose {s : State} {k : Nat} (loose : Loose k s) : Loose k (s.setChain none) :=
  ⟨loose.lt, loose.notQueued, fun _ no => (by cases no), loose.adopt⟩

theorem unfailed {live sim : State} {m : Member} (h : memberFailure live sim m = none) :
    ∃ o, orderIn sim.port m.slot = some o ∧ o.badParameters sim = false ∧ o.refusal live sim = none := by
  unfold memberFailure at h
  split at h
  · cases h
  · next o _ order =>
    split at h
    · cases h
    · next fits => exact ⟨o, order, by simpa using fits, h⟩
  · cases h

theorem applyMember_step {live sim : State} {m : Member} (h : memberFailure live sim m = none) :
    CoreStep sim (applyMember m sim).state ∧ Kept sim (applyMember m sim).state := by
  obtain ⟨o, order, fits, allowed⟩ := unfailed h
  have acts : applyMember m sim = applyInChain m.slot sim o := by simp only [applyMember, order]
  rw [acts]
  exact ⟨applyInChain_core _ _ _, (applyInChain_core _ _ _).pending, applyInChain_holds _ fits allowed,
    fun _ => applyInChain_keeps_unrefused _ live _ _ fits allowed⟩

/-- What the members leave when every one of them passes. -/
theorem judgeMembers_passed {live : State} : ∀ {ms : List Member} {sim after : State} {details : List (Nat × Nat)} {left : List Following},
    judgeMembers live ms sim = .passed after details left →
      CoreStep sim after ∧ Kept sim after ∧ details.map (fun x => x.1) = ms.map (fun m => m.slot)
  | [], sim, after, details, left, h => by
    cases h
    exact ⟨CoreStep.refl sim, Kept.refl sim, rfl⟩
  | m :: ms, sim, after, details, left, h => by
    unfold judgeMembers at h
    split at h
    · cases h
    · next passes =>
      extract_lets a at h
      obtain ⟨core, kept⟩ := applyMember_step passes
      split at h
      · next after' details' left' rest =>
        cases h
        obtain ⟨core', kept', slots⟩ := judgeMembers_passed rest
        exact ⟨core.trans core', kept.trans kept', by rw [List.map_cons, List.map_cons, slots]⟩
      · cases h

theorem closeChain_kept (ms : List Member) (s : State) : Kept s (closeChain ms s) := by
  unfold closeChain
  split
  · next passed =>
    obtain ⟨_, kept, _⟩ := judgeMembers_passed passed
    exact (kept.trans ((follow_block _ _).event (follow_keeps _ _)).kept).trans (publishAll_kept _ _)
  · exact publishAll_kept _ _

theorem closeChain_exchange {ms : List Member} {s : State} (loose : ∀ m ∈ ms, Loose m.slot s) (laws : s.exchangeLaws) :
    (closeChain ms s).exchangeLaws := by
  unfold closeChain
  split
  · next after details left passed =>
    obtain ⟨core, _, slots⟩ := judgeMembers_passed passed
    have whole : CoreStep s (follow left after) := core.trans (follow_core _ _)
    refine publishAll_exchange _ _ (fun x listed => ?_) (whole.exchange laws)
    obtain ⟨d, detail, rfl⟩ := List.mem_map.1 listed
    have slot : d.1 ∈ ms.map fun m => m.slot := slots ▸ List.mem_map_of_mem detail
    obtain ⟨m, member, same⟩ := List.mem_map.1 slot
    exact same ▸ whole.loose (loose m member)
  · refine publishAll_exchange _ _ (fun x listed => ?_) laws
    obtain ⟨m, member, rfl⟩ := List.mem_map.1 listed
    split
    · next same => exact same ▸ loose m member
    · exact loose m member

theorem publishMembers_kept (r : Result) (ms : List Member) (s : State) : Kept s (publishMembers r ms s) := publishAll_kept _ _

theorem publishMembers_exchange (r : Result) {ms : List Member} {s : State} (loose : ∀ m ∈ ms, Loose m.slot s) (laws : s.exchangeLaws) :
    (publishMembers r ms s).exchangeLaws := by
  refine publishAll_exchange _ _ (fun x listed => ?_) laws
  obtain ⟨m, member, rfl⟩ := List.mem_map.1 listed
  exact loose m member

theorem publishMembers_loose (r : Result) {ms : List Member} {s : State} {k : Nat} (small : ∀ m ∈ ms, m.slot < 32) (loose : Loose k s) :
    Loose k (publishMembers r ms s) := by
  refine publishAll_loose _ _ (fun x listed => ?_) loose
  obtain ⟨m, member, rfl⟩ := List.mem_map.1 listed
  exact small m member

/-- The chain replaced by one whose members are WORKING, while no ADOPT is worked. -/
theorem setChain_exchange {s : State} {c : Chain} (members : ∀ m ∈ c.members, m.slot < 32 ∧ s.holder m.slot = .working)
    (free : s.engine.working = none) (laws : s.exchangeLaws) : (s.setChain (some c)).exchangeLaws := by
  obtain ⟨mem, mask, jr, intake, _, adopting, _⟩ := laws
  refine ⟨mem, mask, jr, intake, fun _ here => ?_, adopting, fun a worked => ?_⟩
  · cases here
    exact members
  · have no : s.engine.working = some a := worked
    rw [free] at no
    cases no

theorem openChain_exchange {k : Nat} {s : State} (o : Order) (taken : Taken k s) : (openChain k o s).exchangeLaws := by
  unfold openChain
  split
  · exact publish_exchange _ _ taken.loose taken.laws
  · split
    · exact publish_exchange _ _ taken.loose taken.laws
    · refine setChain_exchange (fun m listed => ?_) taken.free taken.laws
      cases List.mem_singleton.1 listed
      exact ⟨taken.loose.lt, taken.holder⟩

theorem openChain_kept (k : Nat) (o : Order) (s : State) : Kept s (openChain k o s) := by
  unfold openChain
  split
  · exact publish_kept _ _ _ _
  · split
    · exact publish_kept _ _ _ _
    · exact setChain_kept _ _

theorem joinChain_kept (k : Nat) (o : Order) {joined : Chain → State → State} (kept : ∀ c s, Kept s (joined c s)) (s : State) :
    Kept s (joinChain k o joined s) := by
  unfold joinChain
  split
  · exact publish_kept _ _ _ _
  · split
    · exact publish_kept _ _ _ _
    · split
      · exact ((setChain_kept none s).trans (publishMembers_kept _ _ _)).trans (publish_kept _ _ _ _)
      · exact kept _ _

/-- Joining keeps the laws of the exchange where what becomes of the chain with its new member does. -/
theorem joinChain_exchange {k : Nat} {s : State} (o : Order) (taken : Taken k s) {joined : Chain → State → State}
    (keeps : ∀ c f, s.engine.chain = some c → (joined { c with members := c.members ++ [{ slot := k, failure := f }] } s).exchangeLaws) :
    (joinChain k o joined s).exchangeLaws := by
  unfold joinChain
  split
  · exact publish_exchange _ _ taken.loose taken.laws
  · split
    · exact publish_exchange _ _ taken.loose taken.laws
    · next c open_ =>
      split
      · obtain ⟨laws, members⟩ := dropChain_exchange open_ taken.laws
        exact publish_exchange _ _ (publishMembers_loose _ (fun m listed => (members m listed).lt) (dropChain_loose taken.loose))
          (publishMembers_exchange _ members laws)
      · exact keeps c _ open_

theorem continueChain_exchange {k : Nat} {s : State} (taken : Taken k s) (c : Chain) (f : Option Result) (open_ : s.engine.chain = some c) :
    (s.setChain (some { c with members := c.members ++ [{ slot := k, failure := f }] })).exchangeLaws := by
  refine setChain_exchange (fun m listed => ?_) taken.free taken.laws
  rcases List.mem_append.1 listed with old | new
  · exact taken.laws.2.2.2.2.1 c open_ m old
  · cases List.mem_singleton.1 new
    exact ⟨taken.loose.lt, taken.holder⟩

theorem closeJoined_exchange {k : Nat} {s : State} (taken : Taken k s) (c : Chain) (f : Option Result) (open_ : s.engine.chain = some c) :
    (closeChain (c.members ++ [{ slot := k, failure := f }]) (s.setChain none)).exchangeLaws := by
  obtain ⟨laws, members⟩ := dropChain_exchange open_ taken.laws
  refine closeChain_exchange (fun m listed => ?_) laws
  rcases List.mem_append.1 listed with old | new
  · exact members m old
  · cases List.mem_singleton.1 new
    exact dropChain_loose taken.loose

theorem execChainOpen_sound (s : State) : LeadsSound (execChainOpen s) s := by
  unfold execChainOpen
  split
  · next k o marked =>
    exact leadsSound_finish ((takeHead_kept k s).trans (openChain_kept k o _)) fun laws =>
      openChain_exchange o (takeHead_taken (nextMarked_some marked) laws)
  · exact leadsSound_stay s

theorem execChainContinue_sound (s : State) : LeadsSound (execChainContinue s) s := by
  unfold execChainContinue
  split
  · next k o marked =>
    refine leadsSound_finish ((takeHead_kept k s).trans (joinChain_kept k o (fun c s => setChain_kept (some c) s) _)) fun laws => ?_
    have taken := takeHead_taken (nextMarked_some marked) laws
    exact joinChain_exchange o taken (continueChain_exchange taken)
  · exact leadsSound_stay s

theorem execChainClose_sound (s : State) : LeadsSound (execChainClose s) s := by
  unfold execChainClose
  split
  · next k o marked =>
    refine leadsSound_finish ((takeHead_kept k s).trans
      (joinChain_kept k o (fun c s => (setChain_kept none s).trans (closeChain_kept c.members _)) _)) fun laws => ?_
    have taken := takeHead_taken (nextMarked_some marked) laws
    exact joinChain_exchange o taken (closeJoined_exchange taken)
  · exact leadsSound_stay s

theorem execChainHoldTimerExpiry_sound (s : State) : LeadsSound (execChainHoldTimerExpiry s) s := by
  unfold execChainHoldTimerExpiry
  split
  · exact leadsSound_stay s
  · next c open_ =>
    split
    · refine leadsSound_finish ((setChain_kept none s).trans (publishMembers_kept _ _ _)) fun laws => ?_
      obtain ⟨laws', members⟩ := dropChain_exchange open_ laws
      exact publishMembers_exchange _ members laws'
    · exact leadsSound_stay s

/-! ## Host writes (R156 to R160) -/

theorem refuseWrite_exchange (a : Nat) {s : State} (laws : s.exchangeLaws) : (refuseWrite a s).exchangeLaws :=
  exchange_of_fields laws.1 laws.2.1 laws.2.2.1 rfl rfl laws

theorem ackWrite_exchange {s : State} (laws : s.exchangeLaws) : (ackWrite s).exchangeLaws :=
  exchange_of_fields laws.1 laws.2.1 laws.2.2.1 rfl rfl laws

theorem storeWord_exchange (a : Nat) (v : Word) {s : State} (laws : s.exchangeLaws) : (storeWord a v s).exchangeLaws :=
  exchange_of_fields (s := s) (writeWord_wf _ _ _ laws.1) laws.2.1 laws.2.2.1 rfl rfl laws

theorem writeMask_exchange (a : Nat) (v : Word) {s : State} (laws : s.exchangeLaws) : (writeMask a v s).exchangeLaws := by
  unfold writeMask
  split
  · next small => exact exchange_of_fields (s := s) laws.1 small laws.2.2.1 rfl rfl laws
  · exact refuseWrite_exchange a laws

theorem writeReleased_exchange (a : Nat) (v : Word) {s : State} (laws : s.exchangeLaws) : (writeReleased a v s).exchangeLaws := by
  unfold writeReleased
  split
  · next j taken => exact exchange_of_fields (s := s) laws.1 laws.2.1 (release_law _ _ _ _ taken laws.2.2.1).1 rfl rfl laws
  · exact refuseWrite_exchange a laws

/-- A slot that the station computer owns is neither queued nor WORKING, so nothing in the engine names it. -/
theorem loose_of_hostOwned {s : State} {k : Nat} (lt : k < 32) (owned : (s.holder k).hostOwned = true) (laws : s.exchangeLaws) : Loose k s := by
  obtain ⟨_, _, _, _, members, adopting, _⟩ := laws
  have notWorking : s.holder k ≠ .working := fun no => by rw [no] at owned; cases owned
  exact ⟨lt, fun no => (by rw [no] at owned; cases owned), fun c open_ m listed same => notWorking (same ▸ (members c open_ m listed).2),
    fun a worked same => notWorking (same ▸ (adopting a worked).2)⟩

/-- READY written to a holder puts its slot at the end of the intake list (R160). -/
theorem queueSlot_exchange {s : State} {k : Nat} (loose : Loose k s) (laws : s.exchangeLaws) :
    ({ s with engine := { s.engine with intake := s.engine.intake ++ [k] } }.setHolder k .queued).exchangeLaws := by
  obtain ⟨mem, mask, jr, ⟨once, small, queued⟩, members, adopting, apart⟩ := laws
  have holder : ∀ j, ({ s with engine := { s.engine with intake := s.engine.intake ++ [k] } }.setHolder k .queued).holder j =
      if j = k then .queued else s.holder j := fun j => by
    rw [holder_setHolder]
    by_cases here : j = k
    · rw [if_pos ⟨here.symm, here ▸ loose.lt⟩, if_pos here]
    · rw [if_neg fun no => here no.1.symm, if_neg here]
      rfl
  have outside : k ∉ s.engine.intake := fun listed => loose.notQueued ((queued k loose.lt).2 listed)
  refine ⟨mem, mask, jr, ⟨?_, fun j listed => ?_, fun j lt => ?_⟩, fun c open_ m listed => ?_, fun a worked => ?_, apart⟩
  · exact List.nodup_append.2 ⟨once, List.nodup_singleton k, fun a listed b last same => outside (by
      rw [List.mem_singleton] at last
      exact last ▸ same ▸ listed)⟩
  · rcases List.mem_append.1 listed with old | new
    · exact small j old
    · exact List.mem_singleton.1 new ▸ loose.lt
  · rw [holder]
    show _ ↔ j ∈ s.engine.intake ++ [k]
    rw [List.mem_append, List.mem_singleton]
    split
    · next here => exact ⟨fun _ => Or.inr here, fun _ => rfl⟩
    · next other => rw [queued j lt, or_iff_left other]
  · rw [holder, if_neg (loose.chain c open_ m listed)]
    exact members c open_ m listed
  · rw [holder, if_neg (loose.adopt a worked)]
    exact adopting a worked

theorem writeSlot_exchange {a k w : Nat} {v : Word} {s : State} (lt : k < 32) (laws : s.exchangeLaws) : (writeSlot a k w v s).exchangeLaws := by
  unfold writeSlot
  split
  · next owned =>
    have loose := loose_of_hostOwned lt owned laws
    split
    · split
      · exact ackWrite_exchange (queueSlot_exchange loose laws)
      · split
        · refine ackWrite_exchange (exchange_of_holder (s := s) laws.1 laws.2.1 laws.2.2.1 rfl (fun j => ?_) (by decide : Holder.empty ≠ .queued)
            loose laws)
          rw [holder_setHolder]
          by_cases here : j = k
          · rw [if_pos ⟨here.symm, here ▸ lt⟩, if_pos here]
          · rw [if_neg fun no => here no.1.symm, if_neg here]
        · exact refuseWrite_exchange a laws
    · exact storeWord_exchange a v laws
  · exact refuseWrite_exchange a laws

theorem writeWordAt_exchange (a : Nat) (v : Word) {s : State} (laws : s.exchangeLaws) : (writeWordAt a v s).exchangeLaws := by
  unfold writeWordAt
  split
  · exact writeMask_exchange a v laws
  · split
    · exact writeReleased_exchange a v laws
    · split
      · exact writeSlot_exchange (by omega) laws
      · split
        · split
          · exact refuseWrite_exchange a laws
          · exact storeWord_exchange a v laws
        · exact refuseWrite_exchange a laws

theorem hostWrite_exchange (address : Nat) (lanes : BitVec 4) (v : Word) {s : State} (laws : s.exchangeLaws) :
    (hostWrite address lanes v s).exchangeLaws := by
  unfold hostWrite
  extract_lets a
  split
  · exact writeWordAt_exchange a v laws
  · exact refuseWrite_exchange a laws

/-- A step of the exchange port: nothing but port, journal and engine changes. -/
structure PortStep (s t : State) : Prop where
  rest : t = { s with port := t.port, jr := t.jr, engine := t.engine }

theorem PortStep.kept {s t : State} (h : PortStep s t) : Kept s t := by
  rw [h.rest]
  exact kept_of_fields rfl rfl rfl rfl rfl rfl rfl rfl

theorem PortStep.settled {s t : State} (h : PortStep s t) (jr : t.jr = s.jr) (settled : s.settledLaw) : t.settledLaw := by
  rw [h.rest]
  exact settledLaw_congr (s := s) (t := { s with port := t.port, jr := t.jr, engine := t.engine }) rfl rfl rfl (fun _ => ⟨rfl, rfl⟩) (fun _ => rfl) rfl
    jr settled

theorem writeSlot_port (a k w : Nat) (v : Word) (s : State) : PortStep s (writeSlot a k w v s) ∧ (writeSlot a k w v s).jr = s.jr := by
  unfold writeSlot
  split
  · split
    · split
      · exact ⟨⟨rfl⟩, rfl⟩
      · split <;> exact ⟨⟨rfl⟩, rfl⟩
    · exact ⟨⟨rfl⟩, rfl⟩
  · exact ⟨⟨rfl⟩, rfl⟩

/-- Only a write to the released-through word reaches the journal. -/
theorem writeWordAt_port (a : Nat) (v : Word) (s : State) :
    PortStep s (writeWordAt a v s) ∧ (a ≠ 0x14 → (writeWordAt a v s).jr = s.jr) := by
  unfold writeWordAt
  split
  · unfold writeMask
    split <;> exact ⟨⟨rfl⟩, fun _ => rfl⟩
  · split
    · next released =>
      unfold writeReleased
      split <;> exact ⟨⟨rfl⟩, fun other => absurd released other⟩
    · split
      · exact ⟨(writeSlot_port ..).1, fun _ => (writeSlot_port ..).2⟩
      · split
        · split <;> exact ⟨⟨rfl⟩, fun _ => rfl⟩
        · exact ⟨⟨rfl⟩, fun _ => rfl⟩

theorem hostWrite_port (address : Nat) (lanes : BitVec 4) (v : Word) (s : State) : PortStep s (hostWrite address lanes v s) := by
  unfold hostWrite
  extract_lets a
  split
  · exact (writeWordAt_port a v s).1
  · exact ⟨rfl⟩

/-- A holder lies above the released-through word, so that the host's writes to it leave the journal. -/
theorem holderWrite_sound (k : Nat) (v : Word) (s : State) : LeadsSound (.next (hostWrite (slotAddress k 0) 0xF#4 v s)) s := by
  have port := hostWrite_port (slotAddress k 0) 0xF#4 v s
  refine ⟨_, rfl, port.kept, hostWrite_exchange _ _ _, port.settled ?_⟩
  unfold hostWrite
  rw [if_pos rfl]
  refine (writeWordAt_port _ v s).2 ?_
  unfold slotAddress
  omega

theorem execMaskWrite_sound (v : Word) (s : State) : LeadsSound (execMaskWrite v s) s := by
  have port : PortStep s (writeMask 0x0C v s) := by unfold writeMask; split <;> exact ⟨rfl⟩
  refine ⟨_, rfl, port.kept, writeMask_exchange _ v, port.settled ?_⟩
  unfold writeMask
  split <;> rfl

theorem execReleasedThroughWrite_sound (v : Word) (s : State) : LeadsSound (execReleasedThroughWrite v s) s := by
  have port : PortStep s (writeReleased 0x14 v s) := by unfold writeReleased; split <;> exact ⟨rfl⟩
  exact leadsSound_finish port.kept (writeReleased_exchange _ v)

theorem execHostWordWrite_sound (address : BitVec 17) (enables : WriteEnables) (v : Word) (s : State) :
    LeadsSound (execHostWordWrite address enables v s) s := by
  have answered : PortStep (hostWrite address.toNat enables.lanes v s)
      (keepError (enables.further && s.port.errorAck) (hostWrite address.toNat enables.lanes v s)) := ⟨rfl⟩
  refine leadsSound_finish ((hostWrite_port ..).kept.trans answered.kept) fun laws => ?_
  have written := hostWrite_exchange address.toNat enables.lanes v laws
  exact exchange_of_fields (s := hostWrite address.toNat enables.lanes v s) written.1 written.2.1 written.2.2.1 rfl rfl written

/-! ## Table checks (R167, R168) -/

theorem mendEntry_core (table : TableName) (e : Nat) (s : State) : CoreStep s (mendEntry table e s) := core_of_fields rfl rfl rfl rfl

theorem haltPart_block (a b : TableName × Nat) (s : State) : BlockStep s (haltPart a b s) :=
  (request_block s (haltEntry a b s.now)).trans (block_of_fields rfl rfl rfl rfl rfl rfl rfl rfl rfl rfl)

theorem uncorrectable_event (table : TableName) (e : Nat) (s : State) : EventStep s (uncorrectable table e s) := by
  unfold uncorrectable
  split
  · exact EventStep.refl s
  · split
    · exact (setMonitor_event s _).trans ((updateCondition_block _ _).event (updateCondition_keeps _ _))
    · exact (haltPart_block _ _ s).event (haltPart_keeps _ _ s)

theorem checkEntry_core (table : TableName) (e : Nat) (finding : CheckFinding) (s : State) : CoreStep s (checkEntry table e finding s) := by
  unfold checkEntry
  split
  · exact CoreStep.refl s
  · split
    · exact CoreStep.refl s
    · exact core_of_fields rfl rfl rfl rfl
    · exact (mendEntry_core table e s).trans (uncorrectable_event ..).toCoreStep
    · exact ((uncorrectable_event ..).trans (uncorrectable_event ..)).toCoreStep

theorem checkEntry_kept (table : TableName) (e : Nat) (finding : CheckFinding) (s : State) : Kept s (checkEntry table e finding s) := by
  refine ⟨(checkEntry_core ..).pending, fun laws => ?_, fun laws => checkEntry_keeps _ _ _ _ laws.copy⟩
  unfold checkEntry
  split
  · exact laws
  · split
    · exact laws
    · exact (setMonitor_event s _).toLawStep.safe.holds laws
    · rw [mendEntry_same _ _ _ laws.copy]
      exact (uncorrectable_event ..).toLawStep.safe.holds laws
    · exact ((uncorrectable_event ..).trans (uncorrectable_event ..)).toLawStep.safe.holds laws

theorem execTableCheck_sound (table : TableName) (e : Nat) (finding : CheckFinding) (s : State) :
    LeadsSound (execTableCheck table e finding s) s :=
  leadsSound_finish (checkEntry_kept table e finding s) (checkEntry_core table e finding s).exchange

end Sys2Proof.Machine
end

section
/-! The reset state and the laws (O58), and every command: it leads on (O2) and keeps the laws of the exchange (O59), of the plant and of the
lists (O60). -/

namespace Sys2Proof.Machine

/-! ## The reset state -/

theorem look_replicate_default {α : Type} {n : Nat} [Inhabited α] {a : α} (h : a = default) (i : Nat) :
    look (Vector.replicate n a) i = default := by
  by_cases small : i < n
  · rw [look_replicate a i small, h]
  · exact look_beyond _ _ (by omega)

/-- A reading of the entries that the default shares. -/
theorem look_replicate_map {α β : Type} {n : Nat} [Inhabited α] (f : α → β) {a : α} (h : f default = f a) (i : Nat) :
    f (look (Vector.replicate n a) i) = f a := by
  by_cases small : i < n
  · rw [look_replicate a i small]
  · rw [look_beyond _ _ (by omega), h]

theorem reset_forced (n : Nat) : (State.reset.pt n).forced = none := look_replicate_map (n := 680) (a := Point.reset) Point.forced rfl n

theorem reset_switch (i : Nat) : State.reset.swi i = Switch.reset := look_replicate_default rfl i

theorem reset_ptSet (n : Nat) : State.reset.ptSet n = none := look_replicate_default rfl n

theorem reset_winSet (w : Nat) : State.reset.winSet w = none := look_replicate_default rfl w

theorem reset_termSet (t : Nat) : State.reset.termSet t = none := look_replicate_default rfl t

theorem reset_swSet (i : Nat) : State.reset.swSet i = none := look_replicate_default rfl i

theorem reset_holder (k : Nat) : State.reset.holder k = .empty := look_replicate_default rfl k

theorem reset_members (g : Nat) : State.reset.members g = [] := by
  refine List.eq_nil_iff_forall_not_mem.2 fun w listed => ?_
  obtain ⟨c, set, _⟩ := (mem_configuredWhere _ _ w).1 listed
  have none : look State.reset.settings.live.windows w = none := reset_winSet w
  rw [none] at set
  cases set

theorem reset_places : State.reset.places = [] := by
  refine List.eq_nil_iff_forall_not_mem.2 fun i listed => ?_
  have on : (State.reset.swi i).energized = true := ((mem_numbersWhere _ _ i).1 listed).2
  rw [reset_switch] at on
  cases on

theorem reset_exchangeLaws : State.reset.exchangeLaws := by
  refine ⟨⟨List.Pairwise.nil, fun c no => (by cases no)⟩, Nat.zero_le 4, Nat.zero_le 1024, ⟨List.nodup_nil, fun k no => (by cases no), fun k _ => ?_⟩,
    fun c no => (by cases no), fun a no => (by cases no), fun a no => (by cases no)⟩
  rw [reset_holder]
  exact ⟨fun no => (by cases no), fun no => (by cases no)⟩

theorem reset_plantHolds : State.reset.PlantHolds where
  force n _ forced := absurd (reset_forced n) ((quality_forced_iff _).1 forced)
  copy := rfl
  bare := ⟨fun n _ _ => reset_forced n, fun i _ => by rw [reset_switch]; rfl⟩
  coil := ⟨by rw [reset_places]; exact Nat.zero_le 6, Nat.zero_le 4⟩
  armed t _ c set := by rw [reset_termSet] at set; cases set

theorem reset_settled : State.reset.settledLaw := ⟨rfl, rfl⟩

theorem reset_listLaws : State.reset.listLaws := by
  refine ⟨⟨List.nodup_nil, fun e no => (by cases no), fun i flying => ?_⟩, ⟨List.nodup_nil, Nat.zero_le 64⟩, fun g _ => ?_, fun w c set => ?_⟩
  · rw [reset_switch] at flying
    exact absurd rfl flying
  · have none : State.reset.group g = .clear := look_replicate_default rfl g
    refine ⟨?_, ?_, fun t ws lead => ?_⟩
    · rw [reset_members]; exact fun v no => (by cases no)
    · rw [reset_members]; exact fun _ v no => (by cases no)
    · rw [none] at lead
      cases lead
  · rw [reset_winSet] at set
    cases set

/-! ## What the laws bring with them -/

/-- A term in TIMING or ACTIVE is armed where every term in IDLE, TIMING or ACTIVE is. -/
theorem modeLaw_of_armed {s : State} (h : s.armedLaw) : s.modeLaw := by
  intro t small c set acting
  refine h t small c set ?_
  simp only [Term.acting, Bool.or_eq_true, beq_iff_eq] at acting
  exact Or.inr acting

/-- The groups' law gives the law of R63: members marked FIRST are in the first set, at the first time. -/
theorem firstOutLaw_of_alarm {s : State} (h : s.alarmLaw) : s.firstOutLaw := by
  intro g small v mv w mw
  obtain ⟨_, clear, lead⟩ := h.1 g small
  have led : ∀ x ∈ s.members g, (s.window x).mark ≠ .none → ∃ t ws, (s.group g).lead = some (t, ws) := by
    intro x mx marked
    cases group : s.group g with
    | clear => exact absurd (clear group x mx) marked
    | deciding t ws d => exact ⟨t, ws, rfl⟩
    | latched t ws => exact ⟨t, ws, rfl⟩
  constructor
  · intro fv fw
    obtain ⟨t, ws, is⟩ := led v mv (by rw [fv]; decide)
    obtain ⟨_, marks⟩ := lead t ws is
    rw [((marks v mv).1 fv).2, ((marks w mw).1 fw).2]
  · intro fv sw
    obtain ⟨t, ws, is⟩ := led v mv (by rw [fv]; decide)
    obtain ⟨_, marks⟩ := lead t ws is
    rw [((marks v mv).1 fv).2]
    exact (marks w mw).2 sw

theorem plantHolds_of_laws {s : State} (h : s.plantLaws) : s.PlantHolds := by
  obtain ⟨force, copy, bare, coil, armed, _⟩ := h
  exact ⟨force, copy, bare, coil, armed⟩

/-- Settles O58, by the laws of the reset state one by one. -/
theorem resetHoldsLaws : Obligations.ResetHoldsLaws :=
  ⟨reset_exchangeLaws, ⟨reset_plantHolds.force, reset_plantHolds.copy, reset_plantHolds.bare, reset_plantHolds.coil, reset_plantHolds.armed,
    reset_settled⟩, modeLaw_of_armed reset_plantHolds.armed, reset_listLaws, reset_listLaws.1.1, reset_listLaws.2.1,
    firstOutLaw_of_alarm reset_listLaws.2.2⟩

/-! ## Resets (R170) -/

/-- What agrees with the reset state in everything the laws read keeps the laws, whatever was before. -/
theorem kept_of_reset {s t : State} (fields : LawStep State.reset t) (pending : t.pending = s.pending) : Kept s t :=
  ⟨pending, fun _ => fields.safe.holds reset_plantHolds, fun _ _ => fields.lists reset_listLaws⟩

theorem resetPart_kept (s : State) : Kept s (resetPart s) := kept_of_reset (law_of_fields rfl rfl rfl rfl rfl rfl le_rfl) rfl

theorem resetPart_exchange {s : State} (mem : Memory.wf s.port.mem) : (resetPart s).exchangeLaws :=
  exchange_of_fields (s := State.reset) mem reset_exchangeLaws.2.1 reset_exchangeLaws.2.2.1 rfl rfl reset_exchangeLaws

theorem resetPart_settled (s : State) : (resetPart s).settledLaw := ⟨rfl, rfl⟩

theorem resetPart_loose (s : State) {k : Nat} (lt : k < 32) : Loose k (resetPart s) := by
  refine ⟨lt, ?_, fun _ no => (by cases no), fun _ no => (by cases no)⟩
  have empty : (resetPart s).holder k = .empty := reset_holder k
  rw [empty]
  decide

theorem execPowerOn_sound (s : State) : LeadsSound (execPowerOn s) s :=
  ⟨_, rfl, kept_of_reset (law_of_fields rfl rfl rfl rfl rfl rfl le_rfl) rfl,
    fun _ => resetPart_exchange ⟨List.Pairwise.nil, fun c no => (by cases no)⟩, fun _ => ⟨rfl, rfl⟩⟩

theorem execResetNPulse_sound (s : State) : LeadsSound (execResetNPulse s) s :=
  ⟨_, rfl, resetPart_kept s, fun laws => resetPart_exchange laws.1, fun _ => resetPart_settled s⟩

@[simp] theorem recordAdoption_field (k : Nat) (r : Result) (s : State) : (recordAdoption k r s).field = s.field := by
  unfold recordAdoption; split <;> rfl

@[simp] theorem recordAdoption_panel (k : Nat) (r : Result) (s : State) : (recordAdoption k r s).panel = s.panel := by
  unfold recordAdoption; split <;> rfl

@[simp] theorem recordAdoption_monitor (k : Nat) (r : Result) (s : State) : (recordAdoption k r s).monitor = s.monitor := by
  unfold recordAdoption; split <;> rfl

@[simp] theorem recordAdoption_adopted (k : Nat) (r : Result) (s : State) :
    (recordAdoption k r s).settings.adopted = s.settings.adopted := by
  unfold recordAdoption; split <;> rfl

@[simp] theorem publish_field (k : Nat) (r : Result) (d : Nat) (s : State) : (publish k r d s).field = s.field := by
  unfold publish; simp

@[simp] theorem publish_panel (k : Nat) (r : Result) (d : Nat) (s : State) : (publish k r d s).panel = s.panel := by
  unfold publish; simp

@[simp] theorem publish_monitor (k : Nat) (r : Result) (d : Nat) (s : State) : (publish k r d s).monitor = s.monitor := by
  unfold publish; simp

@[simp] theorem publish_adopted (k : Nat) (r : Result) (d : Nat) (s : State) :
    (publish k r d s).settings.adopted = s.settings.adopted := by
  unfold publish; simp

/-- Publishing a slot leaves a settled state settled. -/
theorem publish_settled (k : Nat) (r : Result) (d : Nat) {s : State} (h : s.settledLaw) : (publish k r d s).settledLaw :=
  settledLaw_congr (publish_adopted k r d s) (publish_live k r d s) (publish_monitor k r d s)
    (fun c => by simp only [State.conc, publish_field, and_self]) (fun p => by simp only [State.pan, publish_panel])
    (publish_sw k r d s) (publish_jr k r d s) h

theorem execRestart_sound (s : State) : LeadsSound (execRestart s) s := by
  unfold execRestart
  split
  · next k alone =>
    refine ⟨_, rfl, (resetPart_kept s).trans (publish_kept _ _ _ _), fun laws => ?_, fun _ => publish_settled _ _ _ (resetPart_settled s)⟩
    have lt := (takeHead_taken (nextAlone_some alone) laws).loose.lt
    exact publish_exchange _ _ (resetPart_loose s lt) (resetPart_exchange laws.1)
  · exact leadsSound_stay s

/-! ## Every command -/

/-- Every command leads on, leaves the commands waiting and keeps the laws. -/
theorem exec_sound (c : Instr) (s : State) : LeadsSound (exec c s) s := by
  by_cases known : (Instr.isEvent c || Instr.isOrder c) = true
  · rcases Bool.or_eq_true_iff.1 known with event | order
    · obtain ⟨t, runs, closed⟩ := exec_event event s
      exact ⟨t, runs, closed.sound⟩
    · exact exec_order_sound order s
  · cases c with
    | powerOn => exact execPowerOn_sound s
    | resetNPulse => exact execResetNPulse_sound s
    | restart => exact execRestart_sound s
    | maskWrite v => exact execMaskWrite_sound v s
    | releasedThroughWrite v => exact execReleasedThroughWrite_sound v s
    | holderReadyWrite k => exact holderWrite_sound k 1 s
    | holderEmptyWrite k => exact holderWrite_sound k 0 s
    | hostWordWrite address enables v => exact execHostWordWrite_sound address enables v s
    | adopt => exact execAdopt_sound s
    | adoptValidationEnd => exact execAdoptValidationEnd_sound s
    | chainOpen => exact execChainOpen_sound s
    | chainContinue => exact execChainContinue_sound s
    | chainClose => exact execChainClose_sound s
    | chainHoldTimerExpiry => exact execChainHoldTimerExpiry_sound s
    | tableCheck table e finding => exact execTableCheck_sound table e finding s
    | badOrder => exact execBadOrder_sound s
    | _ => exact absurd rfl known

/-- A step is its command on the state with the rest of the queue, or leaves a state without a command. -/
theorem step_cases {s t : State} (runs : step s = .next t) : t = s ∨ ∃ q, Sound (s.withPending q) t := by
  unfold step at runs
  split at runs
  · cases runs
    exact Or.inl rfl
  · next c rest _ =>
    obtain ⟨u, leads, sound⟩ := exec_sound c (s.withPending rest)
    rw [leads] at runs
    cases runs
    exact Or.inr ⟨rest, sound⟩

/-- Settles O1: the front of the queue is what a step takes. -/
theorem stepRunsFrontCommand : Obligations.StepRunsFrontCommand := fun _ _ _ => rfl

/-- Settles O2, by `exec_sound` for every command. -/
theorem everyStepLeadsOn : Obligations.EveryStepLeadsOn := by
  refine ⟨fun c s => ?_, fun s empty => by simp only [step, empty]⟩
  obtain ⟨t, leads, sound⟩ := exec_sound c s
  exact ⟨t, leads, sound.pending⟩

/-- Settles O59: no law of the exchange reads the commands waiting, and every command keeps them. -/
theorem everyStepKeepsExchangeLaws : Obligations.EveryStepKeepsExchangeLaws := by
  intro s t laws runs
  rcases step_cases runs with rfl | ⟨q, sound⟩
  · exact laws
  · exact sound.exchange laws

/-- Settles O60: every command keeps what `PlantHolds` says and closes in a settled state, and keeps the laws of the lists beside it. -/
theorem everyStepKeepsPlantLaws : Obligations.EveryStepKeepsPlantLaws := by
  intro s t laws runs
  have holds := plantHolds_of_laws laws
  have settled := laws.2.2.2.2.2
  have kept : t.PlantHolds ∧ t.settledLaw ∧ (s.listLaws → t.listLaws) := by
    rcases step_cases runs with rfl | ⟨q, sound⟩
    · exact ⟨holds, settled, id⟩
    · have queued : (s.withPending q).PlantHolds :=
        (law_of_fields rfl rfl rfl rfl rfl rfl le_rfl : LawStep s (s.withPending q)).safe.holds holds
      exact ⟨sound.holds queued, sound.settled settled, sound.lists queued⟩
  obtain ⟨after, closed, lists⟩ := kept
  exact ⟨⟨after.force, after.copy, after.bare, after.coil, after.armed, closed⟩, modeLaw_of_armed after.armed,
    fun h => ⟨lists h, (lists h).1.1, (lists h).2.1, firstOutLaw_of_alarm (lists h).2.2⟩⟩

end Sys2Proof.Machine
end

section
/-! The close of a command (O3), the resets (O4 to O7), the clocks (O9, O11) and the exchange port (O12, O14 to O16). -/

namespace Sys2Proof.Machine

/-! ## The close of a command (log entry 10) -/

theorem setSystemPoint_eq (n : Nat) (value : Bool) (s : State) :
    setSystemPoint n value s =
      if s.settings.adopted = false ∨ (s.pt n).qualified = value then s
      else windowsTake n s.clock.hall false
        (s.setPt n { s.pt n with raw := value, qualified := value, rawTime := s.clock.hall, qualifyTime := s.clock.hall }) := by
  simp only [setSystemPoint, Bool.or_eq_true, Bool.not_eq_true', beq_iff_eq]
  rfl

theorem setSystemPoint_pt_other (n : Nat) (v : Bool) (s : State) {m : Nat} (apart : m ≠ n) : (setSystemPoint n v s).pt m = s.pt m := by
  unfold setSystemPoint
  split
  · rfl
  · rw [winStep_pt (windowsTake_winStep ..), pt_setPt, if_neg fun same => apart same.1.symm]

theorem updateCondition_of_shown {d : Option (TableName × Nat)} {s : State} (shown : s.conditionNow = s.monitor.shown) :
    updateCondition d s = s := if_pos shown

theorem updateCondition_of_changed {d : Option (TableName × Nat)} {s : State} (changed : s.conditionNow ≠ s.monitor.shown) :
    updateCondition d s = { s with monitor := { s.monitor with shown := s.conditionNow } }.request
      (conditionEntry s.monitor.shown s.conditionNow s.causes d s.now) := if_neg changed

/-- Rounds that end settled are a close. -/
theorem settleRounds_closes : ∀ (n : Nat) (s : State), (settleRounds n s).settledLaw → Closes s (settleRounds n s)
  | 0, s, settled => Closes.settled s settled
  | n + 1, s, settled => by
    unfold settleRounds at settled ⊢
    split at settled
    · next calm =>
      rw [if_pos calm]
      exact Closes.settled s calm
    · next stirred =>
      rw [if_neg stirred]
      refine Closes.round s (handNews s) (updateCondition none (handNews s)) _ stirred rfl updateCondition_of_shown
        (fun changed => updateCondition_of_changed changed) (settleRounds_closes n _ settled)

theorem BlockStep.aside {s t : State} (h : BlockStep s t) : Aside s t :=
  ⟨h.clock, h.settings, h.engine, h.port, h.pending, h.jr.released, h.forced, h.isolated⟩

/-- Settles O3: the rounds of `finish` are a close, and end settled. -/
theorem closingSettles : Obligations.ClosingSettles :=
  ⟨fun z value => setSystemPoint_eq 672 value z, fun s => ⟨settleRounds_closes 8 s (finish_settled s), finish_settled s, finish_of_settled,
    (finish_block s).aside, finish_shows s, (finish_close s).points, (finish_close s).rest⟩⟩

/-! ## Resets (R170) -/

/-- Settles O4: both resets are `resetPart`, power-on with the exchange memory cleared. -/
theorem powerOnAndResetNReset : Obligations.PowerOnAndResetNReset := fun _ => ⟨rfl, rfl⟩

theorem publish_port (k : Nat) (r : Result) (d : Nat) (s : State) : (publish k r d s).port =
    { s.port with mem := outcomeWords k r d s.clock.hall s.port.mem, holders := put s.port.holders k .done } := by
  rw [publish, recordAdoption]
  split <;> rfl

/-- A published slot answers the order and changes nothing else of the port. -/
theorem answered_publish {k : Nat} {s : State} (slot : k < 32) (wf : s.memoryLaw) (r : Result) (d : Nat) :
    Answered k r d s.clock.hall s (publish k r d s) := by
  obtain ⟨outcome, detail, low, high⟩ := readNat_outcomeWords k d r s.clock.hall wf
  have holder := publish_holder k r d s slot
  simp only [Answered, slotWord, publish_mem]
  refine ⟨(holder k).trans (if_pos rfl), fun j apart => (holder j).trans (if_neg apart), outcome.trans (toNat_ofNat_code r),
    detail.trans (BitVec.toNat_ofNat d 32), ?_, fun a outside => read_outcomeWords_other k d r _ wf outside, ?_⟩
  · rw [low, high, hallTime_of_words]
  · rw [publish_port]

/-- Settles O5: the slot is published on the reset state, whose hall time is 0. -/
theorem restartResetsAndPublishes : Obligations.RestartResetsAndPublishes := by
  intro s k offered
  have runs := exec_restart_of_offered offered
  obtain ⟨slot, wf, _, _, _, _, order⟩ := offered
  have other : orderCode (resetPart s).port k ≠ 1 := orderCode_ne_one (p := s.port) order fun _ => Order.noConfusion
  have answered := answered_publish (s := resetPart s) slot wf .restarted 0
  refine ⟨_, runs, ?_, answered⟩
  rw [publish_of_not_adopt other]
  rfl

/-- What a reset leaves of journal, points, live tables and part of the monitor. -/
theorem exec_of_resets {c : Instr} {s : State} (h : Resets c s) :
    ∃ t, exec c s = .next t ∧ t.jr = Journal.reset ∧ t.pts = Points.reset ∧ t.settings.live = Tables.reset := by
  obtain rfl | rfl | ⟨rfl, k, offered⟩ := h
  · exact ⟨_, exec_powerOn s, rfl, rfl, rfl⟩
  · exact ⟨_, exec_resetNPulse s, rfl, rfl, rfl⟩
  · exact ⟨_, exec_restart_of_offered offered, publish_jr .., publish_pts .., publish_live ..⟩

theorem ofBytes_replicate_zero : ∀ n, ofBytes (List.replicate n 0) = 0
  | 0 => rfl
  | n + 1 => by
    rw [List.replicate_succ, ofBytes, ofBytes_replicate_zero n]
    rfl

/-- A place nothing has been written to reads 0. -/
theorem readWord_journal_empty {s : State} (empty : s.jr = Journal.reset) {a : Nat} (low : 0x8000 ≤ a) (high : a < 0x10000) :
    s.readWord a = 0 := by
  have place : look s.jr.places (a / 32 - 1024) = none := by rw [empty]; exact look_replicate_default rfl _
  have bytes : s.journalBytes (a / 32 - 1024) = List.replicate 32 0 := by simp only [State.journalBytes, place]
  simp only [State.readWord, if_neg (show ¬ a < 0x100 by omega), if_neg (show ¬ a < 0x1000 by omega), if_neg (show ¬ a < 0x2000 by omega),
    if_neg (show ¬ a < 0x3800 by omega), if_neg (show ¬ a < 0x6280 by omega), if_neg (show ¬ a < 0x6300 by omega),
    if_neg (show ¬ a < 0x6600 by omega), if_neg (show ¬ a < 0x6E00 by omega), if_neg (show ¬ a < 0x6F00 by omega),
    if_neg (show ¬ a < 0x7000 by omega), if_neg (show ¬ a < 0x7100 by omega), if_neg (show ¬ a < 0x8000 by omega), if_pos high, bytes,
    List.drop_replicate, List.take_replicate, ofBytes_replicate_zero]
  rfl

/-- Settles O6, by the reset journal. -/
theorem journalAfterReset : Obligations.JournalAfterReset := by
  intro c s resets
  obtain ⟨t, runs, jr, pts, live⟩ := exec_of_resets resets
  have word : ∀ {a x : Nat}, a < 0x100 → t.headerWord a = x → t.readWord a = BitVec.ofNat 32 x := fun small is => by
    rw [readWord_header t small, is]
  have point : t.pt 672 = Point.reset := by
    unfold State.pt
    rw [pts]
    exact look_replicate _ _ (by decide)
  refine ⟨t, runs, by rw [jr]; rfl, by rw [jr]; rfl, word (by decide) (by simp only [State.headerWord, jr]; rfl),
    word (by decide) (by simp only [State.headerWord, jr]; rfl), fun a low high => readWord_journal_empty jr low high, by rw [jr]; rfl,
    by rw [jr]; rfl, by rw [jr]; rfl, by rw [jr]; rfl, word (by decide) (by simp only [State.headerWord, jr]; rfl), by rw [jr]; rfl, ?_,
    by rw [live]; rfl, by rw [point]; rfl, by rw [point]; rfl, fun e => ?_⟩
  · rintro i (rfl | rfl | rfl) <;> simp only [State.notices, jr, live] <;> rfl
  · have written : (t.request e).jr = Journal.reset.append e := by
      rw [request_jr, jr]
      unfold Journal.request roomAlone
      rw [if_neg (by decide)]
      cases e.trip <;> rfl
    rw [written]
    exact ⟨rfl, look_put_same _ _ (by decide)⟩

/-- Settles O7: every point is the reset point, whose image is that of an unconfigured LOST point. -/
theorem pointsAfterReset : Obligations.PointsAfterReset := by
  intro c s resets
  obtain ⟨t, runs, _, pts, live⟩ := exec_of_resets resets
  refine ⟨t, runs, by rw [pts]; rfl, fun n small => ?_⟩
  have point : t.pt n = Point.reset := by
    unfold State.pt
    rw [pts]
    exact look_replicate _ _ small
  have bare : t.ptSet n = none := by
    unfold State.ptSet
    rw [live]
    exact look_replicate_default rfl n
  refine ⟨fun _ => bare, by rw [point]; rfl, by rw [point]; rfl, by rw [point]; rfl, by rw [point]; rfl, by rw [point]; rfl,
    by rw [point]; rfl, ?_⟩
  simp only [State.pointImage, point, bare, Option.isSome_none, ite_self]
  rfl

/-! ## The clocks (R17 to R20, R51, R74) -/

theorem stepTime_of_adopted (bySync : Bool) (new : HallTime) {s : State} (adopted : s.settings.adopted = true) :
    stepTime bySync new s = setSystemPoint 673 true { s with
      clock := { s.clock with hall := new, steppedUntil := some (s.clock.elapsed + 10000) }
      jr := s.jr.request new (timeEntry bySync s.clock.hall new) } := by
  simp only [stepTime, markStepped, request_settings, adopted, if_true]
  rfl

/-- Hall time after a snap back to the last whole second, or on to the next one (R19). -/
theorem snapped_toNat (t : HallTime) :
    (t.toNat % 1000 < 500 → (snapped t).toNat = t.toNat - t.toNat % 1000) ∧
      (500 ≤ t.toNat % 1000 → (snapped t).toNat = (t.toNat + (1000 - t.toNat % 1000)) % 2 ^ 48) := by
  have bound := t.isLt
  constructor
  · intro near
    have small : t.toNat % 1000 < 2 ^ 48 := by omega
    simp only [snapped, if_pos near, BitVec.toNat_sub, BitVec.toNat_ofNat, Nat.mod_eq_of_lt small]
    have below : t.toNat % 1000 ≤ t.toNat := Nat.mod_le _ _
    omega
  · intro far
    have small : 1000 - t.toNat % 1000 < 2 ^ 48 := by omega
    simp only [snapped, if_neg (not_lt.2 far), BitVec.toNat_add, BitVec.toNat_ofNat, Nat.mod_eq_of_lt small]

theorem markStepped_pt_other (s : State) {n : Nat} (apart : n ≠ 673) : (markStepped s).pt n = s.pt n := by
  unfold markStepped
  split
  · exact setSystemPoint_pt_other 673 true _ apart
  · rfl

theorem markStepped_qualified {s : State} (adopted : s.settings.adopted = true) : ((markStepped s).pt 673).qualified = true := by
  unfold markStepped
  rw [if_pos adopted]
  exact setSystemPoint_qualified 673 true _ adopted (by decide)

theorem markStepped_hall (s : State) : (markStepped s).clock.hall = s.clock.hall := by
  unfold markStepped
  split
  · rw [(setSystemPoint_block ..).clock]
  · rfl

/-- A SET-TIME with a value below 2^48 takes effect once a FULL adoption has been made (R18). -/
theorem exec_setTime_of_offered {s : State} {k lo hi : Nat} (offered : Offered s k .alone (.setTime lo hi))
    (adopted : s.settings.adopted = true) (small : hi < 2 ^ 16) :
    exec .setTime s = .next (finish (publish k .ok 0 (stepTime false (BitVec.ofNat 48 (lo + 2 ^ 32 * hi)) (takeHead k s)))) := by
  have accepted : Order.refused (takeHead k s) (.setTime lo hi) = none := by
    have fits : ¬ 65536 ≤ hi := by omega
    simp only [Order.refused, tooEarly, takeHead_settings, adopted, Order.badParameters, Order.refusal, fits, decide_false, Bool.not_true,
      Bool.false_and, Bool.false_eq_true, if_false]
  change execSetTime s = _
  simp only [execSetTime, nextAlone_of_offered offered, runAlone, accepted]
  rfl

theorem slotWord_lt (p : Port) (k w : Nat) : slotWord p k w < 2 ^ 32 := by
  unfold slotWord Memory.readNat
  simp only [List.range_succ, List.range_zero, List.nil_append, List.cons_append, List.map_cons, List.map_nil, ofBytes]
  have b0 := (Memory.read p.mem (slotAddress k w + 0)).isLt
  have b1 := (Memory.read p.mem (slotAddress k w + 1)).isLt
  have b2 := (Memory.read p.mem (slotAddress k w + 2)).isLt
  have b3 := (Memory.read p.mem (slotAddress k w + 3)).isLt
  omega

/-- The low word of a SET-TIME is a word of its slot. -/
theorem setTime_low {p : Port} {k lo hi : Nat} (order : orderIn p k = some (.setTime lo hi)) : lo < 2 ^ 32 := by
  unfold orderIn at order
  dsimp only at order
  split at order <;> cases order
  exact slotWord_lt p k 3

/-- Settles O9: SET-TIME and a SYNC pulse step hall time by `stepTime`. -/
theorem syncPulseSnaps : Obligations.SyncPulseSnaps := by
  refine ⟨fun s k lo hi offered adopted small => ?_, fun s => ?_⟩
  · have runs := exec_setTime_of_offered offered adopted small
    obtain ⟨slot, wf, _, _, _, _, order⟩ := offered
    have low := setTime_low order
    have other : orderCode s.port k ≠ 1 := orderCode_ne_one order fun _ => Order.noConfusion
    generalize new : BitVec.ofNat 48 (lo + 2 ^ 32 * hi) = t at runs
    rw [stepTime_of_adopted false t (by exact adopted)] at runs
    generalize first : ({ takeHead k s with
      clock := { s.clock with hall := t, steppedUntil := some (s.clock.elapsed + 10000) }
      jr := s.jr.request t (timeEntry false s.clock.hall t) } : State) = v
    have runs' : exec .setTime s = .next (finish (publish k .ok 0 (setSystemPoint 673 true v))) := by rw [← first]; exact runs
    have block := setSystemPoint_block 673 true v
    have port : (setSystemPoint 673 true v).port = (takeHead k s).port := by rw [block.port, ← first]
    have engine : (setSystemPoint 673 true v).engine = (takeHead k s).engine := by rw [block.engine, ← first]
    refine ⟨t, v, _, _, runs', published_publish slot wf other port engine .ok 0, ?_, first.symm, rfl, ?_, fun n apart => ?_, block.clock, ?_⟩
    · rw [← new, BitVec.toNat_ofNat, Nat.mod_eq_of_lt (by omega)]
    · exact setSystemPoint_qualified 673 true v (by rw [← first]; exact adopted) (by decide)
    · rw [setSystemPoint_pt_other 673 true v apart, ← first]
      rfl
    · have other' : orderCode (setSystemPoint 673 true v).port k ≠ 1 := by rw [port]; exact other
      rw [publish_of_not_adopt other']
  · obtain ⟨back, on⟩ := snapped_toNat s.clock.hall
    refine ⟨snapped s.clock.hall, back, on, fun near => ?_, fun far => ?_⟩
    · change execSyncPulse s = _
      unfold execSyncPulse
      rw [if_neg (by simp only [snapRecorded, decide_eq_true_eq]; omega)]
    · refine ⟨_, _, ?_, rfl, rfl, fun adopted => markStepped_qualified adopted, markStepped_hall _, fun n apart => markStepped_pt_other _ apart⟩
      change execSyncPulse s = _
      unfold execSyncPulse
      rw [if_pos (by simp only [snapRecorded, decide_eq_true_eq]; omega)]
      rfl

theorem setSystemPoint_frame (n : Nat) (v : Bool) (s : State) :
    setSystemPoint n v s = { s with
      pts := (setSystemPoint n v s).pts, win := (setSystemPoint n v s).win, jr := (setSystemPoint n v s).jr } := by
  unfold setSystemPoint
  split
  · rfl
  · generalize same : s.setPt n _ = t
    have h := windowsTake_winStep n s.now false t
    have rest : ∀ {u : State}, WinStep t u → u = { s with pts := u.pts, win := u.win, jr := u.jr } := by
      intro u step
      obtain ⟨clock, pts, field, panel, term, sw, sup, port, engine, settings, monitor, free, pending, _⟩ := step
      subst same
      obtain ⟨⟩ := u
      simp only at clock field panel term sw sup port engine settings monitor free pending ⊢
      subst clock field panel term sw sup port engine settings monitor free pending
      rfl
    exact rest h

theorem due_of_le {s : State} {t : Nat} (h : t ≤ s.clock.elapsed) : s.due t = true := decide_eq_true h

/-- Settles O11: each timer's own command, when it is due. -/
theorem clocksAndTimersRun : Obligations.ClocksAndTimersRun := by
  intro s
  refine ⟨⟨_, exec_hallTimeAdvance s, rfl⟩, fun due => ?_, fun e chime due => ?_, fun e stepped due => ?_⟩
  · have runs : exec .flashPhaseAdvance s = .next { s with
        clock := { s.clock with flash := s.clock.flash + 1, nextFlash := s.clock.nextFlash + 125 } } := by
      change execFlashPhaseAdvance s = _
      unfold execFlashPhaseAdvance
      rw [if_pos (due_of_le due)]
    exact ⟨_, runs, BitVec.toNat_add s.clock.flash 1, rfl, rfl⟩
  · change execChimeEnd s = _
    have now := due_of_le due
    simp only [execChimeEnd, chime, now, if_true]
  · have runs : exec .timeSteppedExpiry s =
        .next (finish (setSystemPoint 673 false { s with clock := { s.clock with steppedUntil := none } })) := by
      change execTimeSteppedExpiry s = _
      have now := due_of_le due
      simp only [execTimeSteppedExpiry, stepped, now, if_true]
    refine ⟨_, runs, (setSystemPoint_block ..).clock, fun adopted => setSystemPoint_qualified 673 false _ adopted (by decide),
      fun n apart => setSystemPoint_pt_other 673 false _ apart, ?_⟩
    rw [(setSystemPoint_block 673 false { s with clock := { s.clock with steppedUntil := none } }).clock]
    exact setSystemPoint_frame 673 false { s with clock := { s.clock with steppedUntil := none } }

/-! ## The exchange port (R156 to R160, R165) -/

theorem ackWrite_eq (s : State) : ackWrite s = { s with port := { s.port with errorAck := false } } := rfl

theorem writeMask_of_le {v : Word} (a : Nat) (s : State) (small : v.toNat ≤ 4) :
    writeMask a v s = { s with port := { s.port with mask := v, errorAck := false } } := by
  rw [writeMask, if_pos small, ackWrite_eq]

theorem writeMask_of_gt {v : Word} (a : Nat) (s : State) (large : 4 < v.toNat) : writeMask a v s = WriteRefused a s := by
  rw [writeMask, if_neg (not_le.2 large), refuseWrite_eq]

/-- Settles O12, by the two cases of `writeMask`. -/
theorem maskWriteJudged : Obligations.MaskWriteJudged := fun s _ =>
  ⟨fun small => congrArg Host.Outcome.next (writeMask_of_le 0x0C s small), fun large => congrArg Host.Outcome.next (writeMask_of_gt 0x0C s large)⟩

/-- Settles O16: the header word at 0x44 is the key input. -/
theorem settingsKeyShown : Obligations.SettingsKeyShown := fun _ enable => ⟨_, rfl, rfl, by cases enable <;> rfl⟩

theorem hostWrite_whole (a : Nat) (v : Word) (s : State) : hostWrite a 0xF#4 v s = writeWordAt (a / 4 * 4) v s := by
  unfold hostWrite
  exact if_pos rfl

/-- A write to word w of slot k (13.3). -/
theorem writeWordAt_slot {k w : Nat} (slot : k < 32) (word : w < 32) (v : Word) (s : State) :
    writeWordAt (slotAddress k w) v s = writeSlot (slotAddress k w) k w v s := by
  have place : slotAddress k w / 128 - 32 = k := by unfold slotAddress; omega
  have inner : slotAddress k w % 128 / 4 = w := by unfold slotAddress; omega
  unfold writeWordAt
  rw [if_neg (by unfold slotAddress; omega), if_neg (by unfold slotAddress; omega), if_pos (by unfold slotAddress; omega), place, inner]

theorem hostOwned_iff (h : Holder) : h.hostOwned = true ↔ h = .empty ∨ h = .done := by cases h <;> decide

theorem not_hostOwned_iff (h : Holder) : h.hostOwned = false ↔ h = .queued ∨ h = .working := by cases h <;> decide

theorem writeSlot_refused {k : Nat} {s : State} (held : s.holder k = .queued ∨ s.holder k = .working) (a w : Nat) (v : Word) :
    writeSlot a k w v s = WriteRefused a s := by
  rw [writeSlot, if_neg (by rw [(not_hostOwned_iff _).2 held]; decide), refuseWrite_eq]

theorem writeSlot_ready {k : Nat} {s : State} (owned : s.holder k = .empty ∨ s.holder k = .done) (a : Nat) :
    writeSlot a k 0 1 s = ackWrite ({ s with engine := { s.engine with intake := s.engine.intake ++ [k] } }.setHolder k .queued) := by
  rw [writeSlot, if_pos ((hostOwned_iff _).2 owned), if_pos rfl, if_pos rfl]

theorem writeSlot_empty {k : Nat} {s : State} (owned : s.holder k = .empty ∨ s.holder k = .done) (a : Nat) :
    writeSlot a k 0 0 s = ackWrite (s.setHolder k .empty) := by
  rw [writeSlot, if_pos ((hostOwned_iff _).2 owned), if_pos rfl, if_neg (by decide), if_pos rfl]

theorem holderBecomes_ackWrite {k : Nat} {h : Holder} {s u : State} (slot : k < 32) (port : u.port = s.port) :
    HolderBecomes k h s (ackWrite (u.setHolder k h)) := by
  have holder : ∀ j, (ackWrite (u.setHolder k h)).holder j = if k = j ∧ j < 32 then h else s.holder j := fun j => by
    have same : s.holder j = u.holder j := by simp only [State.holder, port]
    rw [same]
    exact holder_setHolder u k j h
  refine ⟨by rw [holder, if_pos ⟨rfl, slot⟩], fun j apart => by rw [holder, if_neg fun same => apart same.1.symm], ?_⟩
  rw [← port]
  rfl

/-- Settles O14: a write to word 0 of a slot, by its holder. -/
theorem holderWritesJudged : Obligations.HolderWritesJudged := by
  intro s k slot
  have address : slotAddress k 0 / 4 * 4 = slotAddress k 0 := by unfold slotAddress; omega
  have writes : ∀ v, hostWrite (slotAddress k 0) 0xF#4 v s = writeSlot (slotAddress k 0) k 0 v s := fun v => by
    rw [hostWrite_whole, address, writeWordAt_slot slot (by decide)]
  have ready : exec (.holderReadyWrite k) s = .next (writeSlot (slotAddress k 0) k 0 1 s) := congrArg Host.Outcome.next (writes 1)
  have empty : exec (.holderEmptyWrite k) s = .next (writeSlot (slotAddress k 0) k 0 0 s) := congrArg Host.Outcome.next (writes 0)
  refine ⟨fun owned => ⟨⟨_, ready, ?_⟩, ⟨_, empty, ?_⟩⟩, fun held => ⟨?_, ?_⟩⟩
  · rw [writeSlot_ready owned]
    exact ⟨holderBecomes_ackWrite slot rfl, rfl⟩
  · rw [writeSlot_empty owned]
    exact ⟨holderBecomes_ackWrite slot rfl, rfl⟩
  · rw [ready, writeSlot_refused held]
    rfl
  · rw [empty, writeSlot_refused held]
    rfl

theorem wordStored_storeWord (a : Nat) (v : Word) {s : State} (wf : s.memoryLaw) : WordStored a v s (storeWord a v s) :=
  ⟨readNat_writeWord _ _ _ wf, fun _ outside => read_writeWord_other _ _ _ _ wf outside, rfl⟩

/-- Settles O15, by the region of the word address. -/
theorem hostWordWriteJudgedByRegion : Obligations.HostWordWriteJudgedByRegion := by
  intro s address enables v a wf is
  refine ⟨hostWrite address.toNat enables v s, ?_, rfl, fun part => ?_, fun whole => ?_⟩
  · change Host.Outcome.next (finish (keepError false _)) = _
    rw [keepError_false]
  · rw [hostWrite, if_neg part, is]
    exact refuseWrite_eq _ s
  · have bound : address.toNat < 2 ^ 17 := address.isLt
    have writes : hostWrite address.toNat enables v s = writeWordAt a v s := by rw [whole, hostWrite_whole, is]
    rw [writes]
    have beyond : a < 0x20000 := by omega
    clear writes whole
    refine ⟨fun mask => ?_, fun released => ?_, fun header noMask noReleased => ?_, fun k w slot word place => ?_, fun low high => ?_,
      fun staging free => ?_, fun staging held => ?_⟩
    · subst mask; rfl
    · subst released; rfl
    · rw [writeWordAt, if_neg noMask, if_neg noReleased, if_neg (by omega), if_neg (by omega), refuseWrite_eq]
    · rw [place, writeWordAt_slot slot word]
      refine ⟨fun held => writeSlot_refused held _ _ _, fun owned => ⟨fun holder ready => ?_, fun holder empty => ?_,
        fun holder notReady notEmpty => ?_, fun inner => ?_⟩⟩
      · subst holder ready
        change Host.Outcome.next (hostWrite (slotAddress k 0) 0xF#4 1 s) = _
        rw [hostWrite_whole, show slotAddress k 0 / 4 * 4 = slotAddress k 0 by unfold slotAddress; omega, writeWordAt_slot slot (by decide)]
      · subst holder empty
        change Host.Outcome.next (hostWrite (slotAddress k 0) 0xF#4 0 s) = _
        rw [hostWrite_whole, show slotAddress k 0 / 4 * 4 = slotAddress k 0 by unfold slotAddress; omega, writeWordAt_slot slot (by decide)]
      · rw [writeSlot, if_pos ((hostOwned_iff _).2 owned), if_pos holder, if_neg notReady, if_neg notEmpty, refuseWrite_eq]
      · rw [writeSlot, if_pos ((hostOwned_iff _).2 owned), if_neg inner]
        exact wordStored_storeWord _ v wf
    · rw [writeWordAt, if_neg (by omega), if_neg (by omega), if_neg (by omega), if_neg (by omega), refuseWrite_eq]
    · rw [writeWordAt, if_neg (by omega), if_neg (by omega), if_neg (by omega), if_pos ⟨staging, beyond⟩, if_neg (by rw [free]; decide)]
      exact wordStored_storeWord a v wf
    · rw [writeWordAt, if_neg (by omega), if_neg (by omega), if_neg (by omega), if_pos ⟨staging, beyond⟩,
        if_pos (Option.isSome_iff_ne_none.2 held), refuseWrite_eq]

end Sys2Proof.Machine
end

section
/-! Notices and pins (O18), the journal's room, losses and gaps (O19), and the window sequences (O20). -/

namespace Sys2Proof.Machine

/-! ## Notices (R165) -/

/-- The greatest of some levels, from a least value on. -/
theorem foldl_max_spec : ∀ (l : List Nat) (a : Nat), a ≤ l.foldl max a ∧ (∀ x ∈ l, x ≤ l.foldl max a) ∧ (l.foldl max a = a ∨ l.foldl max a ∈ l)
  | [], a => ⟨le_rfl, fun _ no => (by cases no), Or.inl rfl⟩
  | y :: l, a => by
    obtain ⟨base, above, found⟩ := foldl_max_spec l (max a y)
    rw [List.foldl_cons]
    refine ⟨le_trans (le_max_left a y) base, fun x listed => ?_, ?_⟩
    · rcases List.mem_cons.1 listed with rfl | later
      · exact le_trans (le_max_right a x) base
      · exact above x later
    · rcases found with first | later
      · rcases max_choice a y with low | high
        · exact Or.inl (first.trans low)
        · exact Or.inr (by rw [first, high]; exact List.mem_cons_self)
      · exact Or.inr (List.mem_cons_of_mem y later)

theorem mem_pending_levels (s : State) (l : Nat) :
    l ∈ (s.notices.filter fun x => x.1).map (fun x => x.2) ↔ (true, l) ∈ s.notices := by
  simp only [List.mem_map, List.mem_filter]
  exact ⟨fun ⟨⟨on, level⟩, ⟨listed, pending⟩, same⟩ => same ▸ pending ▸ listed, fun listed => ⟨_, ⟨listed, rfl⟩, rfl⟩⟩

theorem orderNotice_iff (s : State) :
    s.orderNotice = true ↔ ∃ k, k < 32 ∧ s.holder k = .done ∧ Memory.read s.port.mem (slotAddress k 2 + 2) ≠ 0 := by
  simp only [State.orderNotice, List.any_eq_true, mem_numbersWhere, beq_iff_eq, bne_iff_ne, State.holder, and_assoc]

theorem tripNotice_iff (j : Journal) :
    j.tripNotice = true ↔ ∃ l, j.latestTrip = some l ∧ 1 ≤ (l - j.released).toNat ∧ (l - j.released).toNat ≤ j.unreleased := by
  unfold Journal.tripNotice
  cases j.latestTrip with
  | none => simp
  | some l => simp

theorem notices_eq (s : State) : s.notices =
    [ (decide (0 < s.jr.unreleased), s.settings.live.general.levelJournal),
      (decide (s.settings.live.general.highWater ≤ s.jr.unreleased), s.settings.live.general.levelJournalHigh),
      (s.orderNotice, s.settings.live.general.levelOrder),
      (decide (s.monitor.shown = .degraded ∨ s.monitor.shown = .faulted), s.settings.live.general.levelCondition),
      (s.jr.tripNotice, 5),
      (decide (s.monitor.shown = .halted), 5) ] := by
  unfold State.notices
  cases s.monitor.shown <;> rfl

/-- Settles O18: the pins are the greatest pending level and its comparison with the mask. -/
theorem interruptFollowsNotices : Obligations.InterruptFollowsNotices := by
  intro s
  obtain ⟨_, above, found⟩ := foldl_max_spec ((s.notices.filter fun x => x.1).map fun x => x.2) 0
  exact ⟨notices_eq s, orderNotice_iff s, tripNotice_iff s.jr, fun l listed => above l ((mem_pending_levels s l).2 listed),
    found.imp id (mem_pending_levels s _).1, decide_eq_true_iff⟩

/-! ## The journal (R145 to R149) -/

/-- A request that finds room for itself alone is written. -/
theorem entryWritten_append (e : Entry) (j : Journal) : EntryWritten e j (j.append e) :=
  ⟨look_put_same _ _ (Nat.mod_lt _ (by decide)), fun _ other => look_put_other _ _ (Ne.symm other), rfl⟩

theorem requestLost_lose (e : Entry) (now : HallTime) (j : Journal) : RequestLost e now j (j.lose now e.trip) := by
  simp only [RequestLost, Journal.lose, saturate_eq_min]

theorem bit_mul_beq (n a b : Nat) : n * bit (a == b) = if a = b then n else 0 := by
  by_cases same : a = b
  · rw [if_pos same, bit, if_pos (beq_iff_eq.2 same), Nat.mul_one]
  · rw [if_neg same, bit, if_neg fun no => same (beq_iff_eq.1 no), Nat.mul_zero]

theorem gapReports_gapEntry (now : HallTime) (j : Journal) : GapReports (j.gapEntry now) now j := by
  refine ⟨rfl, rfl, rfl, rfl, rfl, rfl, ?_, by simp [Journal.gapEntry], fun i small => ?_⟩
  · simp only [Journal.gapEntry, bit_mul_beq]
  · have byte : (byteAt j.lastLost.toNat i).toNat = j.lastLost.toNat / 256 ^ i % 256 := by
      rw [byteAt, BitVec.toNat_ofNat, Nat.shiftRight_eq_div_pow, Nat.pow_mul]
    simp only [Journal.gapEntry, List.getElem?_map, List.getElem?_range small, Option.map_some, byte]

/-- Settles O19: the four cases of a request, and what point 672 shows at the close. -/
theorem journalRoomLossesAndGaps : Obligations.JournalRoomLossesAndGaps := by
  refine ⟨fun s e adopted settled shown => ⟨rfl, ?_⟩, fun j now e => ⟨losing_iff j, fun whole => ?_, fun losing => ?_⟩⟩
  · obtain ⟨news, _⟩ := settled
    exact finish_shows (s.request e) adopted (request_shows s.jr s.clock.hall e (by rw [news]; exact shown))
  · have room : roomAlone e.trip = if e.trip then 1 else 17 := rfl
    rw [← room, Journal.request, whole]
    simp only [Bool.false_eq_true, if_false]
    exact ⟨fun enough => by rw [if_pos enough]; exact entryWritten_append e j,
      fun full => by rw [if_neg (not_le.2 full)]; exact requestLost_lose e now j⟩
  · have room : roomPair e.trip = if e.trip then 2 else 18 := rfl
    rw [← room, Journal.request, losing]
    simp only [if_true]
    refine ⟨fun enough => ?_, fun full => by rw [if_neg (not_le.2 full)]; exact requestLost_lose e now j⟩
    rw [if_pos enough]
    exact ⟨j.gapEntry now, j.append (j.gapEntry now), gapReports_gapEntry now j, entryWritten_append _ j, entryWritten_append e _⟩

/-! ## Windows (R38 to R56) -/

/-- What a cell of a sequence's table says of an event at a window: it moves the window, or leaves everything as it is. -/
def CellHolds (s : State) (w : Nat) (ev : WindowEvent) : Option WindowState → Prop
  | some x => Moves s w ev x
  | none => Stays s w ev

theorem cellHolds_next {s : State} {w : Nat} {c : WindowSettings} (set : s.winSet w = some c) {q : Sequence} {x : WindowState}
    (sequence : c.sequence = q) (state : (s.window w).state = x) (ev : WindowEvent) : CellHolds s w ev (q.next x ev) := by
  subst sequence state
  cases cell : c.sequence.next (s.window w).state ev with
  | none => exact fun cause => offer_of_next_none set cell cause
  | some y => exact fun cause => by rw [offer_of_next_some set cell, enterWindow_state (winSet_lt set)]

/-- The record of a window that has entered a state, before its report to the first-out tracker. -/
abbrev enteredRecord (w : Nat) (new : WindowState) (s : State) : Window :=
  { s.window w with state := new, mark := if new = .quiet ∨ new = .alert then Mark.none else (s.window w).mark }

/-- The state in which a window has entered a state, before its report to the first-out tracker. -/
def enteredWindow (w : Nat) (c : WindowSettings) (new : WindowState) (cause : Cause) (s : State) : State :=
  { s with
    win := { s.win with
      windows := put s.win.windows w (enteredRecord w new s)
      silence := if new = .alert ∧ c.horn = true ∧ s.shelved w = false then false else s.win.silence
      chimeUntil := if new = .ringback ∧ c.chime = true ∧ s.shelved w = false then
        some (s.clock.elapsed + s.settings.live.general.chimeTime) else s.win.chimeUntil }
    jr := if c.journal = true ∧ s.shelved w = false then
        s.jr.request s.clock.hall (windowEntry w (s.window w).state new (enteredRecord w new s) cause s.clock.hall) else s.jr }

theorem windowEnters_enteredWindow (w : Nat) (c : WindowSettings) (new : WindowState) (cause : Cause) (s : State) :
    WindowEnters s w c new cause (enteredWindow w c new cause s) := ⟨_, rfl, rfl⟩

theorem enteredWindow_window {w : Nat} (small : w < 384) (c : WindowSettings) (new : WindowState) (cause : Cause) (s : State) :
    (enteredWindow w c new cause s).window w = enteredRecord w new s := look_put_same _ _ small

/-- Entering a state is the window's own part and then the report to the first-out tracker (R45). -/
theorem enterWindow_eq {w : Nat} (small : w < 384) (c : WindowSettings) (new : WindowState) (cause : Cause) (s : State) :
    enterWindow w c new cause s =
      match c.group with
      | none => enteredWindow w c new cause s
      | some g =>
        if new = .alert then judgeAlert g w (enteredWindow w c new cause s)
        else if new = .quiet then judgeQuiet g w (enteredWindow w c new cause s)
        else enteredWindow w c new cause s := by
  have own : (s.setWindow w (enteredRecord w new s)).window w = enteredRecord w new s := by rw [window_setWindow, if_pos ⟨rfl, small⟩]
  unfold enterWindow
  extract_lets old s1 s2 s3 s4
  have journalled : s2 = { s1 with jr := (enteredWindow w c new cause s).jr } := by
    have record : s1.window w = enteredRecord w new s := own
    have request : (c.journal && !s1.shelved w) = true ↔ c.journal = true ∧ s.shelved w = false := by
      rw [Bool.and_eq_true, Bool.not_eq_true']
      rfl
    simp only [s2, request, record, enteredWindow]
    split <;> rfl
  have silenced : s3 = { s2 with win := { s2.win with silence := (enteredWindow w c new cause s).win.silence } } := by
    have shelf : s2.shelved w = s.shelved w := by rw [journalled]; rfl
    have was : s2.win.silence = s.win.silence := by rw [journalled]; rfl
    simp only [s3, shelf, Bool.not_eq_true', enteredWindow]
    split
    · rfl
    · rw [← was]
  have chimed : s4 = { s3 with win := { s3.win with chimeUntil := (enteredWindow w c new cause s).win.chimeUntil } } := by
    have shelf : s3.shelved w = s.shelved w := by rw [silenced, journalled]; rfl
    have was : s3.win.chimeUntil = s.win.chimeUntil := by rw [silenced, journalled]; rfl
    have clock : s3.clock = s.clock := by rw [silenced, journalled]; rfl
    have settings : s3.settings = s.settings := by rw [silenced, journalled]; rfl
    simp only [s4, shelf, Bool.not_eq_true', enteredWindow]
    split
    · rw [startChime, clock, settings]
    · rw [← was]
  have whole : s4 = enteredWindow w c new cause s := by
    rw [chimed, silenced, journalled]
    rfl
  clear_value s4
  subst whole
  cases c.group <;> rfl

theorem offer_enters {s : State} {w : Nat} {c : WindowSettings} (set : s.winSet w = some c) {ev : WindowEvent} {new : WindowState}
    (moves : c.sequence.next (s.window w).state ev = some new) (cause : Cause) :
    (c.group = none → offer w ev cause s = enteredWindow w c new cause s) ∧
      ∀ g, c.group = some g →
        (new = .alert → offer w ev cause s = judgeAlert g w (enteredWindow w c new cause s)) ∧
        (new = .quiet → offer w ev cause s = judgeQuiet g w (enteredWindow w c new cause s)) ∧
        (new ≠ .alert → new ≠ .quiet → offer w ev cause s = enteredWindow w c new cause s) := by
  rw [offer_of_next_some set moves, enterWindow_eq (winSet_lt set)]
  refine ⟨fun none => by rw [none], fun g group => ?_⟩
  rw [group]
  refine ⟨fun alert => by simp only [alert, if_true], fun quiet => ?_, fun noAlert noQuiet => by simp only [noAlert, noQuiet, if_false]⟩
  subst quiet
  rfl

/-- An event moves a window to the state it is then in, if it was in another before. -/
theorem offer_moved {s : State} {w : Nat} {c : WindowSettings} (set : s.winSet w = some c) {ev : WindowEvent} {cause : Cause}
    {x : WindowState} (after : ((offer w ev cause s).window w).state = x) (before : (s.window w).state ≠ x) :
    c.sequence.next (s.window w).state ev = some x := by
  cases cell : c.sequence.next (s.window w).state ev with
  | none =>
    rw [offer_of_next_none set cell] at after
    exact absurd after before
  | some y =>
    rw [offer_of_next_some set cell, enterWindow_state (winSet_lt set)] at after
    rw [after]

theorem offer_quiet_mark {s : State} {w : Nat} {c : WindowSettings} (set : s.winSet w = some c) {ev : WindowEvent} {cause : Cause}
    (moves : c.sequence.next (s.window w).state ev = some .quiet) : ((offer w ev cause s).window w).mark = .none := by
  obtain ⟨alone, grouped⟩ := offer_enters set moves cause
  have mark : ((enteredWindow w c .quiet cause s).window w).mark = .none := by rw [enteredWindow_window (winSet_lt set)]; rfl
  cases group : c.group with
  | none => rw [alone group]; exact mark
  | some g => rw [(grouped g group).2.1 rfl, judgeQuiet_window]; exact mark

theorem offer_ringback {s : State} {w : Nat} {c : WindowSettings} (set : s.winSet w = some c) {ev : WindowEvent} {cause : Cause}
    (moves : c.sequence.next (s.window w).state ev = some .ringback) : offer w ev cause s = enteredWindow w c .ringback cause s := by
  obtain ⟨alone, grouped⟩ := offer_enters set moves cause
  cases group : c.group with
  | none => exact alone group
  | some g => exact (grouped g group).2.2 (by decide) (by decide)

/-- A window that takes an event of a source, by its input before and after (R39, R40). -/
theorem takeInput_cases {s : State} {w : Nat} {c : WindowSettings} (set : s.winSet w = some c) (time : HallTime) (standing : Bool)
    (cause : Cause) :
    ((s.window w).input = false → s.inputOf c = true → takeInput time standing cause s w = offer w .active cause
      (s.setWindow w { s.window w with input := true, doubt := s.doubtOf c, alarm := time, standing := standing })) ∧
    ((s.window w).input = true → s.inputOf c = false → takeInput time standing cause s w = offer w .clear cause
      (s.setWindow w { s.window w with input := false, doubt := s.doubtOf c })) ∧
    ((s.window w).input = s.inputOf c → takeInput time standing cause s w =
      s.setWindow w { s.window w with doubt := s.doubtOf c }) := by
  have own : ∀ x, (s.setWindow w x).window w = x := fun x => by rw [window_setWindow, if_pos ⟨rfl, winSet_lt set⟩]
  simp only [takeInput, set, putInput]
  refine ⟨fun low high => ?_, fun high low => ?_, fun same => ?_⟩
  · simp only [low, high, Bool.not_false, Bool.and_self, if_true, own, setWindow_setWindow]
  · simp only [low, high, Bool.not_true, Bool.not_false, Bool.and_self, Bool.false_eq_true, if_false, if_true]
  · have up : (!(s.window w).input && s.inputOf c) = false := by rw [← same]; cases (s.window w).input <;> rfl
    have down : ((s.window w).input && !s.inputOf c) = false := by rw [← same]; cases (s.window w).input <;> rfl
    simp only [up, down, Bool.false_eq_true, if_false]
    rw [← same]

theorem inputOf_iff (s : State) (c : WindowSettings) : s.inputOf c = true ↔ ∃ n ∈ c.sources, (s.pt n).facing = true := List.any_eq_true

theorem doubtOf_iff (s : State) (c : WindowSettings) : s.doubtOf c = true ↔ ∃ n ∈ c.sources, (s.pt n).doubtful = true := List.any_eq_true

/-- Settles O20: the cells of the three tables, the entry into a state, and an event of a source. -/
theorem sequencesMoveWindows : Obligations.SequencesMoveWindows := by
  intro s w c set
  refine ⟨fun q => ?_, fun q => ?_, fun q => ?_, fun ev cause after before => offer_quiet_mark set (offer_moved set after before),
    fun ev cause after before chime free => ?_, fun ev cause new moves => ⟨_, windowEnters_enteredWindow w c new cause s,
      offer_enters set moves cause⟩, fun time standing cause => ⟨s.inputOf c, s.doubtOf c, s.setWindow w, inputOf_iff s c, doubtOf_iff s c,
      fun _ => rfl, takeInput_cases set time standing cause⟩⟩
  · have row := fun {x} (state : (s.window w).state = x) => cellHolds_next set q state
    exact ⟨fun h => ⟨row h .active, row h .clear, row h .ack, row h .reset⟩, fun h => ⟨row h .active, row h .clear, row h .ack, row h .reset⟩,
      fun h => ⟨row h .active, row h .clear, row h .ack, row h .reset⟩, fun h => ⟨row h .active, row h .clear, row h .ack, row h .reset⟩,
      fun h => ⟨row h .active, row h .clear, row h .ack, row h .reset⟩⟩
  · have row := fun {x} (state : (s.window w).state = x) => cellHolds_next set q state
    exact ⟨fun h => ⟨row h .active, row h .clear, row h .ack, row h .reset⟩, fun h => ⟨row h .active, row h .clear, row h .ack, row h .reset⟩,
      fun h => ⟨row h .active, row h .clear, row h .ack, row h .reset⟩⟩
  · have row := fun {x} (state : (s.window w).state = x) => cellHolds_next set q state
    exact ⟨fun h => ⟨row h .active, row h .clear, row h .ack, row h .reset⟩, fun h => ⟨row h .active, row h .clear, row h .ack, row h .reset⟩,
      fun h => ⟨row h .active, row h .clear, row h .ack, row h .reset⟩, fun h => ⟨row h .active, row h .clear, row h .ack, row h .reset⟩,
      fun h => ⟨row h .active, row h .clear, row h .ack, row h .reset⟩⟩
  · rw [offer_ringback set (offer_moved set after before)]
    exact if_pos ⟨rfl, chime, free⟩

end Sys2Proof.Machine
end

section
/-! An order marked ALONE: what its checks turn away (R161), and that it is published with what its effect leaves. -/

namespace Sys2Proof.Machine

/-! ## Rising lists of numbers -/

theorem numbersWhere_rising {α : Type} {n : Nat} (v : Vector α n) (p : α → Bool) : (numbersWhere v p).Pairwise (· < ·) := by
  have key : ∀ (l : List α) (k : Nat),
      ((l.zipIdx k).filterMap fun x => if p x.1 then some x.2 else none).Sublist (List.range' k l.length) := by
    intro l
    induction l with
    | nil => exact fun _ => List.Sublist.refl _
    | cons a l ih =>
      intro k
      rw [List.zipIdx_cons, List.filterMap_cons, List.length_cons, List.range'_succ]
      split
      · exact (ih (k + 1)).cons k
      · next found =>
        dsimp only at found
        split at found
        · cases found
          exact (ih (k + 1)).cons_cons k
        · cases found
  exact List.Pairwise.sublist (key v.toList 0) List.pairwise_lt_range'

theorem configuredWhere_rising {α : Type} {n : Nat} (v : Vector (Option α) n) (p : α → Bool) :
    (configuredWhere v p).Pairwise (· < ·) := numbersWhere_rising v _

/-- The head of a rising list is its least member. -/
theorem head?_eq_of_least {l : List Nat} (rising : l.Pairwise (· < ·)) {a : Nat} (member : a ∈ l) (least : ∀ b, b < a → b ∉ l) :
    l.head? = some a := by
  cases l with
  | nil => cases member
  | cons b bs =>
    rcases List.mem_cons.1 member with rfl | behind
    · rfl
    · exact absurd List.mem_cons_self (least b (List.rel_of_pairwise_cons rising behind))

/-! ## The checks of an order -/

theorem selector_refused_iff (x : Selector) : x.refused ↔ x.inRange = false := by
  obtain ⟨kind, subject, listed⟩ := x
  unfold Selector.inRange
  match kind with
  | 0 =>
    simp only [Selector.refused, Bool.and_eq_false_iff, decide_eq_false_iff_not, List.all_eq_false, decide_eq_true_iff, not_lt,
      Nat.reduceLeDiff, OfNat.zero_ne_ofNat, zero_ne_one, true_and, false_and, false_or, or_false]
    rw [← or_assoc, show (subject = 0 ∨ 16 < subject) ↔ ¬ (1 ≤ subject ∧ subject ≤ 16) by omega]
  | 1 | 2 => simp [Selector.refused]
  | 3 => simp [Selector.refused, commonUnit, Nat.lt_iff_add_one_le]
  | 4 => simp [Selector.refused]
  | n + 5 => simp [Selector.refused]

theorem mode_ofCode_isNone (m : Nat) : (Mode.ofCode m).isNone = true ↔ 7 ≤ m := by
  rw [Option.isNone_iff_eq_none]
  exact List.getElem?_eq_none_iff

theorem scope_ofCode_isNone (x : Nat) : (Scope.ofCode x).isNone = true ↔ x ≠ 1 ∧ x ≠ 2 := by
  unfold Scope.ofCode
  split <;> simp_all

theorem namesSwitch_eq_false (s : State) (i : Nat) : s.namesSwitch i = false ↔ 48 ≤ i ∨ s.swSet i = none := by
  rw [State.namesSwitch, Bool.and_eq_false_iff, decide_eq_false_iff_not, not_lt, Option.isSome_eq_false_iff, Option.isNone_iff_eq_none]

theorem outOfRange_iff (s : State) (o : Order) : o.outOfRange s ↔ o.badParameters s = true := by
  cases o with
  | adopt => exact (scope_ofCode_isNone _).symm
  | setMode => simp only [Order.badParameters, Bool.or_eq_true, decide_eq_true_iff, mode_ofCode_isNone]
  | ackWindows x => rw [Order.badParameters, Bool.not_eq_true', ← selector_refused_iff]
  | resetWindows x => rw [Order.badParameters, Bool.not_eq_true', ← selector_refused_iff]
  | isolate | restore | tripManual | resetSwitch | testCircuit =>
    simp only [Order.badParameters, Bool.not_eq_true', namesSwitch_eq_false]
  | shelve w minutes =>
    simp only [Order.badParameters, Bool.not_eq_true', Bool.and_eq_false_iff, decide_eq_false_iff_not, Option.isSome_eq_false_iff, Option.isNone_iff_eq_none,
      not_and_or, not_le, not_lt, or_assoc]
  | forcePoint n v =>
    simp only [Order.badParameters, Bool.not_eq_true', Bool.and_eq_false_iff, decide_eq_false_iff_not, Option.isSome_eq_false_iff, Option.isNone_iff_eq_none,
      not_le, not_lt, or_assoc]
    rfl
  | setTime | unshelve | resetFirstOut | releasePoint | clearCounters => exact decide_eq_true_iff.symm
  | silence | clearFault | restart => exact ⟨False.elim, Bool.noConfusion⟩

theorem outOfRange_eq_false {s : State} {o : Order} (fits : ¬ o.outOfRange s) : o.badParameters s = false :=
  Bool.eq_false_iff.2 fun bad => fits ((outOfRange_iff s o).2 bad)

/-- The checks read nothing that taking a slot changes. -/
theorem refused_takeHead (k : Nat) (s : State) (o : Order) : o.refused (takeHead k s) = o.refused s := by
  cases o <;> rfl

/-! ## The run of an order -/

/-- An order that is neither ADOPT nor RESTART, which have meanings of their own. -/
def Order.plain : Order → Prop
  | .adopt _ | .restart => False
  | _ => True

section
variable {s : State} {k : Nat} {o : Order} (offered : Offered s k .alone o)
include offered

theorem code_of_plain (plain : o.plain) : orderCode s.port k ≠ 1 := by
  obtain ⟨_, _, _, _, _, _, held⟩ := offered
  exact orderCode_ne_one held fun c adopt => by rw [adopt] at plain; exact plain

theorem exec_of_offered (plain : o.plain) : exec o.command s = .next (runAlone k o s) := by
  have alone := nextAlone_of_offered offered
  cases o
  case adopt | restart => exact plain.elim
  all_goals
    simp only [exec, execSetTime, execSetMode, execAckWindows, execResetWindows, execSilence, execShelve, execUnshelve, execResetFirstOut,
      execForcePoint, execReleasePoint, execIsolate, execRestore, execResetSwitch, execTripManual, execTestCircuit, execClearCounters,
      execClearFault, alone]

/-- A refused order is published on the state with its slot taken. -/
theorem ordered_of_refused (plain : o.plain) {r : Result} {d : Nat} (refused : o.refused s = some (r, d)) : Ordered o.command k r d s s := by
  have runs := exec_of_offered offered plain
  have code := code_of_plain offered plain
  obtain ⟨slot, wf, _⟩ := offered
  rw [runAlone, refused_takeHead, refused] at runs
  exact ordered_of_publish slot wf code runs rfl

/-- An order that no check turns away is published on what its effect leaves. -/
theorem exec_of_accepted (plain : o.plain) (accepted : o.refused s = none) :
    exec o.command s =
      .next (finish (publish k .ok (applyOrder k (takeHead k s) o).2 (applyOrder k (takeHead k s) o).1)) := by
  rw [exec_of_offered offered plain, runAlone, refused_takeHead, accepted]

theorem ordered_of_accepted (plain : o.plain) (accepted : o.refused s = none) {t x : State} {d : Nat}
    (effect : applyOrder k (takeHead k s) o = (t, d))
    (left : t = { x with port := (takeHead k s).port, engine := (takeHead k s).engine }) : Ordered o.command k .ok d s x := by
  have runs := exec_of_accepted offered plain accepted
  have code := code_of_plain offered plain
  obtain ⟨slot, wf, _⟩ := offered
  rw [effect] at runs
  exact ordered_of_publish slot wf code runs left

end

/-- After the first FULL adoption an order inside its ranges waits only for its own steps. -/
theorem refused_of_fits {s : State} {o : Order} (adopted : s.settings.adopted = true) (fits : ¬ o.outOfRange s) :
    o.refused s = o.refusal s s := by
  simp only [Order.refused, tooEarly, adopted, Bool.not_true, Bool.false_and, Bool.false_eq_true, if_false, outOfRange_eq_false fits]

/-- Settles O22, by the two checks every order makes before its own steps. -/
theorem refusedParametersHaveNoEffect : Obligations.RefusedParametersHaveNoEffect := by
  refine fun s k o offered other => ⟨fun unready notRestart => ?_, fun adopted out => ?_⟩
  · have plain : o.plain := by
      cases o
      case adopt => exact other _ rfl
      case restart => exact notRestart rfl
      all_goals trivial
    have early : o.early = false := by
      cases o
      case adopt | restart => exact plain.elim
      all_goals rfl
    refine ordered_of_refused offered plain ?_
    simp only [Order.refused, tooEarly, unready, early, Bool.not_false, Bool.and_self, if_true]
  · have plain : o.plain := by
      cases o
      case adopt => exact other _ rfl
      case restart => exact out
      all_goals trivial
    refine ordered_of_refused offered plain ?_
    simp only [Order.refused, tooEarly, adopted, Bool.not_true, Bool.false_and, Bool.false_eq_true, if_false, (outOfRange_iff s o).1 out, if_true]

/-! ## The state-dependent steps of an order -/

theorem unsafeTerm_iff (s : State) (n t : Nat) : t ∈ unsafeTerms s n ↔ UnsafeTerm s n t := by
  simp only [unsafeTerms, mem_configuredWhere, State.termSet, UnsafeTerm, Bool.and_eq_true, List.contains_iff_mem, List.any_eq_true,
    Bool.not_eq_true']

theorem actingOn_iff (s : State) (i : Nat) : actingOn s i = true ↔ ActingOn s i := by
  simp only [actingOn, List.any_eq_true, mem_configuredWhere, List.contains_iff_mem, Term.acting, ActingOn, State.termSet]
  constructor
  · rintro ⟨t, ⟨c, set, out⟩, acting⟩
    exact ⟨t, c, set, out, by simpa using acting⟩
  · rintro ⟨t, c, set, out, acting⟩
    exact ⟨t, ⟨c, set, out⟩, by simpa using acting⟩

theorem actingOn_eq_false {s : State} {i : Nat} (still : ¬ ActingOn s i) : actingOn s i = false :=
  Bool.eq_false_iff.2 fun acting => still ((actingOn_iff s i).1 acting)

theorem forcedFeeds_iff (s : State) (i : Nat) : forcedFeeds s i = true ↔ ForcedFeeds s i := by
  simp only [forcedFeeds, Bool.not_eq_true', List.isEmpty_eq_false_iff_exists_mem, mem_configuredWhere, Bool.and_eq_true,
    List.contains_iff_mem, List.any_eq_true, ForcedFeeds, State.termSet, quality_forced_iff, Option.isSome_iff_ne_none]

theorem forcedFeeds_eq_false {s : State} {i : Nat} (free : ¬ ForcedFeeds s i) : forcedFeeds s i = false :=
  Bool.eq_false_iff.2 fun feeds => free ((forcedFeeds_iff s i).1 feeds)

theorem shelved_eq_false (s : State) (w : Nat) : s.shelved w = false ↔ ∀ e ∈ s.win.shelf, e.window ≠ w := by
  simp [State.shelved]

theorem testPending_iff (s : State) (i : Nat) :
    s.testPending i = true ↔ (s.swi i).testStart ≠ none ∨ ∃ e, s.entryOf i = some e ∧ e.kind = .test := by
  unfold State.testPending
  cases s.entryOf i <;> simp [Option.isSome_iff_ne_none]

theorem resetBusy_iff (x : SwitchState) :
    x.resetBusy = true ↔ x = .queued ∨ x = .pulsing ∨ x = .resetQueued ∨ x = .resetPulsing ∨ x = .settling := by
  cases x <;> simp [SwitchState.resetBusy]

theorem refusal_of_turnedAway {live s : State} {o : Order} {r : Result} {d : Nat} (away : o.turnedAway live s r d) :
    o.refusal live s = some (r, d) := by
  cases o with
  | forcePoint n v =>
    obtain ⟨rfl, first, least⟩ := away
    have head := head?_eq_of_least (configuredWhere_rising _ _) ((unsafeTerm_iff s n d).2 first)
      fun t below no => least t below ((unsafeTerm_iff s n t).1 no)
    rw [Order.refusal, unsafeTerms, head]
    rfl
  | shelve w minutes =>
    obtain ⟨rfl, c, set, ⟨rfl, no⟩ | ⟨rfl, may, absent, full⟩⟩ := away
    · simp only [Order.refusal, shelveRefusal, set, no, Bool.not_false, if_true]
    · simp only [Order.refusal, shelveRefusal, set, may, (shelved_eq_false s w).2 absent, full, Bool.not_true, Bool.not_false, Bool.false_eq_true,
        decide_true, Bool.and_self, if_true, if_false]
  | restore i =>
    obtain ⟨rfl, on, ⟨rfl, feeds⟩ | ⟨rfl, free, acting⟩⟩ := away
    · simp only [Order.refusal, on, (forcedFeeds_iff s i).2 feeds, Bool.not_true, Bool.false_eq_true, if_true, if_false]
    · simp only [Order.refusal, on, forcedFeeds_eq_false free, (actingOn_iff live i).2 acting, Bool.not_true, Bool.false_eq_true, if_true, if_false]
  | resetSwitch i =>
    obtain ⟨rfl, ⟨rfl, acting⟩ | ⟨rfl, still, busy⟩⟩ := away
    · simp only [Order.refusal, (actingOn_iff live i).2 acting, if_true]
    · simp only [Order.refusal, actingOn_eq_false still, (resetBusy_iff _).2 busy, Bool.false_eq_true, if_true, if_false]
  | testCircuit i =>
    obtain ⟨rfl, c, set, ⟨rfl, none⟩ | ⟨rfl, circuit, idle, other, taken⟩⟩ := away
    · simp only [Order.refusal, set, Option.bind_some, none, Option.isNone_none, if_true]
    · have waiting : s.testPending i = false := Bool.eq_false_iff.2 fun pending =>
        ((testPending_iff s i).1 pending).elim (fun on => on idle) fun ⟨e, here, kind⟩ => other e here kind
      have closed : s.testTaken i = false := by
        simp only [State.testTaken, Bool.and_eq_false_iff]
        rcases taken with busy | entry
        · exact Or.inl (Or.inl (by simpa using busy))
        · exact Or.inl (Or.inr (Option.isNone_eq_false_iff.2 (Option.isSome_iff_ne_none.2 entry)))
      have some : (c.supervision).isNone = false := by simpa [Option.isNone_eq_false_iff, Option.isSome_iff_ne_none] using circuit
      simp only [Order.refusal, set, Option.bind_some, some, waiting, closed, Bool.or_self, Bool.false_eq_true, if_false]
  | _ => exact away.elim

/-- Settles O23, by the refusal of each order. -/
theorem stateRefusalsHaveNoEffect : Obligations.StateRefusalsHaveNoEffect := by
  intro s k o r d offered adopted fits away
  have plain : o.plain := by
    cases o
    case adopt | restart => exact away
    all_goals trivial
  exact ordered_of_refused offered plain ((refused_of_fits adopted fits).trans (refusal_of_turnedAway away))

/-! ## BAD-ORDER -/

/-- What is answered is the same whether the slot stands at the head of the list or has been taken. -/
theorem answered_of_taken {k d : Nat} {r : Result} {done : HallTime} {s t u : State} (slot : k < 32) (port : t.port = (takeHead k s).port)
    (answered : Answered k r d done t u) : Answered k r d done s u := by
  obtain ⟨done', others, code, detail, time, mem, whole⟩ := answered
  refine ⟨done', fun j apart => ?_, code, detail, time, fun a outside => ?_, ?_⟩
  · rw [others j apart, State.holder, port]
    exact (takeHead_holder k s slot j).trans (if_neg apart)
  · rw [mem a outside, port, takeHead_mem]
  · rw [whole, port]
    rfl

theorem published_of_taken {k : Nat} {s t : State} (slot : k < 32) (wf : s.memoryLaw) (port : t.port = (takeHead k s).port)
    (engine : t.engine = (takeHead k s).engine) (r : Result) (d : Nat) : Published k r d s (publish k r d t) := by
  have wf' : t.memoryLaw := by rw [State.memoryLaw, port]; exact wf
  refine ⟨answered_of_taken slot port (publish_clock k r d t ▸ answered_publish slot wf' r d), ?_⟩
  rw [publish_engine, engine]
  rfl

theorem orderIn_eq_none {p : Port} {k : Nat} (undefined : orderCode p k = 0 ∨ 0x13 < orderCode p k) : orderIn p k = none := by
  unfold orderIn
  split
  case h_20 => rfl
  all_goals omega

theorem chainMark_eq_none {p : Port} {k : Nat} (undefined : 3 < (Memory.read p.mem (slotAddress k 2 + 1)).toNat) : chainMark p k = none := by
  unfold chainMark ChainMark.ofCode
  split
  case h_5 => rfl
  all_goals omega

/-- Settles O24: the slot is taken and published, and only an ADOPT's code changes the last adoption outcome. -/
theorem undefinedOrdersPublished : Obligations.UndefinedOrdersPublished := by
  intro s k slot wf running free head undefined
  have next : s.nextSlot = some k := (nextSlot_of_free running free).trans head
  have bad : ((orderIn s.port k).isNone || (chainMark s.port k).isNone) = true := by
    rcases undefined with code | code | mark
    · rw [orderIn_eq_none (Or.inl code)]; rfl
    · rw [orderIn_eq_none (Or.inr code)]; rfl
    · rw [chainMark_eq_none mark, Option.isNone_none, Bool.or_true]
  refine ⟨publish k .badOrder 0 (takeHead k s), ?_, published_of_taken slot wf rfl rfl .badOrder 0, fun other => ?_, ?_⟩
  · change execBadOrder s = _
    simp only [execBadOrder, next, bad, if_true]
  · rw [publish_of_not_adopt (s := takeHead k s) other]
    rfl
  · unfold publish recordAdoption
    split <;> rfl

end Sys2Proof.Machine
end

section
/-! Orders about windows (R48 to R55, R70): events offered to many windows, the shelf list, and first-out groups. -/

namespace Sys2Proof.Machine

/-! ## An event offered to windows in turn -/

theorem WinStep.frame {s t : State} (h : WinStep s t) : t = { s with win := t.win, jr := t.jr } := by
  rw [← h.clock, ← h.pts, ← h.field, ← h.panel, ← h.term, ← h.sw, ← h.sup, ← h.port, ← h.engine, ← h.settings, ← h.monitor, ← h.free,
    ← h.pending]

theorem enteredWindow_other {w v : Nat} (apart : v ≠ w) (c : WindowSettings) (new : WindowState) (cause : Cause) (s : State) :
    (enteredWindow w c new cause s).window v = s.window v :=
  (window_setWindow s w v _).trans (if_neg fun same => apart same.1.symm)

theorem offer_state_other {w v : Nat} (apart : v ≠ w) (ev : WindowEvent) (cause : Cause) (s : State) :
    ((offer w ev cause s).window v).state = (s.window v).state := by
  unfold offer
  split
  · rfl
  · next c set =>
    split
    · rfl
    · next new _ =>
      have entered : ((enteredWindow w c new cause s).window v).state = (s.window v).state := by rw [enteredWindow_other apart]
      rw [enterWindow_eq (winSet_lt set)]
      split
      · exact entered
      · exact Eq.trans (ite_rel (judgeAlert_states _ _ _) (ite_rel (judgeQuiet_states _ _ _) (SameStates.refl _)) v) entered

theorem foldl_offer_winSet (ev : WindowEvent) (cause : Cause) (ws : List Nat) (s : State) (v : Nat) :
    (ws.foldl (fun z w => offer w ev cause z) s).winSet v = s.winSet v := by
  induction ws generalizing s with
  | nil => rfl
  | cons w ws ih => rw [List.foldl_cons, ih, offer_winSet]

theorem foldl_offer_state_other {ev : WindowEvent} {cause : Cause} {ws : List Nat} {v : Nat} (absent : v ∉ ws) (s : State) :
    ((ws.foldl (fun z w => offer w ev cause z) s).window v).state = (s.window v).state := by
  induction ws generalizing s with
  | nil => rfl
  | cons w ws ih =>
    rw [List.foldl_cons, ih fun behind => absent (List.mem_cons_of_mem w behind),
      offer_state_other (List.ne_of_not_mem_cons absent)]

/-- ACK and RESET leave a window in a state that has no transition for the same event (R44). -/
theorem next_after_of_operator {ev : WindowEvent} (operator : ev = .ack ∨ ev = .reset) (q : Sequence) (x : WindowState) :
    q.next (q.after x ev) ev = none := by
  rcases operator with rfl | rfl
  · exact q.next_after_ack x
  · exact q.next_after_reset x

theorem after_after_of_operator {ev : WindowEvent} (operator : ev = .ack ∨ ev = .reset) (q : Sequence) (x : WindowState) :
    q.after (q.after x ev) ev = q.after x ev := by
  rw [Sequence.after, next_after_of_operator operator, Option.getD_none]

theorem next_ne_of_operator {ev : WindowEvent} (operator : ev = .ack ∨ ev = .reset) {q : Sequence} {x y : WindowState}
    (moves : q.next x ev = some y) : y ≠ x := by
  rintro rfl
  have after : q.after y ev = y := by rw [Sequence.after, moves, Option.getD_some]
  have stays := next_after_of_operator operator q y
  rw [after, moves] at stays
  cases stays

section
variable {ev : WindowEvent} (operator : ev = .ack ∨ ev = .reset) (cause : Cause)
include operator

/-- A window offered the event once is in the state its table gives; later offers find no transition. -/
theorem foldl_offer_state {ws : List Nat} {w : Nat} {c : WindowSettings} (offered : w ∈ ws) (s : State) (set : s.winSet w = some c) :
    ((ws.foldl (fun z w => offer w ev cause z) s).window w).state = c.sequence.after (s.window w).state ev := by
  induction ws generalizing s with
  | nil => cases offered
  | cons v ws ih =>
    have set' : (offer v ev cause s).winSet w = some c := (offer_winSet ..).trans set
    rw [List.foldl_cons]
    by_cases later : w ∈ ws
    · rw [ih later _ set']
      by_cases same : w = v
      · subst same
        rw [offer_state set, after_after_of_operator operator]
      · rw [offer_state_other same]
    · obtain rfl : w = v := (List.mem_cons.1 offered).resolve_right later
      rw [foldl_offer_state_other later, offer_state set]

end

theorem offerAll_fst (ev : WindowEvent) (cause : Cause) (ws : List Nat) (s : State) :
    (offerAll ev cause ws s).1 = ws.foldl (fun z w => offer w ev cause z) s := by
  induction ws generalizing s with
  | nil => rfl
  | cons w ws ih => rw [offerAll, List.foldl_cons, ih]

theorem offerMoves_iff (w : Nat) (ev : WindowEvent) (s : State) :
    offerMoves w ev s = true ↔ ∃ c new, s.winSet w = some c ∧ c.sequence.next (s.window w).state ev = some new := by
  unfold offerMoves
  cases s.winSet w with
  | none => simp
  | some c => simp [Option.isSome_iff_exists]

/-- The windows in another state than before. -/
def windowsMoved (s t : State) : List Nat := (List.range 384).filter fun w => (t.window w).state != (s.window w).state

theorem length_filter_insert {l : List Nat} (once : l.Nodup) {a : Nat} (member : a ∈ l) {p q : Nat → Bool} (fresh : p a = false)
    (grown : ∀ b, q b = true ↔ b = a ∨ p b = true) : (l.filter q).length = (l.filter p).length + 1 := by
  have same : (l.filter q).Perm (a :: l.filter p) := by
    refine (List.perm_ext_iff_of_nodup (once.filter q) (List.nodup_cons.2 ⟨?_, once.filter p⟩)).2 fun b => ?_
    · simp [fresh]
    · rw [List.mem_filter, List.mem_cons, List.mem_filter, grown]
      constructor
      · rintro ⟨inside, rfl | old⟩
        · exact Or.inl rfl
        · exact Or.inr ⟨inside, old⟩
      · rintro (rfl | ⟨inside, old⟩)
        · exact ⟨member, Or.inl rfl⟩
        · exact ⟨inside, Or.inr old⟩
  exact same.length_eq

/-- The count of an offer to many windows is the number of windows whose state changed: a window moves at most once. -/
theorem offerAll_snd {ev : WindowEvent} (operator : ev = .ack ∨ ev = .reset) (cause : Cause) (ws : List Nat) (s : State) :
    (offerAll ev cause ws s).2 = (windowsMoved s (offerAll ev cause ws s).1).length := by
  induction ws generalizing s with
  | nil => simp [offerAll, windowsMoved]
  | cons w ws ih =>
    have count := ih (offer w ev cause s)
    rw [offerAll]
    simp only [count]
    cases moves : offerMoves w ev s with
    | false =>
      have stays : offer w ev cause s = s := by
        unfold offerMoves at moves
        unfold offer
        split
        · rfl
        · next set =>
          simp only [set, Option.isSome_eq_false_iff, Option.isNone_iff_eq_none] at moves
          rw [moves]
      rw [stays]
      rfl
    | true =>
      obtain ⟨c, new, set, next⟩ := (offerMoves_iff w ev s).1 moves
      have first : ((offer w ev cause s).window w).state = c.sequence.after (s.window w).state ev := offer_state set ev cause
      have moved : c.sequence.after (s.window w).state ev ≠ (s.window w).state := by
        rw [Sequence.after, next, Option.getD_some]
        exact next_ne_of_operator operator next
      have kept : ((offerAll ev cause ws (offer w ev cause s)).1.window w).state = c.sequence.after (s.window w).state ev := by
        rw [offerAll_fst]
        by_cases later : w ∈ ws
        · rw [foldl_offer_state operator cause later _ ((offer_winSet ..).trans set), first, after_after_of_operator operator]
        · rw [foldl_offer_state_other later, first]
      refine (length_filter_insert List.nodup_range (List.mem_range.2 (winSet_lt set)) ?_ fun v => ?_).symm
      · rw [kept, first, bne_self_eq_false]
      · by_cases same : v = w
        · subst same
          simp only [true_or, iff_true, kept]
          exact bne_iff_ne.2 moved
        · rw [offer_state_other same]
          simp only [same, false_or]

/-! ## The windows a selector chooses -/

theorem flatMap_replicate_rising (f : Nat → Nat) (n : Nat) :
    ((List.range n).flatMap fun w => List.replicate (f w) w).Pairwise (· ≤ ·) ∧
      ∀ w, ((List.range n).flatMap fun w => List.replicate (f w) w).count w = if w < n then f w else 0 := by
  induction n with
  | zero => exact ⟨List.Pairwise.nil, fun w => rfl⟩
  | succ n ih =>
    obtain ⟨rising, count⟩ := ih
    rw [List.range_succ, List.flatMap_append, List.flatMap_singleton]
    refine ⟨List.pairwise_append.2 ⟨rising, List.pairwise_replicate.2 (Or.inr le_rfl), fun a inside b last => ?_⟩, fun w => ?_⟩
    · obtain ⟨v, below, here⟩ := List.mem_flatMap.1 inside
      rw [(List.mem_replicate.1 here).2, (List.mem_replicate.1 last).2]
      exact (List.mem_range.1 below).le
    · rw [List.count_append, count, List.count_replicate]
      rcases Nat.lt_trichotomy w n with below | rfl | above
      · simp [below, Nat.lt_succ_of_lt below, below.ne']
      · simp
      · simp [above.ne, Nat.not_lt.2 above.le, Nat.not_lt.2 (Nat.succ_le_of_lt above)]

theorem count_configuredWhere {α : Type} {n : Nat} (v : Vector (Option α) n) (p : α → Bool) (i : Nat) :
    (configuredWhere v p).count i = match look v i with
      | none => 0
      | some c => if p c = true then 1 else 0 := by
  have once : (configuredWhere v p).Nodup := (configuredWhere_rising v p).imp Nat.ne_of_lt
  rw [once.count]
  cases set : look v i with
  | none =>
    refine if_neg fun inside => ?_
    obtain ⟨c, here, _⟩ := (mem_configuredWhere v p i).1 inside
    rw [set] at here
    cases here
  | some c =>
    refine if_congr ?_ rfl rfl
    rw [mem_configuredWhere, set]
    exact ⟨fun ⟨d, same, yes⟩ => Option.some.inj same ▸ yes, fun yes => ⟨c, rfl, yes⟩⟩

theorem selected_spec (s : State) (x : Selector) (fits : ¬ x.refused) :
    (s.selected x.kind x.subject x.listed).Pairwise (· ≤ ·) ∧
      ∀ w, (s.selected x.kind x.subject x.listed).count w =
        match x.kind, s.winSet w with
        | 0, _ => if w < 384 then x.listed.count w else 0
        | _, none => 0
        | 1, some c => if c.group = some x.subject then 1 else 0
        | 2, some c => if (c.place.map fun q => q.1) = some x.subject then 1 else 0
        | 3, some c => if c.unit = x.subject then 1 else 0
        | _, some _ => 1 := by
  obtain ⟨kind, subject, listed⟩ := x
  have rising : ∀ p, (configuredWhere s.settings.live.windows p).Pairwise (· ≤ ·) := fun p =>
    (configuredWhere_rising _ p).imp Nat.le_of_lt
  have chosen := fun p w => count_configuredWhere s.settings.live.windows p w
  match kind with
  | 0 => exact flatMap_replicate_rising _ 384
  | 1 =>
    refine ⟨rising _, fun w => (chosen _ w).trans ?_⟩
    cases set : s.winSet w <;> rw [State.winSet] at set <;> simp [set]
  | 2 =>
    refine ⟨rising _, fun w => (chosen _ w).trans ?_⟩
    cases set : s.winSet w <;> rw [State.winSet] at set
    · simp [set]
    · next c => cases place : c.place <;> simp [set, place]
  | 3 =>
    refine ⟨rising _, fun w => (chosen _ w).trans ?_⟩
    cases set : s.winSet w <;> rw [State.winSet] at set <;> simp [set]
  | 4 =>
    refine ⟨rising _, fun w => (chosen _ w).trans ?_⟩
    cases set : s.winSet w <;> rw [State.winSet] at set <;> simp [set]
  | n + 5 => exact absurd (Or.inl (Nat.le_add_left 5 n)) fits

/-- The windows a selector chooses, offered an operator's event, as the statement of R48 has it. -/
theorem selectedOffered {s : State} {k : Nat} {x : Selector} {o : Order} {ev : WindowEvent} (operator : ev = .ack ∨ ev = .reset)
    (offered : Offered s k .alone o) (plain : o.plain) (accepted : o.refused s = none) (fits : ¬ x.refused)
    (effect : applyOrder k (takeHead k s) o = offerAll ev (.order k) (s.selected x.kind x.subject x.listed) (takeHead k s)) :
    ∃ (chosen : List Nat) (y : State), chosen.Pairwise (· ≤ ·) ∧
      (∀ w, chosen.count w =
        match x.kind, s.winSet w with
        | 0, _ => if w < 384 then x.listed.count w else 0
        | _, none => 0
        | 1, some c => if c.group = some x.subject then 1 else 0
        | 2, some c => if (c.place.map fun q => q.1) = some x.subject then 1 else 0
        | 3, some c => if c.unit = x.subject then 1 else 0
        | _, some _ => 1) ∧
      y = chosen.foldl (fun z w => offer w ev (.order k) z) (takeHead k s) ∧
      (∀ w, w ∉ chosen → (y.window w).state = (s.window w).state) ∧
      (∀ w c, w ∈ chosen → s.winSet w = some c →
        (y.window w).state = (c.sequence.next (s.window w).state ev).getD (s.window w).state) ∧
      Ordered o.command k .ok ((List.range 384).filter fun w => (y.window w).state != (s.window w).state).length s y ∧
      ∃ j, y = { takeHead k s with win := y.win, jr := j } := by
  obtain ⟨rising, count⟩ := selected_spec s x fits
  have whole := offerAll_winStep ev (.order k) (s.selected x.kind x.subject x.listed) (takeHead k s)
  have moved := offerAll_snd operator (.order k) (s.selected x.kind x.subject x.listed) (takeHead k s)
  rw [offerAll_fst] at whole moved
  refine ⟨s.selected x.kind x.subject x.listed, _, rising, count, rfl, fun w absent => foldl_offer_state_other absent (takeHead k s),
    fun w c inside set => foldl_offer_state operator _ inside (takeHead k s) set, ?_, ⟨_, whole.frame⟩⟩
  refine ordered_of_accepted offered plain accepted (effect.trans (Prod.ext (offerAll_fst ..) moved)) ?_
  rw [← whole.port, ← whole.engine]

/-- Settles O26, by the two orders, which differ in the event alone. -/
theorem selectorsOfferWindows : Obligations.SelectorsOfferWindows := by
  rintro s k x c o ev (⟨rfl, rfl, rfl⟩ | ⟨rfl, rfl, rfl⟩) offered adopted fits
  · exact selectedOffered (Or.inl rfl) offered trivial (refused_of_fits adopted fits) fits rfl
  · exact selectedOffered (Or.inr rfl) offered trivial (refused_of_fits adopted fits) fits rfl

/-- Settles O27. -/
theorem silenceSetsSilence : Obligations.SilenceSetsSilence := fun _ _ offered adopted =>
  ordered_of_accepted offered trivial (refused_of_fits adopted id) rfl rfl

/-! ## The shelf list (R52, R53) -/

theorem insertShelf_split (e : ShelfEntry) (l : List ShelfEntry) : ∃ before behind,
    before ++ behind = l ∧ (∀ x ∈ before, x.expiry ≤ e.expiry) ∧ (∀ x ∈ behind.head?, e.expiry < x.expiry) ∧
      insertShelf e l = before ++ e :: behind := by
  induction l with
  | nil => exact ⟨[], [], rfl, fun _ no => (by cases no), fun _ no => (by cases no), rfl⟩
  | cons x l ih =>
    rw [insertShelf]
    split
    · next first =>
      exact ⟨[], x :: l, rfl, fun _ no => (by cases no), fun y here => by cases here; exact first, rfl⟩
    · next later =>
      obtain ⟨before, behind, whole, low, high, eq⟩ := ih
      refine ⟨x :: before, behind, by rw [List.cons_append, whole], fun y inside => ?_, high, by rw [eq, List.cons_append]⟩
      rcases List.mem_cons.1 inside with rfl | inside
      · exact Nat.not_lt.1 later
      · exact low y inside

theorem shelved_iff (s : State) (w : Nat) : s.shelved w = true ↔ ∃ e ∈ s.win.shelf, e.window = w := by
  simp [State.shelved]

/-- Settles O28: the new entry split off where `insertShelf` puts it. -/
theorem shelvingListsWindow : Obligations.ShelvingListsWindow := by
  intro s k w minutes c offered adopted set shelvable least most room
  let e : ShelfEntry := { window := w, expiry := s.clock.elapsed + 60000 * minutes, began := s.clock.hall, minutes := minutes }
  obtain ⟨before, behind, whole, low, high, listed⟩ := insertShelf_split e (s.win.shelf.filter fun x => x.window != w)
  have small := winSet_lt set
  have accepted : Order.refused s (.shelve w minutes) = none := by
    rw [refused_of_fits adopted (by rw [Order.outOfRange, set]; simp; omega)]
    have space : (!s.shelved w && decide (64 ≤ s.win.shelf.length)) = false := by
      rw [Bool.and_eq_false_iff, Bool.not_eq_false', decide_eq_false_iff_not, Nat.not_le, shelved_iff]
      exact room
    simp only [Order.refusal, shelveRefusal, set, shelvable, space, Bool.not_true, Bool.false_eq_true, if_false]
  refine ⟨e, before, behind, if s.shelved w then .reshelved else .shelved, rfl, whole, low, high, fun old => if_pos ((shelved_iff s w).2 old),
    fun fresh => ?_, ordered_of_accepted offered trivial accepted rfl ?_⟩
  · rw [(shelved_eq_false s w).2 fresh]
    rfl
  · rw [← listed]
    rfl

/-- A window with horn in ALERT: its alarm may sound again when it leaves the shelf list (R50, R53). -/
def State.soundsAgain (s : State) (w : Nat) : Prop := (∃ c, s.winSet w = some c ∧ c.horn = true) ∧ (s.window w).state = .alert

theorem endShelving_eq (w : Nat) (mark : ShelfMark) (s : State) : ∃ silence : Bool,
    (s.soundsAgain w → silence = false) ∧ (¬ s.soundsAgain w → silence = s.win.silence) ∧
      endShelving w mark s = { s with
        win := { s.win with shelf := s.win.shelf.filter (fun x => x.window != w), silence := silence }
        jr := s.jr.request s.clock.hall (unshelvedEntry w mark (s.window w) s.clock.hall) } := by
  unfold endShelving
  extract_lets t
  have set : t.winSet w = s.winSet w := rfl
  rw [set]
  split
  · next c here =>
    split
    · next loud =>
      exact ⟨false, fun _ => rfl, fun quiet => absurd ⟨⟨c, here, (Bool.and_eq_true_iff.1 loud).1⟩,
        beq_iff_eq.1 (Bool.and_eq_true_iff.1 loud).2⟩ quiet, rfl⟩
    · next silent =>
      refine ⟨s.win.silence, fun ⟨⟨d, same, horn⟩, alert⟩ => absurd ?_ silent, fun _ => rfl, rfl⟩
      rw [here] at same
      cases same
      rw [horn, show (t.window w).state = .alert from alert]
      rfl
  · next none =>
    exact ⟨s.win.silence, fun ⟨⟨d, same, _⟩, _⟩ => absurd same (by rw [none]; nofun), fun _ => rfl, rfl⟩

/-- Settles O29: the entry of the window leaves the list and its alarm may sound again (R50). -/
theorem unshelvingEndsShelving : Obligations.UnshelvingEndsShelving := by
  intro s k w offered adopted small
  have accepted : Order.refused s (.unshelve w) = none := refused_of_fits adopted (Nat.not_le.2 small)
  refine ⟨fun fresh => ?_, fun listed => ?_⟩
  · refine ordered_of_accepted offered trivial accepted (t := takeHead k s) ?_ rfl
    have absent : (takeHead k s).shelved w = false := (shelved_eq_false s w).2 fresh
    simp only [applyOrder, unshelveWindow, absent, Bool.false_eq_true, if_false]
  · obtain ⟨silence, sounds, quiet, ended⟩ := endShelving_eq w .unshelved (takeHead k s)
    have present : (takeHead k s).shelved w = true := (shelved_iff s w).2 listed
    refine ⟨silence, sounds, quiet, ordered_of_accepted offered trivial accepted ?_ rfl⟩
    simp only [applyOrder, unshelveWindow, present, if_true, ended]
    rfl

/-! ## First-out groups (R70) -/

theorem setMarks_frame (m : Mark) (ws : List Nat) (s : State) :
    ws.foldl (fun s v => setMark v m s) s =
      { s with win := { s.win with windows := (ws.foldl (fun s v => setMark v m s) s).win.windows } } := by
  induction ws generalizing s with
  | nil => rfl
  | cons w ws ih =>
    rw [List.foldl_cons, ih]
    rfl

theorem setMarks_win_congr (m : Mark) (ws : List Nat) {s t : State} (same : t.win = s.win) :
    (ws.foldl (fun s v => setMark v m s) t).win = (ws.foldl (fun s v => setMark v m s) s).win := by
  induction ws generalizing s t with
  | nil => exact same
  | cons w ws ih =>
    refine ih ?_
    simp only [setMark, State.setWindow, State.window, same]

/-- RESET-FIRST-OUT reads and changes windows and groups alone. -/
theorem clearGroup_win_congr (g : Nat) {s t : State} (settings : t.settings = s.settings) (same : t.win = s.win) :
    (clearGroup g t).win = (clearGroup g s).win := by
  have members : t.members g = s.members g := by simp only [State.members, settings]
  simp only [clearGroup, State.setGroup, members, setMarks_win_congr .none (s.members g) same]

/-- What RESET-FIRST-OUT leaves of a group and of its windows. -/
theorem clearGroup_spec (g : Nat) (s : State) :
    clearGroup g s =
        { s with win := { s.win with windows := (clearGroup g s).win.windows, groups := put s.win.groups g .clear } } ∧
      (∀ h, (clearGroup g s).group h = if g = h ∧ h < 32 then .clear else s.group h) ∧
      (∀ w, w ∈ s.members g → (clearGroup g s).window w = { s.window w with mark := .none }) ∧
      ∀ w, w ∉ s.members g → (clearGroup g s).window w = s.window w := by
  have frame := setMarks_frame .none (s.members g) s
  obtain ⟨groups, _, others⟩ := setMarks_same .none (s.members g) s
  unfold clearGroup
  refine ⟨?_, fun h => ?_, fun w member => ?_, fun w outside => others w outside⟩
  · rw [frame]
    rfl
  · rw [group_setGroup, groups]
  · refine (setMarks_window .none (s.members g) s w (members_lt member)).trans ?_
    rw [if_pos member]

/-- The members of a group in rising number are the configured windows of it among all. -/
theorem filter_range_eq {l : List Nat} {n : Nat} (rising : l.Pairwise (· < ·)) (below : ∀ w ∈ l, w < n) (p q : Nat → Bool)
    (same : ∀ w, w < n → (q w = true ↔ w ∈ l ∧ p w = true)) : ((List.range n).filter q).length = (l.filter p).length := by
  refine List.Perm.length_eq ((List.perm_ext_iff_of_nodup (List.nodup_range.filter q)
    ((rising.imp Nat.ne_of_lt).filter p)).2 fun w => ?_)
  rw [List.mem_filter, List.mem_filter, List.mem_range]
  exact ⟨fun ⟨small, yes⟩ => (same w small).1 yes, fun ⟨inside, yes⟩ => ⟨below w inside, (same w (below w inside)).2 ⟨inside, yes⟩⟩⟩

/-- Settles O30: the marks taken away are those of the group's members that had one. -/
theorem firstOutGroupCleared : Obligations.FirstOutGroupCleared := by
  intro s k g offered adopted small
  obtain ⟨frame, groups, members, others⟩ := clearGroup_spec g s
  refine ⟨clearGroup g s, frame, (groups g).trans (if_pos ⟨rfl, small⟩), fun h apart => (groups h).trans (if_neg fun same => apart same.1.symm),
    members, others, ?_⟩
  refine ordered_of_accepted offered trivial (refused_of_fits adopted (Nat.not_le.2 small)) (t := clearGroup g (takeHead k s))
    (Prod.ext rfl ?_) ?_
  · refine (filter_range_eq (configuredWhere_rising _ _) (fun w member => members_lt member) _ _ fun w _ => ?_).symm
    rw [bne_iff_ne, bne_iff_ne]
    by_cases member : w ∈ s.members g
    · rw [members w member]
      exact ⟨fun marked => ⟨member, marked⟩, fun marked => marked.2⟩
    · rw [others w member]
      exact ⟨fun marked => absurd rfl marked, fun marked => absurd marked.1 member⟩
  · rw [(clearGroup_spec g (takeHead k s)).1, clearGroup_win_congr g (t := takeHead k s) (s := s) rfl rfl, frame]
    rfl

end Sys2Proof.Machine
end

section
/-! SET-MODE (R83, R84): what a change of its unit's mode does to each term. -/

namespace Sys2Proof.Machine

/-! ## A term entered -/

/-- The modes and every other term stay. -/
structure TermAlone (t : Nat) (s z : State) : Prop where
  modes : z.term.modes = s.term.modes
  others : ∀ v, v ≠ t → z.trm v = s.trm v

theorem TermAlone.refl (t : Nat) (s : State) : TermAlone t s s := ⟨rfl, fun _ _ => rfl⟩

theorem TermAlone.trans {t : Nat} {s z u : State} (a : TermAlone t s z) (b : TermAlone t z u) : TermAlone t s u :=
  ⟨b.modes.trans a.modes, fun v apart => (b.others v apart).trans (a.others v apart)⟩

theorem termAlone_of_term {t : Nat} {s z : State} (same : z.term = s.term) : TermAlone t s z :=
  ⟨by rw [same], fun v _ => by simp only [State.trm, same]⟩

theorem setTrm_alone (t : Nat) (x : Term) (s : State) : TermAlone t s (s.setTrm t x) :=
  ⟨rfl, fun v apart => (trm_setTrm s t v x).trans (if_neg fun same => apart same.1.symm)⟩

theorem becomeActive_alone (t : Nat) (c : TermSettings) (start : HallTime) (s : State) : TermAlone t s (becomeActive t c start s) :=
  (setTrm_alone t _ s).trans ((setTrm_alone t _ _).trans (termAlone_of_term rfl))

theorem requestTrips_term (src : Source) (is : List Nat) (s : State) :
    (is.foldl (fun s i => requestTrip src i s) s).term = s.term :=
  (foldl_rel CoilStep.refl CoilStep.trans _ (fun s i => requestTrip_coil src i s) is s).term

theorem enterActive_term (t : Nat) (c : TermSettings) (start : HallTime) (s : State) :
    (enterActive t c start s).term = (becomeActive t c start s).term := requestTrips_term ..

theorem enterActive_alone (t : Nat) (c : TermSettings) (start : HallTime) (s : State) : TermAlone t s (enterActive t c start s) :=
  (becomeActive_alone t c start s).trans (termAlone_of_term (enterActive_term t c start s))

theorem enterTiming_alone (t : Nat) (c : TermSettings) (s : State) : TermAlone t s (enterTiming t c s) :=
  ite_rel (enterActive_alone t c _ s) ((setTrm_alone t _ s).trans (setTrm_alone t _ _))

theorem enterIdle_alone (t : Nat) (c : TermSettings) (s : State) : TermAlone t s (enterIdle t c s) :=
  (setTrm_alone t _ s).trans (ite_rel (enterTiming_alone t c _) (TermAlone.refl t _))

theorem takeMode_alone (s : State) (t : Nat) : TermAlone t s (takeMode s t) := by
  unfold takeMode
  split
  · exact TermAlone.refl t s
  · refine ite_rel (ite_rel (enterIdle_alone ..) (TermAlone.refl t s)) ?_
    split
    · exact setTrm_alone ..
    · exact (setTrm_alone t _ s).trans (termAlone_of_term rfl)
    · exact (setTrm_alone t _ s).trans (termAlone_of_term rfl)
    all_goals exact TermAlone.refl t s

section
variable {t : Nat} (small : t < 128) (c : TermSettings)
include small

theorem trm_setTrm_same (s : State) (x : Term) : (s.setTrm t x).trm t = x := (trm_setTrm s t t x).trans (if_pos ⟨rfl, small⟩)

theorem enterActive_state (start : HallTime) (s : State) : ((enterActive t c start s).trm t).state = .active := by
  rw [State.trm, enterActive_term]
  show (((setTermState t .active s).setTrm t _).trm t).state = _
  rw [trm_setTrm_same small]
  exact trm_setTermState t .active s small

theorem enterTiming_state (s : State) : ((enterTiming t c s).trm t).state = if c.delay = 0 then .active else .timing := by
  unfold enterTiming
  split
  · exact enterActive_state small c _ s
  · show (((setTermState t .timing s).setTrm t _).trm t).state = _
    rw [trm_setTrm_same small]
    exact trm_setTermState t .timing s small

theorem enterIdle_state (s : State) :
    ((enterIdle t c s).trm t).state = if s.satisfied c then (if c.delay = 0 then .active else .timing) else .idle := by
  show (State.trm (if s.satisfied c then enterTiming t c (setTermState t .idle s) else setTermState t .idle s) t).state = _
  split
  · exact enterTiming_state small c _
  · exact trm_setTermState t .idle s small

end

/-- What a term does with a change of its unit's mode, by its arming. -/
theorem takeMode_own {s : State} {t : Nat} {c : TermSettings} (set : s.termSet t = some c) :
    (s.armed c = true → (s.trm t).state ≠ .disarmed → takeMode s t = s) ∧
    (s.armed c = true → (s.trm t).state = .disarmed → ((takeMode s t).trm t).state =
      if s.satisfied c then (if c.delay = 0 then .active else .timing) else .idle) ∧
    (s.armed c = false → ((takeMode s t).trm t).state =
      match (s.trm t).state with
      | .idle => .disarmed
      | .timing => .disarmed
      | .active => .disarmed
      | z => z) := by
  have small := termSet_lt set
  simp only [takeMode, set]
  refine ⟨fun armed other => ?_, fun armed state => ?_, fun unarmed => ?_⟩
  · simp only [armed, if_true, other, if_false]
  · simp only [armed, if_true, state]
    exact enterIdle_state small c s
  · simp only [unarmed, Bool.false_eq_true, if_false]
    cases state : (s.trm t).state with
    | idle => exact trm_setTermState t .disarmed s small
    | timing => exact trm_setTermState t .disarmed s small
    | active => exact trm_setTermState t .disarmed s small
    | _ => exact state

/-! ## The terms of a unit in turn -/

section
variable {take : State → Nat → State} (own : ∀ s t, (take s t).term = (takeMode s t).term)
include own

/-- Terms that take a mode change as `takeMode` does, whatever becomes of the trips they request (R163). -/
theorem take_alone (s : State) (t : Nat) : TermAlone t s (take s t) := (takeMode_alone s t).trans (termAlone_of_term (own s t))

theorem foldl_take_modes (ts : List Nat) (x : State) : (ts.foldl take x).term.modes = x.term.modes := by
  induction ts generalizing x with
  | nil => rfl
  | cons t ts ih => rw [List.foldl_cons, ih, (take_alone own x t).modes]

theorem foldl_take_other {ts : List Nat} {t : Nat} (absent : t ∉ ts) (x : State) : (ts.foldl take x).trm t = x.trm t := by
  induction ts generalizing x with
  | nil => rfl
  | cons u ts ih =>
    rw [List.foldl_cons, ih fun behind => absent (List.mem_cons_of_mem u behind),
      (take_alone own x u).others t (List.ne_of_not_mem_cons absent)]

/-- Each term of a list without repetition takes the change once, from a state the terms before it have left like x for it. -/
theorem foldl_take_at (hand : ∀ s t, HandStep s (take s t)) {ts : List Nat} (once : ts.Nodup) {t : Nat} (inside : t ∈ ts) (x : State) :
    ∃ z, HandStep x z ∧ z.term.modes = x.term.modes ∧ z.trm t = x.trm t ∧ (ts.foldl take x).trm t = (takeMode z t).trm t := by
  induction ts generalizing x with
  | nil => cases inside
  | cons u ts ih =>
    obtain ⟨fresh, once⟩ := List.nodup_cons.1 once
    rw [List.foldl_cons]
    rcases List.mem_cons.1 inside with rfl | behind
    · exact ⟨x, HandStep.refl x, rfl, rfl, (foldl_take_other own fresh _).trans (by rw [State.trm, own]; rfl)⟩
    · obtain ⟨z, step, modes, same, last⟩ := ih once behind (take x u)
      have alone := take_alone own x u
      exact ⟨z, (hand x u).trans step, modes.trans alone.modes,
        same.trans (alone.others t fun same => fresh (same ▸ behind)), last⟩

end

theorem satisfied_congr {s z : State} {c : TermSettings} (points : ∀ n ∈ c.points, z.pt n = s.pt n) : z.satisfied c = s.satisfied c := by
  have positions : z.positions c = s.positions c := List.map_congr_left fun n listed => by rw [points n listed]
  unfold State.satisfied State.termCount
  rw [positions]

theorem mem_termsOf (s : State) (u t : Nat) : t ∈ s.termsOf u ↔ ∃ c, s.termSet t = some c ∧ c.unit = u := by
  simp only [State.termsOf, mem_configuredWhere, State.termSet, beq_iff_eq]

section
variable {u : Nat} {mode : Mode} {x : State} (small : u < 8) (now : look x.term.modes u = mode)

include small now in
theorem armed_of_unit {z : State} (modes : z.term.modes = x.term.modes) {c : TermSettings} (unit : c.unit = u) :
    z.armed c = decide (mode ∈ c.modes) := by
  have own : u ≠ commonUnit := by rw [commonUnit]; omega
  unfold State.armed
  rw [modes, unit, now]
  exact decide_eq_decide.2 (or_iff_right own)

variable {take : State → Nat → State} (own : ∀ s t, (take s t).term = (takeMode s t).term) (hand : ∀ s t, HandStep s (take s t))
include small now own hand

/-- What the terms of a unit do with its new mode. -/
theorem takeModes_spec {t : Nat} {c : TermSettings} (set : x.termSet t = some c) :
    (c.unit ≠ u → ((x.termsOf u).foldl take x).trm t = x.trm t) ∧
    (c.unit = u → mode ∈ c.modes →
      ((x.trm t).state ≠ .disarmed → ((x.termsOf u).foldl take x).trm t = x.trm t) ∧
      ((x.trm t).state = .disarmed → (∀ n ∈ c.points, n < 544) → (((x.termsOf u).foldl take x).trm t).state =
        if x.satisfied c then (if c.delay = 0 then .active else .timing) else .idle)) ∧
    (c.unit = u → mode ∉ c.modes → (((x.termsOf u).foldl take x).trm t).state =
      match (x.trm t).state with
      | .idle => .disarmed
      | .timing => .disarmed
      | .active => .disarmed
      | z => z) := by
  refine ⟨fun other => ?_, fun unit has => ?_, fun unit hasNot => ?_⟩
  · refine foldl_take_other own (fun inside => ?_) x
    obtain ⟨d, same, unit⟩ := (mem_termsOf x u t).1 inside
    rw [set] at same
    cases same
    exact other unit
  all_goals
    obtain ⟨z, step, modes, same, last⟩ := foldl_take_at own hand ((configuredWhere_rising _ _).imp Nat.ne_of_lt) ((mem_termsOf x u t).2 ⟨c, set, unit⟩) x
    have set' : z.termSet t = some c := by rw [State.termSet, step.settings]; exact set
    obtain ⟨stays, arms, disarms⟩ := takeMode_own set'
    have arming := armed_of_unit small now modes unit
    simp only [State.termsOf] at last ⊢
    rw [last]
  · have armed : z.armed c = true := arming.trans (decide_eq_true has)
    refine ⟨fun state => ?_, fun state points => ?_⟩
    · rw [stays armed (by rw [same]; exact state), same]
    · rw [arms armed (by rw [same]; exact state), satisfied_congr fun n listed => step.points n (points n listed)]
  · rw [disarms (arming.trans (decide_eq_false hasNot)), same]

end

theorem acting_iff (x : Term) : x.acting = true ↔ x.state = .timing ∨ x.state = .active := by
  simp only [Term.acting, Bool.or_eq_true, beq_iff_eq]

/-- A term that acts is disarmed just where the detail of SET-MODE counts it (13.4). -/
theorem takeModes_disarms {u : Nat} {mode : Mode} {x : State} (small : u < 8) (now : look x.term.modes u = mode) {take : State → Nat → State}
    (own : ∀ s t, (take s t).term = (takeMode s t).term) (hand : ∀ s t, HandStep s (take s t)) {t : Nat}
    (acting : (x.trm t).acting = true) :
    (((x.termsOf u).foldl take x).trm t).state = .disarmed ↔ t ∈ x.termsOf u ∧
      (match x.termSet t with
        | some c => !c.modes.contains mode
        | none => false) = true := by
  have on : (x.trm t).state ≠ .disarmed := by
    rcases (acting_iff _).1 acting with state | state <;> rw [state] <;> decide
  cases set : x.termSet t with
  | none =>
    have outside : t ∉ x.termsOf u := fun inside => by
      obtain ⟨c, here, _⟩ := (mem_termsOf x u t).1 inside
      rw [set] at here
      cases here
    rw [foldl_take_other own outside]
    exact ⟨fun off => absurd off on, fun no => absurd no.1 outside⟩
  | some c =>
    obtain ⟨elsewhere, keeps, disarms⟩ := takeModes_spec small now own hand set
    simp only [Bool.not_eq_true', List.contains_eq_mem, decide_eq_false_iff_not]
    by_cases unit : c.unit = u
    · have inside : t ∈ x.termsOf u := (mem_termsOf x u t).2 ⟨c, set, unit⟩
      by_cases has : mode ∈ c.modes
      · rw [(keeps unit has).1 on]
        exact ⟨fun off => absurd off on, fun no => absurd has no.2⟩
      · rw [disarms unit has]
        rcases (acting_iff _).1 acting with state | state <;> rw [state] <;> exact ⟨fun _ => ⟨inside, has⟩, fun _ => rfl⟩
    · rw [elsewhere unit]
      refine ⟨fun off => absurd off on, fun no => ?_⟩
      obtain ⟨d, same, unit'⟩ := (mem_termsOf x u t).1 no.1
      rw [set] at same
      cases same
      exact absurd unit' unit

/-- The state SET-MODE hands to the terms: the mode set and the MODE entry requested (R83). -/
abbrev State.withMode (u : Nat) (mode : Mode) (k d : Nat) (s : State) : State := { s with
  term := { s.term with modes := put s.term.modes u mode }
  jr := s.jr.request s.clock.hall (modeEntry u (look s.term.modes u) mode k d s.clock.hall) }

theorem setModeBy_of_same (take : State → Nat → State) {u : Nat} {mode : Mode} {s : State} (same : look s.term.modes u = mode) (k : Nat) :
    setModeBy take u mode k s = (s, 0) := by
  simp only [setModeBy, same, if_true]

/-- SET-MODE with another mode; its detail counts the terms that act and are disarmed. -/
theorem setModeBy_of_other {take : State → Nat → State} (own : ∀ s t, (take s t).term = (takeMode s t).term)
    (hand : ∀ s t, HandStep s (take s t)) {u : Nat} {mode : Mode} (small : u < 8) {s : State} (other : look s.term.modes u ≠ mode) (k : Nat) :
    ∃ d, setModeBy take u mode k s = ((s.termsOf u).foldl take (s.withMode u mode k d), d) ∧ d = ((List.range 128).filter fun t =>
      (s.trm t).acting && (((s.termsOf u).foldl take (s.withMode u mode k d)).trm t).state == .disarmed).length := by
  refine ⟨_, by simp only [setModeBy, other, if_false]; rfl, ?_⟩
  refine (filter_range_eq (l := s.termsOf u) (configuredWhere_rising _ _) (fun t inside => ?_) _ _ fun t _ => ?_).symm
  · obtain ⟨c, set, _⟩ := (mem_termsOf s u t).1 inside
    exact termSet_lt set
  · rw [Bool.and_eq_true, Bool.and_eq_true, beq_iff_eq, and_left_comm]
    exact and_congr_right fun acting => takeModes_disarms (x := s.withMode u mode k _) small (look_put_same _ _ small) own hand acting

/-- Settles O25: the terms of the unit in rising number, each from a state the others have left for it as they found it. -/
theorem modeChangeReachesTerms : Obligations.ModeChangeReachesTerms := by
  intro s k u m mode offered adopted small code
  have accepted : Order.refused s (.setMode u m) = none := by
    refine refused_of_fits adopted fun bad => bad.elim (fun large => absurd large (Nat.not_le.2 small)) fun large => ?_
    rw [Option.isNone_iff_eq_none.1 ((mode_ofCode_isNone m).2 large)] at code
    cases code
  have effect : applyOrder k (takeHead k s) (.setMode u m) = setMode u mode k (takeHead k s) := by simp only [applyOrder, code]
  refine ⟨fun same => ?_, fun other => ?_⟩
  · exact ordered_of_accepted offered trivial accepted (effect.trans (setModeBy_of_same takeMode (s := takeHead k s) same k)) rfl
  · obtain ⟨d, set, count⟩ := setModeBy_of_other (take := takeMode) (fun _ _ => rfl) takeMode_hand small (s := takeHead k s) other k
    let x := (takeHead k s).withMode u mode k d
    have modes : look x.term.modes u = mode := look_put_same _ _ small
    have moved := foldl_hand takeMode takeMode_hand (x.termsOf u) x
    have terms := fun {t c} (set : s.termSet t = some c) => takeModes_spec (x := x) small modes (take := takeMode) (fun _ _ => rfl) takeMode_hand (t := t) (c := c) set
    refine ⟨d, x, (x.termsOf u).foldl takeMode x, ordered_of_accepted offered trivial accepted (effect.trans set) ?_, count, ?_,
      fun v apart => ?_, rfl, rfl, moved.points, moved.clock, moved.settings, moved.field, moved.panel, moved.monitor,
      fun t c set => terms set⟩
    · show (x.termsOf u).foldl takeMode x = _
      rw [← show ((x.termsOf u).foldl takeMode x).port = (takeHead k s).port from moved.port,
        ← show ((x.termsOf u).foldl takeMode x).engine = (takeHead k s).engine from moved.engine]
    · rw [foldl_take_modes fun _ _ => rfl]
      exact modes
    · rw [foldl_take_modes fun _ _ => rfl]
      exact look_put_other _ _ (Ne.symm apart)

end Sys2Proof.Machine
end

section
/-! Forcing, releasing, isolating, restoring and resetting (R12, R13, R112, R115, R116). -/

namespace Sys2Proof.Machine

/-- An order whose effect leaves slots and engine is published on the very state it leaves. -/
theorem ordered_of_block {s : State} {k : Nat} {o : Order} (offered : Offered s k .alone o) (plain : o.plain) (accepted : o.refused s = none)
    {t : State} {d : Nat} (effect : applyOrder k (takeHead k s) o = (t, d)) (step : BlockStep (takeHead k s) t) :
    Ordered o.command k .ok d s t :=
  ordered_of_accepted offered plain accepted effect (by rw [← step.port, ← step.engine])

/-! ## Forcing and releasing -/

theorem markForced_whole (n : Nat) (v : Bool) (s : State) : markForced n v s =
    { s with
      pts := { s.pts with points := put s.pts.points n { s.pt n with forced := some v, frozen := none, chatter := 0 } }
      jr := (if (s.pt n).frozen.isSome then
          s.jr.request s.clock.hall (chatterEntry n true (s.pt n).chatter v s.clock.hall) else s.jr).request s.clock.hall
        (maintEntry n 0x0A 2 (bit v) (s.pt n).quality.code s.clock.hall) } := by
  unfold markForced
  extract_lets p t u
  simp only [u, p]
  split <;> rfl

/-- What a point handed on leaves, seen from a state before its own part of an order. -/
theorem handOn_frame {s x : State} {n : Nat} {time : HallTime} {standing : Bool} (clock : x.clock = s.clock) (settings : x.settings = s.settings)
    (field : x.field = s.field) (panel : x.panel = s.panel) (monitor : x.monitor = s.monitor)
    (points : ∀ m, m < 544 → m ≠ n → x.pt m = s.pt m) :
    (∀ m, m < 544 → m ≠ n → (handOn n time standing x).pt m = s.pt m) ∧ (handOn n time standing x).clock = s.clock ∧
      (handOn n time standing x).settings = s.settings ∧ (handOn n time standing x).field = s.field ∧
      (handOn n time standing x).panel = s.panel ∧ (handOn n time standing x).monitor = s.monitor :=
  have step := handOn_hand n time standing x
  ⟨fun m small apart => (step.points m small).trans (points m small apart), step.clock.trans clock, step.settings.trans settings,
    step.field.trans field, step.panel.trans panel, step.monitor.trans monitor⟩

/-- The settable point set alone among the settable points. -/
theorem pt_put_other {s : State} {n m : Nat} (p : Point) (apart : m ≠ n) : look (put s.pts.points n p) m = s.pt m :=
  look_put_other _ _ (Ne.symm apart)

/-- Settles O31: the point is marked and the change handed on, which leaves every settable point. -/
theorem forcingTakesEffect : Obligations.ForcingTakesEffect := by
  intro s k n v offered adopted small configured value harmless
  have none : unsafeTerms s n = [] := List.eq_nil_iff_forall_not_mem.2 fun t member => harmless t ((unsafeTerm_iff s n t).1 member)
  have accepted : Order.refused s (.forcePoint n v) = .none := by
    rw [refused_of_fits adopted (by rw [Order.outOfRange]; simp only [configured, false_or]; omega), Order.refusal, none]
    rfl
  have number : bit (v == 1) = v := by interval_cases v <;> rfl
  have whole := markForced_whole n (v == 1) (takeHead k s)
  rw [number] at whole
  have effect : applyOrder k (takeHead k s) (.forcePoint n v) = (handOn n s.clock.hall false (markForced n (v == 1) (takeHead k s)), 0) := rfl
  generalize markForced n (v == 1) (takeHead k s) = x at whole effect
  have own : x.pt n = { s.pt n with forced := some (v == 1), frozen := .none, chatter := 0 } := by
    rw [whole]
    exact look_put_same _ _ (by omega)
  have step := handOn_hand n s.clock.hall false x
  have port : (handOn n s.clock.hall false x).port = (takeHead k s).port := step.port.trans (by rw [whole])
  have engine : (handOn n s.clock.hall false x).engine = (takeHead k s).engine := step.engine.trans (by rw [whole])
  have points : ∀ m, m < 544 → m ≠ n → x.pt m = s.pt m := fun m _ apart => by rw [whole]; exact pt_put_other _ apart
  refine ⟨_, _, x, _, ordered_of_accepted offered trivial accepted effect (by rw [← port, ← engine]), rfl, rfl, whole, rfl, ?_⟩
  rw [step.points n small, own]
  exact ⟨(quality_forced_iff _).2 (Option.some_ne_none _), rfl, rfl, rfl, handOn_frame (by rw [whole]; rfl) (by rw [whole]; rfl)
    (by rw [whole]; rfl) (by rw [whole]; rfl) (by rw [whole]; rfl) points⟩

/-! ## RELEASE-POINT -/

theorem unforced_forced (p : Point) : p.unforced.forced = none := by unfold Point.unforced; split <;> rfl

theorem quality_of_unforced {p : Point} (free : p.forced = none) : p.quality = p.live.quality := by
  simp only [Point.quality, free, Option.isSome_none, Bool.false_eq_true, if_false]

theorem unforced_live (p : Point) : p.unforced.live = p.live := by unfold Point.unforced; split <;> rfl

theorem unforced_qualified (p : Point) : p.unforced.qualified = p.qualified := by unfold Point.unforced; split <;> rfl

theorem recordChange_pt {n : Nat} (small : n < 680) (c : PointSettings) (p : Point) (before counted : Bool) (f : ChangeFlags) (s : State) :
    (recordChange n c p before counted f s).pt n = if counted then p.counted c before else p := by
  unfold recordChange
  extract_lets q
  split <;> exact look_put_same _ _ small

theorem makeChange_of_unforced (n : Nat) (c : PointSettings) {p : Point} (free : p.forced = none) (before counted : Bool) (f : ChangeFlags)
    (standing : Bool) (s : State) :
    makeChange n c p before counted f standing s = handOn n p.rawTime standing (recordChange n c p before counted f s) := by
  simp only [makeChange, free, Option.isSome_none, Bool.false_eq_true, if_false]

/-- The point's own part of a change sets the point and may request one entry. -/
theorem recordChange_frame (n : Nat) (c : PointSettings) (p : Point) (before counted : Bool) (f : ChangeFlags) (s : State) :
    ∃ q j, recordChange n c p before counted f s = { s with pts := { s.pts with points := put s.pts.points n q }, jr := j } := by
  unfold recordChange
  extract_lets q
  split <;> exact ⟨_, _, rfl⟩

theorem releasePoint_of_unforced {n : Nat} {s : State} (free : (s.pt n).forced = none) : releasePoint n s = (s, 0) := by
  simp only [releasePoint, free]

/-- The state RELEASE-POINT hands on from: no longer forced, with its MAINT entry (R13). -/
abbrev State.unforcedAt (n : Nat) (value : Bool) (s : State) : State := { s with
  pts := { s.pts with points := put s.pts.points n (s.pt n).unforced }
  jr := s.jr.request s.clock.hall (maintEntry n 0x0B 3 (bit value) 0 s.clock.hall) }

/-- The change a release makes where the live value differs from the forced one (R13). -/
abbrev releaseChange (n : Nat) (c : PointSettings) (value : Bool) (s x : State) : State :=
  makeChange n c { (s.pt n).unforced with rawTime := s.clock.hall, qualifyTime := s.clock.hall } value true
    { ChangeFlags.plain with standing := (s.pt n).qualified, forcedRelease := true } (s.pt n).qualified x

theorem releasePoint_of_forced {n : Nat} {s : State} {value : Bool} {c : PointSettings} (held : (s.pt n).forced = some value)
    (set : s.ptSet n = some c) :
    ((s.pt n).qualified = value → releasePoint n s = (handOn n s.clock.hall true (s.unforcedAt n value), 0)) ∧
    ((s.pt n).qualified ≠ value → releasePoint n s = (releaseChange n c value s (s.unforcedAt n value), 0)) := by
  simp only [releasePoint, held, set]
  exact ⟨fun same => if_pos same, fun other => if_neg other⟩

/-- What a released point and the rest are once the release has been handed on. -/
theorem released_frame {n : Nat} (small : n < 544) {time : HallTime} {standing : Bool} {s x : State} (free : (x.pt n).forced = none)
    (live : (x.pt n).live = (s.pt n).live) (qualified : (x.pt n).qualified = (s.pt n).qualified) (clock : x.clock = s.clock)
    (settings : x.settings = s.settings) (field : x.field = s.field) (panel : x.panel = s.panel) (monitor : x.monitor = s.monitor)
    (points : ∀ m, m < 544 → m ≠ n → x.pt m = s.pt m) :
    ((handOn n time standing x).pt n).forced = none ∧ ((handOn n time standing x).pt n).quality = (s.pt n).live.quality ∧
      ((handOn n time standing x).pt n).effective = (s.pt n).qualified ∧
      (∀ m, m < 544 → m ≠ n → (handOn n time standing x).pt m = s.pt m) ∧ (handOn n time standing x).clock = s.clock ∧
      (handOn n time standing x).settings = s.settings ∧ (handOn n time standing x).field = s.field ∧
      (handOn n time standing x).panel = s.panel ∧ (handOn n time standing x).monitor = s.monitor := by
  rw [(handOn_hand n time standing x).points n small]
  refine ⟨free, (quality_of_unforced free).trans (by rw [live]), ?_, handOn_frame clock settings field panel monitor points⟩
  rw [Point.effective, free, Option.getD_none, qualified]

/-- Settles O32: a release is handed on as it is, or as the change to the live value. -/
theorem releasingTakesEffect : Obligations.ReleasingTakesEffect := by
  intro s k n offered adopted small
  have accepted : Order.refused s (.releasePoint n) = none := refused_of_fits adopted (Nat.not_le.2 small)
  refine ⟨fun free => ordered_of_accepted offered trivial accepted (releasePoint_of_unforced (s := takeHead k s) free) rfl,
    fun value c held set => ?_⟩
  obtain ⟨alone, changed⟩ := releasePoint_of_forced (s := takeHead k s) held set
  have own : ((takeHead k s).unforcedAt n value).pt n = (s.pt n).unforced := look_put_same _ _ (by omega)
  by_cases same : (s.pt n).qualified = value
  · have step := handOn_hand n s.clock.hall true ((takeHead k s).unforcedAt n value)
    refine ⟨(takeHead k s).unforcedAt n value, _, ordered_of_accepted offered trivial accepted (alone same) (by rw [← step.port, ← step.engine]; rfl),
      rfl, fun _ => rfl, fun other => absurd same other, ?_⟩
    exact released_frame small (by rw [own, unforced_forced]) (by rw [own, unforced_live]) (by rw [own, unforced_qualified]) rfl rfl rfl
      rfl rfl fun m _ apart => pt_put_other _ apart
  · have free : ({ (s.pt n).unforced with rawTime := s.clock.hall, qualifyTime := s.clock.hall } : Point).forced = none := unforced_forced _
    have made := makeChange_of_unforced n c free value true { ChangeFlags.plain with standing := (s.pt n).qualified, forcedRelease := true }
      (s.pt n).qualified ((takeHead k s).unforcedAt n value)
    have whole := changed same
    rw [releaseChange, show (takeHead k s).pt n = s.pt n from rfl, takeHead_clock, made] at whole
    have recorded := recordChange_frame n c { (s.pt n).unforced with rawTime := s.clock.hall, qualifyTime := s.clock.hall } value true
      { ChangeFlags.plain with standing := (s.pt n).qualified, forcedRelease := true } ((takeHead k s).unforcedAt n value)
    have point := recordChange_pt (show n < 680 by omega) c { (s.pt n).unforced with rawTime := s.clock.hall, qualifyTime := s.clock.hall } value
      true { ChangeFlags.plain with standing := (s.pt n).qualified, forcedRelease := true } ((takeHead k s).unforcedAt n value)
    refine ⟨(takeHead k s).unforcedAt n value, _, ordered_of_accepted offered trivial accepted whole ?_, rfl, fun yes => absurd yes same,
      fun _ => made.symm, ?_⟩
    all_goals
      generalize recordChange n c _ value true _ _ = x at recorded point ⊢
      obtain ⟨q, j, left⟩ := recorded
    · have step := handOn_hand n s.clock.hall (s.pt n).qualified x
      rw [← show _ = (takeHead k s).port from step.port.trans (by rw [left]), ← show _ = (takeHead k s).engine from step.engine.trans (by rw [left])]
    · refine released_frame small (by rw [point]; exact unforced_forced _) (by rw [point]; exact unforced_live _)
        (by rw [point]; exact unforced_qualified _) (by rw [left]; rfl) (by rw [left]; rfl) (by rw [left]; rfl) (by rw [left]; rfl)
        (by rw [left]; rfl) fun m _ apart => ?_
      rw [left]
      exact (look_put_other _ _ (Ne.symm apart)).trans (pt_put_other _ apart)

end Sys2Proof.Machine
end

section
/-! Orders to the switch controller (R103 to R116, R143). -/

namespace Sys2Proof.Machine

theorem swSet_lt {s : State} {i : Nat} {c : SwitchSettings} (set : s.swSet i = some c) : i < 48 := by
  by_contra beyond
  rw [State.swSet, look_beyond _ _ (by omega)] at set
  cases set

theorem swSet_in_range {s : State} {i : Nat} {c : SwitchSettings} (set : s.swSet i = some c) : ¬ (48 ≤ i ∨ s.swSet i = none) := by
  rw [not_or, set]
  exact ⟨Nat.not_le.2 (swSet_lt set), Option.some_ne_none c⟩

theorem swi_setSwi_same {i : Nat} (small : i < 48) (s : State) (x : Switch) : (s.setSwi i x).swi i = x :=
  (swi_setSwi s i i x).trans (if_pos ⟨rfl, small⟩)

theorem setSwi_setSwi (s : State) (i : Nat) (x y : Switch) : (s.setSwi i x).setSwi i y = s.setSwi i y := by
  simp only [State.setSwi, put_put]

/-! ## ISOLATE and RESTORE -/

theorem isolateSwitch_of_isolated {i : Nat} {s : State} (on : (s.swi i).isolated = true) : isolateSwitch i s = (s, 0) := if_pos on

section
variable {i : Nat} {c : SwitchSettings} {s : State} (set : s.swSet i = some c) (off : (s.swi i).isolated = false)
include set off

theorem isolateSwitch_of_no_trip (other : ∀ e, s.entryOf i = some e → e.kind ≠ .trip) : isolateSwitch i s = (markIsolated i s, 1) := by
  have set' : (markIsolated i s).swSet i = some c := set
  have entry : (markIsolated i s).entryOf i = s.entryOf i := rfl
  simp only [isolateSwitch, off, Bool.false_eq_true, if_false, set', entry]
  cases here : s.entryOf i with
  | none => rfl
  | some e => simp only [other e here, if_false]

theorem isolateSwitch_of_trip {e : QueueEntry} (here : s.entryOf i = some e) (trip : e.kind = .trip) :
    isolateSwitch i s =
      (runQueue (if c.kind = .lockout ∧ (syncSwitchPoints i (withdrawTrip i c e (markIsolated i s))).operated c
        then foundOperated i c (syncSwitchPoints i (withdrawTrip i c e (markIsolated i s)))
        else syncSwitchPoints i (withdrawTrip i c e (markIsolated i s))), 1) := by
  have set' : (markIsolated i s).swSet i = some c := set
  have entry : (markIsolated i s).entryOf i = some e := here
  simp only [isolateSwitch, off, Bool.false_eq_true, if_false, set', entry, trip, if_true]

end

theorem withdrawTrip_markIsolated {i : Nat} (small : i < 48) (c : SwitchSettings) (e : QueueEntry) (s : State) :
    withdrawTrip i c e (markIsolated i s) = { s with
      sw := { s.sw with
        switches := put s.sw.switches i { s.swi i with isolated := true, state := .ready }
        queue := s.sw.queue.filter fun e => e.switch != i }
      jr := (s.jr.request s.clock.hall (maintEntry i 0x0C 0 0 0 s.clock.hall)).request s.clock.hall
        (switchEntry i .withheld c.unit false (some e.source) 0 0 0 0 s.clock.hall) } := by
  have own : look (put s.sw.switches i { s.swi i with isolated := true }) i = { s.swi i with isolated := true } := look_put_same _ _ small
  simp only [withdrawTrip, setSwitchState, requestSwitch, dropEntry, markIsolated, State.request, State.setSwi, State.swi, put_put]
  simp only [State.swi] at own
  rw [own]
  rfl

/-- Settles O33: the mark alone, or the mark, the withheld entry and the looks of R115. -/
theorem isolatingWithholdsTrips : Obligations.IsolatingWithholdsTrips := by
  intro s k i c offered adopted set
  have small := swSet_lt set
  have accepted : Order.refused s (.isolate i) = none := refused_of_fits adopted (swSet_in_range set)
  refine ⟨fun on => ordered_of_accepted offered trivial accepted (isolateSwitch_of_isolated (s := takeHead k s) on) rfl,
    fun off => ⟨fun other => ordered_of_accepted offered trivial accepted (isolateSwitch_of_no_trip (s := takeHead k s) set off other) rfl,
      fun e here trip => ?_⟩⟩
  have effect := isolateSwitch_of_trip (s := takeHead k s) set off here trip
  have whole := withdrawTrip_markIsolated small c e (takeHead k s)
  generalize withdrawTrip i c e (markIsolated i (takeHead k s)) = x at effect whole
  have shown : BlockStep x (syncSwitchPoints i x) := (syncSwitchPoints_coil i x).block
  have found : BlockStep x (if c.kind = .lockout ∧ (syncSwitchPoints i x).operated c then foundOperated i c (syncSwitchPoints i x)
      else syncSwitchPoints i x) := ite_rel (shown.trans (foundOperated_block _ _ _)) shown
  have step := found.trans (runQueue_block _)
  refine ⟨x, runQueue (if c.kind = .lockout ∧ (syncSwitchPoints i x).operated c then foundOperated i c (syncSwitchPoints i x)
    else syncSwitchPoints i x), ordered_of_accepted offered trivial accepted effect ?_, whole, fun no => ?_, fun lockout operated => ?_, ?_, fun j apart => ?_⟩
  · rw [← show _ = (takeHead k s).port from step.port.trans (by rw [whole]), ← show _ = (takeHead k s).engine from step.engine.trans (by rw [whole])]
  · rw [if_neg no]
  · rw [if_pos ⟨lockout, operated⟩]
  · rw [step.isolated, whole]
    exact congrArg Switch.isolated (look_put_same _ _ small)
  · rw [step.isolated, whole]
    exact congrArg Switch.isolated (look_put_other _ _ (Ne.symm apart))

/-- Settles O34. -/
theorem restoringClearsIsolation : Obligations.RestoringClearsIsolation := by
  intro s k i offered adopted small set
  have fits : ¬ (Order.restore i).outOfRange s := not_or.2 ⟨Nat.not_le.2 small, set⟩
  refine ⟨fun off => ?_, fun on free still => ?_⟩
  · have accepted : Order.refused s (.restore i) = none := by
      rw [refused_of_fits adopted fits]
      simp only [Order.refusal, off, Bool.not_false, if_true]
    refine ordered_of_accepted offered trivial accepted (t := takeHead k s) ?_ rfl
    exact if_neg (by rw [show ((takeHead k s).swi i).isolated = false from off]; decide)
  · have accepted : Order.refused s (.restore i) = none := by
      rw [refused_of_fits adopted fits]
      simp only [Order.refusal, on, forcedFeeds_eq_false free, actingOn_eq_false still, Bool.not_true, Bool.false_eq_true, if_false]
    exact ordered_of_accepted offered trivial accepted (if_pos on) rfl

/-! ## RESET-SWITCH -/

theorem confirmedState_eq (c : SwitchSettings) : (c.kind = .lockout → confirmedState c = .lockedOut) ∧
    (c.kind ≠ .lockout → confirmedState c = .confirmed) := ⟨fun h => if_pos h, fun h => if_neg h⟩

theorem clearFailed_spec (i : Nat) (c : SwitchSettings) (s : State) : ∃ new : SwitchState,
    (s.operated c = true → c.kind = .lockout → new = .lockedOut) ∧ (s.operated c = true → c.kind ≠ .lockout → new = .confirmed) ∧
      (s.operated c = false → new = .ready) ∧ clearFailed i c s = { s with
        sw := { s.sw with switches := put s.sw.switches i { s.swi i with state := new } }
        jr := s.jr.request s.clock.hall (switchEntry i .cleared c.unit false none 0 0 new.code 0 s.clock.hall) } :=
  ⟨if s.operated c then confirmedState c else .ready, fun on lockout => by rw [on, if_pos rfl, (confirmedState_eq c).1 lockout],
    fun on other => by rw [on, if_pos rfl, (confirmedState_eq c).2 other], fun off => by rw [off]; rfl, rfl⟩

/-- Settles O35, by the state of the switch. -/
theorem resetSwitchByState : Obligations.ResetSwitchByState := by
  intro s k i c offered adopted set still
  have fits : ¬ (Order.resetSwitch i).outOfRange s := swSet_in_range set
  have accepted : (s.swi i).state.resetBusy = false → Order.refused s (.resetSwitch i) = none := fun idle => by
    rw [refused_of_fits adopted fits]
    simp only [Order.refusal, actingOn_eq_false still, idle, Bool.false_eq_true, if_false]
  have effect : applyOrder k (takeHead k s) (.resetSwitch i) = resetSwitch i (takeHead k s) := rfl
  have set' : (takeHead k s).swSet i = some c := set
  refine ⟨fun state => ?_, fun state => ?_, fun state => ?_, fun state => ?_⟩
  · have state' : ((takeHead k s).swi i).state = .lockedOut := state
    refine ⟨{ switch := i, kind := .reset, cls := 3, joined := s.clock.elapsed, joinedHall := s.clock.hall, source := .order 0 },
      queueReset i (takeHead k s), ordered_of_block offered trivial (accepted (by rw [state]; rfl)) (effect.trans ?_) ?_, rfl, rfl, rfl, rfl, rfl,
      rfl⟩
    · simp only [resetSwitch, set', state']
    · exact (((queueReset_coil _ _).trans (syncSwitchPoints_coil _ _)).trans (runQueue_coil _)).block
  · have state' : ((takeHead k s).swi i).state = .held := state
    refine ordered_of_block offered trivial (accepted (by rw [state]; rfl)) (effect.trans ?_)
      ((releaseHold_coil i c (takeHead k s)).trans (syncSwitchPoints_coil _ _)).block
    simp only [resetSwitch, set', state']
    rfl
  · obtain ⟨new, lockout, confirmed, ready, whole⟩ := clearFailed_spec i c (takeHead k s)
    have idle : (s.swi i).state.resetBusy = false := by rcases state with state | state <;> rw [state] <;> rfl
    refine ⟨new, lockout, confirmed, ready, ?_⟩
    have step := ((clearFailed_coil i c (takeHead k s)).trans (syncSwitchPoints_coil i _)).block
    have run : resetSwitch i (takeHead k s) = (syncSwitchPoints i (clearFailed i c (takeHead k s)), 1) := by
      rcases state with state | state
      · simp only [resetSwitch, set', show ((takeHead k s).swi i).state = .failed from state]
      · simp only [resetSwitch, set', show ((takeHead k s).swi i).state = .unconfirmed from state]
    rw [whole] at run step
    exact ordered_of_block offered trivial (accepted idle) (effect.trans run) step
  · have idle : (s.swi i).state.resetBusy = false := by rcases state with state | state <;> rw [state] <;> rfl
    refine ordered_of_accepted offered trivial (accepted idle) (t := takeHead k s) (effect.trans ?_) rfl
    rcases state with state | state
    · simp only [resetSwitch, set', show ((takeHead k s).swi i).state = .ready from state]
    · simp only [resetSwitch, set', show ((takeHead k s).swi i).state = .confirmed from state]

end Sys2Proof.Machine
end

section
/-! Trip requests (R103, R104, R114), test requests (R143) and the counters (R35). -/

namespace Sys2Proof.Machine

/-! ## The coil queue -/

/-- Where an entry stands that joins: behind every entry of its own or a better class (R105). -/
theorem insertEntry_split (e : QueueEntry) (l : List QueueEntry) : ∃ front behind, front ++ behind = l ∧
    insertEntry e l = front ++ e :: behind ∧ (∀ x ∈ front, x.cls ≤ e.cls) ∧ ∀ x ∈ behind.head?, e.cls < x.cls := by
  induction l with
  | nil => exact ⟨[], [], rfl, rfl, fun _ no => (by cases no), fun _ no => (by cases no)⟩
  | cons x l ih =>
    rw [insertEntry]
    split
    · next first => exact ⟨[], x :: l, rfl, rfl, fun _ no => (by cases no), fun y here => (by cases here; exact first)⟩
    · next later =>
      obtain ⟨front, behind, whole, eq, low, high⟩ := ih
      exact ⟨x :: front, behind, by rw [List.cons_append, whole], by rw [eq, List.cons_append],
        List.forall_mem_cons.2 ⟨Nat.not_lt.1 later, low⟩, high⟩

/-- Where a raised entry stands: behind the class-1 entries that are as old (R104). -/
theorem insertByAge_split (e : QueueEntry) (l : List QueueEntry) : ∃ front behind, front ++ behind = l ∧
    insertByAge e l = front ++ e :: behind ∧ (∀ x ∈ front, x.cls = 1 ∧ x.joined ≤ e.joined) ∧
      ∀ x ∈ behind.head?, ¬ (x.cls = 1 ∧ x.joined ≤ e.joined) := by
  induction l with
  | nil => exact ⟨[], [], rfl, rfl, fun _ no => (by cases no), fun _ no => (by cases no)⟩
  | cons x l ih =>
    rw [insertByAge]
    split
    · next older =>
      obtain ⟨front, behind, whole, eq, low, high⟩ := ih
      exact ⟨x :: front, behind, by rw [List.cons_append, whole], by rw [eq, List.cons_append],
        List.forall_mem_cons.2 ⟨older, low⟩, high⟩
    · next here => exact ⟨[], x :: l, rfl, rfl, fun _ no => (by cases no), fun y first => (by cases first; exact here)⟩

/-! ## A request absorbed -/

theorem isBackup_iff (src : Source) : src.isBackup = true ↔ ∃ f, src = .backup f := by
  cases src <;> simp [Source.isBackup]

theorem isOrder_iff (src : Source) : src.isOrder = true ↔ ∃ k, src = .order k := by
  cases src <;> simp [Source.isOrder]

theorem requestClass_eq_one (c : SwitchSettings) (src : Source) : requestClass c src = 1 ↔ (∃ f, src = .backup f) ∨ c.cls = 1 := by
  rw [requestClass, ← isBackup_iff]
  cases src.isBackup <;> simp

/-- A waiting class-2 TRIP entry that a class-1 request raises (R104). -/
abbrev Raised (src : Source) (i : Nat) (c : SwitchSettings) (s : State) (e : QueueEntry) : Prop :=
  s.entryOf i = some e ∧ (s.swi i).state = .queued ∧ e.kind = .trip ∧ e.cls = 2 ∧ ((∃ f, src = .backup f) ∨ c.cls = 1)

/-- The absorbed count of a switch one higher. -/
abbrev State.absorbedAt (i : Nat) (s : State) : State := { s with
  sw := { s.sw with switches := put s.sw.switches i { s.swi i with absorbed := min ((s.swi i).absorbed + 1) 65535 } } }

theorem absorbRequest_of_raised {src : Source} {i : Nat} {c : SwitchSettings} {s : State} {e : QueueEntry} (raised : Raised src i c s e) :
    absorbRequest i c src s = { s.absorbedAt i with
      sw := { (s.absorbedAt i).sw with queue := insertByAge { e with cls := 1 } (s.sw.queue.filter fun x => x.switch != i) } } := by
  obtain ⟨here, state, kind, cls, better⟩ := raised
  unfold absorbRequest
  extract_lets x t
  have entry : t.entryOf i = some e := here
  have counted : t = s.absorbedAt i := by simp only [t, x, saturate_eq_min]; rfl
  simp only [entry]
  rw [if_pos ⟨state, kind, cls, (requestClass_eq_one c src).2 better⟩, raiseEntry, entry, counted]
  rfl

theorem absorbRequest_of_not_raised {src : Source} {i : Nat} {c : SwitchSettings} {s : State} (none : ∀ e, ¬ Raised src i c s e) :
    absorbRequest i c src s = s.absorbedAt i := by
  unfold absorbRequest
  extract_lets x t
  have counted : t = s.absorbedAt i := by simp only [t, x, saturate_eq_min]; rfl
  have entry : t.entryOf i = s.entryOf i := rfl
  rw [entry]
  split
  · next e here =>
    rw [if_neg fun raised => none e ⟨here, raised.1, raised.2.1, raised.2.2.1, (requestClass_eq_one c src).1 raised.2.2.2⟩, counted]
  · exact counted

theorem requestAbsorbed (src : Source) (i : Nat) (c : SwitchSettings) (s : State) : RequestAbsorbed src i c s (absorbRequest i c src s) := by
  refine ⟨?_, Raised src i c s, fun e => Iff.rfl, fun none => by rw [absorbRequest_of_not_raised none], fun e raised => ?_⟩
  · by_cases some : ∃ e, Raised src i c s e
    · obtain ⟨e, raised⟩ := some
      rw [absorbRequest_of_raised raised]
    · rw [absorbRequest_of_not_raised (not_exists.1 some)]
  · obtain ⟨front, behind, whole, eq, low, high⟩ := insertByAge_split { e with cls := 1 } (s.sw.queue.filter fun x => x.switch != i)
    exact ⟨front, behind, whole, by rw [absorbRequest_of_raised raised]; exact eq, low, high⟩

/-! ## A request queued -/

theorem queueTrip_whole (src : Source) (i : Nat) (c : SwitchSettings) (s : State) :
    queueTrip i c src s = syncSwitchPoints i { giveUpTest i s with sw := { (giveUpTest i s).sw with
      switches := put (giveUpTest i s).sw.switches i { (giveUpTest i s).swi i with state := .queued }
      queue := insertEntry { switch := i, kind := .trip, cls := requestClass c src, joined := s.clock.elapsed, joinedHall := s.clock.hall, source := src }
        ((giveUpTest i s).sw.queue.filter fun x => x.switch != i) } } := by
  rw [← (giveUpTest_coil i s).clock]
  rfl

theorem tripQueued (src : Source) (i : Nat) (c : SwitchSettings) (s : State) : TripQueued src i c s (queueTrip i c src s) := by
  obtain ⟨front, behind, whole, eq, low, high⟩ := insertEntry_split
    { switch := i, kind := .trip, cls := requestClass c src, joined := s.clock.elapsed, joinedHall := s.clock.hall, source := src }
    ((giveUpTest i s).sw.queue.filter fun x => x.switch != i)
  refine ⟨_, _, front, behind, rfl, rfl, fun backup => if_pos ((isBackup_iff src).2 backup), fun other => if_neg fun backup => ?_, whole, low, high, ?_⟩
  · obtain ⟨f, same⟩ := (isBackup_iff src).1 backup
    exact other f same
  · rw [queueTrip_whole, eq]

/-- The switch of a queued request and its entry. -/
theorem queueTrip_entry {i : Nat} (small : i < 48) (src : Source) (c : SwitchSettings) (t : State) :
    ((queueTrip i c src t).swi i).state = .queued ∧
      ∃ e ∈ (queueTrip i c src t).sw.queue, e.switch = i ∧ e.kind = .trip ∧ e.source = src ∧ e.joined = t.clock.elapsed ∧
        e.cls = (if src.isBackup then 1 else c.cls) := by
  rw [queueTrip_whole, State.swi, syncSwitchPoints_sw]
  refine ⟨congrArg Switch.state (look_put_same _ _ small), _, (insertEntry_perm _ _).mem_iff.2 List.mem_cons_self, rfl, rfl, rfl, rfl, rfl⟩

/-! ## What becomes of a request -/

section
variable {x : Switch}

theorem tripOutcome_withheld (on : x.isolated = true) (src : Source) : tripOutcome x src = .withheld := if_pos on

variable (off : x.isolated = false)
include off

theorem tripOutcome_queued (state : x.state = .ready ∨ x.state = .settling ∨ x.state = .resetQueued ∨ x.state = .resetPulsing) (src : Source) :
    tripOutcome x src = .queued := by
  rcases state with state | state | state | state <;> simp [tripOutcome, off, state]

theorem tripOutcome_failed (state : x.state = .failed ∨ x.state = .unconfirmed) (src : Source) :
    tripOutcome x src = if src.isOrder then .requeued else .absorbed := by
  rcases state with state | state <;> simp [tripOutcome, off, state]

theorem tripOutcome_absorbed (state : x.state = .queued ∨ x.state = .pulsing ∨ x.state = .confirmed ∨ x.state = .lockedOut ∨ x.state = .held)
    (src : Source) : tripOutcome x src = .absorbed := by
  rcases state with state | state | state | state | state <;> simp [tripOutcome, off, state]

end

/-- What each outcome of a trip request does (R103, R104). -/
def TripOutcome.taken (again : State → State) (src : Source) (i : Nat) (c : SwitchSettings) (s : State) : TripOutcome → State
  | .withheld => requestSwitch i c .withheld false (some src) 0 0 0 0 s
  | .queued | .requeued => again (queueTrip i c src s)
  | .absorbed => absorbRequest i c src s

/-- The detail with which TRIP-MANUAL reports the outcome of its request (R114). -/
def TripOutcome.detail : TripOutcome → Nat
  | .queued => 0
  | .requeued => 1
  | .withheld => 2
  | .absorbed => 3

section
variable {again : State → State} {src : Source} {i : Nat} {c : SwitchSettings} {s : State} (set : s.swSet i = some c)
include set

theorem tripRequest_of_halted (halted : s.halted = true) : tripRequest again src i s = s := by
  simp only [tripRequest, set, halted, if_true]

theorem tripRequest_of_running (running : s.halted = false) :
    tripRequest again src i s = (tripOutcome (s.swi i) src).taken again src i c s := by
  simp only [tripRequest, set, running, Bool.false_eq_true, if_false]
  cases tripOutcome (s.swi i) src <;> rfl

theorem requestTaken : RequestTaken again src i c s (tripRequest again src i s) := by
  refine ⟨tripRequest_of_halted set, fun running => ?_⟩
  rw [tripRequest_of_running set running]
  refine ⟨fun on => by rw [tripOutcome_withheld on]; rfl, fun off => ⟨fun state => by rw [tripOutcome_queued off state]; rfl,
    fun state => ⟨fun order => ?_, fun other => ?_⟩, fun state => ?_⟩⟩
  · rw [tripOutcome_failed off state, (isOrder_iff src).2 order, if_pos rfl]
    rfl
  · have none : src.isOrder = false := Bool.eq_false_iff.2 fun order => by
      obtain ⟨k, same⟩ := (isOrder_iff src).1 order
      exact other k same
    rw [tripOutcome_failed off state, none]
    exact requestAbsorbed src i c s
  · rw [tripOutcome_absorbed off state]
    exact requestAbsorbed src i c s

end

/-! ## TRIP-MANUAL -/

theorem tripManual_of_offered {s : State} {k i : Nat} {c : SwitchSettings} (offered : Offered s k .alone (.tripManual i)) (set : s.swSet i = some c)
    {out : TripOutcome} (outcome : tripOutcome (s.swi i) (.order k) = out) :
    tripManual i k (takeHead k s) = (out.taken runQueue (.order k) i c (takeHead k s), out.detail) := by
  obtain ⟨_, _, running, _⟩ := offered
  have running' : (takeHead k s).halted = false := running
  have set' : (takeHead k s).swSet i = some c := set
  have outcome' : tripOutcome ((takeHead k s).swi i) (.order k) = out := outcome
  rw [tripManual, requestTrip, tripRequest_of_running set' running', outcome']
  cases out <;> rfl

/-- The queue after an absorbed order's request (R104). -/
theorem absorbRequest_frame (src : Source) (i : Nat) (c : SwitchSettings) (k : Nat) (s : State) :
    absorbRequest i c src (takeHead k s) =
      { absorbRequest i c src s with port := (takeHead k s).port, engine := (takeHead k s).engine } := by
  by_cases some : ∃ e, Raised src i c s e
  · obtain ⟨e, raised⟩ := some
    rw [absorbRequest_of_raised raised, absorbRequest_of_raised (s := takeHead k s) raised]
    rfl
  · rw [absorbRequest_of_not_raised (not_exists.1 some), absorbRequest_of_not_raised (s := takeHead k s) (not_exists.1 some)]
    rfl

/-- Settles O36: the clauses about a request from any source, and TRIP-MANUAL by the outcome of its request. -/
theorem manualTripsByState : Obligations.ManualTripsByState := by
  refine ⟨fun again src i s => ⟨fun none => by simp only [tripRequest, none], fun c set => requestTaken set, fun c => tripQueued src i c s, rfl⟩,
    fun s k i c offered adopted set => ?_⟩
  have accepted : Order.refused s (.tripManual i) = none := refused_of_fits adopted (swSet_in_range set)
  have queued : BlockStep (takeHead k s) (runQueue (queueTrip i c (.order k) (takeHead k s))) :=
    ((queueTrip_coil i c (.order k) (takeHead k s)).trans (runQueue_coil _)).block
  refine ⟨fun on => ?_, fun off => ⟨fun state => ?_, fun state => ?_, fun state => ?_⟩, fun src t small => queueTrip_entry small src c t⟩
  · exact ordered_of_accepted offered trivial accepted (tripManual_of_offered offered set (tripOutcome_withheld on _)) rfl
  · exact ordered_of_block offered trivial accepted (tripManual_of_offered offered set (tripOutcome_queued off state _)) queued
  · exact ordered_of_block offered trivial accepted (tripManual_of_offered offered set (tripOutcome_failed off state _)) queued
  · obtain ⟨whole, _⟩ := requestAbsorbed (.order k) i c s
    refine ⟨absorbRequest i c (.order k) s, ordered_of_accepted offered trivial accepted
      (tripManual_of_offered offered set (tripOutcome_absorbed off state _)) (absorbRequest_frame ..), whole, ?_, ?_, ?_, ?_⟩
    · intro cls
      rw [absorbRequest_of_not_raised fun e raised => raised.2.2.2.2.elim (fun ⟨_, no⟩ => by cases no) cls]
    · intro other
      rw [absorbRequest_of_not_raised fun e raised => other raised.2.1]
    · intro other
      rw [absorbRequest_of_not_raised fun e raised => (other e raised.1).elim (fun no => no raised.2.2.1) fun no => no raised.2.2.2.1]
    · intro e here waiting kind cls better
      rw [absorbRequest_of_raised ⟨here, waiting, kind, cls, Or.inr better⟩]

/-! ## TEST-CIRCUIT -/

theorem testTaken_iff (s : State) (i : Nat) :
    s.testTaken i = true ↔ (s.swi i).state = .ready ∧ s.entryOf i = none ∧ (s.swi i).testStart = none := by
  simp only [State.testTaken, Bool.and_eq_true, beq_iff_eq, Option.isNone_iff_eq_none, and_assoc]

/-- Settles O37. -/
theorem testOrdersQueueTests : Obligations.TestOrdersQueueTests := by
  intro s k i c offered adopted set circuit
  have supervised : ((s.swSet i).bind SwitchSettings.supervision).isNone = false := by
    rw [set]
    exact Option.isNone_eq_false_iff.2 (Option.isSome_iff_ne_none.2 circuit)
  have accepted : (s.testPending i || s.testTaken i) = true → Order.refused s (.testCircuit i) = none := fun may => by
    have fits : ¬ (Order.testCircuit i).outOfRange s := swSet_in_range set
    rw [refused_of_fits adopted fits]
    simp only [Order.refusal, supervised, may, Bool.false_eq_true, if_false, if_true]
  refine ⟨fun pending => ?_, fun idle free ready => ?_⟩
  · refine ordered_of_accepted offered trivial (accepted (by rw [(testPending_iff s i).2 pending, Bool.true_or])) (t := takeHead k s) (if_neg fun taken => ?_) rfl
    obtain ⟨_, free, idle⟩ := (testTaken_iff _ i).1 taken
    exact pending.elim (fun on => on idle) fun ⟨e, here, _⟩ => Option.some_ne_none e (here.symm.trans free)
  · have taken : s.testTaken i = true := (testTaken_iff s i).2 ⟨ready, free, idle⟩
    refine ⟨{ switch := i, kind := .test, cls := 4, joined := s.clock.elapsed, joinedHall := s.clock.hall, source := .order 0 }, rfl, rfl, rfl,
      rfl, ordered_of_block offered trivial (accepted (by rw [taken, Bool.or_true])) (if_pos taken)
        ((joinQueue_coil i .test 4 (.order 0) (takeHead k s)).trans (runQueue_coil _)).block⟩

/-! ## CLEAR-COUNTERS -/

theorem subjectNames_iff (subject i : Nat) : subjectNames subject i = true ↔ subject = 0xFF ∨ subject = i := by
  simp [subjectNames]

/-- Settles O38, by the scope. -/
theorem countersCleared : Obligations.CountersCleared := by
  intro s k scope subject offered adopted small named
  have accepted : Order.refused s (.clearCounters scope subject) = none := by
    refine refused_of_fits adopted fun bad => ?_
    rw [Order.outOfRange] at bad
    omega
  refine ⟨(clearCounters scope subject s).1, ?_⟩
  interval_cases scope
  · refine ⟨fun _ => ordered_of_accepted offered trivial accepted rfl rfl, rfl, fun _ => ⟨rfl, fun c below => ?_⟩, nofun, nofun⟩
    refine (look_mapNumbered _ s.field.concentrators c below).trans ?_
    simp only [subjectNames_iff]
    rfl
  · refine ⟨fun _ => ordered_of_accepted offered trivial accepted rfl rfl, rfl, nofun, fun _ => ⟨rfl, fun p below => ?_⟩, nofun⟩
    refine (look_mapNumbered _ s.panel.panels p below).trans ?_
    simp only [subjectNames_iff]
    rfl
  · have runs := exec_of_accepted offered trivial accepted
    have code := code_of_plain offered trivial
    obtain ⟨slot, wf, _⟩ := offered
    refine ⟨nofun, rfl, nofun, nofun, fun _ => ⟨_, runs, ?_, ?_⟩⟩
    · exact published_of_taken (s := { s with port := { s.port with refusedCount := 0, lastRefused := 0 } })
        (t := (applyOrder k (takeHead k s) (.clearCounters 2 subject)).1) slot wf rfl rfl .ok 0
    · rw [publish_of_not_adopt (s := (applyOrder k (takeHead k s) (.clearCounters 2 subject)).1) code]
      rfl

end Sys2Proof.Machine
end

section
/-! Chain marks (R162, R164): slots published one after another, joining, overflow and the hold timer. -/

namespace Sys2Proof.Machine

/-! ## Slots published one after another -/

theorem readNat_congr {m m' : List Host.Cell} {a n : Nat} (same : ∀ b, a ≤ b → b < a + n → Memory.read m b = Memory.read m' b) :
    Memory.readNat m a n = Memory.readNat m' a n := by
  unfold Memory.readNat
  congr 1
  refine List.map_congr_left fun i inside => same _ (Nat.le_add_right a i) ?_
  have := List.mem_range.1 inside
  omega

section
variable {slots : List Nat} {x u : State} (answers : OnlyAnswers slots x u)
include answers

theorem OnlyAnswers.slotWord_low {j w : Nat} (low : w < 27) : slotWord u.port j w = slotWord x.port j w :=
  readNat_congr fun b low' high => answers.1 b fun k _ => by simp only [slotAddress] at *; omega

theorem OnlyAnswers.slotWord_other {j w : Nat} (small : w < 32) (other : j ∉ slots) : slotWord u.port j w = slotWord x.port j w :=
  readNat_congr fun b low' high => answers.1 b fun k listed => by
    have apart : k ≠ j := fun same => other (same ▸ listed)
    simp only [slotAddress] at *
    omega

theorem OnlyAnswers.orderCode_eq (j : Nat) : orderCode u.port j = orderCode x.port j := by
  unfold orderCode
  rw [answers.1 _ fun k _ => by simp only [slotAddress]; omega]

theorem OnlyAnswers.clock : u.clock = x.clock := by
  obtain ⟨_, _, _, _, whole⟩ := answers
  rw [whole]

theorem OnlyAnswers.slotAnswered {k d : Nat} {r : Result} (other : k ∉ slots) (answered : SlotAnswered k r d x) : SlotAnswered k r d u := by
  obtain ⟨done, code, detail, time⟩ := answered
  refine ⟨(answers.2.1 k other).trans done, ?_, ?_, ?_⟩
  · rw [answers.slotWord_other (by decide) other, code]
  · rw [answers.slotWord_other (by decide) other, detail]
  · rw [answers.slotWord_other (by decide) other, answers.slotWord_other (by decide) other, time, answers.clock]

end

/-- Answers given to slots of x answer those of any state that differs from x in their holders and in the engine alone. -/
theorem OnlyAnswers.of_taken {slots : List Nat} {s x u : State}
    (whole : x = { s with port := { s.port with holders := x.port.holders }, engine := x.engine })
    (holders : ∀ j, j ∉ slots → x.holder j = s.holder j) (answers : OnlyAnswers slots x u) : OnlyAnswers slots s u := by
  obtain ⟨bytes, others, none, last, rest⟩ := answers
  rw [whole] at bytes none last rest
  exact ⟨bytes, fun j outside => (others j outside).trans (holders j outside), none, last, rest⟩

theorem onlyAnswers_refl (s : State) : OnlyAnswers [] s s :=
  ⟨fun _ _ => rfl, fun _ _ => rfl, fun _ => ⟨rfl, rfl⟩, fun before _ _ no => absurd no.symm (by simp), rfl⟩

theorem recordAdoption_of_code {k : Nat} {s : State} (code : orderCode s.port k = 1) (r : Result) : recordAdoption k r s = { s with
    settings := { s.settings with lastScope := publishedScope k s, lastResult := BitVec.ofNat 8 r.code }
    free := s.free + 1 } := if_pos code

theorem publish_of_adopt {k : Nat} {s : State} (code : orderCode s.port k = 1) (r : Result) (d : Nat) : publish k r d s = { s with
    settings := { s.settings with lastScope := publishedScope k s, lastResult := BitVec.ofNat 8 r.code }
    free := s.free + 1
    port := { s.port with mem := outcomeWords k r d s.clock.hall s.port.mem, holders := put s.port.holders k .done } } := by
  rw [publish, recordAdoption_of_code code]
  rfl

theorem publishedScope_of_word {k : Nat} {s : State} (word : slotWord s.port k 3 = 1 ∨ slotWord s.port k 3 = 2) :
    (publishedScope k s).toNat = slotWord s.port k 3 := by
  rcases word with word | word <;> rw [publishedScope, word] <;> rfl

theorem toNat_ofNat8_code (r : Result) : (BitVec.ofNat 8 r.code).toNat = r.code := by cases r <;> rfl

theorem publish_slotAnswered {k : Nat} {s : State} (slot : k < 32) (wf : s.memoryLaw) (r : Result) (d : Nat) :
    SlotAnswered k r d (publish k r d s) := by
  obtain ⟨done, _, code, detail, time, _⟩ := answered_publish slot wf r d
  exact ⟨done, code, detail, by rw [publish_clock]; exact time⟩

/-- A published ADOPT changes the last adoption outcome, which its slot's words then show (R176). -/
theorem publish_lastAdoption {k : Nat} {s : State} (slot : k < 32) (wf : s.memoryLaw) (code : orderCode s.port k = 1) (r : Result) (d : Nat) :
    (publish k r d s).settings.lastResult.toNat = slotWord (publish k r d s).port k 27 ∧
      (slotWord s.port k 3 = 1 ∨ slotWord s.port k 3 = 2 → (publish k r d s).settings.lastScope.toNat = slotWord s.port k 3) := by
  obtain ⟨_, outcome, _⟩ := publish_slotAnswered slot wf r d
  rw [outcome, publish_of_adopt code]
  exact ⟨toNat_ofNat8_code r, publishedScope_of_word⟩

theorem publish_onlyAnswers {k : Nat} {s : State} (slot : k < 32) (wf : s.memoryLaw) (r : Result) (d : Nat) :
    OnlyAnswers [k] s (publish k r d s) := by
  obtain ⟨_, others, _, _, _, bytes, _⟩ := answered_publish slot wf r d
  refine ⟨fun a outside => bytes a (outside k List.mem_cons_self), fun j outside => others j (List.ne_of_not_mem_cons outside),
    fun none => ?_, fun before j behind whole code _ => ?_, ?_⟩
  · rw [publish_of_not_adopt (none k List.mem_cons_self)]
    exact ⟨rfl, rfl⟩
  · obtain rfl : j = k := by
      have inside : j ∈ [k] := whole ▸ List.mem_append_right before List.mem_cons_self
      exact List.mem_singleton.1 inside
    exact publish_lastAdoption slot wf code r d
  · unfold publish recordAdoption
    split <;> rfl

/-- Answers given one after another to distinct slots. -/
theorem OnlyAnswers.cons {k : Nat} {ks : List Nat} {x y u : State} (first : OnlyAnswers [k] x y) (rest : OnlyAnswers ks y u)
    (fresh : k ∉ ks) : OnlyAnswers (k :: ks) x u := by
  have codes := first.orderCode_eq
  have words := fun j => first.slotWord_low (j := j) (w := 3) (by decide)
  have kept := rest.slotWord_other (j := k) (w := 27) (by decide) fresh
  obtain ⟨bytes, others, none, last, whole⟩ := first
  obtain ⟨bytes', others', none', last', whole'⟩ := rest
  refine ⟨fun a outside => ?_, fun j outside => ?_, fun plain => ?_, fun before j behind split code after => ?_, ?_⟩
  · obtain ⟨here, behind⟩ := List.forall_mem_cons.1 outside
    rw [bytes' a behind, bytes a (List.forall_mem_singleton.2 here)]
  · rw [others' j fun no => outside (List.mem_cons_of_mem k no),
      others j fun no => outside (List.mem_singleton.1 no ▸ List.mem_cons_self)]
  · obtain ⟨here, behind⟩ := List.forall_mem_cons.1 plain
    obtain ⟨settings, free⟩ := none (List.forall_mem_singleton.2 here)
    obtain ⟨settings', free'⟩ := none' fun j listed => by rw [codes]; exact behind j listed
    exact ⟨settings'.trans settings, free'.trans free⟩
  · rcases List.cons_eq_append_iff.1 split with ⟨rfl, eq⟩ | ⟨before', rfl, eq⟩
    · obtain ⟨rfl, rfl⟩ := List.cons.inj eq
      obtain ⟨settings, _⟩ := none' fun i listed => by rw [codes]; exact after i listed
      rw [settings, kept]
      exact last [] j [] rfl code nofun
    · have here := last' before' j behind eq (by rw [codes]; exact code) fun i listed => by rw [codes]; exact after i listed
      rw [words] at here
      exact here
  · rw [whole', whole]

/-- Distinct slots published one after another each hold their answer, and nothing else changes. -/
theorem publishAll_spec (outcomes : List (Nat × Result × Nat)) {s : State} (once : (outcomes.map fun x => x.1).Nodup)
    (small : ∀ x ∈ outcomes, x.1 < 32) (wf : s.memoryLaw) :
    OnlyAnswers (outcomes.map fun x => x.1) s (publishAll outcomes s) ∧
      (publishAll outcomes s).engine = s.engine ∧ ∀ x ∈ outcomes, SlotAnswered x.1 x.2.1 x.2.2 (publishAll outcomes s) := by
  induction outcomes generalizing s with
  | nil => exact ⟨onlyAnswers_refl s, rfl, nofun⟩
  | cons x xs ih =>
    obtain ⟨slot, others⟩ := List.forall_mem_cons.1 small
    obtain ⟨fresh, once⟩ := List.nodup_cons.1 once
    have wf' : (publish x.1 x.2.1 x.2.2 s).memoryLaw := by
      rw [State.memoryLaw, publish_mem]
      exact outcomeWords_wf _ _ _ _ _ wf
    obtain ⟨answers, engine, each⟩ := ih once others wf'
    refine ⟨(publish_onlyAnswers slot wf _ _).cons answers fresh, engine.trans (publish_engine ..), List.forall_mem_cons.2 ⟨?_, each⟩⟩
    exact answers.slotAnswered fresh (publish_slotAnswered slot wf _ _)

/-! ## Joining a chain -/

theorem chainable_iff (o : Order) : o.chainable = true ↔ o.command ∈ [Instr.forcePoint, .releasePoint, .ackWindows, .resetWindows, .shelve,
    .unshelve, .setMode, .isolate, .restore, .resetSwitch] := by
  cases o <;> simp [Order.chainable]

theorem early_iff (o : Order) : o.early = true ↔ o = .restart ∨ o = .adopt 2 := by
  cases o <;> simp [Order.early]

theorem tooEarly_iff (o : Order) (s : State) : tooEarly o s = true ↔ ¬ TakenNow s o := by
  rw [tooEarly, Bool.and_eq_true, Bool.not_eq_true', Bool.not_eq_true', TakenNow, ← early_iff, not_or, Bool.not_eq_true, Bool.not_eq_true]

theorem nextMarked_of_offered {s : State} {k : Nat} {mark : ChainMark} {o : Order} (offered : Offered s k mark o) :
    s.nextMarked mark = some (k, o) := by
  obtain ⟨_, _, running, free, head, marked, order⟩ := offered
  have slot : s.nextSlot = some k := (nextSlot_of_free running free).trans head
  simp only [State.nextMarked, slot, marked, order, if_true]

theorem joinFailure (o : Order) (k : Nat) (s : State) : JoinFailure s o (intakeFailure o (takeHead k s)) := by
  have same : o.badParameters (takeHead k s) = o.badParameters s := by cases o <;> rfl
  rw [intakeFailure, same]
  refine ⟨fun no => by rw [no]; rfl, fun yes out => ?_, fun yes fits => ?_⟩
  · rw [yes, (outOfRange_iff s o).1 out]
    rfl
  · rw [yes, outOfRange_eq_false fits]
    rfl

/-- The slot taken answers as it stood in the list. -/
theorem OnlyAnswers.of_takeHead {slots : List Nat} {k : Nat} {s u : State} (slot : k < 32) (inside : k ∈ slots)
    (answers : OnlyAnswers slots (takeHead k s) u) : OnlyAnswers slots s u :=
  answers.of_taken rfl fun j outside => (takeHead_holder k s slot j).trans (if_neg fun (same : j = k) => outside (same ▸ inside))

theorem turnedAway_of_publish {c : Instr} {k : Nat} {s : State} (slot : k < 32) (wf : s.memoryLaw) {r : Result}
    (runs : exec c s = .next (finish (publish k r 0 (takeHead k s)))) : TurnedAway c k r s :=
  ⟨_, runs, published_of_taken slot wf rfl rfl r 0, (publish_onlyAnswers (s := takeHead k s) slot wf r 0).of_takeHead slot List.mem_cons_self⟩

theorem joins_of_setChain {k : Nat} {f : Option Result} {before : List Member} {deadline : Nat} {s : State} (slot : k < 32) :
    Joins k f before deadline s
      ((takeHead k s).setChain (some { members := before ++ [{ slot := k, failure := f }], deadline := deadline })) :=
  ⟨rfl, (takeHead_holder k s slot k).trans (if_pos rfl), fun j apart => (takeHead_holder k s slot j).trans (if_neg apart)⟩

theorem openChain_busy {k : Nat} {o : Order} {s : State} {c : Chain} (now : tooEarly o s = false) (open_ : s.engine.chain = some c) :
    openChain k o s = publish k .chainBusy 0 s := by
  simp only [openChain, now, Bool.false_eq_true, if_false, open_]

theorem openChain_fresh {k : Nat} {o : Order} {s : State} (now : tooEarly o s = false) (closed : s.engine.chain = none) :
    openChain k o s = s.setChain (some { members := [{ slot := k, failure := intakeFailure o s }], deadline := s.clock.elapsed + 2000 }) := by
  simp only [openChain, now, Bool.false_eq_true, if_false, closed]

section
variable {k : Nat} {o : Order} {joined : Chain → State → State} {s : State}

theorem joinChain_early (early : tooEarly o s = true) : joinChain k o joined s = publish k .notConfigured 0 s := if_pos early

variable (now : tooEarly o s = false)
include now

theorem joinChain_closed (closed : s.engine.chain = none) : joinChain k o joined s = publish k .noChain 0 s := by
  simp only [joinChain, now, Bool.false_eq_true, if_false, closed]

theorem joinChain_full {c : Chain} (open_ : s.engine.chain = some c) (full : 16 ≤ c.members.length) :
    joinChain k o joined s = overflowChain k c.members (s.setChain none) := by
  simp only [joinChain, now, Bool.false_eq_true, if_false, open_, full, if_true]

theorem joinChain_room {c : Chain} (open_ : s.engine.chain = some c) (room : c.members.length < 16) :
    joinChain k o joined s = joined { c with members := c.members ++ [{ slot := k, failure := intakeFailure o s }] } s := by
  simp only [joinChain, now, Bool.false_eq_true, if_false, open_, Nat.not_le.2 room]

end

/-! ## A chain given up -/

theorem publishMembers_slots (r : Result) (ms : List Member) :
    ((ms.map fun m => (m.slot, r, 0)).map fun x : Nat × Result × Nat => x.1) = ms.map fun m => m.slot := by
  rw [List.map_map]
  rfl

/-- Every member of a chain published with one outcome. -/
theorem publishMembers_spec (r : Result) {ms : List Member} {s : State} (distinct : MembersDistinct ms) (wf : s.memoryLaw) :
    OnlyAnswers (ms.map fun m => m.slot) s (publishMembers r ms s) ∧ (publishMembers r ms s).engine = s.engine ∧
      ∀ m ∈ ms, SlotAnswered m.slot r 0 (publishMembers r ms s) := by
  obtain ⟨small, once⟩ := distinct
  obtain ⟨answers, engine, each⟩ := publishAll_spec (ms.map fun m => (m.slot, r, 0)) (s := s) (by rw [publishMembers_slots]; exact once)
    (List.forall_mem_map.2 small) wf
  rw [publishMembers_slots] at answers
  exact ⟨answers, engine, fun m member => each _ (List.mem_map_of_mem member)⟩

theorem overflowChain_eq (k : Nat) (ms : List Member) (s : State) :
    overflowChain k ms s = publishAll ((ms.map fun m : Member => (m.slot, Result.chainFailed, 0)) ++ [(k, Result.badParameter, 0)]) s := by
  rw [publishAll, List.foldl_append]
  rfl

theorem overflowChain_spec {k : Nat} {ms : List Member} {s : State} (slot : k < 32) (distinct : MembersDistinct ms)
    (fresh : ∀ m ∈ ms, m.slot ≠ k) (wf : s.memoryLaw) :
    OnlyAnswers ((ms.map fun m => m.slot) ++ [k]) s (overflowChain k ms s) ∧ (overflowChain k ms s).engine = s.engine ∧
      SlotAnswered k .badParameter 0 (overflowChain k ms s) ∧ ∀ m ∈ ms, SlotAnswered m.slot .chainFailed 0 (overflowChain k ms s) := by
  obtain ⟨small, once⟩ := distinct
  have slots : ((((ms.map fun m : Member => (m.slot, Result.chainFailed, 0)) ++ [(k, Result.badParameter, 0)]).map fun x : Nat × Result × Nat => x.1)) =
      (ms.map fun m => m.slot) ++ [k] := by
    rw [List.map_append, publishMembers_slots]
    rfl
  have apart : ((ms.map fun m => m.slot) ++ [k]).Nodup := List.nodup_append.2 ⟨once, List.nodup_singleton k, fun a inside b last => by
    obtain ⟨m, member, rfl⟩ := List.mem_map.1 inside
    rw [List.mem_singleton.1 last]
    exact fresh m member⟩
  obtain ⟨answers, engine, each⟩ := publishAll_spec ((ms.map fun m : Member => (m.slot, Result.chainFailed, 0)) ++ [(k, .badParameter, 0)]) (s := s)
    (by rw [slots]; exact apart) (List.forall_mem_append.2 ⟨List.forall_mem_map.2 small, List.forall_mem_singleton.2 slot⟩) wf
  rw [slots] at answers
  rw [overflowChain_eq]
  exact ⟨answers, engine, each (k, .badParameter, 0) (List.mem_append_right _ List.mem_cons_self),
    fun m member => each (m.slot, .chainFailed, 0) (List.mem_append_left _ (List.mem_map_of_mem member))⟩

theorem OnlyAnswers.of_dropped {slots : List Nat} {k : Nat} {s u : State} (slot : k < 32) (inside : k ∈ slots)
    (answers : OnlyAnswers slots ((takeHead k s).setChain none) u) : OnlyAnswers slots s u :=
  (answers.of_taken (s := takeHead k s) rfl fun _ _ => rfl).of_takeHead slot inside

/-- What the slot of an order with a chain mark leads to, by its mark: the run of the command is `openChain` or `joinChain`. -/
theorem exec_of_marked {s : State} {k : Nat} {mark : ChainMark} {c : Instr} {o : Order} (offered : Offered s k mark o)
    (kind : (mark = .opening ∧ c = .chainOpen) ∨ (mark = .continuing ∧ c = .chainContinue) ∨ (mark = .closing ∧ c = .chainClose)) :
    (mark = .opening → exec c s = .next (finish (openChain k o (takeHead k s)))) ∧
    (mark = .continuing → exec c s = .next (finish (joinChain k o (fun c s => s.setChain (some c)) (takeHead k s)))) ∧
    (mark = .closing → exec c s = .next (finish (joinChain k o (fun c s => closeChain c.members (s.setChain none)) (takeHead k s)))) := by
  have next := nextMarked_of_offered offered
  rcases kind with ⟨rfl, rfl⟩ | ⟨rfl, rfl⟩ | ⟨rfl, rfl⟩
  · exact ⟨fun _ => by change execChainOpen s = _; rw [execChainOpen, next], nofun, nofun⟩
  · exact ⟨nofun, fun _ => by change execChainContinue s = _; rw [execChainContinue, next], nofun⟩
  · exact ⟨nofun, nofun, fun _ => by change execChainClose s = _; rw [execChainClose, next]⟩

/-- An order that joins: CONTINUE and CLOSE differ only in what becomes of the chain with its new member. -/
theorem exec_of_joining {s : State} {k : Nat} {mark : ChainMark} {c : Instr} {o : Order} (offered : Offered s k mark o)
    (kind : (mark = .opening ∧ c = .chainOpen) ∨ (mark = .continuing ∧ c = .chainContinue) ∨ (mark = .closing ∧ c = .chainClose))
    (other : mark ≠ .opening) : ∃ joined, exec c s = .next (finish (joinChain k o joined (takeHead k s))) := by
  obtain ⟨_, continues, closes⟩ := exec_of_marked offered kind
  rcases kind with ⟨rfl, _⟩ | ⟨rfl, _⟩ | ⟨rfl, _⟩
  · exact absurd rfl other
  · exact ⟨_, continues rfl⟩
  · exact ⟨_, closes rfl⟩

theorem exec_of_early {s : State} {k : Nat} {mark : ChainMark} {c : Instr} {o : Order} (offered : Offered s k mark o)
    (kind : (mark = .opening ∧ c = .chainOpen) ∨ (mark = .continuing ∧ c = .chainContinue) ∨ (mark = .closing ∧ c = .chainClose))
    (early : ¬ TakenNow s o) : exec c s = .next (finish (publish k .notConfigured 0 (takeHead k s))) := by
  have early' : tooEarly o (takeHead k s) = true := (tooEarly_iff o s).2 early
  by_cases opening : mark = .opening
  · rw [(exec_of_marked offered kind).1 opening, openChain, if_pos early']
  · obtain ⟨joined, runs⟩ := exec_of_joining offered kind opening
    rw [runs, joinChain_early early']

/-- Settles O40: a slot with a chain mark by the mark and the open chain, and the hold timer of an open chain. -/
theorem chainsOpenAndJoin : Obligations.ChainsOpenAndJoin := by
  refine ⟨chainable_iff, fun s k mark c o offered kind => ?_, fun s ch wf open_ distinct due => ⟨fun halted => ?_, fun running => ?_⟩⟩
  · have early := exec_of_early offered kind
    obtain ⟨opens, continues, _⟩ := exec_of_marked offered kind
    have joining := exec_of_joining offered kind
    obtain ⟨slot, wf, _⟩ := offered
    refine ⟨fun no => turnedAway_of_publish slot wf (early no), fun taken => ?_⟩
    have now : tooEarly o (takeHead k s) = false := Bool.eq_false_iff.2 fun no => (tooEarly_iff o s).1 no taken
    refine ⟨fun opening busy => ?_, fun other closed => ?_, fun opening closed => ?_, fun ch continuing open_ room => ?_,
      fun ch other open_ full distinct fresh => ?_⟩
    · obtain ⟨ch, open_⟩ := Option.ne_none_iff_exists'.1 busy
      exact turnedAway_of_publish slot wf ((opens opening).trans (by rw [openChain_busy (s := takeHead k s) now open_]))
    · obtain ⟨joined, runs⟩ := joining other
      exact turnedAway_of_publish slot wf (runs.trans (by rw [joinChain_closed (s := takeHead k s) now closed]))
    · exact ⟨_, _, (opens opening).trans (by rw [openChain_fresh (s := takeHead k s) now closed]; rfl), joinFailure o k s, joins_of_setChain slot⟩
    · exact ⟨_, _, (continues continuing).trans (by rw [joinChain_room (s := takeHead k s) now open_ room]), joinFailure o k s,
        joins_of_setChain slot⟩
    · obtain ⟨joined, runs⟩ := joining other
      obtain ⟨answers, engine, last, each⟩ := overflowChain_spec (s := (takeHead k s).setChain none) slot distinct fresh wf
      exact ⟨_, runs.trans (by rw [joinChain_full (s := takeHead k s) now open_ full]),
        answers.of_dropped slot (List.mem_append_right _ List.mem_cons_self), engine, last, each⟩
  · change execChainHoldTimerExpiry s = _
    simp only [execChainHoldTimerExpiry, open_, halted, Bool.not_true, Bool.and_false, Bool.false_eq_true, if_false]
  · have elapsed : s.due ch.deadline = true := decide_eq_true due
    obtain ⟨answers, engine, each⟩ := publishMembers_spec .chainAbandoned (s := s.setChain none) distinct wf
    refine ⟨_, ?_, answers.of_taken rfl fun _ _ => rfl, engine, each⟩
    change execChainHoldTimerExpiry s = _
    simp only [execChainHoldTimerExpiry, open_, elapsed, running, Bool.not_false, Bool.and_self, if_true]

end Sys2Proof.Machine
end

section
/-! CLOSE (R163): what each order does as a member of a chain, the check of the members, and what they leave to other blocks. -/

namespace Sys2Proof.Machine

/-! ## A qualified change recorded (R5, R10) -/

/-- A counted change that suppresses its point (R10). -/
def Point.suppressedBy (p : Point) (c : PointSettings) (counted : Bool) (count : Nat) : Prop :=
  counted = true ∧ p.frozen = none ∧ c.threshold ≠ 0 ∧ c.threshold < count

theorem counted_of_suppressed {p : Point} {c : PointSettings} {before counted : Bool} {count : Nat} (counts : counted = true → count = min (p.chatter + 1) 255)
    (suppressed : p.suppressedBy c counted count) :
    (if counted then p.counted c before else p) = { p with chatter := count, frozen := some before } := by
  obtain ⟨yes, free, some, above⟩ := suppressed
  have count' := counts yes
  rw [if_pos yes, Point.counted]
  simp only [saturate_eq_min, ← count', free, Option.isNone_none, true_and]
  rw [if_pos ⟨some, above⟩]

theorem counted_of_not_suppressed {p : Point} {c : PointSettings} {before counted : Bool} {count : Nat}
    (counts : counted = true → count = min (p.chatter + 1) 255) (stays : counted = false → count = p.chatter)
    (free : ¬ p.suppressedBy c counted count) : (if counted then p.counted c before else p) = { p with chatter := count } := by
  cases counted with
  | false => rw [stays rfl]; rfl
  | true =>
    rw [if_pos rfl, Point.counted]
    simp only [saturate_eq_min, ← counts rfl]
    rw [if_neg fun both => free ⟨rfl, Option.isNone_iff_eq_none.1 both.1, both.2⟩]

theorem recordChange_eq (n : Nat) (c : PointSettings) (p : Point) (before counted : Bool) (f : ChangeFlags) (s : State) :
    recordChange n c p before counted f s = match changeEntry n c p (if counted then p.counted c before else p) f with
      | some e => { WithPoint n (if counted then p.counted c before else p) s with jr := s.jr.request s.clock.hall e }
      | none => WithPoint n (if counted then p.counted c before else p) s := by
  unfold recordChange
  split <;> rfl

/-- Every qualified change is recorded as R5 and R10 say. -/
theorem changeRecorded (n : Nat) (c : PointSettings) (p : Point) (before counted : Bool) (f : ChangeFlags) (s : State) :
    ChangeRecorded n c p before counted f s (recordChange n c p before counted f s) := by
  let count := if counted then min (p.chatter + 1) 255 else p.chatter
  have counts : counted = true → count = min (p.chatter + 1) 255 := fun yes => if_pos yes
  have stays : counted = false → count = p.chatter := fun no => if_neg (by rw [no]; decide)
  have record := recordChange_eq n c p before counted f s
  by_cases suppressed : p.suppressedBy c counted count
  · have point := counted_of_suppressed (before := before) counts suppressed
    obtain ⟨_, free, _⟩ := id suppressed
    refine ⟨count, p.suppressedBy c counted count, _, counts, stays, Iff.rfl, fun _ => rfl, fun no => absurd suppressed no, fun _ => ?_,
      fun no => absurd suppressed no, fun no => absurd suppressed no⟩
    have entry : changeEntry n c p { p with chatter := count, frozen := some before } f =
        some (chatterEntry n false count p.qualified p.rawTime) := if_pos ⟨by rw [free]; rfl, rfl⟩
    rw [point, entry] at record
    exact record
  · have point := counted_of_not_suppressed (before := before) counts stays suppressed
    have still : ¬ (p.frozen.isNone = true ∧ p.frozen.isSome = true) := by cases p.frozen <;> simp
    rw [point] at record
    refine ⟨count, p.suppressedBy c counted count, _, counts, stays, Iff.rfl, fun yes => absurd yes suppressed, fun _ => rfl,
      fun yes => absurd yes suppressed, fun _ journal free => ?_, fun _ quiet => ?_⟩
    · have entry : changeEntry n c p { p with chatter := count } f =
          some (pointEntry n p.qualified p.quality p.rawTime p.qualifyTime f) := by
        rw [changeEntry, if_neg still, if_pos ⟨journal, by rw [free]; rfl⟩]
        rfl
      rw [entry] at record
      exact record
    · have entry : changeEntry n c p { p with chatter := count } f = none := by
        rw [changeEntry, if_neg still, if_neg fun shown => ?_]
        rcases quiet with off | held
        · rw [off] at shown
          exact absurd shown.1 (by decide)
        · exact held (Option.isNone_iff_eq_none.1 shown.2)
      rw [entry] at record
      exact record

/-! ## What each order does as a member -/

theorem markForced_member {n v : Nat} (value : v ≤ 1) (k : Nat) (s : State) : MemberApplied k s (applyInChain k s (.forcePoint n v)) (.forcePoint n v) := by
  have number : bit (v == 1) = v := by interval_cases v <;> rfl
  have whole := markForced_whole n (v == 1) s
  rw [number] at whole
  exact ⟨rfl, rfl, _, rfl, whole⟩

theorem releaseMember_applied (k n : Nat) (s : State) : MemberApplied k s (applyInChain k s (.releasePoint n)) (.releasePoint n) := by
  have acts : applyInChain k s (.releasePoint n) = releaseMember n s := rfl
  rw [acts]
  refine ⟨fun free => by simp only [releaseMember, free], fun value c held set => ?_⟩
  by_cases same : (s.pt n).qualified = value
  · have member : releaseMember n s = ⟨s.unforcedAt n value, 0, [.point n s.clock.hall true (s.pt n).facing]⟩ := by
      simp only [releaseMember, held, set]
      exact if_pos same
    rw [member]
    exact ⟨_, rfl, rfl, fun _ => ⟨rfl, rfl⟩, fun other => absurd same other⟩
  · have member : releaseMember n s = ⟨recordChange n c { (s.pt n).unforced with rawTime := s.clock.hall, qualifyTime := s.clock.hall } value true
        { standing := (s.pt n).qualified, afterLoss := false, forcedRelease := true, settings := false } (s.unforcedAt n value), 0,
        [.point n s.clock.hall (s.pt n).qualified (s.pt n).facing]⟩ := by
      simp only [releaseMember, held, set]
      exact if_neg same
    rw [member]
    exact ⟨_, rfl, rfl, fun yes => absurd yes same, fun _ => ⟨rfl, changeRecorded ..⟩⟩

/-! ## SET-MODE as a member -/

theorem takeModeAlone_of_arming {s : State} {t : Nat} {c : TermSettings} (set : s.termSet t = some c) (arms : s.armed c = true)
    (state : (s.trm t).state = .disarmed) :
    takeModeAlone s t = if s.satisfied c then (if c.delay = 0 then becomeActive t c s.clock.hall (setTermState t .idle s)
      else enterTiming t c (setTermState t .idle s)) else setTermState t .idle s := by
  simp only [takeModeAlone, set, arms, state, and_self, if_true]
  rfl

theorem takeMode_of_arming {s : State} {t : Nat} {c : TermSettings} (set : s.termSet t = some c) (arms : s.armed c = true)
    (state : (s.trm t).state = .disarmed) : takeMode s t = enterIdle t c s := by
  simp only [takeMode, set, arms, state, if_true]

theorem takeModeAlone_of_other {s : State} {t : Nat} (other : ∀ c, s.termSet t = some c → ¬ (s.armed c = true ∧ (s.trm t).state = .disarmed)) :
    takeModeAlone s t = takeMode s t := by
  unfold takeModeAlone
  split
  · next none => simp only [takeMode, none]
  · next c set => exact if_neg (other c set)

/-- A term that takes a change of mode alone owes the trips of its outputs where it enters ACTIVE (R84, R91, R163). -/
theorem takeMode_eq_owed (s : State) (t : Nat) :
    takeMode s t = (if (s.trm t).state = .disarmed ∧ ((takeModeAlone s t).trm t).state = .active then
      ((s.termSet t).map fun c => c.outputs).getD [] else []).foldl (fun z i => requestTrip (.term t) i z) (takeModeAlone s t) := by
  by_cases arming : ∃ c, s.termSet t = some c ∧ s.armed c = true ∧ (s.trm t).state = .disarmed
  · obtain ⟨c, set, arms, state⟩ := arming
    have small := termSet_lt set
    rw [takeMode_of_arming set arms state, takeModeAlone_of_arming set arms state, set]
    have idle : ((setTermState t .idle s).trm t).state = .idle := trm_setTermState t .idle s small
    show (if s.satisfied c then enterTiming t c (setTermState t .idle s) else setTermState t .idle s) = _
    by_cases satisfied : s.satisfied c = true
    · rw [if_pos satisfied, if_pos satisfied]
      by_cases instant : c.delay = 0
      · have active : ((becomeActive t c s.clock.hall (setTermState t .idle s)).trm t).state = .active := by
          have state := enterActive_state small c s.clock.hall (setTermState t .idle s)
          rw [State.trm, enterActive_term] at state
          exact state
        rw [if_pos instant, if_pos ⟨state, active⟩, enterTiming, if_pos instant]
        rfl
      · have timing := enterTiming_state small c (setTermState t .idle s)
        rw [if_neg instant] at timing
        rw [if_neg instant, if_neg fun both => by rw [timing] at both; exact absurd both.2 (by decide)]
        rfl
    · rw [if_neg satisfied, if_neg satisfied, if_neg fun both => by rw [idle] at both; exact absurd both.2 (by decide)]
      rfl
  · have same := takeModeAlone_of_other (s := s) (t := t) fun c set both => arming ⟨c, set, both⟩
    rw [same, if_neg fun both => ?_]
    · rfl
    · obtain ⟨off, active⟩ := both
      cases set : s.termSet t with
      | none =>
        rw [show takeMode s t = s by simp only [takeMode, set], off] at active
        cases active
      | some c =>
        have unarmed : s.armed c = false := Bool.eq_false_iff.2 fun arms => arming ⟨c, set, arms, off⟩
        rw [(takeMode_own set).2.2 unarmed, off] at active
        cases active

theorem takeModeAlone_term (s : State) (t : Nat) : (takeModeAlone s t).term = (takeMode s t).term := by
  rw [takeMode_eq_owed s t, requestTrips_term]

theorem modeMember_applied (k : Nat) {u m : Nat} (small : u < 8) (s : State) : MemberApplied k s (applyInChain k s (.setMode u m)) (.setMode u m) := by
  intro mode code
  have acts : applyInChain k s (.setMode u m) = modeMember u mode k s := by simp only [applyInChain, code]
  rw [acts]
  refine ⟨fun same => ?_, fun other => ?_⟩
  · rw [modeMember, setModeBy_of_same takeModeAlone same]
    have nothing : tripsOwed u s s = [] := List.flatMap_eq_nil_iff.2 fun t _ => if_neg fun both => by
      rw [both.1] at both
      exact absurd both.2 (by decide)
    simp only [nothing, List.map_nil]
  · obtain ⟨d, set, count⟩ := setModeBy_of_other takeModeAlone_term takeModeAlone_hand small other k
    have step : HandStep (s.withMode u mode k d) ((s.termsOf u).foldl takeModeAlone (s.withMode u mode k d)) :=
      foldl_hand takeModeAlone takeModeAlone_hand _ _
    rw [modeMember, set]
    refine ⟨s.withMode u mode k d, rfl, count, rfl, ?_⟩
    generalize (s.termsOf u).foldl takeModeAlone (s.withMode u mode k d) = y at step
    have settings : y.settings = s.settings := step.settings
    have terms : y.termsOf u = s.termsOf u := by simp only [State.termsOf, settings]
    have set : ∀ t, y.termSet t = s.termSet t := fun t => by simp only [State.termSet, settings]
    simp only [tripsOwed, terms, set, List.map_flatMap]
    refine List.flatMap_congr fun t _ => ?_
    split
    · cases s.termSet t with
      | none => rfl
      | some c => exact List.map_map ..
    · rfl

/-! ## The orders to switches as members -/

theorem isolateMember_applied (k i : Nat) (s : State) : MemberApplied k s (applyInChain k s (.isolate i)) (.isolate i) := by
  have acts : applyInChain k s (.isolate i) = isolateMember i s := rfl
  rw [acts]
  refine ⟨fun on => if_pos on, fun off => ⟨fun other => ?_, fun c e set here trip => ?_⟩⟩
  · have entry : (markIsolated i s).entryOf i = s.entryOf i := rfl
    simp only [isolateMember, off, Bool.false_eq_true, if_false, entry]
    cases (markIsolated i s).swSet i with
    | none => rfl
    | some c =>
      cases here : s.entryOf i with
      | none => rfl
      | some e => simp only [other e here, if_false]; rfl
  · have small := swSet_lt set
    have whole := withdrawTrip_markIsolated small c e s
    have set' : (markIsolated i s).swSet i = some c := set
    have entry : (markIsolated i s).entryOf i = some e := here
    have member : isolateMember i s = if c.kind = .lockout ∧ (withdrawTrip i c e (markIsolated i s)).operated c then
        ⟨enterLockedOut i c (withdrawTrip i c e (markIsolated i s)), 1, [.shown i, .test i, .look]⟩
        else ⟨withdrawTrip i c e (markIsolated i s), 1, [.shown i, .look]⟩ := by
      simp only [isolateMember, off, Bool.false_eq_true, if_false, set', entry, trip, if_true]
    have operated : (withdrawTrip i c e (markIsolated i s)).operated c = s.operated c := rfl
    rw [member, operated]
    refine ⟨fun no => by rw [if_neg no, whole], fun lockout yes => ?_⟩
    rw [if_pos ⟨lockout, yes⟩, whole]
    have own : look (put s.sw.switches i { s.swi i with isolated := true, state := .ready }) i = { s.swi i with isolated := true, state := .ready } :=
      look_put_same _ _ small
    simp only [enterLockedOut, setSwitchState, requestSwitch, State.request, State.setSwi, State.swi, put_put]
    simp only [State.swi] at own
    rw [own]
    rfl

theorem restoreMember_applied (k i : Nat) (s : State) : MemberApplied k s (applyInChain k s (.restore i)) (.restore i) := by
  have acts : applyInChain k s (.restore i) = ⟨(restoreSwitch i s).1, (restoreSwitch i s).2, []⟩ := rfl
  rw [acts, restoreSwitch]
  exact ⟨fun off => by rw [if_neg (by rw [off]; decide)], fun on => by rw [if_pos on]; rfl⟩

theorem resetMember_applied (k i : Nat) (s : State) : MemberApplied k s (applyInChain k s (.resetSwitch i)) (.resetSwitch i) := by
  have acts : applyInChain k s (.resetSwitch i) = resetMember i s := rfl
  rw [acts]
  intro c set
  refine ⟨fun state => ⟨{ switch := i, kind := .reset, cls := 3, joined := s.clock.elapsed, joinedHall := s.clock.hall, source := .order 0 },
    rfl, rfl, rfl, rfl, rfl, ?_⟩, fun state => ?_, fun state => ?_, fun state => ?_⟩
  · simp only [resetMember, set, state]
    rfl
  · simp only [resetMember, set, state]
    rfl
  · obtain ⟨new, lockout, confirmed, ready, whole⟩ := clearFailed_spec i c s
    refine ⟨new, lockout, confirmed, ready, ?_⟩
    rw [← whole]
    rcases state with state | state <;> simp only [resetMember, set, state]
  · rcases state with state | state <;> simp only [resetMember, set, state]

/-- What an order whose parameters are in range does as a member (R163). -/
theorem memberApplied {k : Nat} {s : State} {o : Order} (fits : ¬ o.outOfRange s) : MemberApplied k s (applyInChain k s o) o := by
  cases o with
  | forcePoint n v => exact markForced_member (by rw [Order.outOfRange, not_or, not_or] at fits; omega) k s
  | releasePoint n => exact releaseMember_applied k n s
  | setMode u m => exact modeMember_applied k (by rw [Order.outOfRange, not_or] at fits; omega) s
  | isolate i => exact isolateMember_applied k i s
  | restore i => exact restoreMember_applied k i s
  | resetSwitch i => exact resetMember_applied k i s
  | _ => rfl

/-! ## The check of the members -/

theorem orderIn_congr {p q : Port} (mem : q.mem = p.mem) (k : Nat) : orderIn q k = orderIn p k := by
  simp only [orderIn, orderCode, selectorIn, slotWord, mem]

theorem turnedAway_of_refusal {live s : State} {o : Order} {r : Result} {d : Nat} (fits : ¬ o.outOfRange s)
    (refused : o.refusal live s = some (r, d)) : o.turnedAway live s r d := by
  cases o with
  | forcePoint n v =>
    obtain ⟨t, head, same⟩ := Option.map_eq_some_iff.1 refused
    cases same
    obtain ⟨rest, split⟩ := List.head?_eq_some_iff.1 head
    have rising : (unsafeTerms s n).Pairwise (· < ·) := configuredWhere_rising _ _
    rw [split] at rising
    refine ⟨rfl, (unsafeTerm_iff s n d).1 (split ▸ List.mem_cons_self), fun t below bad => ?_⟩
    have member := (unsafeTerm_iff s n t).2 bad
    rw [split] at member
    rcases List.mem_cons.1 member with rfl | behind
    · exact absurd below (lt_irrefl t)
    · exact absurd (List.rel_of_pairwise_cons rising behind) (Nat.not_lt.2 below.le)
  | shelve w minutes =>
    rw [Order.refusal, shelveRefusal] at refused
    split at refused
    · cases refused
    · next c set =>
      split at refused
      · next no =>
        cases refused
        exact ⟨rfl, c, set, Or.inl ⟨rfl, by simpa using no⟩⟩
      · next may =>
        split at refused
        · next full =>
          cases refused
          rw [Bool.and_eq_true, Bool.not_eq_true', decide_eq_true_iff] at full
          exact ⟨rfl, c, set, Or.inr ⟨rfl, by simpa using may, (shelved_eq_false s w).1 full.1, full.2⟩⟩
        · cases refused
  | restore i =>
    rw [Order.refusal] at refused
    split at refused
    · cases refused
    · next on =>
      have on : (s.swi i).isolated = true := by simpa using on
      split at refused
      · next feeds =>
        cases refused
        exact ⟨rfl, on, Or.inl ⟨rfl, (forcedFeeds_iff s i).1 feeds⟩⟩
      · next free =>
        split at refused
        · next acting =>
          cases refused
          exact ⟨rfl, on, Or.inr ⟨rfl, fun feeds => free ((forcedFeeds_iff s i).2 feeds), (actingOn_iff live i).1 acting⟩⟩
        · cases refused
  | resetSwitch i =>
    rw [Order.refusal] at refused
    split at refused
    · next acting =>
      cases refused
      exact ⟨rfl, Or.inl ⟨rfl, (actingOn_iff live i).1 acting⟩⟩
    · next still =>
      split at refused
      · next busy =>
        cases refused
        exact ⟨rfl, Or.inr ⟨rfl, fun acting => still ((actingOn_iff live i).2 acting), (resetBusy_iff _).1 busy⟩⟩
      · cases refused
  | testCircuit i =>
    rw [Order.outOfRange, not_or] at fits
    obtain ⟨c, set⟩ := Option.ne_none_iff_exists'.1 fits.2
    rw [Order.refusal, set] at refused
    split at refused
    · next bare =>
      cases refused
      exact ⟨rfl, c, set, Or.inl ⟨rfl, Option.isNone_iff_eq_none.1 bare⟩⟩
    · next circuit =>
      split at refused
      · cases refused
      · next busy =>
        cases refused
        rw [Bool.or_eq_true, not_or, testPending_iff, not_or, testTaken_iff] at busy
        obtain ⟨⟨idle, other⟩, taken⟩ := busy
        have idle : (s.swi i).testStart = none := not_not.1 idle
        refine ⟨rfl, c, set, Or.inr ⟨rfl, fun no => circuit (Option.isNone_iff_eq_none.2 no), idle, fun e here kind => other ⟨e, here, kind⟩, ?_⟩⟩
        by_contra free
        rw [not_or, not_not, not_not] at free
        exact taken ⟨free.1, free.2, idle⟩
  | _ => cases refused

/-- The check of R163 finds what the members, each against the state the members before it leave, bring about. -/
theorem judgeMembers_check (live : State) (ms : List Member) (sim : State) (held : ∀ m ∈ ms, orderIn sim.port m.slot ≠ none) :
    ChainCheck live ms sim (judgeMembers live ms sim) := by
  induction ms generalizing sim with
  | nil => exact .done sim
  | cons m ms ih =>
    obtain ⟨here, behind⟩ := List.forall_mem_cons.1 held
    obtain ⟨o, order⟩ := Option.ne_none_iff_exists'.1 here
    rw [judgeMembers]
    cases mark : m.failure with
    | some r =>
      have fails : memberFailure live sim m = some (r, 0) := by simp only [memberFailure, mark]
      rw [fails]
      exact .marked m ms sim r mark
    | none =>
      by_cases fits : o.outOfRange sim
      · have fails : memberFailure live sim m = some (.badParameter, 0) := by
          simp only [memberFailure, mark, order, (outOfRange_iff sim o).1 fits, if_true]
        rw [fails]
        exact .gone m ms sim o mark order fits
      · have own : memberFailure live sim m = o.refusal live sim := by
          simp only [memberFailure, mark, order, outOfRange_eq_false fits, Bool.false_eq_true, if_false]
        rw [own]
        cases refused : o.refusal live sim with
        | some x => exact .turned m ms sim o x.1 x.2 mark order fits (turnedAway_of_refusal fits refused)
        | none =>
          have passes : ∀ r d, ¬ o.turnedAway live sim r d := fun r d away => by
            rw [refusal_of_turnedAway away] at refused
            cases refused
          have acts : applyMember m sim = applyInChain m.slot sim o := by simp only [applyMember, order]
          have applied : MemberApplied m.slot sim (applyMember m sim) o := acts ▸ memberApplied fits
          have rest := ih (applyMember m sim).state fun n listed => by
            have core : CoreStep sim (applyMember m sim).state := acts ▸ applyInChain_core _ _ _
            rw [orderIn_congr core.mem]
            exact behind n listed
          cases verdict : judgeMembers live ms (applyMember m sim).state with
          | passed after details left =>
            rw [verdict] at rest
            simp only [verdict]
            exact .passes m ms sim after o (applyMember m sim) details left mark order fits passes applied rest
          | failed k r d =>
            rw [verdict] at rest
            simp only [verdict]
            exact .fails m ms sim o (applyMember m sim) k r d mark order fits passes applied rest

theorem judgeMembers_failed {live : State} {ms : List Member} {sim : State} {k d : Nat} {r : Result}
    (failed : judgeMembers live ms sim = .failed k r d) : ∃ m ∈ ms, m.slot = k := by
  induction ms generalizing sim with
  | nil => cases failed
  | cons m ms ih =>
    rw [judgeMembers] at failed
    split at failed
    · cases failed
      exact ⟨m, List.mem_cons_self, rfl⟩
    · extract_lets a at failed
      split at failed
      · cases failed
      · next rest =>
        cases failed
        obtain ⟨n, behind, same⟩ := ih rest
        exact ⟨n, List.mem_cons_of_mem m behind, same⟩

/-! ## What is left to other blocks -/

/-- A rising list of the numbers whose settings pass a test. -/
theorem configuredWhere_eq_filter {α : Type} {n : Nat} (v : Vector (Option α) n) (p : α → Bool) :
    configuredWhere v p = (List.range n).filter fun i => (look v i).any p := by
  have rising : ((List.range n).filter fun i => (look v i).any p).Pairwise (· < ·) := List.pairwise_lt_range.filter _
  refine List.Perm.eq_of_pairwise (fun a b _ _ below above => absurd below (Nat.not_lt.2 above.le)) (configuredWhere_rising v p) rising
    ((List.perm_ext_iff_of_nodup ((configuredWhere_rising v p).imp Nat.ne_of_lt) (rising.imp Nat.ne_of_lt)).2 fun i => ?_)
  rw [mem_configuredWhere, List.mem_filter, List.mem_range, Option.any_eq_true]
  refine ⟨fun found => ⟨?_, found⟩, fun found => found.2⟩
  obtain ⟨c, set, _⟩ := found
  by_contra beyond
  rw [look_beyond _ _ (Nat.not_lt.1 beyond)] at set
  cases set

theorem windowsOn_eq (s : State) (n : Nat) :
    s.windowsOn n = (List.range 384).filter fun w => (s.winSet w).any fun c => c.sources.contains n := configuredWhere_eq_filter _ _

theorem facingAwaiting_iff (s : State) (await : Awaited) (n : Nat) : s.facingAwaiting await n = true ↔ ActiveSoFar s await n := by
  unfold State.facingAwaiting ActiveSoFar
  cases await.find? fun x => x.1 == n with
  | none => simp
  | some x => simp

theorem inputThrough_suffix_iff (s : State) (c : WindowSettings) (await : Awaited) :
    s.inputThrough c await = true ↔ ∀ rest, rest <:+ await → ∃ n ∈ c.sources, ActiveSoFar s rest n := by
  induction await with
  | nil =>
    rw [State.inputThrough, inputOf_iff]
    refine ⟨fun ⟨n, source, facing⟩ rest suffix => ⟨n, source, ?_⟩, fun all => ?_⟩
    · rw [List.suffix_nil.1 suffix]
      exact ⟨nofun, fun _ => facing⟩
    · obtain ⟨n, source, _, facing⟩ := all [] (List.suffix_refl [])
      exact ⟨n, source, facing rfl⟩
  | cons x xs ih =>
    rw [State.inputThrough, Bool.and_eq_true, ih, List.any_eq_true]
    simp only [facingAwaiting_iff]
    refine ⟨fun ⟨here, behind⟩ rest suffix => ?_, fun all => ⟨all _ (List.suffix_refl _), fun rest suffix =>
      all rest (suffix.trans (List.suffix_cons x xs))⟩⟩
    rcases List.suffix_cons_iff.1 suffix with rfl | inner
    · exact here
    · exact behind rest inner

theorem takeInputAwaiting_spec {s : State} {w : Nat} {c : WindowSettings} (set : s.winSet w = some c) (await : Awaited) (time : HallTime)
    (standing : Bool) : InputAwaiting s w c await time standing (takeInputAwaiting await time standing .input s w) := by
  have alone : takeInput time standing .input s w = putInput (s.inputOf c) time standing .input c w s := by simp only [takeInput, set]
  have awaiting : takeInputAwaiting await time standing .input s w =
      putInput (if (s.window w).input then s.inputOf c else s.inputThrough c await) time standing .input c w s := by
    simp only [takeInputAwaiting, set]
  unfold InputAwaiting
  rw [alone, awaiting]
  refine ⟨fun high => by rw [if_pos high], fun low all => ?_, fun low some => ?_⟩
  · have through := (inputThrough_suffix_iff s c await).2 all
    have now : s.inputOf c = true := by
      rw [inputOf_iff]
      obtain ⟨n, source, _, facing⟩ := all [] (List.nil_suffix)
      exact ⟨n, source, facing rfl⟩
    rw [if_neg (by rw [low]; decide), through, now]
  · have through : s.inputThrough c await = false := Bool.eq_false_iff.2 fun all => some ((inputThrough_suffix_iff s c await).1 all)
    rw [if_neg (by rw [low]; decide), through]
    simp only [putInput, low, Bool.not_false, Bool.and_false, Bool.false_and, Bool.false_eq_true, if_false]

/-! ## CLOSE -/

/-- A chain closed with these members: every slot is answered, and the rest is what the verdict leaves. -/
theorem closeChain_spec {ms : List Member} {s : State} (distinct : MembersDistinct ms) (wf : s.memoryLaw) :
    (closeChain ms s).engine = s.engine ∧
      (∀ after details left, judgeMembers s ms s = .passed after details left →
        OnlyAnswers (ms.map fun m => m.slot) (follow left after) (closeChain ms s) ∧ (details.map fun x => x.1) = (ms.map fun m => m.slot) ∧
          ∀ x ∈ details, SlotAnswered x.1 .ok x.2 (closeChain ms s)) ∧
      ∀ slot r d, judgeMembers s ms s = .failed slot r d →
        OnlyAnswers (ms.map fun m => m.slot) s (closeChain ms s) ∧ SlotAnswered slot r d (closeChain ms s) ∧
          ∀ m ∈ ms, m.slot ≠ slot → SlotAnswered m.slot .chainFailed 0 (closeChain ms s) := by
  obtain ⟨small, once⟩ := distinct
  rw [closeChain]
  cases verdict : judgeMembers s ms s with
  | passed after details left =>
    obtain ⟨core, _, slots⟩ := judgeMembers_passed verdict
    have whole : CoreStep s (follow left after) := core.trans (follow_core _ _)
    have wf' : (follow left after).memoryLaw := by rw [State.memoryLaw, whole.mem]; exact wf
    have names : ((details.map fun x => (x.1, Result.ok, x.2)).map fun x => x.1) = ms.map fun m => m.slot := by
      rw [List.map_map, ← slots]
      rfl
    have low : ∀ x ∈ details, x.1 < 32 := fun x inside => by
      have slot : x.1 ∈ ms.map fun m => m.slot := slots ▸ List.mem_map_of_mem inside
      obtain ⟨m, member, same⟩ := List.mem_map.1 slot
      exact same ▸ small m member
    obtain ⟨answers, engine, each⟩ := publishAll_spec (details.map fun x => (x.1, Result.ok, x.2)) (by rw [names]; exact once)
      (List.forall_mem_map.2 low) wf'
    rw [names] at answers
    refine ⟨engine.trans whole.engine, fun a ds l same => ?_, nofun⟩
    cases same
    exact ⟨answers, slots, fun x inside => each _ (List.mem_map_of_mem inside)⟩
  | failed k r d =>
    have names : ((ms.map fun m => if m.slot = k then (k, r, d) else (m.slot, Result.chainFailed, 0)).map fun x => x.1) =
        ms.map fun m => m.slot := by
      rw [List.map_map]
      refine List.map_congr_left fun m _ => ?_
      show (if m.slot = k then (k, r, d) else (m.slot, Result.chainFailed, 0)).1 = m.slot
      split
      · next same => exact same.symm
      · rfl
    obtain ⟨answers, engine, each⟩ := publishAll_spec (ms.map fun m => if m.slot = k then (k, r, d) else (m.slot, Result.chainFailed, 0)) (s := s)
      (by rw [names]; exact once) (List.forall_mem_map.2 fun m member => by
        split
        · next same => exact same ▸ small m member
        · exact small m member) wf
    rw [names] at answers
    refine ⟨engine, fun _ _ _ no => (by cases no), fun slot r' d' same => ?_⟩
    cases same
    obtain ⟨m, member, same⟩ := judgeMembers_failed verdict
    have failing := each _ (List.mem_map_of_mem member)
    rw [if_pos same] at failing
    refine ⟨answers, failing, fun m' member' other => ?_⟩
    have each' := each _ (List.mem_map_of_mem member')
    rw [if_neg other] at each'
    exact each'

/-- Settles O41: what is left and when it is taken, the window's wait for its activating event, and the members' check. -/
theorem closedChainsApplyAllOrNothing : Obligations.ClosedChainsApplyAllOrNothing := by
  refine ⟨fun s rest => ⟨fun n time standing before => ⟨rest.filterMap Following.awaited,
    List.filterMap_congr fun f _ => by cases f <;> rfl, rfl⟩, fun _ _ => rfl, fun _ => rfl, fun _ => rfl,
    rfl, rfl, fun _ => rfl, takeMode_eq_owed s⟩, fun s await n time standing => ⟨fun halted => if_pos halted, fun running => ?_,
      fun w c set => takeInputAwaiting_spec set await time standing⟩, fun s k o ch offered taken open_ room distinct fresh held => ?_⟩
  · rw [← windowsOn_eq, windowsTakeAwaiting, if_neg (by rw [running]; decide)]
  · have runs := (exec_of_marked offered (Or.inr (Or.inr ⟨rfl, rfl⟩))).2.2 rfl
    obtain ⟨slot, wf, _, _, _, _, order⟩ := offered
    have now : tooEarly o (takeHead k s) = false := Bool.eq_false_iff.2 fun no => (tooEarly_iff o s).1 no taken
    rw [joinChain_room (s := takeHead k s) now open_ room] at runs
    let ms := ch.members ++ [{ slot := k, failure := intakeFailure o (takeHead k s) }]
    let start := (takeHead k s).setChain none
    obtain ⟨small, once⟩ := distinct
    have distinct' : MembersDistinct ms := by
      refine ⟨List.forall_mem_append.2 ⟨small, List.forall_mem_singleton.2 slot⟩, ?_⟩
      rw [List.map_append]
      refine List.nodup_append.2 ⟨once, List.nodup_singleton k, fun a inside b last => ?_⟩
      obtain ⟨m, member, rfl⟩ := List.mem_map.1 inside
      rw [List.mem_singleton.1 last]
      exact fresh m member
    have held' : ∀ m ∈ ms, orderIn start.port m.slot ≠ none := by
      have same : ∀ j, orderIn start.port j = orderIn s.port j := fun j => orderIn_congr rfl j
      refine List.forall_mem_append.2 ⟨fun m member => by rw [same]; exact held m member, List.forall_mem_singleton.2 ?_⟩
      rw [same, order]
      exact Option.some_ne_none o
    obtain ⟨engine, passed, failed⟩ := closeChain_spec (s := start) distinct' wf
    refine ⟨_, _, ms, start, judgeMembers start ms start, runs, joinFailure o k s, rfl, rfl, (takeHead_holder k s slot k).trans (if_pos rfl),
      fun j apart => (takeHead_holder k s slot j).trans (if_neg apart), judgeMembers_check start ms start held', engine, ?_⟩
    cases verdict : judgeMembers start ms start with
    | passed after details left => exact passed after details left verdict
    | failed slot r d => exact failed slot r d verdict

end Sys2Proof.Machine
end

section
/-! ADOPT taken and ended (R161, R171 to R176). -/

namespace Sys2Proof.Machine

/-! ## ADOPT taken -/

/-- The code and the first parameter word of a slot that holds an ADOPT. -/
theorem words_of_adopt {p : Port} {k code : Nat} (held : orderIn p k = some (.adopt code)) : orderCode p k = 1 ∧ slotWord p k 3 = code := by
  unfold orderIn at held
  extract_lets w3 w4 at held
  split at held
  case h_1 here => exact ⟨here, Order.adopt.inj (Option.some.inj held)⟩
  all_goals cases held

theorem refused_adopt_early {s : State} {code : Nat} (unready : s.settings.adopted = false) (other : code ≠ 2) :
    Order.refused s (.adopt code) = some (.notConfigured, 0) := by
  have early : (Order.adopt code).early = false := by simp [Order.early, other]
  simp only [Order.refused, tooEarly, unready, early, Bool.not_false, Bool.and_self, if_true]

theorem refused_adopt_range {s : State} {code : Nat} (adopted : s.settings.adopted = true) (out : code ≠ 1 ∧ code ≠ 2) :
    Order.refused s (.adopt code) = some (.badParameter, 0) := by
  simp only [Order.refused, tooEarly, adopted, Bool.not_true, Bool.false_and, Bool.false_eq_true, if_false,
    (outOfRange_iff s (.adopt code)).1 out, if_true]

theorem accepted_adopt {s : State} {scope : Scope} (now : scope = .full ∨ s.settings.adopted = true) :
    Order.refused s (.adopt scope.code) = none := by
  have fits : (Order.adopt scope.code).badParameters s = false := by cases scope <;> rfl
  have ready : tooEarly (.adopt scope.code) s = false := by
    rcases now with rfl | adopted
    · simp [tooEarly, Order.early, Scope.code]
    · simp [tooEarly, adopted]
  simp only [Order.refused, ready, fits, Bool.false_eq_true, if_false]
  rfl

theorem scope_ofCode_code (scope : Scope) : Scope.ofCode scope.code = some scope := by cases scope <;> rfl

theorem exec_adopt_refused {s : State} {k code : Nat} (offered : Offered s k .alone (.adopt code)) {r : Result × Nat}
    (refused : Order.refused s (.adopt code) = some r) : exec .adopt s = .next (finish (publish k r.1 r.2 (takeHead k s))) := by
  change execAdopt s = _
  simp only [execAdopt, nextAlone_of_offered offered, refused_takeHead, refused]

theorem exec_adopt_accepted {s : State} {k : Nat} {scope : Scope} (offered : Offered s k .alone (.adopt scope.code))
    (accepted : Order.refused s (.adopt scope.code) = none) : exec .adopt s = .next { takeHead k s with engine := { (takeHead k s).engine with
      working := some { slot := k, scope := scope, since := s.clock.elapsed } } } := by
  change execAdopt s = _
  simp only [execAdopt, nextAlone_of_offered offered, refused_takeHead, accepted, scope_ofCode_code]
  rfl

/-- While an ADOPT is worked no whole-word write reaches staging (R171). -/
theorem staging_guarded {u : State} (held : u.engine.working ≠ none) {a : Nat} (low : 0x10000 ≤ a) (high : a < 0x20000) (whole : a % 4 = 0)
    (v : Word) : hostWrite a 0xF#4 v u = WriteRefused a u := by
  have word : a / 4 * 4 = a := by omega
  rw [hostWrite_whole, word, writeWordAt, if_neg (by omega), if_neg (by omega), if_neg (by omega), if_pos ⟨low, high⟩,
    if_pos (Option.isSome_iff_ne_none.2 held), refuseWrite_eq]

/-- Settles O43: a refused ADOPT is published with the last adoption outcome, an accepted one holds the engine. -/
theorem adoptionsTaken : Obligations.AdoptionsTaken := by
  intro s k code offered
  refine ⟨fun r why => ?_, fun scope why => ?_⟩
  · have refused : Order.refused s (.adopt code) = some (r, 0) := by
      rcases why with ⟨unready, other, rfl⟩ | ⟨adopted, annunciation, full, rfl⟩
      · exact refused_adopt_early unready other
      · exact refused_adopt_range adopted ⟨annunciation, full⟩
    have runs := exec_adopt_refused offered refused
    obtain ⟨slot, wf, _, _, _, _, order⟩ := offered
    obtain ⟨adopt, word⟩ := words_of_adopt order
    have whole := publish_of_adopt (s := takeHead k s) adopt r 0
    refine ⟨_, runs, published_of_taken slot wf rfl rfl r 0, ?_, fun first => ?_, ?_⟩
    · rw [whole]
      exact toNat_ofNat8_code r
    · have word' : slotWord (takeHead k s).port k 3 = 1 := word.trans first
      rw [whole]
      exact (publishedScope_of_word (Or.inl word')).trans word'
    · rw [whole]
      rfl
  · have named : code = scope.code := by rcases why with ⟨rfl, rfl⟩ | ⟨rfl, rfl, _⟩ <;> rfl
    subst named
    have accepted : Order.refused s (.adopt scope.code) = none := accepted_adopt (why.imp (fun h => h.2) fun h => h.2.2)
    have runs := exec_adopt_accepted offered accepted
    obtain ⟨slot, _⟩ := offered
    exact ⟨_, runs, (takeHead_holder k s slot k).trans (if_pos rfl), fun j apart => (takeHead_holder k s slot j).trans (if_neg apart), rfl,
      fun a v low high whole => staging_guarded (Option.some_ne_none _) low high whole v⟩

/-! ## The live checks (R174) -/

theorem mem_changedIn_iff {α : Type} {n : Nat} [Inhabited α] [DecidableEq α] (a b : Vector α n) (i : Nat) :
    i ∈ changedIn a b ↔ i < n ∧ look a i ≠ look b i := by
  rw [changedIn, List.mem_filter, List.mem_range, decide_eq_true_iff]

theorem not_isEmpty_iff {l : List Nat} : (!l.isEmpty) = true ↔ ∃ a, a ∈ l := by
  cases l <;> simp

theorem changesTripSide_iff (a b : Tables) : changesTripSide a b = true ↔ TripSideChanged a b := by
  simp only [changesTripSide, modeChanges, TripSideChanged, Bool.or_eq_true, not_isEmpty_iff, mem_changedIn_iff, bne_iff_ne, List.mem_filter,
    List.mem_range, decide_eq_true_iff, or_assoc]

theorem mem_acting (s : State) (t : Nat) : t ∈ numbersWhere s.term.terms Term.acting ↔ TermActing s t := by
  rw [mem_numbersWhere, acting_iff]
  rfl

theorem inOperation_iff (x : SwitchState) :
    x.inOperation = true ↔ x = .queued ∨ x = .pulsing ∨ x = .resetQueued ∨ x = .resetPulsing := by
  cases x <;> simp [SwitchState.inOperation]

theorem mem_busy (s : State) (i : Nat) : (i ∈ numbersWhere s.sw.switches fun x => x.state.inOperation) ↔ SwitchBusy s i := by
  rw [mem_numbersWhere, inOperation_iff]
  rfl

theorem busyDetail_of_busy {s : State} {d : Nat} (busy : AdoptionBusy s d) : busyDetail s = some d := by
  rcases busy with ⟨acting, least⟩ | ⟨still, i, rfl, switch, least⟩
  · have head := head?_eq_of_least (numbersWhere_rising _ _) ((mem_acting s d).2 acting) fun t below no => least t below ((mem_acting s t).1 no)
    rw [busyDetail, head]
    rfl
  · have none : numbersWhere s.term.terms Term.acting = [] := List.eq_nil_iff_forall_not_mem.2 fun t member => still t ((mem_acting s t).1 member)
    have head := head?_eq_of_least (numbersWhere_rising _ _) ((mem_busy s i).2 switch) fun j below no => least j below ((mem_busy s j).1 no)
    rw [busyDetail, none, head]
    rfl

/-- A list that is not empty has a least member where it rises. -/
theorem exists_least {l : List Nat} (rising : l.Pairwise (· < ·)) (some : l ≠ []) : ∃ a ∈ l, ∀ b, b < a → b ∉ l := by
  cases l with
  | nil => exact absurd rfl some
  | cons a l =>
    refine ⟨a, List.mem_cons_self, fun b below member => ?_⟩
    rcases List.mem_cons.1 member with rfl | behind
    · exact lt_irrefl b below
    · exact absurd (List.rel_of_pairwise_cons rising behind) (Nat.not_lt.2 below.le)

theorem busyDetail_of_idle {s : State} (idle : ∀ e, ¬ AdoptionBusy s e) : busyDetail s = none := by
  have terms : numbersWhere s.term.terms Term.acting = [] := by
    by_contra some
    obtain ⟨t, member, least⟩ := exists_least (numbersWhere_rising _ _) some
    exact idle t (Or.inl ⟨(mem_acting s t).1 member, fun u below acting => least u below ((mem_acting s u).2 acting)⟩)
  have switches : (numbersWhere s.sw.switches fun x => x.state.inOperation) = [] := by
    by_contra some
    obtain ⟨i, member, least⟩ := exists_least (numbersWhere_rising _ _) some
    refine idle (i + 65536) (Or.inr ⟨fun t acting => ?_, i, rfl, (mem_busy s i).1 member, fun j below busy => least j below ((mem_busy s j).2 busy)⟩)
    have inside := (mem_acting s t).2 acting
    rw [terms] at inside
    cases inside
  rw [busyDetail, terms, switches]
  rfl

theorem unsafeAfter_iff (s : State) (b : Tables) (t : Nat) : t ∈ unsafeAfter s b ↔ UnsafeAfter s b t := by
  simp only [unsafeAfter, mem_configuredWhere, UnsafeAfter, Bool.and_eq_true, List.any_eq_true, Option.isSome_iff_ne_none, isolatedAfter,
    Bool.not_eq_true', Bool.and_eq_false_iff, not_and_or, Bool.not_eq_true, Option.isSome_eq_false_iff, Option.isNone_iff_eq_none, not_not]

/-! ## What ends an adoption -/

section
variable {scope : Scope} {t : Tables} {s : State}

theorem adoptionRefusal_invalid {x : TableName × Nat × Reason} (invalid : validate s.port.mem scope s.settings.live = some x) :
    adoptionRefusal scope t s = some (.settingsInvalid, invalidDetail x) := by
  simp only [adoptionRefusal, invalid]

variable (valid : validate s.port.mem scope s.settings.live = none)
include valid

theorem adoptionRefusal_locked (full : scope = .full) (adopted : s.settings.adopted = true) (locked : s.port.key = false) :
    adoptionRefusal scope t s = some (.keyLocked, 0) := by
  simp only [adoptionRefusal, valid]
  exact if_pos ⟨full, adopted, by rw [locked]; rfl⟩

variable (enabled : ¬ (scope = .full ∧ s.settings.adopted = true ∧ s.port.key = false))
include enabled

omit valid in
theorem enabled_iff : ¬ (scope = .full ∧ s.settings.adopted = true ∧ (!s.port.key) = true) := fun locked =>
  enabled ⟨locked.1, locked.2.1, by simpa using locked.2.2⟩

theorem adoptionRefusal_busy (changed : TripSideChanged s.settings.live t) {d : Nat} (busy : AdoptionBusy s d) :
    adoptionRefusal scope t s = some (.busy, d) := by
  simp only [adoptionRefusal, valid, if_neg (enabled_iff enabled), (changesTripSide_iff _ _).2 changed, if_true, busyDetail_of_busy busy]

variable (idle : ¬ (TripSideChanged s.settings.live t ∧ ∃ e, AdoptionBusy s e))
include idle

omit valid enabled in
theorem tripSide_idle : (if changesTripSide s.settings.live t then busyDetail s else none) = none := by
  split
  · next changed => exact busyDetail_of_idle fun e busy => idle ⟨(changesTripSide_iff _ _).1 changed, e, busy⟩
  · rfl

theorem adoptionRefusal_unsafe {d : Nat} (first : UnsafeAfter s t d) (least : ∀ u, u < d → ¬ UnsafeAfter s t u) :
    adoptionRefusal scope t s = some (.forceUnsafe, d) := by
  have head := head?_eq_of_least (configuredWhere_rising _ _) ((unsafeAfter_iff s t d).2 first)
    fun u below no => least u below ((unsafeAfter_iff s t u).1 no)
  simp only [adoptionRefusal, valid, if_neg (enabled_iff enabled), tripSide_idle idle, unsafeAfter, head]

theorem adoptionRefusal_none (harmless : ∀ u, ¬ UnsafeAfter s t u) : adoptionRefusal scope t s = none := by
  have none : unsafeAfter s t = [] := List.eq_nil_iff_forall_not_mem.2 fun u member => harmless u ((unsafeAfter_iff s t u).1 member)
  simp only [adoptionRefusal, valid, if_neg (enabled_iff enabled), tripSide_idle idle, none, List.head?_nil]

end

/-- The refusals at the end of an adoption as R172 to R174 order them. -/
theorem adoptionRefusal_of_reason {scope : Scope} {t : Tables} {s : State} {r : Result} {d : Nat}
    (why : (∃ x, validate s.port.mem scope s.settings.live = some x ∧ r = Result.settingsInvalid ∧ d = invalidDetail x) ∨
      (validate s.port.mem scope s.settings.live = none ∧ scope = .full ∧ s.settings.adopted = true ∧ s.port.key = false ∧
        r = .keyLocked ∧ d = 0) ∨
      (validate s.port.mem scope s.settings.live = none ∧ ¬ (scope = .full ∧ s.settings.adopted = true ∧ s.port.key = false) ∧
        ((TripSideChanged s.settings.live t ∧ AdoptionBusy s d ∧ r = .busy) ∨
          (¬ (TripSideChanged s.settings.live t ∧ ∃ e, AdoptionBusy s e) ∧ UnsafeAfter s t d ∧
            (∀ u, u < d → ¬ UnsafeAfter s t u) ∧ r = .forceUnsafe)))) : adoptionRefusal scope t s = some (r, d) := by
  rcases why with ⟨y, invalid, rfl, rfl⟩ | ⟨valid, full, adopted, locked, rfl, rfl⟩ |
    ⟨valid, enabled, ⟨changed, busy, rfl⟩ | ⟨idle, first, least, rfl⟩⟩
  · exact adoptionRefusal_invalid invalid
  · exact adoptionRefusal_locked valid full adopted locked
  · exact adoptionRefusal_busy valid enabled changed busy
  · exact adoptionRefusal_unsafe valid enabled idle first least

theorem swapTables_eq (scope : Scope) (t : Tables) (s : State) : swapTables scope t s = { s with
    settings := { s.settings with live := t, copy := t, adopted := s.settings.adopted || scope.isFull, tally := s.settings.tally + 1 }
    jr := s.jr.request s.clock.hall
      (settingsEntry (countChanges s.settings.live t) scope (s.settings.tally + 1) s.clock.hall) } := rfl

theorem exec_adoptValidationEnd {s : State} {a : Adopting} (worked : s.engine.working = some a) :
    (s.halted = true → exec .adoptValidationEnd s = .next s) ∧
      (s.halted = false → exec .adoptValidationEnd s = .next (finish (endAdoption a s))) := by
  change (_ → execAdoptValidationEnd s = _) ∧ (_ → execAdoptValidationEnd s = _)
  simp only [execAdoptValidationEnd, worked]
  exact ⟨fun halted => if_pos halted, fun running => if_neg (by rw [running]; decide)⟩

/-- An ADOPT published at its end, on the state s or the one its swap leaves. -/
theorem endAdopting_published {x : State} {k : Nat} {scope : Scope} (slot : k < 32) (wf : x.memoryLaw)
    (order : orderIn x.port k = some (.adopt scope.code)) (r : Result) (d : Nat) :
    OnlyAnswers [k] x (publish k r d (endAdopting x)) ∧ SlotAnswered k r d (publish k r d (endAdopting x)) ∧
      (publish k r d (endAdopting x)).settings.lastScope.toNat = scope.code ∧
      (publish k r d (endAdopting x)).settings.lastResult = BitVec.ofNat 8 r.code ∧
      (publish k r d (endAdopting x)).engine = { x.engine with working := none } := by
  obtain ⟨code, word⟩ := words_of_adopt order
  have whole := publish_of_adopt (s := endAdopting x) code r d
  have answers := publish_onlyAnswers (s := endAdopting x) slot wf r d
  refine ⟨answers.of_taken rfl fun _ _ => rfl, publish_slotAnswered (s := endAdopting x) slot wf r d, ?_, by rw [whole], by rw [whole]; rfl⟩
  have word' : slotWord (endAdopting x).port k 3 = scope.code := word
  rw [whole]
  exact (publishedScope_of_word (by rw [word']; cases scope <;> decide)).trans word'

/-- An ANNUNCIATION adoption changes no channel's mode (R134). -/
theorem stagedChannel_mode (m : List Host.Cell) (live : ChannelSettings) (e : Nat) : (stagedChannel m .annunciation live e).mode = live.mode := by
  obtain ⟨mode, _⟩ := live
  cases mode <;> rfl

/-- The tables an ANNUNCIATION adoption leaves (R171). -/
theorem stagedTables_annunciation (m : List Host.Cell) (live : Tables) :
    ¬ TripSideChanged live (stagedTables m .annunciation live) := by
  have terms : (stagedTables m .annunciation live).terms = live.terms := rfl
  have switches : (stagedTables m .annunciation live).switches = live.switches := rfl
  rintro (⟨t, _, differs⟩ | ⟨i, _, differs⟩ | ⟨c, small, differs⟩ | differs | differs)
  · exact differs (by rw [terms])
  · exact differs (by rw [switches])
  · refine differs ?_
    have entry : look (stagedTables m .annunciation live).channels c = stagedChannel m .annunciation (look live.channels c) c :=
      look_tabulate 16 _ c small
    rw [entry, stagedChannel_mode]
  · exact differs rfl
  · exact differs rfl

/-- Settles O44: the refusals in their order, and the swap. -/
theorem adoptionsEnd : Obligations.AdoptionsEnd := by
  intro s a new wf worked slot order staged
  obtain ⟨halts, runs⟩ := exec_adoptValidationEnd worked
  refine ⟨halts, fun running => ?_, fun annunciation => ?_⟩
  · have published := endAdopting_published (x := s) slot wf order
    have core := swap_core a.scope new s
    have wf' : (swap a.scope new s).memoryLaw := by rw [State.memoryLaw, core.mem]; exact wf
    have swapped := endAdopting_published (x := swap a.scope new s) slot wf' ((orderIn_congr core.mem a.slot).trans order)
    obtain ⟨_, _, _, _, _, settings⟩ := swap_step a.scope new s
    cases refusal : adoptionRefusal a.scope new s with
    | some x =>
      have ends : endAdoption a s = publish a.slot x.1 x.2 (endAdopting s) := by
        unfold endAdoption
        rw [← staged]
        simp only [refusal]
      obtain ⟨answers, answered, scope, result, engine⟩ := published x.1 x.2
      refine ⟨_, (runs running).trans (by rw [ends]), scope, engine, fun r d why => ?_, fun valid enabled idle harmless => ?_⟩
      · have same := adoptionRefusal_of_reason why
        rw [refusal] at same
        cases same
        exact ⟨answers, answered, by rw [result]; exact toNat_ofNat8_code _⟩
      · rw [adoptionRefusal_none valid enabled idle harmless] at refusal
        cases refusal
    | none =>
      have tally : (swap a.scope new s).settings.tally = s.settings.tally + 1 := by rw [settings]
      have ends : endAdoption a s = publish a.slot .ok (s.settings.tally + 1).toNat (endAdopting (swap a.scope new s)) := by
        unfold endAdoption
        rw [← staged]
        simp only [refusal, tally]
      obtain ⟨answers, answered, scope, result, engine⟩ := swapped .ok (s.settings.tally + 1).toNat
      refine ⟨_, (runs running).trans (by rw [ends]), scope, engine.trans (by rw [core.engine]), fun r d why => ?_, fun _ _ _ _ => ?_⟩
      · rw [adoptionRefusal_of_reason why] at refusal
        cases refusal
      · obtain ⟨_, _, _, _, whole⟩ := id answers
        have adopted : (s.settings.adopted || a.scope.isFull) = (s.settings.adopted || decide (a.scope = .full)) := by cases a.scope <;> rfl
        have first : (!s.settings.adopted && a.scope.isFull) = decide (s.settings.adopted = false ∧ a.scope = .full) := by
          cases s.settings.adopted <;> cases a.scope <;> rfl
        have kept := congrArg State.settings whole
        have final : ∀ {α : Type} (f : Settings → α), (∀ t x y, f { t with lastScope := x, lastResult := y } = f t) →
            f (publish a.slot .ok (s.settings.tally + 1).toNat (endAdopting (swap a.scope new s))).settings = f { s.settings with
              live := new, copy := new, adopted := s.settings.adopted || a.scope.isFull, tally := s.settings.tally + 1 } :=
          fun f same => by rw [← settings]; exact (congrArg f kept).trans (same _ _ _)
        have ready := final Settings.adopted fun _ _ _ => rfl
        refine ⟨answered, result, final Settings.live fun _ _ _ => rfl, final Settings.copy fun _ _ _ => rfl,
          final Settings.tally fun _ _ _ => rfl, ready.trans adopted, swapTables a.scope new s, ?_, ?_⟩
        · rw [ready, swapTables_eq]
        · have swapped : swap a.scope new s = applyChanges (decide (s.settings.adopted = false ∧ a.scope = .full)) s.settings.live new
              (swapTables a.scope new s) := by rw [← first]; rfl
          rw [← swapped]
          exact answers
  · rw [annunciation] at staged
    rw [staged]
    exact ⟨rfl, rfl, rfl, stagedTables_annunciation _ _⟩

end Sys2Proof.Machine
end

section
/-! The trip evaluator by states (R86 to R92): the entries into ACTIVE, TIMING and IDLE, and an event of a listed point. -/

namespace Sys2Proof.Machine

theorem countsActive_iff (policy : LostPolicy) (p : Point) : countsActive policy p = true ↔
    ((p.quality = .good ∨ p.quality = .forced) ∧ p.effective = true) ∨
      ((p.quality = .lost ∨ p.quality = .wiring) ∧ (policy = .assumeActive ∨ (policy = .holdLast ∧ p.termHeld = true))) := by
  unfold countsActive
  cases p.quality <;> cases policy <;> simp

theorem termCount_eq (s : State) (c : TermSettings) :
    s.termCount c = (c.points.filter fun n => countsActive c.policy (s.pt n)).length := by
  rw [State.termCount, State.positions, List.count, List.countP_map, List.countP_eq_length_filter]
  congr 2
  funext n
  exact beq_true _

theorem satisfied_iff (s : State) (c : TermSettings) :
    s.satisfied c = true ↔ c.vote ≤ (c.points.filter fun n => countsActive c.policy (s.pt n)).length := by
  rw [State.satisfied, decide_eq_true_iff, termCount_eq]

theorem filterMap_zip_map {α : Type} (p : α → Bool) (l : List α) :
    ((l.zip (l.map p)).filterMap fun x => if x.2 then some x.1 else none) = l.filter p := by
  induction l with
  | nil => rfl
  | cons a l ih => cases h : p a <;> simp [h, ih]

theorem setTrm_setTrm (s : State) (t : Nat) (x y : Term) : (s.setTrm t x).setTrm t y = s.setTrm t y := by
  simp only [State.setTrm, put_put]

/-! ## A term's state left and entered -/

section
variable {t : Nat} (small : t < 128) (c : TermSettings)
include small

theorem becomeActive_eq (start : HallTime) (s : State) :
    becomeActive t c start s =
      { WithTerm t { s.trm t with
          state := .active, timingStart := start, lastActive := s.clock.hall, lastChange := s.clock.hall
          activations := min ((s.trm t).activations + 1) 65535 } s with
        jr := s.jr.request s.clock.hall (termActiveEntry t c.unit c.outputs.length
          (c.points.filter fun n => countsActive c.policy (s.pt n))
          (c.points.map fun n => (s.pt n).doubtful && countsActive c.policy (s.pt n)) start s.clock.hall) } := by
  rw [← filterMap_zip_map]
  unfold becomeActive setTermState
  simp only [trm_setTrm_same small, setTrm_setTrm, saturate_eq_min]
  rfl

theorem enterActive_entersActive (start : HallTime) (s : State) : EntersActive t c start s (enterActive t c start s) :=
  ⟨_, _, rfl, rfl, by rw [enterActive, becomeActive_eq small]⟩

theorem enterTiming_leavesIdle (s : State) : LeavesIdle t c s (enterTiming t c s) := by
  refine ⟨fun none => ?_, fun some => ?_⟩
  · rw [enterTiming, if_pos none]
    exact enterActive_entersActive small c _ s
  · rw [enterTiming, if_neg some]
    unfold setTermState
    simp only [trm_setTrm_same small, setTrm_setTrm]
    rfl

theorem enterIdle_entersIdle (s : State) : EntersIdle t c s (enterIdle t c s) := by
  refine ⟨setTermState t .idle s, rfl, fun yes => ?_, fun no => ?_⟩
  · rw [show enterIdle t c s = enterTiming t c (setTermState t .idle s) from if_pos yes]
    exact enterTiming_leavesIdle small c _
  · exact if_neg (Bool.eq_false_iff.1 no)

omit small in
/-- A position is marked by a quality other than LOST, at this event or at an earlier one (R88). -/
theorem seenNow_getElem? (old : List Bool) (s : State) {k n : Nat} (listed : c.points[k]? = some n) :
    (seenNow c old s)[k]? = some true ↔ old[k]? = some true ∨ (s.pt n).quality ≠ .lost := by
  have inside : k < c.points.length := (List.getElem?_eq_some_iff.1 listed).1
  have here : (seenNow c old s)[k]? = some (old[k]?.getD false || (s.pt n).quality != .lost) := by
    simp only [seenNow, List.getElem?_map, List.getElem?_range inside, Option.map_some, listed, Option.getD_some]
  rw [here, Option.some_inj, Bool.or_eq_true, bne_iff_ne]
  cases old[k]? <;> simp

/-- A HELD term with its marks given. -/
theorem lookWhileHeld_looks (s : State) : LooksWhileHeld t c s (lookWhileHeld t c s) := by
  let seen := seenNow c (s.trm t).seen s
  let x := s.setTrm t { s.trm t with seen := seen }
  have mine : x.trm t = { s.trm t with seen := seen } := trm_setTrm_same small s _
  have armed : x.armed c = s.armed c := rfl
  have look : lookWhileHeld t c s =
      if seen.all id = true then (if s.armed c = true then enterIdle t c x else setTermState t .disarmed x) else x := by
    show (if (x.trm t).seen.all id = true then (if x.armed c = true then enterIdle t c x else setTermState t .disarmed x) else x) = _
    rw [mine, armed]
  have all : seen.all id = true ↔ ∀ b ∈ seen, b = true := List.all_eq_true
  refine ⟨seen, x, by simp [seen, seenNow], fun k n listed => seenNow_getElem? c _ s listed, rfl, ?_, fun every => ⟨?_, ?_⟩⟩
  · rintro ⟨b, inside, off⟩
    rw [look, if_neg fun every => absurd ((all.1 every b inside).symm.trans off) (by decide)]
  · intro yes
    rw [look, if_pos (all.2 every), if_pos yes]
    exact enterIdle_entersIdle small c x
  · intro no
    rw [look, if_pos (all.2 every), if_neg (Bool.eq_false_iff.1 no), setTermState, mine, setTrm_setTrm]
    rfl

end

/-! ## An event of a listed point -/

theorem termsTake_of_halted {s : State} (halted : s.halted = true) (n : Nat) : termsTake n s = s := if_pos halted

theorem termsTake_of_running {s : State} (running : s.halted = false) (n : Nat) : termsTake n s =
    ((List.range 128).filter fun t => (s.termSet t).any fun c => c.points.contains n).foldl takePoint s := by
  rw [termsTake, if_neg (Bool.eq_false_iff.1 running), State.termsOn, configuredWhere_eq_filter]
  rfl

/-- What an event of a listed point does to a configured term, by the term's state. -/
theorem takePoint_spec {s : State} {t : Nat} {c : TermSettings} (set : s.termSet t = some c) :
    ((s.trm t).state = .held → takePoint s t = lookWhileHeld t c s) ∧
    ((s.trm t).state = .disarmed ∨ (s.trm t).state = .unconfigured → takePoint s t = s) ∧
    ((s.trm t).state = .idle → s.satisfied c = true → takePoint s t = enterTiming t c s) ∧
    ((s.trm t).state = .idle → s.satisfied c = false → takePoint s t = s) ∧
    ((s.trm t).state = .timing ∨ (s.trm t).state = .active → s.satisfied c = true → takePoint s t = s) ∧
    ((s.trm t).state = .timing → s.satisfied c = false → takePoint s t = enterIdle t c { s with
      jr := s.jr.request s.clock.hall (termEndEntry t 0 c.unit (s.termCount c) (s.trm t).timingStart s.clock.hall) }) ∧
    ((s.trm t).state = .active → s.satisfied c = false → takePoint s t = enterIdle t c { s with
      jr := s.jr.request s.clock.hall (termEndEntry t 2 c.unit (s.termCount c) (s.trm t).lastActive s.clock.hall) }) := by
  simp only [takePoint, set]
  refine ⟨fun state => ?_, fun state => ?_, fun state yes => ?_, fun state no => ?_, fun state yes => ?_, fun state no => ?_,
    fun state no => ?_⟩
  · simp only [state]
  · rcases state with state | state <;> simp only [state]
  · simp only [state, yes, if_true]
  · simp only [state, no, Bool.false_eq_true, if_false]
  · rcases state with state | state <;> simp only [state, yes, if_true]
  · simp only [state, no, Bool.false_eq_true, if_false]
    rfl
  · simp only [state, no, Bool.false_eq_true, if_false]
    rfl

/-! ## The delay that runs out -/

section
variable {s : State} {t : Nat} {c : TermSettings} (set : s.termSet t = some c)
include set

theorem exec_termDelayExpiry_of_halted (halted : s.halted = true) : exec (.termDelayExpiry t) s = .next s := by
  change execTermDelayExpiry t s = _
  simp only [execTermDelayExpiry, set, halted, Bool.not_true, Bool.and_false, Bool.false_eq_true, if_false]

theorem exec_termDelayExpiry_of_running (timing : (s.trm t).state = .timing) (late : (s.trm t).deadline ≤ s.clock.elapsed)
    (running : s.halted = false) : exec (.termDelayExpiry t) s = .next (finish (enterActive t c (s.trm t).timingStart s)) := by
  change execTermDelayExpiry t s = _
  simp only [execTermDelayExpiry, set, timing, due_of_le late, running, beq_self_eq_true, Bool.not_false, Bool.and_self, if_true]

end

/-- A term that times is armed, and so may act. -/
theorem enterActive_of_timing {s : State} {t : Nat} (c : TermSettings) (start : HallTime) (timing : (s.trm t).state = .timing) :
    HandStep s (enterActive t c start s) :=
  enterActive_hand t c start s fun armedAt d other => armedAt d other (Or.inr (Or.inl timing))

/-- Settles O53, by the state of the term. -/
theorem termDelaysEnd : Obligations.TermDelaysEnd := by
  refine ⟨countsActive_iff, fun s n => ⟨fun halted => termsTake_of_halted halted n, fun running => termsTake_of_running running n⟩,
    fun s t => ⟨fun bare => ?_, fun c set => ?_⟩, fun s t c set timing late => ⟨exec_termDelayExpiry_of_halted set, fun running => ?_⟩⟩
  · simp only [takePoint, bare]
  · have small := termSet_lt set
    obtain ⟨held, out, idleYes, idleNo, stays, timingNo, activeNo⟩ := takePoint_spec set
    refine ⟨satisfied_iff s c, fun state => ?_, out, fun state yes => ?_, idleNo, stays, fun state no => ?_, fun state no => ?_⟩
    · rw [held state]
      exact lookWhileHeld_looks small c s
    · rw [idleYes state yes]
      exact enterTiming_leavesIdle small c s
    · rw [timingNo state no]
      exact enterIdle_entersIdle small c _
    · rw [activeNo state no]
      exact enterIdle_entersIdle small c _
  · have small := termSet_lt set
    have moved := enterActive_of_timing c (s.trm t).timingStart timing
    exact ⟨enterActive t c (s.trm t).timingStart s, exec_termDelayExpiry_of_running set timing late running, moved.toBlockStep.aside,
      enterActive_entersActive small c _ s, enterActive_state small c _ s, (enterActive_alone t c _ s).others, moved.field,
      moved.panel, moved.points⟩

end Sys2Proof.Machine
end

section
/-! The coil driver (R106, R107): what it may start, what a start does, and the successors a switch requests (R124 to R127). -/

namespace Sys2Proof.Machine

theorem numbersWhere_eq_filter {α : Type} [Inhabited α] {n : Nat} (v : Vector α n) (p : α → Bool) :
    numbersWhere v p = (List.range n).filter fun i => p (look v i) := by
  have rising : ((List.range n).filter fun i => p (look v i)).Pairwise (· < ·) := List.pairwise_lt_range.filter _
  refine List.Perm.eq_of_pairwise (fun a b _ _ below above => absurd below (Nat.not_lt.2 above.le)) (numbersWhere_rising v p) rising
    ((List.perm_ext_iff_of_nodup ((numbersWhere_rising v p).imp Nat.ne_of_lt) (rising.imp Nat.ne_of_lt)).2 fun i => ?_)
  rw [mem_numbersWhere, List.mem_filter, List.mem_range]

theorem places_eq (s : State) : s.places = (List.range 48).filter fun i =>
    decide ((s.swi i).state = .pulsing ∨ (s.swi i).state = .resetPulsing ∨ (s.swi i).testStart ≠ none) := by
  rw [State.places, numbersWhere_eq_filter]
  congr 1
  funext i
  refine Bool.eq_iff_iff.2 ?_
  simp only [Switch.energized, State.swi, Bool.or_eq_true, beq_iff_eq, Option.isSome_iff_ne_none, or_assoc]
  exact decide_eq_true_iff.symm

theorem nextStart_iff (s : State) (e : QueueEntry) :
    s.nextStart = some e ↔ s.sw.queue.find? s.eligible = some e ∧ s.places.length < 6 ∧ s.counted < 4 := by
  unfold State.nextStart State.startPossible
  split
  · next possible => exact (and_iff_left (of_decide_eq_true possible)).symm
  · next impossible => exact ⟨nofun, fun yes => absurd (decide_eq_true yes.2) impossible⟩

theorem eligible_iff (s : State) (e : QueueEntry) : s.eligible e = true ↔ (e.kind = .test →
    (∀ x ∈ s.sw.queue, x.kind = .test) ∧ s.counted ≤ 1 ∧
      ∀ c ch, s.swSet e.switch = some c → (c.supervision.map fun x => x.1) = some ch → (s.chan ch).inFlight = none) := by
  unfold State.eligible
  cases kind : e.kind with
  | trip => simp
  | reset => simp
  | test =>
    rw [Bool.and_eq_true, Bool.and_eq_true, List.all_eq_true, decide_eq_true_iff, and_assoc]
    simp only [beq_iff_eq, true_implies]
    refine and_congr_right fun _ => and_congr_right fun _ => ?_
    cases set : s.swSet e.switch with
    | none => simp
    | some c =>
      show (match c.channel with | some c => (s.chan c).inFlight.isNone | none => true) = true ↔ ∀ d ch, some c = some d →
        d.channel = some ch → _
      cases channel : c.channel with
      | none =>
        refine ⟨fun _ d ch same watched => ?_, fun _ => rfl⟩
        cases same
        rw [channel] at watched
        cases watched
      | some ch =>
        refine ⟨fun free d ch' same watched => ?_, fun free => Option.isNone_iff_eq_none.2 (free c ch rfl channel)⟩
        cases same
        rw [channel] at watched
        cases watched
        exact Option.isNone_iff_eq_none.1 free

/-! ## Successors -/

section
variable (again : State → State) (i : Nat) (c : SwitchSettings) (wanted : Trigger → Bool) {s : State}

theorem requestSuccessors_of_barred (barred : (s.swi i).isolated = true ∨ s.halted = true) : requestSuccessors again i c wanted s = s :=
  if_pos (Bool.or_eq_true_iff.2 barred)

theorem requestSuccessors_of_running (connected : (s.swi i).isolated = false) (running : s.halted = false) :
    requestSuccessors again i c wanted s =
      ((c.successors.filter fun x => wanted x.2).map fun x => x.1).foldl (fun z j => tripRequest again (.cascade i) j z) s := by
  rw [requestSuccessors, connected, running, List.foldl_map]
  rfl

end

/-! ## A look at the queue -/

theorem lookAtQueue_of_none {s : State} (idle : s.halted = true ∨ s.nextStart = none) (n : Nat) : lookAtQueue (n + 1) s = s := by
  rw [lookAtQueue]
  rcases idle with halted | none
  · rw [if_pos halted]
  · rw [none]
    exact ite_self s

theorem lookAtQueue_of_some {s : State} {e : QueueEntry} (running : s.halted = false) (next : s.nextStart = some e) (n : Nat) :
    lookAtQueue (n + 1) s = lookAtQueue n (startEntry (lookAtQueue n) e s) := by
  rw [lookAtQueue, if_neg (Bool.eq_false_iff.1 running), next]

theorem exec_coilStart (s : State) : exec .coilStart s = .next (finish (runQueue s)) := rfl

theorem exec_startHistoryExpiry (s : State) : exec .startHistoryExpiry s = exec .coilStart { s with
    sw := { s.sw with starts := s.sw.starts.filter fun t => decide (s.clock.elapsed - t < 20) } } := rfl

/-- Starts that are counted no more may leave the history. -/
theorem counted_of_filtered (s : State) : State.counted { s with
    sw := { s.sw with starts := s.sw.starts.filter fun t => decide (s.clock.elapsed - t < 20) } } = s.counted := by
  simp only [State.counted, List.filter_filter, Bool.and_self]

/-! ## A start by its kind -/

section
variable (again : State → State) {e : QueueEntry} (s : State)

theorem startEntry_of_reset (kind : e.kind = .reset) : startEntry again e s = syncSwitchPoints e.switch { s with
    sw := s.sw.starting e.switch s.clock.elapsed { s.swi e.switch with
      state := .resetPulsing, opStart := s.clock.hall, opStartElapsed := s.clock.elapsed } } := by
  simp only [startEntry, kind]
  rfl

theorem startEntry_of_test (kind : e.kind = .test) {c : SwitchSettings} {ch : Nat} (set : s.swSet e.switch = some c)
    (watched : c.channel = some ch) : startEntry again e s = { s with
      sw := s.sw.starting e.switch s.clock.elapsed { s.swi e.switch with testStart := some s.clock.elapsed }
      sup := { s.sup with channels := put s.sup.channels ch { s.chan ch with inFlight := some e.switch } } } := by
  have here : (s.swSet e.switch).bind SwitchSettings.channel = some ch := by rw [set]; exact watched
  simp only [startEntry, kind, startTest]
  change (match (s.swSet e.switch).bind SwitchSettings.channel with | none => _ | some c => _) = _
  rw [here]
  rfl

/-- A trip started, before its successors are requested (R108, R111). -/
def State.tripStarted (e : QueueEntry) (c : SwitchSettings) (s : State) : State := syncSwitchPoints e.switch { s with
  sw := s.sw.starting e.switch s.clock.elapsed { s.swi e.switch with
    state := if c.kind = .hold then .held else .pulsing
    opStart := s.clock.hall, opStartElapsed := s.clock.elapsed, seen := s.operated c, confirmedMark := false }
  jr := s.jr.request s.clock.hall
    (switchEntry e.switch .start c.unit false (some e.source) e.cls 0 0 e.joinedHall s.clock.hall) }

variable {s} in
theorem startEntry_of_trip (kind : e.kind = .trip) {c : SwitchSettings} (set : s.swSet e.switch = some c) :
    startEntry again e s =
      if (c.kind == .hold &&
          ((requestSuccessors again e.switch c (fun t => t == .onStart || (c.kind == .hold && c.feedback.isNone))
            (s.tripStarted e c)).swi e.switch).state == .held &&
          (requestSuccessors again e.switch c (fun t => t == .onStart || (c.kind == .hold && c.feedback.isNone))
            (s.tripStarted e c)).operated c) = true then
        confirmHold again e.switch c
          (requestSuccessors again e.switch c (fun t => t == .onStart || (c.kind == .hold && c.feedback.isNone)) (s.tripStarted e c))
      else requestSuccessors again e.switch c (fun t => t == .onStart || (c.kind == .hold && c.feedback.isNone)) (s.tripStarted e c) := by
  have start : s.tripStarted e c = syncSwitchPoints e.switch { s with
      sw := s.sw.starting e.switch s.clock.elapsed { s.swi e.switch with
        state := if (c.kind == .hold) = true then .held else .pulsing
        opStart := s.clock.hall, opStartElapsed := s.clock.elapsed, seen := s.operated c, confirmedMark := false }
      jr := s.jr.request s.clock.hall
        (switchEntry e.switch .start c.unit false (some e.source) e.cls 0 0 e.joinedHall s.clock.hall) } := by
    simp only [beq_iff_eq]
    rfl
  simp only [startEntry, kind]
  change (match s.swSet e.switch with | some c => _ | none => _) = _
  rw [set, start]
  rfl

variable {s} (kind : e.kind = .trip) {c : SwitchSettings} (set : s.swSet e.switch = some c)
include kind set

theorem startEntry_of_pulse (pulse : c.kind ≠ .hold) :
    startEntry again e s = requestSuccessors again e.switch c (fun t => t == .onStart) (s.tripStarted e c) := by
  rw [startEntry_of_trip again kind set, beq_false_of_ne pulse]
  simp only [Bool.false_and, Bool.or_false, Bool.false_eq_true, if_false]

theorem startEntry_of_bareHold (hold : c.kind = .hold) (bare : c.feedback = none) :
    startEntry again e s = requestSuccessors again e.switch c (fun _ => true) (s.tripStarted e c) := by
  have unseen : ∀ z : State, z.operated c = false := fun z => by rw [State.operated, bare]
  rw [startEntry_of_trip again kind set, hold, bare, unseen]
  simp

theorem startEntry_of_hold (hold : c.kind = .hold) (watched : c.feedback ≠ none) :
    ∃ v, v = requestSuccessors again e.switch c (fun t => t == .onStart) (s.tripStarted e c) ∧
      startEntry again e s =
        if (v.swi e.switch).state = .held ∧ v.operated c = true then confirmHold again e.switch c v else v := by
  have watched : c.feedback.isNone = false := by rwa [Option.isNone_eq_false_iff, Option.isSome_iff_ne_none]
  refine ⟨_, rfl, ?_⟩
  rw [startEntry_of_trip again kind set, hold, watched]
  simp only [beq_self_eq_true, Bool.true_and, Bool.and_false, Bool.or_false, Bool.and_eq_true, beq_iff_eq]

end

/-- Settles O54, by the kind of the entry that starts. -/
theorem coilDriverStarts : Obligations.CoilDriverStarts := by
  intro s
  have moved : CoilStep s (runQueue s) := runQueue_coil s
  refine ⟨fun again i c wanted => ⟨requestSuccessors_of_barred again i c wanted, requestSuccessors_of_running again i c wanted⟩,
    ⟨runQueue s, exec_coilStart s, moved.toBlockStep.aside, moved.coil, moved.term, moved.field, moved.panel, moved.points,
      fun idle => lookAtQueue_of_none idle 4, fun running => ⟨runQueue_idle s running, fun e next => lookAtQueue_of_some running next 4⟩⟩,
    ⟨_, exec_startHistoryExpiry s, counted_of_filtered s, rfl⟩, fun e => ?_, eligible_iff s, fun again e i same => ?_⟩
  · rw [← places_eq]
    exact nextStart_iff s e
  · subst same
    exact ⟨startEntry_of_reset again s, fun kind c ch set watched => startEntry_of_test again s kind set watched,
      fun kind c set => ⟨s.tripStarted e c, rfl, startEntry_of_pulse again kind set, startEntry_of_bareHold again kind set,
        startEntry_of_hold again kind set⟩⟩

end Sys2Proof.Machine
end

section
/-! Feedback events and the ends of pulses (R101, R102, R109 to R113), tests given up (R138, R140), and a switch's system points. -/

namespace Sys2Proof.Machine

/-! ## The system points of a switch -/

theorem shownOperated_iff (x : Switch) : x.shownOperated = true ↔ x.state = .confirmed ∨ x.state = .lockedOut ∨ x.state = .held ∨
    x.state = .failed ∨ x.state = .unconfirmed := by
  simp only [Switch.shownOperated, Bool.or_eq_true, beq_iff_eq, or_assoc]

theorem shownFault_iff (x : Switch) : x.shownFault = true ↔ x.state = .failed ∨ x.state = .unconfirmed ∨ x.resetFailed = true ∨
    x.supervision = .openCircuit ∨ x.supervision = .unverified := by
  simp only [Switch.shownFault, Bool.or_eq_true, beq_iff_eq, or_assoc]

/-- Whether point 544 + i shows a switch operated, and point 592 + i at fault (R117); neither for one that is not configured (R9). -/
abbrev State.operatedShown (s : State) (i : Nat) : Bool := (s.swSet i).isSome && (s.swi i).shownOperated

abbrev State.faultShown (s : State) (i : Nat) : Bool := (s.swSet i).isSome && (s.swi i).shownFault

theorem syncSwitchPoints_eq (i : Nat) (s : State) :
    syncSwitchPoints i s = setSystemPoint (592 + i) (s.faultShown i) (setSystemPoint (544 + i) (s.operatedShown i) s) := by
  have same : (setSystemPoint (544 + i) (s.operatedShown i) s).swi i = s.swi i := by rw [State.swi, setSystemPoint_sw]; rfl
  simp only [syncSwitchPoints, same]

theorem setSystemPoint_settings (n : Nat) (v : Bool) (s : State) : (setSystemPoint n v s).settings = s.settings := by
  rw [setSystemPoint_frame]

theorem syncSwitchPoints_shown {i : Nat} (small : i < 48) {s : State} (adopted : s.settings.adopted = true) :
    ((syncSwitchPoints i s).pt (544 + i)).qualified = s.operatedShown i ∧
      ((syncSwitchPoints i s).pt (592 + i)).qualified = s.faultShown i := by
  rw [syncSwitchPoints_eq]
  refine ⟨?_, setSystemPoint_qualified _ _ _ (by rw [setSystemPoint_settings]; exact adopted) (by omega)⟩
  rw [setSystemPoint_pt_other _ _ _ (by omega)]
  exact setSystemPoint_qualified _ _ _ adopted (by omega)

theorem switchesTake_eq (n : Nat) (s : State) : switchesTake n s =
    ((List.range 48).filter fun i => (s.swSet i).any fun c => c.feedback == some n).foldl takeFeedback s := by
  rw [switchesTake, State.switchesOn, configuredWhere_eq_filter]
  rfl

/-! ## What a feedback point shows -/

theorem operated_iff (s : State) (c : SwitchSettings) :
    s.operated c = true ↔ ∃ n, c.feedback = some n ∧ (s.pt n).quality = .good ∧ (s.pt n).effective = true := by
  unfold State.operated
  cases c.feedback <;> simp

theorem restingFeedback_iff (s : State) (c : SwitchSettings) :
    s.restingFeedback c = true ↔ ∃ n, c.feedback = some n ∧ (s.pt n).quality = .good ∧ (s.pt n).effective = false := by
  unfold State.restingFeedback
  cases c.feedback <;> simp

theorem feedbackGood_iff (s : State) (c : SwitchSettings) :
    (s.feedbackQuality c == .good) = true ↔ ∃ n, c.feedback = some n ∧ (s.pt n).quality = .good := by
  unfold State.feedbackQuality
  cases c.feedback <;> simp

/-! ## What each state does with an operated feedback point -/

section
variable (i : Nat) (c : SwitchSettings) (s : State)

theorem confirmPulse_confirms : ∃ u, PulseConfirms i c s u ∧ confirmPulse i c s = runQueue u := ⟨_, ⟨_, _, rfl, rfl, rfl⟩, rfl⟩

variable {i c s} in
theorem PulseConfirms.coil {u : State} (confirms : PulseConfirms i c s u) : CoilStep s u := by
  obtain ⟨length, x, rfl, rfl, rfl⟩ := confirms
  have entered : CoilStep s (s.setSwi i { s.swi i with
      state := confirmedState c, lastPulse := s.clock.elapsed - (s.swi i).opStartElapsed }) :=
    setSwi_coil _ _ _ (by rfl) (energized_rest (confirmedState_atRest c) (by rfl))
  exact (((entered.trans (requestSwitch_coil ..)).trans (syncSwitchPoints_coil ..)).trans
    (requestSuccessors_coil runQueue_coil ..)).trans (recloseBreaker_coil ..)

theorem lateConfirm_eq : ∃ (late : Nat) (x : State),
    (s.clock.elapsed - (s.swi i).opStartElapsed < 65536 → late = s.clock.elapsed - (s.swi i).opStartElapsed) ∧
    (65536 ≤ s.clock.elapsed - (s.swi i).opStartElapsed → late = (Config.freeHalf s.free).toNat) ∧
    x = { WithSwitch i { s.swi i with state := if c.kind = .lockout then .lockedOut else .confirmed } s with
      free := s.free + 1
      jr := s.jr.request s.clock.hall (switchEntry i .lateConfirm c.unit (s.swi i).isolated none 0 late 0
        (s.swi i).opStart s.clock.hall) } ∧
    lateConfirm i c s = requestSuccessors runQueue i c (fun t => t == .onConfirm) (syncSwitchPoints i x) :=
  ⟨timeFromStart (s.swi i) s, _, fun soon => if_pos soon, fun late => if_neg (Nat.not_lt.2 late), rfl, rfl⟩

variable {s} in
theorem recloseBreaker_of_confirmed (state : (s.swi i).state = .confirmed) :
    ((∃ n, c.feedback = some n ∧ (s.pt n).quality = .good ∧ (s.pt n).effective = false) →
      recloseBreaker i c s = SwitchEnters i c .ready .reclosed 0 s) ∧
    (¬ (∃ n, c.feedback = some n ∧ (s.pt n).quality = .good ∧ (s.pt n).effective = false) → recloseBreaker i c s = s) := by
  simp only [recloseBreaker, state, ← restingFeedback_iff, beq_self_eq_true, Bool.true_and]
  exact ⟨fun rest => if_pos rest, fun busy => if_neg busy⟩

theorem confirmHold_eq : confirmHold runQueue i c s = requestSuccessors runQueue i c (fun t => t == .onConfirm)
    { WithSwitch i { s.swi i with confirmedMark := true } s with
      jr := s.jr.request s.clock.hall (switchEntry i .confirm c.unit ((s.setSwi i { s.swi i with confirmedMark := true }).swi i).isolated
        none 0 0 0 0 s.clock.hall) } := rfl

variable {i c s}

theorem settleSwitch_of_settling (state : (s.swi i).state = .settling) {n : Nat} (feedback : c.feedback = some n) :
    ((s.pt n).quality = .lost → settleSwitch i c s = s) ∧
    ((s.pt n).quality ≠ .lost → s.operated c = true → settleSwitch i c s = SwitchEnters i c .lockedOut .settled 7 s) ∧
    ((s.pt n).quality ≠ .lost → s.operated c = false → settleSwitch i c s = SwitchEnters i c .ready .settled 1 s) := by
  have quality : s.feedbackQuality c = (s.pt n).quality := by rw [State.feedbackQuality, feedback]
  simp only [settleSwitch, state, quality, beq_self_eq_true, Bool.true_and, bne_iff_ne]
  refine ⟨fun lost => if_neg fun other => other lost, fun known operated => ?_, fun known rest => ?_⟩
  · rw [if_pos known, operated]
    rfl
  · rw [if_pos known, rest]
    rfl

end

/-- What an event of its feedback point does to a configured switch: the function of its state. -/
theorem takeFeedback_cases {s : State} {i : Nat} {c : SwitchSettings} (set : s.swSet i = some c) : takeFeedback s i =
    match (s.swi i).state with
    | .pulsing =>
      if s.operated c then
        if (s.setSwi i { s.swi i with seen := true }).minRun i c then confirmPulse i c (s.setSwi i { s.swi i with seen := true })
        else s.setSwi i { s.swi i with seen := true }
      else s
    | .failed => if s.operated c then lateConfirm i c s else s
    | .unconfirmed => if s.operated c then lateConfirm i c s else s
    | .confirmed => recloseBreaker i c s
    | .held => if !(s.swi i).confirmedMark && s.operated c then confirmHold runQueue i c s else s
    | .settling => settleSwitch i c s
    | .ready => if c.kind = .lockout ∧ s.operated c then foundOperated i c s else s
    | _ => s := by
  rw [takeFeedback, set]
  cases (s.swi i).state <;> rfl

section
variable {s : State} {i : Nat} {c : SwitchSettings} (set : s.swSet i = some c)
include set

theorem takeFeedback_of_pulsing (state : (s.swi i).state = .pulsing) :
    (s.operated c = false → takeFeedback s i = s) ∧
    (s.operated c = true → ∃ x : State, x = WithSwitch i { s.swi i with seen := true } s ∧
      (s.clock.elapsed < (s.swi i).opStartElapsed + c.minPulse → takeFeedback s i = x) ∧
      ((s.swi i).opStartElapsed + c.minPulse ≤ s.clock.elapsed → ∃ v, PulseConfirms i c x v ∧ takeFeedback s i = runQueue v)) := by
  have run : (s.setSwi i { s.swi i with seen := true }).minRun i c = true ↔ (s.swi i).opStartElapsed + c.minPulse ≤ s.clock.elapsed := by
    simp only [State.minRun, State.due, decide_eq_true_iff, swi_setSwi_same (swSet_lt set)]
    rfl
  have pulsing : takeFeedback s i = if s.operated c then
      if (s.setSwi i { s.swi i with seen := true }).minRun i c then confirmPulse i c (s.setSwi i { s.swi i with seen := true })
      else s.setSwi i { s.swi i with seen := true }
    else s := by simp only [takeFeedback_cases set, state]
  rw [pulsing]
  refine ⟨fun rest => if_neg (Bool.eq_false_iff.1 rest), fun operated => ?_⟩
  rw [if_pos operated]
  refine ⟨_, rfl, fun early => if_neg fun late => absurd (run.1 late) (Nat.not_le.2 early), fun late => ?_⟩
  rw [if_pos (run.2 late)]
  exact confirmPulse_confirms i c _

theorem takeFeedback_takes : FeedbackTaken s i c (takeFeedback s i) := by
  refine ⟨takeFeedback_of_pulsing set, fun state => ?_, fun state => ?_, fun state => ?_, fun state n feedback => ?_, fun state => ?_,
    fun state => ?_⟩
  · have late : takeFeedback s i = if s.operated c then lateConfirm i c s else s := by
      rcases state with state | state <;> simp only [takeFeedback_cases set, state]
    rw [late]
    refine ⟨fun rest => if_neg (Bool.eq_false_iff.1 rest), fun operated => ?_⟩
    rw [if_pos operated]
    exact lateConfirm_eq i c s
  · simp only [takeFeedback_cases set, state]
    exact recloseBreaker_of_confirmed i c state
  · have held : takeFeedback s i = if !(s.swi i).confirmedMark && s.operated c then confirmHold runQueue i c s else s := by
      simp only [takeFeedback_cases set, state]
    rw [held]
    refine ⟨fun out => if_neg ?_, fun fresh operated => ?_⟩
    · rcases out with marked | rest
      · simp [marked]
      · simp [rest]
    · rw [fresh, operated, if_pos (by decide), confirmHold_eq, swi_setSwi_same (swSet_lt set)]
  · simp only [takeFeedback_cases set, state]
    exact settleSwitch_of_settling state feedback
  · simp only [takeFeedback_cases set, state]
    refine ⟨fun out => if_neg fun both => ?_, fun lockout operated => if_pos ⟨lockout, operated⟩⟩
    rcases out with other | rest
    · exact other both.1
    · exact absurd (rest.symm.trans both.2) (by decide)
  · rcases state with state | state | state | state | state <;> simp only [takeFeedback_cases set, state]

/-! ## Tests lost -/

theorem loseTest_eq {ch interval : Nat} (watched : c.supervision = some (ch, interval)) :
    (min ((s.swi i).postponed + 1) 255 ≠ 8 →
      loseTest i s = WithSwitch i { s.swi i with postponed := min ((s.swi i).postponed + 1) 255 } s) ∧
    (min ((s.swi i).postponed + 1) 255 = 8 →
      loseTest i s = syncSwitchPoints i { WithSwitch i { s.swi i with postponed := 8, supervision := .unverified } s with
        jr := s.jr.request s.clock.hall (supervisionEntry i ch (s.swi i).supervision .unverified 8 0 0 s.clock.hall) }) := by
  have channel : c.channel.getD 0 = ch := by rw [SwitchSettings.channel, watched]; rfl
  simp only [loseTest, set, watched, Option.isNone_some, Bool.false_eq_true, if_false, saturate_eq_min]
  refine ⟨fun fewer => if_neg fewer, fun eight => ?_⟩
  rw [if_pos eight]
  simp only [changeSupervision, swi_setSwi_same (swSet_lt set), setSwi_setSwi, channel, eight]
  rfl

theorem giveUpTest_givesUp {ch interval : Nat} (watched : c.supervision = some (ch, interval)) :
    TestGivenUp s i c ch (giveUpTest i s) := by
  refine ⟨fun idle none => ?_, fun idle e waits kind => ?_, fun runs => ?_, fun z set => loseTest_eq set watched⟩
  · unfold giveUpTest
    rw [idle, if_neg (by decide)]
    split
    · next e waits => exact if_neg (none e waits)
    · rfl
  · unfold giveUpTest
    rw [idle, if_neg (by decide), waits]
    exact if_pos kind
  · have channel : ((s.setSwi i { s.swi i with testStart := none }).swSet i).bind SwitchSettings.channel = some ch := by
      show (s.swSet i).bind _ = _
      rw [set, Option.bind_some, SwitchSettings.channel, watched]
      rfl
    unfold giveUpTest
    rw [if_pos (Option.isSome_iff_ne_none.2 runs), cutTest, freeChannel, channel]
    rfl

/-! ## The ends of pulses -/

theorem exec_minPulseExpiry (state : (s.swi i).state = .pulsing) :
    exec (.minPulseExpiry i) s = if ((s.swi i).seen && s.minRun i c) = true then .next (finish (confirmPulse i c s)) else .next s := by
  change execMinPulseExpiry i s = _
  simp only [execMinPulseExpiry, State.pulsing, state, beq_self_eq_true, if_true, set]

theorem exec_maxPulseExpiry (state : (s.swi i).state = .pulsing) :
    exec (.maxPulseExpiry i) s =
      if (!(s.swi i).seen && s.due ((s.swi i).opStartElapsed + c.maxPulse)) = true then .next (finish (failPulse i c s)) else .next s := by
  change execMaxPulseExpiry i s = _
  simp only [execMaxPulseExpiry, State.pulsing, state, beq_self_eq_true, if_true, set]

theorem exec_resetPulseEnd_of_due (state : (s.swi i).state = .resetPulsing)
    (late : (s.swi i).opStartElapsed + c.resetPulse ≤ s.clock.elapsed) :
    exec (.resetPulseEnd i) s = .next (finish (endReset i c s)) := by
  change execResetPulseEnd i s = _
  simp only [execResetPulseEnd, set, state, beq_self_eq_true, due_of_le late, Bool.and_self, if_true]

end

/-- A trip pulse that has reached max pulse, before its backup is requested (R128, R129). -/
abbrev PulseFailed (i : Nat) (c : SwitchSettings) (s : State) (failed : Bool) : State := { s with
  sw := { s.sw with switches := put s.sw.switches i { s.swi i with
    state := if failed then .failed else .unconfirmed, lastPulse := c.maxPulse } }
  jr := s.jr.request s.clock.hall (switchEntry i (if failed then .fail else .unconfirmed) c.unit
    (failed && (s.swi i).isolated) none 0 0 (s.feedbackQuality c).code (s.swi i).opStart s.clock.hall) }

theorem pulseFailed_coil (i : Nat) (c : SwitchSettings) (s : State) (failed : Bool) : CoilStep s (PulseFailed i c s failed) := by
  have entered : CoilStep s (s.setSwi i { s.swi i with
      state := if failed then .failed else .unconfirmed, lastPulse := c.maxPulse }) :=
    setSwi_coil _ _ _ (by rfl) (energized_rest (by cases failed <;> rfl) (by rfl))
  exact entered.trans (requestSwitch_coil ..)

theorem halted_of_coil {s u : State} (step : CoilStep s u) : u.halted = s.halted := by
  unfold State.halted
  rw [step.monitor]

/-- The end of a pulse at max pulse: a backup is requested by a FAILED switch only, that is not isolated, of a part not HALTED. -/
theorem failPulse_eq (i : Nat) (c : SwitchSettings) (s : State) : ∃ (failed : Bool) (u : State), failPulse i c s = runQueue u ∧
    Aside s u ∧ (failed = true ↔ ∃ n, c.feedback = some n ∧ (s.pt n).quality = .good) ∧
    (failed = false ∨ (s.swi i).isolated = true ∨ s.halted = true ∨ c.backup = none →
      u = syncSwitchPoints i (PulseFailed i c s failed)) ∧
    (∀ b, failed = true → (s.swi i).isolated = false → s.halted = false → c.backup = some b →
      u = requestTrip (.backup i) b (syncSwitchPoints i (PulseFailed i c s failed))) := by
  let failed : Bool := s.feedbackQuality c == .good
  let x := syncSwitchPoints i (PulseFailed i c s failed)
  have step : CoilStep s x := (pulseFailed_coil i c s failed).trans (syncSwitchPoints_coil ..)
  have halted : x.halted = s.halted := halted_of_coil step
  have runs : failPulse i c s = runQueue (match c.backup with
    | some b => if (failed && !(s.swi i).isolated && !x.halted) = true then requestTrip (.backup i) b x else x
    | none => x) := rfl
  rw [halted] at runs
  refine ⟨failed, _, runs, ?_, feedbackGood_iff s c, fun none => ?_, fun b yes connected running backup => ?_⟩
  · cases c.backup with
    | none => exact step.toBlockStep.aside
    | some b =>
      have both : CoilStep s (if (failed && !(s.swi i).isolated && !s.halted) = true then requestTrip (.backup i) b x else x) :=
        ite_rel (step.trans (requestTrip_coil ..)) step
      exact both.toBlockStep.aside
  · cases backup : c.backup with
    | none => rfl
    | some b =>
      refine if_neg ?_
      rcases none with no | isolated | halted | none
      · simp [no]
      · simp [isolated]
      · simp [halted]
      · exact absurd (backup.symm.trans none) (by simp)
  · rw [backup]
    simp [yes, connected, running, x]

theorem endReset_eq (i : Nat) (c : SwitchSettings) (s : State) : ∃ (done : Bool) (x : State),
    endReset i c s = runQueue (syncSwitchPoints i x) ∧ Aside s x ∧
    (done = true ↔ ∃ n, c.feedback = some n ∧ (s.pt n).quality = .good ∧ (s.pt n).effective = false) ∧
    x = { s with
      sw := { s.sw with switches := put s.sw.switches i { s.swi i with
        state := if done then .ready else .lockedOut, resetFailed := !done } }
      jr := s.jr.request s.clock.hall (switchEntry i (if done then .resetDone else .resetFailed) c.unit false none 0 0
        (s.feedbackQuality c).code (s.swi i).opStart s.clock.hall) } := by
  refine ⟨s.restingFeedback c, _, rfl, BlockStep.aside (HandStep.toBlockStep (CoilStep.toHandStep ?_)), restingFeedback_iff s c, rfl⟩
  have entered : CoilStep s (s.setSwi i { s.swi i with
      state := if s.restingFeedback c then .ready else .lockedOut, resetFailed := !s.restingFeedback c }) :=
    setSwi_coil _ _ _ (by rfl) (energized_rest (by cases s.restingFeedback c <;> rfl) (by rfl))
  exact entered.trans (requestSwitch_coil ..)

/-- Settles O55, by the state of the switch. -/
theorem pulsesEnd : Obligations.PulsesEnd := by
  refine ⟨fun s i small => ⟨s.operatedShown i, s.faultShown i, ?_, ?_, syncSwitchPoints_eq i s, syncSwitchPoints_shown small⟩,
    fun s n => switchesTake_eq n s, fun s i c set => ⟨operated_iff s c, takeFeedback_takes set, fun ch interval => giveUpTest_givesUp set⟩,
    fun s i c set => ⟨fun state seen late => ?_, fun state unseen => ⟨?_, fun late => ?_⟩, fun state seen => ?_, fun state late => ?_⟩⟩
  · rw [Bool.and_eq_true, Option.isSome_iff_ne_none, shownOperated_iff]
  · rw [Bool.and_eq_true, Option.isSome_iff_ne_none, shownFault_iff]
  · obtain ⟨u, confirms, runs⟩ := confirmPulse_confirms i c s
    refine ⟨u, ?_, confirms.coil.toBlockStep.aside, confirms⟩
    rw [exec_minPulseExpiry set state, seen, show s.minRun i c = true from due_of_le late, runs]
    rfl
  · rw [exec_minPulseExpiry set state, unseen]
    rfl
  · obtain ⟨failed, u, runs, aside, good, alone, backup⟩ := failPulse_eq i c s
    refine ⟨failed, _, u, ?_, aside, good, rfl, alone, backup⟩
    rw [exec_maxPulseExpiry set state, unseen, due_of_le late, runs]
    rfl
  · rw [exec_maxPulseExpiry set state, seen]
    rfl
  · obtain ⟨done, x, runs, aside, resting, same⟩ := endReset_eq i c s
    exact ⟨done, x, (exec_resetPulseEnd_of_due set state late).trans (by rw [runs]), aside, resting, same⟩

end Sys2Proof.Machine
end

section
/-! Test pulses and interval ticks (R107, R137 to R141, R144). -/

namespace Sys2Proof.Machine

/-! ## The end of a test pulse -/

/-- The test of a switch ended, its sample taken by the channel (R138). -/
abbrev State.testEnded (i ch : Nat) (sample : BitVec 10) (s : State) : State := { s with
  sw := { s.sw with switches := put s.sw.switches i { s.swi i with testStart := none } }
  sup := { s.sup with channels := put s.sup.channels ch { s.chan ch with
    value := sample, time := s.clock.hall, lastJudged := some i, inFlight := none } } }

/-- The supervision state a sample shows (R139). -/
def State.judged (s : State) (ch : Nat) (sample : BitVec 10) : SupervisionState :=
  if (s.chanSet ch).low ≤ sample.toNat then .healthy else .openCircuit

theorem judgeTest_eq {i : Nat} (small : i < 48) (c : SwitchSettings) (ch : Nat) (sample : BitVec 10) (z : State) :
    judgeTest i c ch sample z =
      if (z.swi i).supervision = z.judged ch sample then z.setSwi i { z.swi i with postponed := 0 }
      else changeSupervision i c (z.judged ch sample) 0 sample.toNat (z.chanSet ch).low (z.setSwi i { z.swi i with postponed := 0 }) := by
  simp only [judgeTest, swi_setSwi_same small]
  rfl

section
variable {s : State} {i : Nat} {c : SwitchSettings} (set : s.swSet i = some c) {ch interval : Nat}
  (watched : c.supervision = some (ch, interval))
include set watched

omit watched in
theorem judgeTest_of_same {sample : BitVec 10} (same : (s.swi i).supervision = s.judged ch sample) :
    judgeTest i c ch sample (s.testEnded i ch sample) = { s.testEnded i ch sample with
      sw := { s.sw with switches := put s.sw.switches i { s.swi i with testStart := none, postponed := 0 } } } := by
  have mine : (s.testEnded i ch sample).swi i = { s.swi i with testStart := none } := swi_setSwi_same (swSet_lt set) s _
  rw [judgeTest_eq (swSet_lt set), mine]
  refine (if_pos same).trans ?_
  simp only [State.setSwi, put_put]

theorem judgeTest_of_other {sample : BitVec 10} (other : (s.swi i).supervision ≠ s.judged ch sample) :
    judgeTest i c ch sample (s.testEnded i ch sample) = syncSwitchPoints i { s.testEnded i ch sample with
      sw := { s.sw with switches := put s.sw.switches i { s.swi i with
        testStart := none, postponed := 0, supervision := s.judged ch sample } }
      jr := s.jr.request s.clock.hall (supervisionEntry i ch (s.swi i).supervision (s.judged ch sample) 0 sample.toNat
        (s.chanSet ch).low s.clock.hall) } := by
  have mine : (s.testEnded i ch sample).swi i = { s.swi i with testStart := none } := swi_setSwi_same (swSet_lt set) s _
  have channel : c.channel.getD 0 = ch := by rw [SwitchSettings.channel, watched]; rfl
  rw [judgeTest_eq (swSet_lt set), mine]
  refine (if_neg other).trans ?_
  simp only [changeSupervision, swi_setSwi_same (swSet_lt set), setSwi_setSwi, channel]
  simp only [State.setSwi, put_put]
  rfl

theorem exec_testPulseEnd {t : Nat} (runs : (s.swi i).testStart = some t) (late : t + 2 ≤ s.clock.elapsed) (sample : BitVec 10) :
    exec (.testPulseEnd i sample) s = .next (finish (
      if s.halted then s.testEnded i ch sample else runQueue (judgeTest i c ch sample (s.testEnded i ch sample)))) := by
  have channel : c.channel = some ch := by rw [SwitchSettings.channel, watched]; rfl
  change execTestPulseEnd i sample s = _
  simp only [execTestPulseEnd, set, runs, channel, due_of_le late, if_true]
  rfl

/-! ## An interval tick -/

theorem exec_supervisionTick (late : (s.swi i).nextTick ≤ s.clock.elapsed) :
    exec (.supervisionTick i) s = if s.halted then .next s else .next (finish (tick i c s)) := by
  change execSupervisionTick i s = _
  simp only [execSupervisionTick, set, watched, due_of_le late, Option.isSome_some, Bool.true_and, Bool.and_true]
  cases s.halted <;> rfl

/-- The next tick of a switch set (R137). -/
abbrev State.ticked (i interval : Nat) (s : State) : State :=
  WithSwitch i { s.swi i with nextTick := (s.swi i).nextTick + 1000 * interval } s

omit set in
theorem tick_eq : tick i c s = if (s.ticked i interval).testTaken i then queueTest i (s.ticked i interval) else loseTest i (s.ticked i interval) := by
  simp only [tick, watched]
  rfl

omit watched in
theorem ticked_swi : (s.ticked i interval).swi i = { s.swi i with nextTick := (s.swi i).nextTick + 1000 * interval } :=
  swi_setSwi_same (swSet_lt set) s _

omit watched in
theorem ticked_testTaken : (s.ticked i interval).testTaken i = true ↔
    (s.swi i).state = .ready ∧ s.entryOf i = none ∧ (s.swi i).testStart = none := by
  rw [testTaken_iff, ticked_swi set]
  rfl

omit set watched in
/-- A test request taken: its entry behind those of its class. -/
theorem queueTest_eq (z : State) : ∃ (e : QueueEntry) (before behind : List QueueEntry), e.switch = i ∧ e.kind = .test ∧ e.cls = 4 ∧
    e.joined = z.clock.elapsed ∧ e.joinedHall = z.clock.hall ∧ before ++ behind = z.sw.queue ∧
    (∀ x ∈ before, x.cls ≤ 4) ∧ (∀ x ∈ behind.head?, 4 < x.cls) ∧
    queueTest i z = runQueue { z with sw := { z.sw with queue := before ++ e :: behind } } := by
  obtain ⟨before, behind, whole, joined, low, high⟩ := insertEntry_split
    { switch := i, kind := .test, cls := 4, joined := z.clock.elapsed, joinedHall := z.clock.hall, source := .order 0 } z.sw.queue
  refine ⟨{ switch := i, kind := .test, cls := 4, joined := z.clock.elapsed, joinedHall := z.clock.hall, source := .order 0 },
    before, behind, rfl, rfl, rfl, rfl, rfl, whole, low, high, ?_⟩
  rw [← joined]
  rfl

theorem tick_of_ready (ready : (s.swi i).state = .ready) (alone : s.entryOf i = none) (idle : (s.swi i).testStart = none) :
    ∃ (e : QueueEntry) (before behind : List QueueEntry), e.switch = i ∧ e.kind = .test ∧ e.cls = 4 ∧
      e.joined = s.clock.elapsed ∧ e.joinedHall = s.clock.hall ∧ before ++ behind = s.sw.queue ∧
      (∀ x ∈ before, x.cls ≤ 4) ∧ (∀ x ∈ behind.head?, 4 < x.cls) ∧
      tick i c s = runQueue { s with sw := { s.sw with
        switches := put s.sw.switches i { s.swi i with nextTick := (s.swi i).nextTick + 1000 * interval }
        queue := before ++ e :: behind } } := by
  obtain ⟨e, before, behind, switch, kind, cls, joined, joinedHall, whole, low, high, runs⟩ := queueTest_eq (i := i) (s.ticked i interval)
  refine ⟨e, before, behind, switch, kind, cls, joined, joinedHall, whole, low, high, ?_⟩
  rw [tick_eq watched, if_pos ((ticked_testTaken set).2 ⟨ready, alone, idle⟩), runs]

theorem tick_of_busy (busy : (s.swi i).state ≠ .ready ∨ s.entryOf i ≠ none ∨ (s.swi i).testStart ≠ none) :
    (min ((s.swi i).postponed + 1) 255 ≠ 8 → tick i c s = { s with sw := { s.sw with
      switches := put s.sw.switches i { s.swi i with
        nextTick := (s.swi i).nextTick + 1000 * interval, postponed := min ((s.swi i).postponed + 1) 255 } } }) ∧
    (min ((s.swi i).postponed + 1) 255 = 8 → tick i c s = syncSwitchPoints i { s with
      sw := { s.sw with switches := put s.sw.switches i { s.swi i with
        nextTick := (s.swi i).nextTick + 1000 * interval, postponed := 8, supervision := .unverified } }
      jr := s.jr.request s.clock.hall (supervisionEntry i ch (s.swi i).supervision .unverified 8 0 0 s.clock.hall) }) := by
  have lost : tick i c s = loseTest i (s.ticked i interval) := by
    rw [tick_eq watched, if_neg]
    rw [ticked_testTaken set]
    rintro ⟨ready, alone, idle⟩
    rcases busy with other | waits | runs
    · exact other ready
    · exact waits alone
    · exact runs idle
  have loses := loseTest_eq (s := s.ticked i interval) (i := i) (c := c) set watched
  simp only [ticked_swi set, put_put] at loses
  obtain ⟨fewer, eight⟩ := loses
  rw [lost]
  exact ⟨fun other => (fewer other).trans (setSwi_setSwi s i _ _), eight⟩

end

/-- Settles O56, by whether the part is HALTED. -/
theorem testsAndTicks : Obligations.TestsAndTicks := by
  intro s i c ch interval set watched
  refine ⟨fun t sample runs late => ?_, fun late => ⟨fun halted => ?_, fun running => ⟨fun ready alone idle => ?_, fun busy => ?_⟩⟩⟩
  · have ends := exec_testPulseEnd set watched runs late sample
    refine ⟨s.judged ch sample, s.testEnded i ch sample, rfl, fun high => if_pos high, fun low => if_neg (Nat.not_le.2 low),
      fun halted => ?_, fun running same => ?_, fun running other => ?_⟩
    · rw [ends, if_pos halted]
    · rw [ends, if_neg (Bool.eq_false_iff.1 running), judgeTest_of_same set same]
    · rw [ends, if_neg (Bool.eq_false_iff.1 running), judgeTest_of_other set watched other]
  · rw [exec_supervisionTick set watched late, if_pos halted]
  · obtain ⟨e, before, behind, switch, kind, cls, joined, joinedHall, whole, low, high, runs⟩ := tick_of_ready set watched ready alone idle
    refine ⟨e, before, behind, switch, kind, cls, joined, joinedHall, whole, low, high, ?_⟩
    rw [exec_supervisionTick set watched late, if_neg (Bool.eq_false_iff.1 running), runs]
  · rw [exec_supervisionTick set watched late, if_neg (Bool.eq_false_iff.1 running)]
    obtain ⟨fewer, eight⟩ := tick_of_busy set watched busy
    exact ⟨fun other => by rw [fewer other], fun reached => by rw [eight reached]⟩

end Sys2Proof.Machine
end

section
/-! Checks of the live settings entries (R167, R168). -/

namespace Sys2Proof.Machine

theorem exec_tableCheck (table : TableName) (e : Nat) (f : CheckFinding) (s : State) :
    exec (.tableCheck table e f) s = .next (finish (checkEntry table e f s)) := rfl

theorem checkEntry_of_barred {s : State} (barred : s.settings.adopted = false ∨ s.halted = true) (table : TableName) (e : Nat)
    (f : CheckFinding) : checkEntry table e f s = s := by
  unfold checkEntry
  rcases barred with bare | halted
  · simp [bare]
  · simp [halted]

theorem checkEntry_of_running {s : State} (adopted : s.settings.adopted = true) (running : s.halted = false) (table : TableName) (e : Nat)
    (f : CheckFinding) : checkEntry table e f s =
      match f with
      | .sound => s
      | .correctable => { s with monitor := { s.monitor with corrected := min (s.monitor.corrected + 1) 65535 } }
      | .uncorrectable => uncorrectable table e (mendEntry table e s)
      | .bothCopies => uncorrectable table e (uncorrectable table e s) := by
  have barred : (!s.settings.adopted || s.halted) = false := by rw [adopted, running]; decide
  unfold checkEntry
  rw [barred, if_neg (by decide)]
  cases f
  case correctable => rw [← saturate_eq_min]
  all_goals rfl

/-- An uncorrectable error with the latch clear (R167). -/
theorem uncorrectable_of_clear {s : State} (adopted : s.settings.adopted = true) (running : s.halted = false)
    (clear : s.monitor.latch = none) (table : TableName) (e : Nat) :
    uncorrectable table e s = Faulted s table e s.monitor.shown := by
  have now : State.conditionNow { s with monitor := { s.monitor with latch := some (table, e) } } = .faulted := by
    have alive : State.halted { s with monitor := { s.monitor with latch := some (table, e) } } = false := running
    rw [State.conditionNow, alive, adopted]
    rfl
  simp only [uncorrectable, running, clear, Bool.false_eq_true, if_false, updateCondition, now]
  by_cases shown : s.monitor.shown = .faulted
  · rw [if_pos shown.symm, Faulted, if_pos shown, ← shown]
  · rw [if_neg (Ne.symm shown), Faulted, if_neg shown]
    rfl

/-- An uncorrectable error with the latch set (R168). -/
theorem uncorrectable_of_latched {s : State} (running : s.halted = false) {first : TableName × Nat} (latched : s.monitor.latch = some first)
    (table : TableName) (e : Nat) : uncorrectable table e s = Halted s first (table, e) := by
  simp only [uncorrectable, running, latched, Bool.false_eq_true, if_false]
  rfl

/-- Settles O57: a first error latches, a second one halts; the mended entry is the live one where the copies agree. -/
theorem tableChecksJudged : Obligations.TableChecksJudged := by
  intro s table e agree
  have mended : mendEntry table e s = s := mendEntry_same table e s agree
  simp only [exec_tableCheck]
  refine ⟨fun barred f => by rw [checkEntry_of_barred barred], fun adopted running => ?_⟩
  simp only [checkEntry_of_running adopted running, mended]
  refine ⟨trivial, trivial, fun clear => ?_, fun first latched f bad => ?_⟩
  · have halted : (Faulted s table e s.monitor.shown).halted = false := rfl
    rw [uncorrectable_of_clear adopted running clear, uncorrectable_of_latched halted (first := (table, e)) rfl]
    exact ⟨rfl, rfl⟩
  · have halts : uncorrectable table e s = Halted s first (table, e) := uncorrectable_of_latched running latched table e
    have again : uncorrectable table e (Halted s first (table, e)) = Halted s first (table, e) := if_pos rfl
    rcases bad with rfl | rfl
    · rw [halts]
    · rw [halts, again]

end Sys2Proof.Machine
end

section
/-! Cycles and calls of the field loop and of the panel loop (R21 to R23, R25, R75, R77, R178). -/

namespace Sys2Proof.Machine

theorem frameBits_eq (frame : List Byte) : frameBits frame = frame.flatMap fun b =>
    [LineBit.start, .data (b.getLsbD 0), .data (b.getLsbD 1), .data (b.getLsbD 2), .data (b.getLsbD 3), .data (b.getLsbD 4),
      .data (b.getLsbD 5), .data (b.getLsbD 6), .data (b.getLsbD 7), .stop] := rfl

/-! ## The field loop -/

theorem callOrder_eq (t : Tables) : t.callOrder = (List.range 16).filter fun c => (look t.concentrators c).isSome := by
  rw [Tables.callOrder, configuredWhere_eq_filter]
  congr 1

theorem errorThresholds_look {t : Tables} {c : Nat} {set : ConcentratorSettings} (configured : look t.concentrators c = some set) :
    look t.errorThresholds c = set.errorThreshold := by
  have small : c < 16 := by
    by_contra beyond
    rw [look_beyond _ _ (Nat.not_lt.1 beyond)] at configured
    cases configured
  have here : look t.errorThresholds c = ((look t.concentrators c).map fun c => c.errorThreshold).getD 0 := by
    simp only [look, Tables.errorThresholds, Vector.getElem?_eq_getElem small, Option.getD_some, Vector.getElem_map]
  rw [here, configured]
  rfl

section
variable {s : State} {t : Nat} (due : s.field.nextAt = some t) (ended : s.field.cycle = none) (late : t ≤ s.clock.elapsed)
include due ended late

theorem exec_fieldCycleStart : exec .fieldCycleStart s = if s.halted then .next s else .next { s with field := { s.field with
    cycle := some
      { count := s.field.nextCount, start := s.clock.hall, startElapsed := s.clock.elapsed,
        schedule := s.settings.live.callOrder, slots := fieldSlots s.settings.live.general.rate s.settings.live.general.cycle,
        slot := 0, call := none, retry := [], retried := [], taken := [], errors := [], withdrawn := []
        thresholds := s.settings.live.errorThresholds }
    nextCount := s.field.nextCount + 1, nextAt := some (t + s.settings.live.general.cycle) } } := by
  change execFieldCycleStart s = _
  simp only [execFieldCycleStart, due, ended, due_of_le late, Bool.true_and]
  cases s.halted <;> rfl

end

section
variable {s : State}

theorem sendCall_of_served (y : FieldCycle) {a : Nat} (isRepeat : Bool) (set : s.concSet a ≠ none) (served : a ∉ y.withdrawn) :
    sendCall y a isRepeat s = { s with field := { s.field with
      cycle := some { y with call := some (a, isRepeat) }, line := callFrame a isRepeat y.count } } := by
  rw [sendCall, fieldServes_of_not_mem s served, if_pos (Option.isSome_iff_ne_none.2 set)]

theorem sendCall_of_unserved (y : FieldCycle) {a : Nat} (isRepeat : Bool) (out : s.concSet a = none ∨ a ∈ y.withdrawn) :
    sendCall y a isRepeat s = { s with field := { s.field with cycle := some { y with slot := y.slot + 1 } } } := by
  rw [sendCall, fieldServes_none out]
  rfl

variable {y : FieldCycle} (cycle : s.field.cycle = some y) (free : y.call = none)
include cycle free

theorem exec_scanCall {a : Nat} (slot : y.schedule[y.slot]? = some a) : exec .scanCall s = .next (sendCall y a false s) := by
  change execScanCall s = _
  simp only [execScanCall, cycle, free, slot]

theorem exec_repeatCall (behind : y.schedule.length ≤ y.slot) (before : y.slot < y.slots) :
    (y.retry = [] → exec .repeatCall s = .next (s.setFieldCycle { y with slot := y.slot + 1 })) ∧
    ∀ a rest, y.retry = a :: rest →
      exec .repeatCall s = .next (sendCall { y with retry := rest, retried := a :: y.retried } a true s) := by
  change (_ → execRepeatCall s = _) ∧ ∀ a rest, _ → execRepeatCall s = _
  simp only [execRepeatCall, cycle, free, Option.isNone_none, behind, before, and_self, if_true]
  exact ⟨fun empty => by rw [empty], fun a rest retry => by rw [retry]⟩

end

/-- Settles O45, by the kind of the slot. -/
theorem fieldCyclesAndCalls : Obligations.FieldCyclesAndCalls := by
  refine fun s => ⟨frameBits_eq _, fun t due ended late => ⟨fun halted => ?_, fun running => ?_⟩, fun y cycle free =>
    ⟨fun a slot => ⟨fun set served => ?_, fun out => ?_⟩, fun behind before => ?_⟩⟩
  · rw [exec_fieldCycleStart due ended late, if_pos halted]
  · rw [exec_fieldCycleStart due ended late, if_neg (Bool.eq_false_iff.1 running), callOrder_eq]
    exact ⟨_, _, fun both => if_pos both, fun neither => if_neg neither, rfl, fun c set configured => errorThresholds_look configured, rfl⟩
  · rw [exec_scanCall cycle free slot, sendCall_of_served y false set served]
    rfl
  · rw [exec_scanCall cycle free slot, sendCall_of_unserved y false out]
  · obtain ⟨empty, calls⟩ := exec_repeatCall cycle free behind before
    refine ⟨empty, fun a rest retry => ⟨fun set served => ?_, fun out => ?_⟩⟩
    · rw [calls a rest retry, sendCall_of_served { y with retry := rest, retried := a :: y.retried } true set served]
      rfl
    · rw [calls a rest retry, sendCall_of_unserved { y with retry := rest, retried := a :: y.retried } true out]

/-! ## The panel loop -/

theorem panelOrder_eq (t : Tables) : t.panelOrder = (List.range 16).filter fun p => (look t.panels p).isSome := by
  rw [Tables.panelOrder, configuredWhere_eq_filter]
  congr 1

section
variable {s : State}

theorem exec_panelCycleStart {t : Nat} (due : s.panel.nextAt = some t) (ended : s.panel.cycle = none) (late : t ≤ s.clock.elapsed) :
    exec .panelCycleStart s = if s.halted then .next s else .next { s with panel := { s.panel with
      cycle := some
        { start := s.clock.hall, schedule := s.settings.live.panelOrder, slot := 0, target := none, retry := [],
          retried := [], taken := [], withdrawn := [] }
      nextAt := some (t + 20) } } := by
  change execPanelCycleStart s = _
  simp only [execPanelCycleStart, due, ended, due_of_le late, Bool.true_and]
  cases s.halted <;> rfl

theorem sendFrame_of_served (y : PanelCycle) {p : Nat} (set : s.panSet p ≠ none) (served : p ∉ y.withdrawn) :
    sendFrame y p s = { s with panel := { s.panel with cycle := some { y with target := some p }, line := s.lampFrame p } } := by
  rw [sendFrame, panelServes_of_not_mem s served, if_pos (Option.isSome_iff_ne_none.2 set)]

theorem sendFrame_of_unserved (y : PanelCycle) {p : Nat} (out : s.panSet p = none ∨ p ∈ y.withdrawn) :
    sendFrame y p s = { s with panel := { s.panel with cycle := some { y with slot := y.slot + 1 } } } := by
  rw [sendFrame, panelServes_none out]
  rfl

theorem lampFrame_eq (s : State) (p : Nat) :
    s.lampFrame p = withCrc ([BitVec.ofNat 8 p, BitVec.ofNat 8 s.clock.flash.toNat] ++ s.patternBytes p) := by
  rw [State.lampFrame, BitVec.ofNat_toNat]

theorem patternBytes_getElem? (s : State) (p : Nat) {i : Nat} (inside : i < 12) : (s.patternBytes p)[i]? =
    some (BitVec.ofNat 8 ((s.pattern p (2 * i)).code + 16 * (s.pattern p (2 * i + 1)).code)) := by
  rw [State.patternBytes, List.getElem?_map, List.getElem?_range inside, Option.map_some]

variable {y : PanelCycle} (cycle : s.panel.cycle = some y) (free : y.target = none)
include cycle free

theorem exec_lampFrame_of_call (early : y.slot < 16) :
    (y.schedule[y.slot]? = none → exec .lampFrame s = .next (s.setPanelCycle { y with slot := y.slot + 1 })) ∧
    ∀ p, y.schedule[y.slot]? = some p → exec .lampFrame s = .next (sendFrame y p s) := by
  have running : ¬ 20 ≤ y.slot := by omega
  change (_ → execLampFrame s = _) ∧ ∀ p, _ → execLampFrame s = _
  simp only [execLampFrame, cycle, free, Option.isSome_none, Bool.false_eq_true, running, or_self, if_false, early, if_true]
  exact ⟨fun silent => by rw [silent], fun p slot => by rw [slot]⟩

theorem exec_lampFrame_of_retry (late : 16 ≤ y.slot) (before : y.slot < 20) :
    (y.retry = [] → exec .lampFrame s = .next (s.setPanelCycle { y with slot := y.slot + 1 })) ∧
    ∀ p rest, y.retry = p :: rest →
      exec .lampFrame s = .next (sendFrame { y with retry := rest, retried := p :: y.retried } p s) := by
  change (_ → execLampFrame s = _) ∧ ∀ p rest, _ → execLampFrame s = _
  simp only [execLampFrame, cycle, free, Option.isSome_none, Bool.false_eq_true, Nat.not_le.2 before, or_self, if_false,
    Nat.not_lt.2 late]
  exact ⟨fun empty => by rw [empty], fun p rest retry => by rw [retry]⟩

/-- The present slot's frame: to the panel of its call slot, or to the first one that waits for a retry (R75, R77). -/
theorem exec_lampFrame_of_panel {p : Nat} {z : PanelCycle}
    (slot : (y.slot < 16 ∧ y.schedule[y.slot]? = some p ∧ z = y) ∨
      (16 ≤ y.slot ∧ y.slot < 20 ∧ ∃ rest, y.retry = p :: rest ∧ z = { y with retry := rest, retried := p :: y.retried })) :
    exec .lampFrame s = .next (sendFrame z p s) ∧ z.withdrawn = y.withdrawn ∧ z.slot = y.slot := by
  rcases slot with ⟨early, called, rfl⟩ | ⟨late, before, rest, retry, rfl⟩
  · exact ⟨(exec_lampFrame_of_call cycle free early).2 p called, rfl, rfl⟩
  · exact ⟨(exec_lampFrame_of_retry cycle free late before).2 p rest retry, rfl, rfl⟩

end

/-- Settles O51, by the kind of the slot. -/
theorem panelCyclesAndFrames : Obligations.PanelCyclesAndFrames := by
  refine fun s => ⟨frameBits_eq _, fun t due ended late => ⟨fun halted => ?_, fun running => ?_⟩, fun y cycle free =>
    ⟨fun early => (exec_lampFrame_of_call cycle free early).1, fun late before => (exec_lampFrame_of_retry cycle free late before).1,
      fun p z slot => ?_⟩⟩
  · rw [exec_panelCycleStart due ended late, if_pos halted]
  · rw [exec_panelCycleStart due ended late, if_neg (Bool.eq_false_iff.1 running), panelOrder_eq]
    exact ⟨_, rfl, rfl⟩
  · obtain ⟨sends, withdrawn, place⟩ := exec_lampFrame_of_panel cycle free slot
    rw [sends, ← withdrawn, ← place]
    refine ⟨fun out => by rw [sendFrame_of_unserved z out], fun set served =>
      ⟨s.patternBytes p, by rw [State.patternBytes, List.length_map, List.length_range], fun i inside => patternBytes_getElem? s p inside, ?_⟩⟩
    rw [sendFrame_of_served z set served, lampFrame_eq]

end Sys2Proof.Machine
end

section
/-! A chatter period boundary (R11): the points it releases, and what it leaves as it was. -/

namespace Sys2Proof.Machine

theorem releaseChatter_eq (n : Nat) (z : State) : releaseChatter z n = windowsTake n z.clock.hall true { z with
    pts := { z.pts with points := put z.pts.points n { z.pt n with frozen := none } }
    jr := z.jr.request z.clock.hall (chatterEntry n true (z.pt n).chatter (z.pt n).effective z.clock.hall) } := rfl

/-- Nothing but points, windows and journal moves. -/
def PointsMoved (s t : State) : Prop := t = { s with pts := t.pts, win := t.win, jr := t.jr }

theorem PointsMoved.refl (s : State) : PointsMoved s s := rfl

theorem PointsMoved.trans {s t u : State} (first : PointsMoved s t) (second : PointsMoved t u) : PointsMoved s u :=
  Eq.trans second (by rw [show t = _ from first])

theorem releaseChatter_moved (z : State) (n : Nat) : PointsMoved z (releaseChatter z n) := by
  have step := windowsTake_winStep n z.clock.hall true { z with
    pts := { z.pts with points := put z.pts.points n { z.pt n with frozen := none } }
    jr := z.jr.request z.clock.hall (chatterEntry n true (z.pt n).chatter (z.pt n).effective z.clock.hall) }
  rw [releaseChatter_eq]
  exact step.frame.trans (by rw [step.pts])

theorem releaseChatter_pt (z : State) (n : Nat) {m : Nat} (inside : m < 680) :
    (releaseChatter z n).pt m = if m = n then { z.pt m with frozen := none } else z.pt m := by
  rw [releaseChatter_eq, winStep_pt (windowsTake_winStep ..)]
  refine (look_put z.pts.points n m _).trans ?_
  by_cases same : n = m
  · subst same
    rw [if_pos ⟨rfl, inside⟩, if_pos rfl]
  · rw [if_neg fun both => same both.1, if_neg (Ne.symm same)]
    rfl

theorem foldl_releaseChatter_pt (ns : List Nat) (z : State) {m : Nat} (inside : m < 680) :
    (ns.foldl releaseChatter z).pt m = { z.pt m with frozen := if m ∈ ns then none else (z.pt m).frozen } := by
  induction ns generalizing z with
  | nil => rfl
  | cons n ns ih =>
    rw [List.foldl_cons, ih, releaseChatter_pt z n inside]
    by_cases same : m = n
    · subst same
      simp
    · simp [same]

theorem mem_calmPoints (s : State) (n : Nat) : n ∈ s.calmPoints ↔ n < 544 ∧ (s.pt n).frozen ≠ none ∧
    ∃ c, s.ptSet n = some c ∧ (s.pt n).chatter ≤ c.release := by
  rw [State.calmPoints, List.mem_filter, List.mem_range, Bool.and_eq_true, Option.isSome_iff_ne_none]
  refine and_congr_right fun _ => and_congr_right fun _ => ?_
  cases s.ptSet n <;> simp

theorem clearChatter_pt (z : State) {n : Nat} (inside : n < 680) : (clearChatter z).pt n = { z.pt n with chatter := 0 } :=
  look_mapNumbered _ _ _ inside

/-- The counts cleared and the next boundary set (R11). -/
def State.periodEnded (b : Nat) (v : State) : State := { clearChatter v with
  pts := { (clearChatter v).pts with nextBoundary := some (b + 1000 * v.settings.live.general.chatterPeriod) } }

theorem exec_chatterPeriodBoundary {s : State} {b : Nat} (boundary : s.pts.nextBoundary = some b) (late : b ≤ s.clock.elapsed) :
    (s.halted = true → exec .chatterPeriodBoundary s = .next s) ∧
    (s.halted = false → exec .chatterPeriodBoundary s = .next (finish ((s.calmPoints.foldl releaseChatter s).periodEnded b))) := by
  change (_ → execChatterPeriodBoundary s = _) ∧ (_ → execChatterPeriodBoundary s = _)
  simp only [execChatterPeriodBoundary, boundary, due_of_le late, Bool.true_and, Bool.not_eq_true']
  generalize s.calmPoints.foldl releaseChatter s = v
  exact ⟨fun halted => if_neg fun running => absurd (halted.symm.trans running) (by decide), fun running => if_pos running⟩

theorem periodEnded_pt (b : Nat) (v : State) {n : Nat} (inside : n < 680) : (v.periodEnded b).pt n = { v.pt n with chatter := 0 } :=
  clearChatter_pt v inside

/-- Settles O48: the calm points in rising number, then every count. -/
theorem chatterPeriodsEnd : Obligations.ChatterPeriodsEnd := by
  intro s b boundary late
  obtain ⟨silent, runs⟩ := exec_chatterPeriodBoundary boundary late
  refine ⟨silent, fun running => ?_⟩
  generalize released : s.calmPoints.foldl releaseChatter s = v at runs
  have frame : PointsMoved s v :=
    released ▸ foldl_rel PointsMoved.refl PointsMoved.trans releaseChatter releaseChatter_moved s.calmPoints s
  have settings : v.settings = s.settings := by rw [show v = _ from frame]
  have step : BlockStep s v := released ▸ foldl_block _ releaseChatter_block _ _
  refine ⟨s.calmPoints, v, v.periodEnded b, runs running, (step.trans (clearChatter_block v)).aside, List.pairwise_lt_range.filter _,
    mem_calmPoints s, released.symm, releaseChatter_eq, ?_, ?_, fun n inside => ?_⟩
  · exact frame.trans (show PointsMoved v (v.periodEnded b) from rfl)
  · rw [← settings]
    rfl
  · rw [periodEnded_pt b v inside, ← released, foldl_releaseChatter_pt s.calmPoints s inside]

end Sys2Proof.Machine
end

section
/-! First-out groups by states (R64 to R69), and the settle and shelf timers (R54, R66). -/

namespace Sys2Proof.Machine

/-! ## A group's first set -/

theorem without_left (w : Nat) (f : FirstOut) : GroupLeft w f (f.without w) := by
  refine ⟨fun same => ?_, fun t ws d same => ?_, fun t ws same => ?_⟩ <;> rw [same] <;> rfl

theorem insertRising_perm (w : Nat) (ws : List Nat) : (insertRising w ws).Perm (w :: ws) := by
  induction ws with
  | nil => exact List.Perm.refl _
  | cons v ws ih =>
    rw [insertRising]
    split
    · exact List.Perm.refl _
    · exact (ih.cons v).trans (List.Perm.swap ..)

theorem insertRising_rising (w : Nat) {ws : List Nat} (rising : ws.Pairwise (· ≤ ·)) : (insertRising w ws).Pairwise (· ≤ ·) := by
  induction ws with
  | nil => exact List.pairwise_singleton ..
  | cons v ws ih =>
    obtain ⟨least, rest⟩ := List.pairwise_cons.1 rising
    rw [insertRising]
    split
    · next first =>
      refine List.pairwise_cons.2 ⟨List.forall_mem_cons.2 ⟨?_, fun u inside => ?_⟩, rising⟩
      · omega
      · have := least u inside
        omega
    · next later =>
      refine List.pairwise_cons.2 ⟨fun u inside => ?_, ih rest⟩
      rcases List.mem_cons.1 ((insertRising_perm w ws).mem_iff.1 inside) with rfl | behind
      · omega
      · exact least u behind

theorem firstOutEntry_written (g : Nat) (first : HallTime) (set : List Nat) (now : HallTime) :
    FirstOutWritten g first set now (firstOutEntry g first set now) := by
  refine ⟨rfl, rfl, rfl, rfl, rfl, rfl, fun i small => ?_⟩
  have whole : ∀ x : Nat, x % 256 + 256 * (x / 256 % 256) = x % 65536 := fun x => by omega
  have here : (firstOutEntry g first set now).detail =
      halfBytes (set[0]?.getD 0xFFFF) ++ halfBytes (set[1]?.getD 0xFFFF) ++ halfBytes (set[2]?.getD 0xFFFF) ++
        halfBytes (set[3]?.getD 0xFFFF) := rfl
  rw [here]
  interval_cases i <;> exact whole _

/-! ## An entry into ALERT and a return to QUIET -/

theorem foldl_setMark_eq (m : Mark) (ws : List Nat) (s : State) : ws.foldl (fun z v => setMark v m z) s =
    { s with win := { s.win with windows := ws.foldl (fun z v => Marked z v m) s.win.windows } } := by
  induction ws generalizing s with
  | nil => rfl
  | cons w ws ih =>
    rw [List.foldl_cons, ih]
    rfl

theorem group_setGroup_same {g : Nat} (small : g < 32) (s : State) (f : FirstOut) : (s.setGroup g f).group g = f :=
  look_put_same _ _ small

/-- What an entry into ALERT does to a group that the window has left. -/
theorem judgeAlert_eq {g : Nat} (small : g < 32) (w : Nat) (s : State) : judgeAlert g w s =
    if (s.window w).standing then s.setGroup g ((s.group g).without w)
    else
      match (s.group g).without w with
      | .clear =>
        if s.settleTime g = 0 then latch g (s.window w).alarm [w] (setMark w .first (s.setGroup g ((s.group g).without w)))
        else (setMark w .first (s.setGroup g ((s.group g).without w))).setGroup g
          (.deciding (s.window w).alarm [w] (s.clock.elapsed + s.settleTime g))
      | .deciding t ws d =>
        if (s.window w).alarm < t then
          setMark w .first ((ws.foldl (fun s v => setMark v .subsequent s) (s.setGroup g ((s.group g).without w))).setGroup g
            (.deciding (s.window w).alarm [w] d))
        else if (s.window w).alarm = t then
          setMark w .first ((s.setGroup g ((s.group g).without w)).setGroup g (.deciding t (insertRising w ws) d))
        else setMark w .subsequent (s.setGroup g ((s.group g).without w))
      | .latched t _ =>
        if t ≤ (s.window w).alarm then setMark w .subsequent (s.setGroup g ((s.group g).without w))
        else s.setGroup g ((s.group g).without w) := by
  simp only [judgeAlert, group_setGroup_same small]
  cases (s.group g).without w <;> rfl

theorem judgeAlert_judged {g : Nat} (small : g < 32) (w : Nat) (s : State) : AlertJudged s g w (judgeAlert g w s) := by
  rw [judgeAlert_eq small]
  have left := without_left w (s.group g)
  generalize (s.group g).without w = h at left ⊢
  refine ⟨h, s.window w, fun m f => { s with win := { s.win with windows := Marked s.win.windows w m, groups := put s.win.groups g f } },
    left, rfl, fun _ _ => rfl, fun standing => if_pos standing, fun new => ?_⟩
  rw [if_neg (Bool.eq_false_iff.1 new)]
  refine ⟨?_, ?_, ?_, ?_⟩
  · rintro rfl settles
    refine (if_neg settles).trans ?_
    simp only [State.setGroup, setMark, State.setWindow, put_put]
    rfl
  · rintro rfl none
    refine ⟨_, firstOutEntry_written .., (if_pos none).trans ?_⟩
    simp only [latch, State.setGroup, setMark, State.setWindow, put_put]
    rfl
  · rintro first ws d rfl
    refine ⟨fun earlier => (if_pos earlier).trans ?_, fun same => ⟨insertRising w ws, insertRising_perm w ws, insertRising_rising w, ?_⟩,
      fun later => ?_⟩
    · rw [foldl_setMark_eq]
      simp only [State.setGroup, setMark, State.setWindow, put_put]
      rfl
    · refine (if_neg (by rw [same]; exact BitVec.lt_irrefl _)).trans ((if_pos same).trans ?_)
      simp only [State.setGroup, setMark, State.setWindow, put_put]
      rfl
    · exact (if_neg (BitVec.lt_asymm later)).trans (if_neg (Ne.symm (BitVec.ne_of_lt later)))
  · rintro first ws rfl
    exact ⟨fun later => if_pos later, fun earlier => if_neg (BitVec.not_le.2 earlier)⟩

theorem membersQuiet_iff (s : State) (g : Nat) : ((s.members g).all fun v => (s.window v).state == .quiet) = true ↔
    ∀ v c, s.winSet v = some c → c.group = some g → (s.window v).state = .quiet := by
  simp only [List.all_eq_true, beq_iff_eq, mem_members]
  exact ⟨fun all v c set group => all v ⟨c, set, group⟩, fun all v ⟨c, set, group⟩ => all v c set group⟩

theorem judgeQuiet_eq (g w : Nat) (s : State) : judgeQuiet g w s =
    if ((s.members g).all fun v => (s.window v).state == .quiet) = true then s.setGroup g .clear
    else s.setGroup g ((s.group g).without w) := by
  show (if ((s.members g).all fun v => (s.window v).state == .quiet) = true then
    (s.setGroup g ((s.group g).without w)).setGroup g .clear else s.setGroup g ((s.group g).without w)) = _
  simp only [State.setGroup, put_put]

/-! ## The timers -/

theorem exec_settleTimerExpiry {s : State} {g : Nat} {first : HallTime} {set : List Nat} {d : Nat}
    (deciding : s.group g = .deciding first set d) (late : d ≤ s.clock.elapsed) :
    exec (.settleTimerExpiry g) s = if s.halted then .next s else .next (finish { s with
      win := { s.win with groups := put s.win.groups g (.latched first set) }
      jr := s.jr.request s.clock.hall (firstOutEntry g first set s.clock.hall) }) := by
  have ends : settleEnd g s = latch g first set s := by rw [settleEnd, deciding]
  change execSettleTimerExpiry g s = _
  simp only [execSettleTimerExpiry, deciding, due_of_le late, Bool.true_and, ends]
  cases s.halted <;> rfl

theorem exec_shelfExpiry {s : State} {x : ShelfEntry} (head : s.win.shelf.head? = some x) (late : x.expiry ≤ s.clock.elapsed) :
    exec .shelfExpiry s = if s.halted then .next s else .next (finish (endShelving x.window .expired s)) := by
  obtain ⟨rest, shelf⟩ : ∃ rest, s.win.shelf = x :: rest := List.head?_eq_some_iff.1 head
  change execShelfExpiry s = _
  simp only [execShelfExpiry, shelf, due_of_le late, Bool.true_and]
  cases s.halted <;> rfl

/-- Settles O50, by the group's state. -/
theorem settleAndShelfTimersEnd : Obligations.SettleAndShelfTimersEnd := by
  refine ⟨fun s g w small _ => ⟨judgeAlert_judged small w s, (s.group g).without w, without_left w _, fun all => ?_, fun some => ?_⟩,
    fun s g first set d deciding late => ⟨fun halted => ?_, fun running => ⟨_, firstOutEntry_written .., ?_⟩⟩,
    fun s x head late => ⟨fun halted => ?_, fun running => ?_⟩⟩
  · rw [judgeQuiet_eq, if_pos ((membersQuiet_iff s g).2 all)]
    rfl
  · rw [judgeQuiet_eq, if_neg fun all => some ((membersQuiet_iff s g).1 all)]
    rfl
  · rw [exec_settleTimerExpiry deciding late, if_pos halted]
  · rw [exec_settleTimerExpiry deciding late, if_neg (Bool.eq_false_iff.1 running)]
  · rw [exec_shelfExpiry head late, if_pos halted]
  · rw [exec_shelfExpiry head late, if_neg (Bool.eq_false_iff.1 running)]
    obtain ⟨silence, sounds, quiet, ends⟩ := endShelving_eq x.window .expired s
    exact ⟨silence, sounds, quiet, by rw [ends]⟩

end Sys2Proof.Machine
end

section
/-! The point qualifier (R3, R5 to R10, R16): a sample, a quality and a loss by their effect on one point, and what they leave as it was. -/

namespace Sys2Proof.Machine

/-! ## What one point's event leaves as it was -/

/-- The loops, the settings and every other settable point stay. -/
structure AtPoint (n : Nat) (s u : State) : Prop where
  field : u.field = s.field
  panel : u.panel = s.panel
  settings : u.settings = s.settings
  others : ∀ m, m < 544 → m ≠ n → u.pt m = s.pt m

theorem AtPoint.refl (n : Nat) (s : State) : AtPoint n s s := ⟨rfl, rfl, rfl, fun _ _ _ => rfl⟩

theorem AtPoint.trans {n : Nat} {s t u : State} (a : AtPoint n s t) (b : AtPoint n t u) : AtPoint n s u :=
  ⟨b.field.trans a.field, b.panel.trans a.panel, b.settings.trans a.settings,
    fun m small apart => (b.others m small apart).trans (a.others m small apart)⟩

theorem HandStep.atPoint {s u : State} (step : HandStep s u) (n : Nat) : AtPoint n s u :=
  ⟨step.field, step.panel, step.settings, fun m small _ => step.points m small⟩

theorem setPt_at (n : Nat) (p : Point) (s : State) : AtPoint n s (s.setPt n p) :=
  ⟨rfl, rfl, rfl, fun m _ apart => (pt_setPt s n m p).trans (if_neg fun same => apart same.1.symm)⟩

theorem handOn_at (n : Nat) (time : HallTime) (standing : Bool) (s : State) : AtPoint n s (handOn n time standing s) :=
  (handOn_hand n time standing s).atPoint n

theorem setQuality_at (n : Nat) (c : PointSettings) (q : LiveQuality) (time : HallTime) (s : State) :
    AtPoint n s (setQuality n c q time s) := by
  unfold setQuality
  extract_lets p marked told
  have first : AtPoint n s marked := setPt_at ..
  have second : AtPoint n s told := ite_rel (first.trans ((request_hand ..).atPoint n)) first
  exact ite_rel (AtPoint.refl n s) (ite_rel second (second.trans (handOn_at ..)))

theorem recordChange_at (n : Nat) (c : PointSettings) (p : Point) (before counted : Bool) (f : ChangeFlags) (s : State) :
    AtPoint n s (recordChange n c p before counted f s) := by
  unfold recordChange
  extract_lets q
  split
  · exact (setPt_at ..).trans ((request_hand ..).atPoint n)
  · exact setPt_at ..

theorem makeChange_at (n : Nat) (c : PointSettings) (p : Point) (before counted : Bool) (f : ChangeFlags) (standing : Bool) (s : State) :
    AtPoint n s (makeChange n c p before counted f standing s) :=
  ite_rel (setPt_at ..) ((recordChange_at ..).trans (handOn_at ..))

theorem samplePoint_at (n : Nat) (c : PointSettings) (v : Bool) (time : HallTime) (elapsed : Nat) (s : State) :
    AtPoint n s (samplePoint n c v time elapsed s) :=
  ite_rel (setPt_at ..) (ite_rel (makeChange_at ..) (setPt_at ..))

theorem takeDirect_at (n : Nat) (v : Bool) (q : LiveQuality) (time : HallTime) (s : State) : AtPoint n s (takeDirect n v q time s) :=
  ite_rel (setPt_at ..) ((setPt_at ..).trans (handOn_at ..))

theorem sampleField_at (n : Nat) (closed fault : Bool) (time : HallTime) (elapsed : Nat) (s : State) :
    AtPoint n s (sampleField n closed fault time elapsed s) := by
  unfold sampleField
  split
  · exact AtPoint.refl n s
  · exact ite_rel (takeDirect_at ..) ((setQuality_at ..).trans (samplePoint_at ..))

theorem foundField_at (n : Nat) (closed fault : Bool) (time : HallTime) (s : State) : AtPoint n s (foundField n closed fault time s) := by
  unfold foundField
  split
  · exact AtPoint.refl n s
  · exact takeDirect_at ..

theorem regainField_at (n : Nat) (closed fault : Bool) (time : HallTime) (s : State) : AtPoint n s (regainField n closed fault time s) := by
  unfold regainField
  split
  · exact AtPoint.refl n s
  · exact ite_rel ((setPt_at ..).trans (setQuality_at ..)) (makeChange_at ..)

theorem loseField_at (s : State) (n : Nat) : AtPoint n s (loseField s n) := by
  unfold loseField
  split
  · exact AtPoint.refl n s
  · exact (setPt_at ..).trans (setQuality_at ..)

theorem sampleSupervision_at (n : Nat) (v : Bool) (s : State) : AtPoint n s (sampleSupervision n v s) := by
  unfold sampleSupervision
  split
  · exact AtPoint.refl n s
  · exact ite_rel (takeDirect_at ..) (samplePoint_at ..)

/-! ## What it makes of the point -/

/-- A qualified change made (R5, R12). -/
theorem changeMade (n : Nat) (c : PointSettings) (p : Point) (before counted : Bool) (f : ChangeFlags) (standing : Bool) (s : State) :
    ChangeMade n c p before counted f standing s (makeChange n c p before counted f standing s) := by
  refine ⟨fun forced => if_pos (Option.isSome_iff_ne_none.2 forced), fun free => ?_⟩
  exact ⟨_, changeRecorded n c p before counted f s, makeChange_of_unforced n c free before counted f standing s⟩

/-- A pending change has been at its value for the time of its filter (R3), in the words of the model. -/
theorem filterRun_iff (c : PointSettings) (p : Point) (v : Bool) (time : HallTime) (elapsed : Nat) : FilterRun c p v elapsed ↔
    (p.pending.getD { start := time, startElapsed := elapsed, filter := c.filterFor v }).filter ≤
      elapsed - (p.pending.getD { start := time, startElapsed := elapsed, filter := c.filterFor v }).startElapsed := by
  unfold FilterRun
  cases p.pending with
  | some d => rfl
  | none =>
    show (if v then c.setFilter else c.clearFilter) = 0 ↔ (if v then c.setFilter else c.clearFilter) ≤ elapsed - elapsed
    omega

/-- A sample by what it finds: the qualified value, a change whose filter has run, or one that waits (R3). -/
theorem samplePoint_of_same (n : Nat) (c : PointSettings) {v : Bool} (time : HallTime) (elapsed : Nat) {s : State}
    (same : v = (s.pt n).qualified) : samplePoint n c v time elapsed s = s.setPt n { s.pt n with raw := v, pending := none } := if_pos same

theorem samplePoint_of_run (n : Nat) (c : PointSettings) {v : Bool} (time : HallTime) (elapsed : Nat) {s : State}
    (other : v ≠ (s.pt n).qualified) (run : FilterRun c (s.pt n) v elapsed) : samplePoint n c v time elapsed s = makeChange n c
      { s.pt n with
        raw := v, qualified := v, pending := none
        rawTime := ((s.pt n).pending.getD { start := time, startElapsed := elapsed, filter := c.filterFor v }).start, qualifyTime := time }
      (s.pt n).facing true { standing := false, afterLoss := false, forcedRelease := false, settings := false } false s :=
  (if_neg other).trans (if_pos ((filterRun_iff c (s.pt n) v time elapsed).1 run))

theorem samplePoint_of_wait (n : Nat) (c : PointSettings) {v : Bool} (time : HallTime) (elapsed : Nat) {s : State}
    (other : v ≠ (s.pt n).qualified) (waits : ¬ FilterRun c (s.pt n) v elapsed) : samplePoint n c v time elapsed s =
      s.setPt n { s.pt n with raw := v, pending := some ((s.pt n).pending.getD
        { start := time, startElapsed := elapsed, filter := if v then c.setFilter else c.clearFilter }) } :=
  (if_neg other).trans (if_neg fun run => waits ((filterRun_iff c (s.pt n) v time elapsed).2 run))

section
variable {n : Nat} (small : n < 544) (c : PointSettings) (s : State)
include small

theorem pt_setPt_same (p : Point) : (s.setPt n p).pt n = p := (pt_setPt s n n p).trans (if_pos ⟨rfl, by omega⟩)

theorem handOn_pt_same (time : HallTime) (standing : Bool) : (handOn n time standing s).pt n = s.pt n :=
  (handOn_hand n time standing s).points n small

/-- A quality entered moves the live quality and may set the held values. -/
theorem setQuality_pt (q : LiveQuality) (time : HallTime) : ∃ h t, (setQuality n c q time s).pt n =
    { s.pt n with live := q, held := h, termHeld := t } := by
  unfold setQuality
  extract_lets p marked told
  split
  · next same => exact ⟨(s.pt n).held, (s.pt n).termHeld, by rw [← same]⟩
  · have entered : ∃ h t, p.withQuality q = { s.pt n with live := q, held := h, termHeld := t } := by
      unfold Point.withQuality
      split <;> exact ⟨_, _, rfl⟩
    have first : marked.pt n = p.withQuality q := pt_setPt_same small s _
    have second : told.pt n = p.withQuality q := by
      simp only [told]
      split <;> exact first
    split
    · exact second ▸ entered
    · rw [handOn_pt_same small]
      exact second ▸ entered

/-- A change made may count for chatter; else it leaves the point as it was given. -/
theorem makeChange_pt (p : Point) (before counted : Bool) (f : ChangeFlags) (standing : Bool) :
    ∃ k z, (makeChange n c p before counted f standing s).pt n = { p with chatter := k, frozen := z } := by
  unfold makeChange
  split
  · exact ⟨_, _, pt_setPt_same small s p⟩
  · rw [handOn_pt_same small, recordChange_pt (by omega)]
    cases counted
    · exact ⟨_, _, rfl⟩
    · exact ⟨_, _, rfl⟩

theorem takeDirect_pt (v : Bool) (q : LiveQuality) (time : HallTime) : (takeDirect n v q time s).pt n =
    { s.pt n with raw := v, qualified := v, live := q, pending := none, fresh := false, rawTime := time, qualifyTime := time } := by
  unfold takeDirect
  extract_lets p x
  have taken : x.pt n = { p with
    raw := v, qualified := v, live := q, pending := none, fresh := false, rawTime := time, qualifyTime := time } := pt_setPt_same small s _
  split
  · exact taken
  · rw [handOn_pt_same small, taken]

/-- A sample through the filter (R3). -/
theorem samplePoint_pt (v : Bool) (time : HallTime) (elapsed : Nat) :
    ((samplePoint n c v time elapsed s).pt n).raw = v ∧ ((samplePoint n c v time elapsed s).pt n).live = (s.pt n).live ∧
    (v = (s.pt n).qualified ∨ FilterRun c (s.pt n) v elapsed →
      ((samplePoint n c v time elapsed s).pt n).qualified = v ∧ ((samplePoint n c v time elapsed s).pt n).pending = none) ∧
    (v ≠ (s.pt n).qualified → ¬ FilterRun c (s.pt n) v elapsed →
      ((samplePoint n c v time elapsed s).pt n).qualified = (s.pt n).qualified ∧
      ((samplePoint n c v time elapsed s).pt n).pending = some ((s.pt n).pending.getD
        { start := time, startElapsed := elapsed, filter := if v then c.setFilter else c.clearFilter })) := by
  by_cases same : v = (s.pt n).qualified
  · rw [samplePoint_of_same n c time elapsed same, pt_setPt_same small]
    exact ⟨rfl, rfl, fun _ => ⟨same.symm, rfl⟩, fun other => absurd same other⟩
  · by_cases run : FilterRun c (s.pt n) v elapsed
    · rw [samplePoint_of_run n c time elapsed same run]
      obtain ⟨k, z, made⟩ := makeChange_pt small c s { s.pt n with
        raw := v, qualified := v, pending := none
        rawTime := ((s.pt n).pending.getD { start := time, startElapsed := elapsed, filter := c.filterFor v }).start, qualifyTime := time }
        (s.pt n).facing true { standing := false, afterLoss := false, forcedRelease := false, settings := false } false
      rw [made]
      exact ⟨rfl, rfl, fun _ => ⟨rfl, rfl⟩, fun _ not => absurd run not⟩
    · rw [samplePoint_of_wait n c time elapsed same run, pt_setPt_same small]
      exact ⟨rfl, rfl, fun either => absurd either (not_or.2 ⟨same, run⟩), fun _ _ => ⟨rfl, rfl⟩⟩

end

end Sys2Proof.Machine
end

section
/-! CONTINUOUS sampling of the supervision channels (R135, R8). -/

namespace Sys2Proof.Machine

/-! ## Comparators -/

theorem lowAfter_spec (first old : Bool) (c : ChannelSettings) (v : Nat) :
    (first = true ∨ old = false → (lowAfter first old c v = true ↔ v < c.low)) ∧
    (first = false → old = true → (lowAfter first old c v = false ↔ c.low + c.hysteresis < v)) := by
  unfold lowAfter
  cases first <;> cases old <;> simp

theorem highAfter_spec (first old : Bool) (c : ChannelSettings) (v : Nat) :
    (first = true ∨ old = false → (highAfter first old c v = true ↔ c.high < v)) ∧
    (first = false → old = true → (highAfter first old c v = false ↔ v + c.hysteresis < c.high)) := by
  unfold highAfter
  cases first <;> cases old <;> simp

section
variable {samples : List (BitVec 10)} {c : Nat} {z : State} {v : BitVec 10} (sample : samples[c]? = some v)
include sample

theorem sampleChannel_of_testReturn (mode : (z.chanSet c).mode = .testReturn) : sampleChannel samples z c = z := by
  rw [sampleChannel, sample]
  exact if_neg (by rw [mode]; decide)

theorem sampleChannel_of_continuous (mode : (z.chanSet c).mode = .continuous) : sampleChannel samples z c =
    sampleSupervision (513 + 2 * c) (highAfter (!(z.chan c).started) (z.chan c).high (z.chanSet c) v.toNat)
      (sampleSupervision (512 + 2 * c) (lowAfter (!(z.chan c).started) (z.chan c).low (z.chanSet c) v.toNat) { z with
        sup := { z.sup with channels := put z.sup.channels c { z.chan c with
          value := v, time := z.clock.hall, started := true
          low := lowAfter (!(z.chan c).started) (z.chan c).low (z.chanSet c) v.toNat
          high := highAfter (!(z.chan c).started) (z.chan c).high (z.chanSet c) v.toNat } } }) := by
  rw [sampleChannel, sample]
  exact if_pos mode

end

theorem sampleSupervision_of_none (n : Nat) (v : Bool) {z : State} (bare : z.ptSet n = none) : sampleSupervision n v z = z := by
  rw [sampleSupervision, bare]

theorem sampleSupervision_of_some {n : Nat} (v : Bool) {z : State} {c : PointSettings} (set : z.ptSet n = some c) :
    ((z.pt n).live = .lost → sampleSupervision n v z = takeDirect n v .good z.clock.hall z) ∧
    ((z.pt n).live ≠ .lost → sampleSupervision n v z = samplePoint n c v z.clock.hall z.clock.elapsed z) := by
  rw [sampleSupervision, set]
  exact ⟨fun lost => if_pos lost, fun known => if_neg known⟩

theorem exec_continuousSample {s : State} {t : Nat} (next : s.sup.nextSample = some t) (late : t ≤ s.clock.elapsed)
    (samples : List (BitVec 10)) :
    (s.halted = true → exec (.continuousSample samples) s = .next s) ∧
    (s.halted = false → exec (.continuousSample samples) s = .next (finish ((List.range 16).foldl (sampleChannel samples)
      { s with sup := { s.sup with nextSample := some (t + 10) } }))) := by
  change (_ → execContinuousSample samples s = _) ∧ (_ → execContinuousSample samples s = _)
  simp only [execContinuousSample, next, due_of_le late, Bool.true_and, Bool.not_eq_true']
  generalize (List.range 16).foldl (sampleChannel samples) _ = u
  exact ⟨fun halted => if_neg fun running => absurd (halted.symm.trans running) (by decide), fun running => if_pos running⟩

/-- Settles O49: the comparators by their hysteresis, the points by what they showed. -/
theorem continuousChannelsSampled : Obligations.ContinuousChannelsSampled := by
  intro s t samples next late _
  obtain ⟨silent, runs⟩ := exec_continuousSample next late samples
  refine ⟨silent, fun running => ⟨_, runs running, ?_, rfl, fun c z v sample => ⟨sampleChannel_of_testReturn sample, fun mode => ?_⟩,
    fun n v z c small set => ⟨(sampleSupervision_at n v z).others, ?_⟩, fun n v z bare => sampleSupervision_of_none n v bare⟩⟩
  · exact ((sup_block s _).trans (foldl_block _ (sampleChannel_block samples) _ _)).aside
  · obtain ⟨lowPlain, lowHeld⟩ := lowAfter_spec (!(z.chan c).started) (z.chan c).low (z.chanSet c) v.toNat
    obtain ⟨highPlain, highHeld⟩ := highAfter_spec (!(z.chan c).started) (z.chan c).high (z.chanSet c) v.toNat
    refine ⟨_, _, sampleChannel_of_continuous sample mode, fun fresh => ?_, fun started => ⟨fun off => lowPlain (.inr off), ?_,
      fun off => highPlain (.inr off), ?_⟩⟩
    · exact ⟨lowPlain (.inl (by rw [fresh]; rfl)), highPlain (.inl (by rw [fresh]; rfl))⟩
    · exact lowHeld (by rw [started]; rfl)
    · exact highHeld (by rw [started]; rfl)
  · obtain ⟨direct, filtered⟩ := sampleSupervision_of_some v set
    by_cases lost : (z.pt n).live = .lost
    · rw [direct lost, takeDirect_pt small]
      exact ⟨rfl, fun _ => ⟨rfl, rfl⟩, fun _ => rfl, fun known => absurd lost known⟩
    · rw [filtered lost]
      obtain ⟨raw, live, taken, waits⟩ := samplePoint_pt small c z v z.clock.hall z.clock.elapsed
      exact ⟨raw, fun either => taken (either.resolve_left lost), fun yes => absurd yes lost, fun _ other not => (waits other not).1⟩

end Sys2Proof.Machine
end

section
/-! What comes back on the field loop (R24, R25, R28, R33, R178): frames, judgements and failed calls. -/

namespace Sys2Proof.Machine

/-! ## Bytes and frames -/

theorem byteAt_zero (x : Nat) : byteAt x 0 = BitVec.ofNat 8 x := rfl

theorem byteAt_succ (x i : Nat) : byteAt x (i + 1) = byteAt (x / 256) i := by
  simp only [byteAt, Nat.shiftRight_eq_div_pow, Nat.mul_add, Nat.pow_add, Nat.div_div_eq_div_mul]
  rw [Nat.mul_comm]

theorem bytesOf_succ (n x : Nat) : bytesOf (n + 1) x = BitVec.ofNat 8 x :: bytesOf n (x / 256) := by
  rw [bytesOf, List.range_succ_eq_map, List.map_cons, List.map_map, byteAt_zero]
  exact congrArg _ (List.map_congr_left fun i _ => byteAt_succ x i)

theorem bytesOf_length (n x : Nat) : (bytesOf n x).length = n := by rw [bytesOf, List.length_map, List.length_range]

theorem ofBytes_bytesOf {n x : Nat} (small : x < 256 ^ n) : ofBytes (bytesOf n x) = x := by
  induction n generalizing x with
  | zero => exact (Nat.lt_one_iff.1 small).symm
  | succ n ih =>
    rw [bytesOf_succ, ofBytes, ih (Nat.div_lt_of_lt_mul (by rwa [← Nat.pow_succ']))]
    simp only [BitVec.toNat_ofNat]
    omega

theorem bytesOf_ofBytes (bs : List Byte) : bytesOf bs.length (ofBytes bs) = bs := by
  induction bs with
  | nil => rfl
  | cons b bs ih =>
    have low : BitVec.ofNat 8 (ofBytes (b :: bs)) = b := by
      rw [ofBytes]
      bv_omega
    have high : ofBytes (b :: bs) / 256 = ofBytes bs := by
      rw [ofBytes]
      omega
    rw [List.length_cons, bytesOf_succ, low, high, ih]

theorem checkedBody_withCrc (body : List Byte) : checkedBody (withCrc body) = some body := by
  have length : (withCrc body).length - 2 = body.length := by rw [withCrc, List.length_append]; rfl
  have take : (withCrc body).take body.length = body := by rw [withCrc, List.take_left]
  unfold checkedBody
  rw [length, take]
  exact if_pos ⟨by rw [withCrc, List.length_append]; exact Nat.le_add_left _ _, rfl⟩

theorem withCrc_of_checkedBody {frame body : List Byte} (checked : checkedBody frame = some body) : frame = withCrc body := by
  unfold checkedBody at checked
  extract_lets b at checked
  split at checked
  · next good =>
    exact good.2.symm.trans (congrArg withCrc (Option.some_inj.1 checked))
  · cases checked

theorem bytesOf_ofBytes_of_length {bs : List Byte} {n : Nat} (length : bs.length = n) : bytesOf n (ofBytes bs) = bs :=
  length ▸ bytesOf_ofBytes bs

/-! ## Judgements (R24) -/

/-- A SCAN REPLY with any echo: the sample set where the echo is the cycle count (R23, R24). -/
theorem judgeField_scanReply (a : Nat) (count e : Byte) (contacts wiring : Nat) :
    judgeField a count (.frame (scanReply a e contacts wiring)) =
      if e = count then .taken (ofBytes (bytesOf 4 contacts)) (ofBytes (bytesOf 4 wiring)) else .stale := by
  simp only [judgeField, checkedBody_withCrc]
  have take : (bytesOf 4 contacts ++ bytesOf 4 wiring).take 4 = bytesOf 4 contacts := by
    rw [List.take_left' (bytesOf_length ..)]
  have drop : (bytesOf 4 contacts ++ bytesOf 4 wiring).drop 4 = bytesOf 4 wiring := by
    rw [List.drop_left' (bytesOf_length ..)]
  have length : (bytesOf 4 contacts ++ bytesOf 4 wiring).length = 8 := by
    rw [List.length_append, bytesOf_length, bytesOf_length]
  simp only [List.cons_append, List.nil_append, ne_eq, not_true_eq_false, if_false, length, and_self, if_true, take, drop]

theorem judgeField_holdOffReply (a : Nat) (count e : Byte) :
    judgeField a count (.frame (holdOffReply a e)) = if e = count then .holdOff else .stale := by
  have kinds : ¬ (0x82#8 = 0x81#8) := by decide
  simp only [judgeField, checkedBody_withCrc, ne_eq, not_true_eq_false, if_false, kinds, false_and, and_self, if_true]

/-- Whatever else comes back is a CRC error (R24). -/
theorem judgeField_other {a : Nat} {bytes : List Byte} (scan : ∀ e contacts wiring, bytes ≠ scanReply a e contacts wiring)
    (hold : ∀ e, bytes ≠ holdOffReply a e) (count : Byte) : judgeField a count (.frame bytes) = .crcError := by
  simp only [judgeField]
  split
  · rfl
  · next body checked =>
    have frame := withCrc_of_checkedBody checked
    split
    · next address kind echo rest =>
      split
      · rfl
      · next same =>
        have same : address = BitVec.ofNat 8 a := not_not.1 same
        subst same
        split
        · next reply =>
          obtain ⟨rfl, length⟩ := reply
          have front : (rest.take 4).length = 4 := by rw [List.length_take]; omega
          have behind : (rest.drop 4).length = 4 := by rw [List.length_drop]; omega
          refine absurd (frame.trans ?_) (scan echo (ofBytes (rest.take 4)) (ofBytes (rest.drop 4)))
          rw [scanReply, bytesOf_ofBytes_of_length front, bytesOf_ofBytes_of_length behind, List.append_assoc, List.take_append_drop]
          rfl
        · split
          · next reply =>
            obtain ⟨rfl, rfl⟩ := reply
            exact absurd frame (hold echo)
          · rfl
    · rfl

theorem byte_sets {contacts : Nat} (small : contacts < 2 ^ 32) : ofBytes (bytesOf 4 contacts) = contacts :=
  ofBytes_bytesOf (small.trans_le (by norm_num))

/-! ## The end of a slot -/

section
variable {s : State} {y : FieldCycle} {a : Nat} {isRepeat : Bool} (cycle : s.field.cycle = some y) (call : y.call = some (a, isRepeat))
include cycle call

theorem exec_fieldSlotEnd_of_unserved (out : s.concSet a = none ∨ a ∈ y.withdrawn) (line : LineInput) :
    exec (.fieldSlotEnd line) s = .next { s with field := { s.field with cycle := some { y with call := none, slot := y.slot + 1 } } } := by
  have serves : FieldCycle.serves { y with call := none, slot := y.slot + 1 } s a = none := fieldServes_none (y := { y with call := none, slot := y.slot + 1 }) out
  change execFieldSlotEnd line s = _
  simp only [execFieldSlotEnd, cycle, call, serves]
  rfl

variable {set : ConcentratorSettings} (configured : s.concSet a = some set) (served : a ∉ y.withdrawn)
include configured served

/-- A call judged: counted, and then taken, or failed (R24, R33). -/
theorem exec_fieldSlotEnd (line : LineInput) : exec (.fieldSlotEnd line) s =
    match judgeField a y.count line with
    | .taken contacts wiring => .next (finish (goodCycle a set contacts wiring { y with call := none, slot := y.slot + 1 }
        ((s.setConc a ((s.conc a).countCall (.taken contacts wiring))).setFieldCycle
          { y with call := none, slot := y.slot + 1, taken := a :: y.taken })))
    | j => .next ((s.setConc a ((s.conc a).countCall j)).setFieldCycle
        (FieldCycle.afterFailure { y with call := none, slot := y.slot + 1 } a j.isError)) := by
  have serves : FieldCycle.serves { y with call := none, slot := y.slot + 1 } s a = some set :=
    (fieldServes_of_not_mem (y := { y with call := none, slot := y.slot + 1 }) s served).trans configured
  change execFieldSlotEnd line s = _
  simp only [execFieldSlotEnd, cycle, call, serves]
  cases judgeField a y.count line <;> rfl

/-- A failed or held-off call (R24, R25, R33). -/
theorem callFailed {line : LineInput} {j : FieldJudgement} (judged : judgeField a y.count line = j) :
    (j = .timeout → CallFailed s y a line true { s.conc a with timeouts := min ((s.conc a).timeouts + 1) 65535 }) ∧
    (j = .crcError → CallFailed s y a line true { s.conc a with crcErrors := min ((s.conc a).crcErrors + 1) 65535 }) ∧
    (j = .stale → CallFailed s y a line true { s.conc a with staleEchoes := min ((s.conc a).staleEchoes + 1) 65535 }) ∧
    (j = .holdOff → CallFailed s y a line false { s.conc a with holdOffs := min ((s.conc a).holdOffs + 1) 65535 }) := by
  have ends := exec_fieldSlotEnd cycle call configured served line
  rw [judged] at ends
  refine ⟨?_, ?_, ?_, ?_⟩ <;>
  · rintro rfl
    rw [CallFailed, ends]
    simp only [Concentrator.countCall, bump, saturate_eq_min]
    rfl

end

end Sys2Proof.Machine
end

section
/-! A reply taken on the field loop (R28, R29, R31): the concentrator's state, and the samples of its points (R3, R7). -/

namespace Sys2Proof.Machine

/-! ## The points of a concentrator in turn -/

theorem mem_pointsOf (s : State) (a n : Nat) : n ∈ s.pointsOf a ↔ n / 32 = a ∧ s.ptSet n ≠ none := by
  rw [State.pointsOf, List.mem_filter, List.mem_map, Option.isSome_iff_ne_none]
  refine and_congr_left fun _ => ⟨?_, fun own => ⟨n % 32, List.mem_range.2 (Nat.mod_lt _ (by decide)), by omega⟩⟩
  rintro ⟨k, inside, rfl⟩
  have := List.mem_range.1 inside
  omega

theorem pointsOf_nodup (s : State) (a : Nat) : (s.pointsOf a).Nodup :=
  (List.nodup_range.map fun _ _ same => by simpa using same).filter _

theorem pointsOf_congr {s z : State} (settings : z.settings = s.settings) (a : Nat) : z.pointsOf a = s.pointsOf a := by
  simp only [State.pointsOf, State.ptSet, settings]

section
variable {f : State → Nat → State} (own : ∀ z n, AtPoint n z (f z n))
include own

theorem foldl_at (ns : List Nat) (s : State) : (ns.foldl f s).field = s.field ∧ (ns.foldl f s).panel = s.panel ∧
    (ns.foldl f s).settings = s.settings ∧ ∀ m, m < 544 → m ∉ ns → (ns.foldl f s).pt m = s.pt m := by
  induction ns generalizing s with
  | nil => exact ⟨rfl, rfl, rfl, fun _ _ _ => rfl⟩
  | cons n ns ih =>
    have step := own s n
    obtain ⟨field, panel, settings, others⟩ := ih (f s n)
    refine ⟨field.trans step.field, panel.trans step.panel, settings.trans step.settings, fun m small outside => ?_⟩
    exact (others m small fun behind => outside (List.mem_cons_of_mem n behind)).trans
      (step.others m small (List.ne_of_not_mem_cons outside))

/-- Each point of a list without repetition is taken once, from a state that the points before it have left like s for it. -/
theorem foldl_at_own {ns : List Nat} (once : ns.Nodup) {m : Nat} (inside : m ∈ ns) (small : m < 544) (s : State) :
    ∃ z, z.settings = s.settings ∧ z.pt m = s.pt m ∧ (ns.foldl f s).pt m = (f z m).pt m := by
  induction ns generalizing s with
  | nil => cases inside
  | cons n ns ih =>
    obtain ⟨fresh, once⟩ := List.nodup_cons.1 once
    rw [List.foldl_cons]
    rcases List.mem_cons.1 inside with rfl | behind
    · exact ⟨s, rfl, rfl, (foldl_at own ns _).2.2.2 m small fresh⟩
    · obtain ⟨z, settings, same, last⟩ := ih once behind (f s n)
      have step := own s n
      exact ⟨z, settings.trans step.settings, same.trans (step.others m small fun same => fresh (same ▸ behind)), last⟩

end

/-! ## What a reply makes of a point -/

section
variable {n : Nat} (small : n < 544) {z : State} {c : PointSettings} (set : z.ptSet n = some c) (closed fault : Bool) (time : HallTime)
include small set

/-- A reply in HEALTHY or SUSPECT, at one point (R3, R16). -/
theorem sampleField_pt (elapsed : Nat) {u : State} (sampled : u = sampleField n closed fault time elapsed z) {v : Bool}
    (value : v = (closed != c.activeOpen)) :
    (u.pt n).raw = v ∧ (u.pt n).live = (if fault then .wiring else .good) ∧
    ((z.pt n).fresh = true ∨ v = (z.pt n).qualified ∨ FilterRun c (z.pt n) v elapsed → (u.pt n).qualified = v ∧ (u.pt n).pending = none) ∧
    ((z.pt n).fresh = false → v ≠ (z.pt n).qualified → ¬ FilterRun c (z.pt n) v elapsed →
      (u.pt n).qualified = (z.pt n).qualified ∧ (u.pt n).pending = some ((z.pt n).pending.getD
        { start := time, startElapsed := elapsed, filter := if v then c.setFilter else c.clearFilter })) := by
  subst value sampled
  rw [sampleField, set]
  by_cases fresh : (z.pt n).fresh = true
  · have direct : (if (z.pt n).fresh = true then takeDirect n (rawValue c closed) (if fault then .wiring else .good) time z else
        samplePoint n c (rawValue c closed) time elapsed (setQuality n c (if fault then .wiring else .good) time z)) =
        takeDirect n (rawValue c closed) (if fault then .wiring else .good) time z := if_pos fresh
    simp only [direct, takeDirect_pt small]
    exact ⟨rfl, trivial, fun _ => ⟨rfl, trivial⟩, fun no => absurd (fresh.symm.trans no) (by decide)⟩
  · simp only [fresh]
    obtain ⟨h, t, entered⟩ := setQuality_pt small c z (if fault then .wiring else .good) time
    have sample := samplePoint_pt small c (setQuality n c (if fault then .wiring else .good) time z) (rawValue c closed) time elapsed
    rw [entered] at sample
    obtain ⟨raw, live, taken, waits⟩ := sample
    exact ⟨raw, live, fun either => taken (either.resolve_left Bool.false_ne_true), fun _ => waits⟩

theorem foundField_pt {u : State} (found : u = foundField n closed fault time z) :
    (u.pt n).raw = (closed != c.activeOpen) ∧ (u.pt n).qualified = (closed != c.activeOpen) ∧ (u.pt n).pending = none ∧
      (u.pt n).live = (if fault then .wiring else .good) := by
  subst found
  rw [foundField, set, takeDirect_pt small]
  exact ⟨rfl, rfl, rfl, rfl⟩

omit small in
theorem regainField_of_other (other : (closed != c.activeOpen) ≠ (z.pt n).qualified) : regainField n closed fault time z = makeChange n c
    { z.pt n with
      raw := closed != c.activeOpen, qualified := closed != c.activeOpen, live := if fault then .wiring else .good
      pending := none, fresh := false, rawTime := time, qualifyTime := time } (z.pt n).facing true
    { standing := closed != c.activeOpen, afterLoss := true, forcedRelease := false, settings := false } true z := by
  rw [regainField, set]
  exact if_neg other

theorem regainField_pt {u : State} (regained : u = regainField n closed fault time z) :
    (u.pt n).raw = (closed != c.activeOpen) ∧ (u.pt n).qualified = (closed != c.activeOpen) ∧ (u.pt n).pending = none ∧
      (u.pt n).live = (if fault then .wiring else .good) := by
  subst regained
  by_cases same : (closed != c.activeOpen) = (z.pt n).qualified
  · have stays : regainField n closed fault time z = setQuality n c (if fault then .wiring else .good) time
        (z.setPt n { z.pt n with raw := closed != c.activeOpen, pending := none, fresh := false }) := by
      rw [regainField, set]
      exact if_pos same
    rw [stays]
    obtain ⟨h, t, entered⟩ := setQuality_pt small c
      (z.setPt n { z.pt n with raw := closed != c.activeOpen, pending := none, fresh := false }) (if fault then .wiring else .good) time
    rw [entered, pt_setPt_same small]
    exact ⟨rfl, same.symm, rfl, rfl⟩
  · rw [regainField_of_other set closed fault time same]
    obtain ⟨k, f, made⟩ := makeChange_pt small c z { z.pt n with
      raw := closed != c.activeOpen, qualified := closed != c.activeOpen, live := if fault then .wiring else .good
      pending := none, fresh := false, rawTime := time, qualifyTime := time } (z.pt n).facing true
      { standing := closed != c.activeOpen, afterLoss := true, forcedRelease := false, settings := false } true
    rw [made]
    exact ⟨rfl, rfl, rfl, rfl⟩

end

theorem replyValue_eq (s : State) (contacts n : Nat) :
    s.replyValue contacts n = (s.ptSet n).any fun c => contacts.testBit (n % 32) != c.activeOpen := by
  rw [State.replyValue]
  cases s.ptSet n <;> rfl

/-- A concentrator found (R29, R7). -/
theorem foundConcentrator_eq {a : Nat} {k : Concentrator} {s x : State} (entered : s.setConc a { k with link := .healthy } = x)
    (contacts wiring : Nat) (time : HallTime) :
    foundConcentrator a contacts wiring k time s =
      (s.pointsOf a).foldl (fun z n => foundField n (contacts.testBit (n % 32)) (wiring.testBit (n % 32)) time z)
        { x with jr := s.jr.request s.clock.hall (linkEntry false a 0 time 0
          ((s.pointsOf a).filter fun n => (s.ptSet n).any fun c => contacts.testBit (n % 32) != c.activeOpen).length) } := by
  subst entered
  rw [show (fun n => (s.ptSet n).any fun c => contacts.testBit (n % 32) != c.activeOpen) = s.replyValue contacts from
    funext fun n => (replyValue_eq s contacts n).symm]
  rfl

/-- A concentrator regained (R31, R7). -/
theorem regainConcentrator_eq {a : Nat} {k : Concentrator} {s x : State} (entered : s.setConc a { k with link := .healthy } = x)
    (contacts wiring : Nat) (time : HallTime) :
    regainConcentrator a contacts wiring k time s =
      (s.pointsOf a).foldl (fun z n => regainField n (contacts.testBit (n % 32)) (wiring.testBit (n % 32)) time z)
        (setSystemPoint (640 + a) false { x with
          jr := s.jr.request s.clock.hall (linkEntry false a 2 time k.lostAt ((s.pointsOf a).filter fun n =>
            (s.ptSet n).any fun c => (contacts.testBit (n % 32) != c.activeOpen) != (s.pt n).qualified).length) }) := by
  have differ : ((s.pointsOf a).filter fun n => (s.ptSet n).any fun c => (contacts.testBit (n % 32) != c.activeOpen) != (s.pt n).qualified) =
      (s.pointsOf a).filter fun n => s.replyValue contacts n != (s.pt n).qualified := by
    refine List.filter_congr fun n inside => ?_
    obtain ⟨c, set⟩ := Option.ne_none_iff_exists'.1 ((mem_pointsOf s a n).1 inside).2
    rw [replyValue_eq, set]
    rfl
  have points : ∀ x, x.settings = s.settings → (setSystemPoint (640 + a) false x).pointsOf a = s.pointsOf a := fun x settings =>
    pointsOf_congr ((setSystemPoint_settings ..).trans settings) a
  rw [differ]
  subst entered
  exact congrArg (fun l => List.foldl _ _ l) (points _ rfl)

/-! ## The reply taken -/

/-- The concentrator and the cycle of a taken reply, the concentrator's state set (R28, R33). -/
abbrev ReplyTaken (s : State) (y : FieldCycle) (a : Nat) (new : LinkState) : State := { s with field := { s.field with
  concentrators := put s.field.concentrators a { s.conc a with
    calls := min ((s.conc a).calls + 1) 65535, link := new, failedCount := 0, goodCount := min ((s.conc a).goodCount + 1) 255
    lastGood := y.start }
  cycle := some { y with call := none, slot := y.slot + 1, taken := a :: y.taken } } }

/-- The state that a good cycle starts from: the call counted, the reply noted in the cycle (R24, R33). -/
abbrev ReplyCounted (s : State) (y : FieldCycle) (a : Nat) : State := { s with field := { s.field with
  concentrators := put s.field.concentrators a { s.conc a with calls := min ((s.conc a).calls + 1) 65535 }
  cycle := some { y with call := none, slot := y.slot + 1, taken := a :: y.taken } } }

section
variable {s : State} {y : FieldCycle} {a : Nat} (near : a < 16)
include near

theorem replyCounted_conc : (ReplyCounted s y a).conc a = { s.conc a with calls := min ((s.conc a).calls + 1) 65535 } :=
  look_put_same _ _ near

theorem setConc_replyCounted (new : LinkState) : (ReplyCounted s y a).setConc a
    { ((ReplyCounted s y a).conc a).good y.start with link := new } = ReplyTaken s y a new := by
  rw [replyCounted_conc near]
  simp only [State.setConc, Concentrator.good, put_put, saturate_eq_min]

/-- A good cycle by the state of the concentrator (R28). -/
theorem goodCycle_cases (set : ConcentratorSettings) (contacts wiring : Nat) {x : State} (start : x = ReplyCounted s y a) :
    ((s.conc a).link = .absent → goodCycle a set contacts wiring { y with call := none, slot := y.slot + 1 } x = x) ∧
    ((s.conc a).link = .healthy ∨ (s.conc a).link = .suspect → goodCycle a set contacts wiring { y with call := none, slot := y.slot + 1 } x =
      handSamples a contacts wiring y.start y.startElapsed (ReplyTaken s y a .healthy)) ∧
    ((s.conc a).link = .seeking → goodCycle a set contacts wiring { y with call := none, slot := y.slot + 1 } x =
      (s.pointsOf a).foldl (fun z n => foundField n (contacts.testBit (n % 32)) (wiring.testBit (n % 32)) y.start z)
        { ReplyTaken s y a .healthy with jr := s.jr.request s.clock.hall (linkEntry false a 0 y.start 0 ((s.pointsOf a).filter fun n =>
          (s.ptSet n).any fun c => contacts.testBit (n % 32) != c.activeOpen).length) }) ∧
    ((s.conc a).link = .lost ∨ (s.conc a).link = .regaining →
      (min ((s.conc a).goodCount + 1) 255 < set.regainCount →
        goodCycle a set contacts wiring { y with call := none, slot := y.slot + 1 } x = ReplyTaken s y a .regaining) ∧
      (set.regainCount ≤ min ((s.conc a).goodCount + 1) 255 →
        goodCycle a set contacts wiring { y with call := none, slot := y.slot + 1 } x =
          (s.pointsOf a).foldl (fun z n => regainField n (contacts.testBit (n % 32)) (wiring.testBit (n % 32)) y.start z)
            (setSystemPoint (640 + a) false { ReplyTaken s y a .healthy with
              jr := s.jr.request s.clock.hall (linkEntry false a 2 y.start (s.conc a).lostAt ((s.pointsOf a).filter fun n =>
                (s.ptSet n).any fun c => (contacts.testBit (n % 32) != c.activeOpen) != (s.pt n).qualified).length) }))) := by
  subst start
  have link : ((ReplyCounted s y a).conc a).link = (s.conc a).link := by rw [replyCounted_conc near]
  have taken : ∀ new, (ReplyCounted s y a).setConc a { ((ReplyCounted s y a).conc a).good y.start with link := new } = ReplyTaken s y a new :=
    setConc_replyCounted near
  have good : (((ReplyCounted s y a).conc a).good y.start).goodCount = min ((s.conc a).goodCount + 1) 255 := by
    rw [replyCounted_conc near, Concentrator.good, saturate_eq_min]
  have lostAt : (((ReplyCounted s y a).conc a).good y.start).lostAt = (s.conc a).lostAt := by rw [replyCounted_conc near]; rfl
  unfold goodCycle
  extract_lets k
  rw [link]
  refine ⟨fun absent => by rw [absent], fun alive => ?_, fun seeking => ?_, fun lost => ⟨fun few => ?_, fun enough => ?_⟩⟩
  · rw [← taken]
    rcases alive with healthy | suspect
    · rw [healthy]
    · rw [suspect]
  · rw [seeking]
    exact foundConcentrator_eq (taken .healthy) contacts wiring y.start
  · have wait : ¬ set.regainCount ≤ k.goodCount := by rw [show k.goodCount = _ from good]; omega
    rw [← taken]
    rcases lost with lost | regaining
    · rw [lost]
      exact if_neg wait
    · rw [regaining]
      exact if_neg wait
  · have whole : set.regainCount ≤ k.goodCount := by rw [show k.goodCount = _ from good]; exact enough
    have regains := regainConcentrator_eq (taken .healthy) contacts wiring y.start
    rw [lostAt] at regains
    rcases lost with lost | regaining
    · rw [lost]
      exact (if_pos whole).trans regains
    · rw [regaining]
      exact (if_pos whole).trans regains

end

end Sys2Proof.Machine
end

section
/-! The replies of the field loop judged (R24 to R33). -/

namespace Sys2Proof.Machine

/-! ## The points of a replying concentrator -/

theorem setSystemPoint_at_settable {m : Nat} (system : 544 ≤ m) (v : Bool) (s : State) :
    (setSystemPoint m v s).field = s.field ∧ (setSystemPoint m v s).settings = s.settings ∧
      ∀ n, n < 544 → (setSystemPoint m v s).pt n = s.pt n :=
  ⟨by rw [setSystemPoint_frame], setSystemPoint_settings .., fun n small => setSystemPoint_pt_other m v s (by omega)⟩

section
variable {s x : State} {a : Nat} (points : ∀ n, n < 544 → x.pt n = s.pt n)
include points

/-- The points of one concentrator in turn leave every other point, and the field loop. -/
theorem foldl_pointsOf_frame {f : State → Nat → State} (own : ∀ z n, AtPoint n z (f z n)) :
    ((s.pointsOf a).foldl f x).field = x.field ∧
    ∀ n, n < 544 → (n / 32 ≠ a ∨ s.ptSet n = none) → ((s.pointsOf a).foldl f x).pt n = s.pt n := by
  obtain ⟨field, _, _, others⟩ := foldl_at own (s.pointsOf a) x
  refine ⟨field, fun n small out => (others n small fun inside => ?_).trans (points n small)⟩
  obtain ⟨mine, set⟩ := (mem_pointsOf s a n).1 inside
  exact out.elim (fun other => other mine) set

/-- Each of them is taken from a state that shows it as s does. -/
theorem foldl_pointsOf_own (near : a < 16) (settings : x.settings = s.settings) {f : State → Nat → State}
    (own : ∀ z n, AtPoint n z (f z n)) {n : Nat} {c : PointSettings} (mine : n / 32 = a)
    (set : s.ptSet n = some c) : n < 544 ∧ ∃ z : State, z.ptSet n = some c ∧ z.pt n = s.pt n ∧
      ((s.pointsOf a).foldl f x).pt n = (f z n).pt n := by
  have small : n < 544 := by omega
  have inside : n ∈ s.pointsOf a := (mem_pointsOf s a n).2 ⟨mine, by rw [set]; nofun⟩
  obtain ⟨z, kept, same, last⟩ := foldl_at_own own (pointsOf_nodup s a) inside small x
  refine ⟨small, z, ?_, same.trans (points n small), last⟩
  rw [State.ptSet, kept, settings]
  exact set

end

/-- The points of a reply that ends a silence show it at once (R7). -/
abbrev TakenDirectly (s u : State) (a contacts wiring : Nat) : Prop :=
  ∀ n c v, n / 32 = a → s.ptSet n = some c → v = (contacts.testBit (n % 32) != c.activeOpen) →
    (u.pt n).raw = v ∧ (u.pt n).qualified = v ∧ (u.pt n).pending = none ∧
    (u.pt n).live = (if wiring.testBit (n % 32) then .wiring else .good)

/-- The points of a reply in HEALTHY or SUSPECT, each sampled through its filter (R3, R16). -/
abbrev Sampled (s u : State) (y : FieldCycle) (a contacts wiring : Nat) : Prop :=
  ∀ n c v, n / 32 = a → s.ptSet n = some c → v = (contacts.testBit (n % 32) != c.activeOpen) →
    (u.pt n).raw = v ∧ (u.pt n).live = (if wiring.testBit (n % 32) then .wiring else .good) ∧
    ((s.pt n).fresh = true ∨ v = (s.pt n).qualified ∨ FilterRun c (s.pt n) v y.startElapsed →
      (u.pt n).qualified = v ∧ (u.pt n).pending = none) ∧
    ((s.pt n).fresh = false → v ≠ (s.pt n).qualified → ¬ FilterRun c (s.pt n) v y.startElapsed →
      (u.pt n).qualified = (s.pt n).qualified ∧ (u.pt n).pending = some ((s.pt n).pending.getD
        { start := y.start, startElapsed := y.startElapsed, filter := if v then c.setFilter else c.clearFilter }))

section
variable {s x u : State} {a : Nat} (near : a < 16) (settings : x.settings = s.settings) (points : ∀ n, n < 544 → x.pt n = s.pt n)
  (contacts wiring : Nat)
include near settings points

theorem handSamples_sampled (y : FieldCycle) (handed : u = handSamples a contacts wiring y.start y.startElapsed x) :
    u.field = x.field ∧ (∀ n, n < 544 → (n / 32 ≠ a ∨ s.ptSet n = none) → u.pt n = s.pt n) ∧ Sampled s u y a contacts wiring := by
  have own : ∀ z n, AtPoint n z (sampleField n (channelBit contacts n) (channelBit wiring n) y.start y.startElapsed z) :=
    fun z n => sampleField_at n _ _ _ _ z
  rw [handSamples, pointsOf_congr settings] at handed
  subst handed
  obtain ⟨field, others⟩ := foldl_pointsOf_frame (a := a) points own
  refine ⟨field, others, fun n c v mine set value => ?_⟩
  obtain ⟨small, z, same, shown, last⟩ := foldl_pointsOf_own points near settings own mine set
  have sampled := sampleField_pt small same (channelBit contacts n) (channelBit wiring n) y.start y.startElapsed rfl value
  rw [shown] at sampled
  rw [last]
  exact sampled

theorem foundField_taken (time : HallTime)
    (found : u = (s.pointsOf a).foldl (fun z n => foundField n (contacts.testBit (n % 32)) (wiring.testBit (n % 32)) time z) x) :
    u.field = x.field ∧ (∀ n, n < 544 → (n / 32 ≠ a ∨ s.ptSet n = none) → u.pt n = s.pt n) ∧ TakenDirectly s u a contacts wiring := by
  have own : ∀ z n, AtPoint n z (foundField n (contacts.testBit (n % 32)) (wiring.testBit (n % 32)) time z) :=
    fun z n => foundField_at n _ _ _ z
  subst found
  obtain ⟨field, others⟩ := foldl_pointsOf_frame (a := a) points own
  refine ⟨field, others, fun n c v mine set value => ?_⟩
  obtain ⟨small, z, same, _, last⟩ := foldl_pointsOf_own points near settings own mine set
  rw [last, value]
  exact foundField_pt small same _ _ time rfl

theorem regainField_taken (time : HallTime)
    (regained : u = (s.pointsOf a).foldl (fun z n => regainField n (contacts.testBit (n % 32)) (wiring.testBit (n % 32)) time z) x) :
    u.field = x.field ∧ (∀ n, n < 544 → (n / 32 ≠ a ∨ s.ptSet n = none) → u.pt n = s.pt n) ∧ TakenDirectly s u a contacts wiring := by
  have own : ∀ z n, AtPoint n z (regainField n (contacts.testBit (n % 32)) (wiring.testBit (n % 32)) time z) :=
    fun z n => regainField_at n _ _ _ z
  subst regained
  obtain ⟨field, others⟩ := foldl_pointsOf_frame (a := a) points own
  refine ⟨field, others, fun n c v mine set value => ?_⟩
  obtain ⟨small, z, same, _, last⟩ := foldl_pointsOf_own points near settings own mine set
  rw [last, value]
  exact regainField_pt small same _ _ time rfl

end

theorem concentrator_near {s : State} {a : Nat} {set : ConcentratorSettings} (configured : s.concSet a = some set) : a < 16 := by
  by_contra beyond
  rw [State.concSet, look_beyond _ _ (Nat.not_lt.1 beyond)] at configured
  cases configured

section
variable {s : State} {y : FieldCycle} {a : Nat} {isRepeat : Bool} {set : ConcentratorSettings} (cycle : s.field.cycle = some y)
  (call : y.call = some (a, isRepeat)) (configured : s.concSet a = some set) (served : a ∉ y.withdrawn)
include cycle call configured served

/-- A SCAN REPLY with the cycle count: counted, and a good cycle (R24, R28, R33). -/
theorem exec_fieldSlotEnd_of_reply {contacts wiring : Nat} (smallContacts : contacts < 2 ^ 32) (smallWiring : wiring < 2 ^ 32) :
    exec (.fieldSlotEnd (.frame (scanReply a y.count contacts wiring))) s =
      .next (finish (goodCycle a set contacts wiring { y with call := none, slot := y.slot + 1 } (ReplyCounted s y a))) := by
  have judged := judgeField_scanReply a y.count y.count contacts wiring
  rw [if_pos rfl, byte_sets smallContacts, byte_sets smallWiring] at judged
  rw [exec_fieldSlotEnd cycle call configured served, judged]
  simp only [Concentrator.countCall, bump, saturate_eq_min]
  rfl

/-- The calls that fail or are held off, by what came back (R24). -/
theorem callsFailed :
    CallFailed s y a .silent true { s.conc a with timeouts := min ((s.conc a).timeouts + 1) 65535 } ∧
    CallFailed s y a .unended true { s.conc a with crcErrors := min ((s.conc a).crcErrors + 1) 65535 } ∧
    (∀ bytes, (∀ e contacts wiring, bytes ≠ scanReply a e contacts wiring) → (∀ e, bytes ≠ holdOffReply a e) →
      CallFailed s y a (.frame bytes) true { s.conc a with crcErrors := min ((s.conc a).crcErrors + 1) 65535 }) ∧
    (∀ e, e ≠ y.count → ∀ bytes, bytes = holdOffReply a e ∨ (∃ contacts wiring, bytes = scanReply a e contacts wiring) →
      CallFailed s y a (.frame bytes) true { s.conc a with staleEchoes := min ((s.conc a).staleEchoes + 1) 65535 }) ∧
    CallFailed s y a (.frame (holdOffReply a y.count)) false
      { s.conc a with holdOffs := min ((s.conc a).holdOffs + 1) 65535 } := by
  refine ⟨(callFailed cycle call configured served rfl).1 rfl, (callFailed cycle call configured served rfl).2.1 rfl,
    fun bytes scan hold => (callFailed cycle call configured served (judgeField_other scan hold y.count)).2.1 rfl,
    fun e other bytes reply => ?_, ?_⟩
  · have stale : judgeField a y.count (.frame bytes) = .stale := by
      rcases reply with rfl | ⟨contacts, wiring, rfl⟩
      · rw [judgeField_holdOffReply, if_neg other]
      · rw [judgeField_scanReply, if_neg other]
    exact (callFailed cycle call configured served stale).2.2.1 rfl
  · have held : judgeField a y.count (.frame (holdOffReply a y.count)) = .holdOff := by rw [judgeField_holdOffReply, if_pos rfl]
    exact (callFailed cycle call configured served held).2.2.2 rfl

end

/-- Settles O46, by the judgement of the reply and the state of its concentrator. -/
theorem fieldRepliesJudged : Obligations.FieldRepliesJudged := by
  refine ⟨fun s n c p before counted f standing => changeMade n c p before counted f standing s, fun s n c v time elapsed other run => ?_,
    fun s n c v closed fault time set value other => ?_, fun s y a isRepeat line cycle call out =>
      exec_fieldSlotEnd_of_unserved cycle call out line, fun s y a isRepeat set cycle call configured served => ?_⟩
  · refine ⟨((s.pt n).pending.getD { start := time, startElapsed := elapsed, filter := c.filterFor v }).start,
      fun d waits => by rw [waits]; rfl, fun fresh => by rw [fresh]; rfl, samplePoint_of_run n c time elapsed other run⟩
  · subst value
    exact regainField_of_other set closed fault time other
  have near := concentrator_near configured
  obtain ⟨silent, unended, other, stale, held⟩ := callsFailed cycle call configured served
  refine ⟨silent, unended, other, stale, held, fun contacts wiring smallContacts smallWiring => ?_⟩
  have runs := exec_fieldSlotEnd_of_reply cycle call configured served smallContacts smallWiring
  have aside := ((field_block s _).trans (goodCycle_block a set contacts wiring { y with call := none, slot := y.slot + 1 }
    (ReplyCounted s y a))).aside
  obtain ⟨absent, samples, found, lost⟩ := goodCycle_cases (s := s) (y := y) near set contacts wiring rfl
  refine ⟨fun gone => by rw [runs, absent gone], fun alive => ?_⟩
  cases link : (s.conc a).link with
  | absent => exact absurd link alive
  | healthy | suspect =>
    have here := samples (by rw [link]; decide)
    rw [here] at runs aside
    obtain ⟨field, others, sampled⟩ := handSamples_sampled (s := s) (x := ReplyTaken s y a .healthy) near rfl (fun _ _ => rfl) contacts wiring y rfl
    refine ⟨_, .healthy, ReplyTaken s y a .healthy, _, runs, aside, rfl, rfl, field, others, fun _ => ⟨rfl, rfl, sampled⟩,
      nofun, fun no => absurd no (by decide), fun no => absurd no (by decide), fun no => absurd no (by simp)⟩
  | seeking =>
    have here := found link
    rw [here] at runs aside
    obtain ⟨field, others, taken⟩ := foundField_taken (s := s) (x := { ReplyTaken s y a .healthy with
      jr := s.jr.request s.clock.hall (linkEntry false a 0 y.start 0 ((s.pointsOf a).filter fun n =>
          (s.ptSet n).any fun c => contacts.testBit (n % 32) != c.activeOpen).length) }) near rfl (fun _ _ => rfl) contacts wiring y.start rfl
    refine ⟨_, .healthy, ReplyTaken s y a .healthy, _, runs, aside, rfl, rfl, field, others, fun no => absurd no (by decide),
      fun _ => ⟨rfl, _, rfl, rfl⟩, fun no => absurd no (by decide), fun no => absurd no (by decide), fun _ => taken⟩
  | lost | regaining =>
    obtain ⟨waits, regains⟩ := lost (by rw [link]; decide)
    by_cases enough : set.regainCount ≤ min ((s.conc a).goodCount + 1) 255
    · rw [regains enough] at runs aside
      obtain ⟨keepsField, keepsSettings, keepsPoints⟩ := setSystemPoint_at_settable (m := 640 + a) (by omega) false { ReplyTaken s y a .healthy with
        jr := s.jr.request s.clock.hall (linkEntry false a 2 y.start (s.conc a).lostAt ((s.pointsOf a).filter fun n =>
          (s.ptSet n).any fun c => (contacts.testBit (n % 32) != c.activeOpen) != (s.pt n).qualified).length) }
      obtain ⟨field, others, taken⟩ := regainField_taken near keepsSettings keepsPoints contacts wiring y.start rfl
      refine ⟨_, .healthy, ReplyTaken s y a .healthy, _, runs, aside, rfl, rfl, field.trans keepsField, others,
        fun no => absurd no (by decide), nofun, fun _ few => absurd enough (Nat.not_le.2 few),
        fun _ _ => ⟨rfl, fun z adopted => setSystemPoint_qualified (640 + a) false z adopted (by omega), _, rfl, rfl⟩, fun _ => taken⟩
    · rw [waits (Nat.not_le.1 enough)] at runs aside
      refine ⟨_, .regaining, ReplyTaken s y a .regaining, _, runs, aside, rfl, rfl, rfl, fun _ _ _ => rfl,
        fun no => absurd no (by decide), nofun, fun _ _ => ⟨rfl, rfl⟩, fun _ whole => absurd whole enough,
        fun either => absurd either (not_or.2 ⟨by decide, fun both => enough both.2⟩)⟩

end Sys2Proof.Machine
end

section
/-! The end of a field loop cycle (R25, R28, R30, R34): what it does to each called concentrator and to its points. -/

namespace Sys2Proof.Machine

/-! ## What the end of a cycle leaves as it was -/

/-- Of the field loop only the record of concentrator c, of the settable points only its own. -/
structure AtConcentrator (c : Nat) (s u : State) : Prop where
  clock : u.clock = s.clock
  settings : u.settings = s.settings
  field : u.field = { s.field with concentrators := u.field.concentrators }
  others : ∀ d, d ≠ c → u.conc d = s.conc d
  points : ∀ n, n < 544 → (n / 32 ≠ c ∨ s.ptSet n = none) → u.pt n = s.pt n

theorem AtConcentrator.refl (c : Nat) (s : State) : AtConcentrator c s s := ⟨rfl, rfl, rfl, fun _ _ => rfl, fun _ _ _ => rfl⟩

theorem AtConcentrator.trans {c : Nat} {s t u : State} (a : AtConcentrator c s t) (b : AtConcentrator c t u) : AtConcentrator c s u := by
  refine ⟨b.clock.trans a.clock, b.settings.trans a.settings, b.field.trans (by rw [a.field]),
    fun d apart => (b.others d apart).trans (a.others d apart), fun n small out => ?_⟩
  have same : t.ptSet n = s.ptSet n := by rw [State.ptSet, a.settings]; rfl
  exact (b.points n small (out.imp_right same.trans)).trans (a.points n small out)

theorem setConc_at (c : Nat) (k : Concentrator) (s : State) : AtConcentrator c s (s.setConc c k) :=
  ⟨rfl, rfl, rfl, fun d apart => (conc_setConc s c d k).trans (if_neg fun same => apart same.1.symm), fun _ _ _ => rfl⟩

theorem conc_setConc_same {c : Nat} (near : c < 16) (k : Concentrator) (s : State) : (s.setConc c k).conc c = k :=
  (conc_setConc s c c k).trans (if_pos ⟨rfl, near⟩)

/-- The state a LOST concentrator's points are taken from: LINK LOST written, its lost point active (R30). -/
abbrev LinkLost (c : Nat) (set : ConcentratorSettings) (k : Concentrator) (z : State) : State := setSystemPoint (640 + c) true { z with
  field := { z.field with
    concentrators := put z.field.concentrators c { k with link := .lost, wasLost := true, lostAt := z.clock.hall } }
  jr := z.jr.request z.clock.hall (linkEntry false c 1 z.clock.hall k.lastGood set.lostThreshold) }

section
variable (c : Nat) (set : ConcentratorSettings) (k : Concentrator) (z : State)

theorem linkLost_settings : (LinkLost c set k z).settings = z.settings := setSystemPoint_settings ..

theorem loseConcentrator_eq : loseConcentrator c set k z = (z.pointsOf c).foldl loseField (LinkLost c set k z) := by
  show List.foldl loseField (LinkLost c set k z) ((LinkLost c set k z).pointsOf c) = _
  rw [pointsOf_congr (linkLost_settings c set k z)]

theorem linkLost_pt {n : Nat} (small : n < 544) : (LinkLost c set k z).pt n = z.pt n := setSystemPoint_pt_other _ _ _ (by omega)

theorem linkLost_field : (LinkLost c set k z).field = { z.field with
    concentrators := put z.field.concentrators c { k with link := .lost, wasLost := true, lostAt := z.clock.hall } } := by
  rw [LinkLost, setSystemPoint_frame]

theorem loseConcentrator_field : (loseConcentrator c set k z).field = { z.field with
    concentrators := put z.field.concentrators c { k with link := .lost, wasLost := true, lostAt := z.clock.hall } } := by
  rw [loseConcentrator_eq, (foldl_at loseField_at _ _).1, linkLost_field]

theorem loseConcentrator_at : AtConcentrator c z (loseConcentrator c set k z) := by
  have field := loseConcentrator_field c set k z
  have step := loseConcentrator_block c set k z
  refine ⟨step.clock, step.settings, by rw [field], fun d apart => ?_, ?_⟩
  · rw [State.conc, field]
    exact look_put_other _ _ (Ne.symm apart)
  · rw [loseConcentrator_eq]
    exact (foldl_pointsOf_frame (fun n small => linkLost_pt c set k z small) loseField_at).2

end

theorem failedCycle_at (c : Nat) (set : ConcentratorSettings) (s : State) : AtConcentrator c s (failedCycle c set s) := by
  unfold failedCycle
  extract_lets k
  split
  · exact AtConcentrator.refl c s
  · exact setConc_at ..
  · exact setConc_at ..
  · exact setConc_at ..
  · exact ite_rel (loseConcentrator_at ..) (setConc_at ..)
  · exact setConc_at ..

theorem endCycleOf_at (y : FieldCycle) (s : State) (c : Nat) : AtConcentrator c s (endCycleOf y s c) := by
  unfold endCycleOf
  split
  · exact AtConcentrator.refl c s
  · extract_lets t
    have first : AtConcentrator c s t := ite_rel (AtConcentrator.refl c s) (failedCycle_at ..)
    exact first.trans (setConc_at ..)

/-! ## The concentrators of a cycle in turn -/

theorem foldl_endCycleOf_frame (y : FieldCycle) (cs : List Nat) (s : State) :
    (cs.foldl (endCycleOf y) s).field = { s.field with concentrators := (cs.foldl (endCycleOf y) s).field.concentrators } ∧
    (∀ d, (d ∉ cs ∨ y.serves s d = none) → (cs.foldl (endCycleOf y) s).conc d = s.conc d) ∧
    ∀ n, n < 544 → (n / 32 ∉ cs ∨ s.ptSet n = none) → (cs.foldl (endCycleOf y) s).pt n = s.pt n := by
  induction cs generalizing s with
  | nil => exact ⟨rfl, fun _ _ => rfl, fun _ _ _ => rfl⟩
  | cons c cs ih =>
    have step := endCycleOf_at y s c
    obtain ⟨field, others, points⟩ := ih (endCycleOf y s c)
    have serves : ∀ d, y.serves (endCycleOf y s c) d = y.serves s d := fun d => by
      simp only [FieldCycle.serves, State.concSet, step.settings]
    have sets : ∀ n, (endCycleOf y s c).ptSet n = s.ptSet n := fun n => by simp only [State.ptSet, step.settings]
    refine ⟨field.trans (by rw [step.field]; rfl), fun d out => ?_, fun n small out => ?_⟩
    · rw [List.foldl_cons, others d (out.imp (fun outside behind => outside (List.mem_cons_of_mem c behind)) (serves d).trans)]
      by_cases same : d = c
      · subst same
        rcases out with outside | unserved
        · exact absurd (List.mem_cons_self ..) outside
        · rw [endCycleOf, unserved]
      · exact step.others d same
    · rw [List.foldl_cons, points n small (out.imp (fun outside behind => outside (List.mem_cons_of_mem c behind)) (sets n).trans)]
      exact step.points n small (out.imp_left fun outside => List.ne_of_not_mem_cons outside)

/-- Each concentrator of a schedule without repetition ends its cycle once, from a state that shows it and its points as s does. -/
theorem foldl_endCycleOf_own (y : FieldCycle) {cs : List Nat} (once : cs.Nodup) {c : Nat} (inside : c ∈ cs) (s : State) :
    ∃ z : State, z.settings = s.settings ∧ z.clock = s.clock ∧ z.conc c = s.conc c ∧ (∀ n, n < 544 → n / 32 = c → z.pt n = s.pt n) ∧
      (cs.foldl (endCycleOf y) s).conc c = (endCycleOf y z c).conc c ∧
      ∀ n, n < 544 → n / 32 = c → (cs.foldl (endCycleOf y) s).pt n = (endCycleOf y z c).pt n := by
  induction cs generalizing s with
  | nil => cases inside
  | cons d cs ih =>
    obtain ⟨fresh, once⟩ := List.nodup_cons.1 once
    rw [List.foldl_cons]
    rcases List.mem_cons.1 inside with rfl | behind
    · obtain ⟨_, others, points⟩ := foldl_endCycleOf_frame y cs (endCycleOf y s c)
      exact ⟨s, rfl, rfl, rfl, fun _ _ _ => rfl, others c (.inl fresh), fun n small mine => points n small (.inl (mine ▸ fresh))⟩
    · have step := endCycleOf_at y s d
      have apart : c ≠ d := fun same => fresh (same ▸ behind)
      obtain ⟨z, settings, clock, record, shown, last⟩ := ih once behind (endCycleOf y s d)
      exact ⟨z, settings.trans step.settings, clock.trans step.clock, record.trans (step.others c apart),
        fun n small mine => (shown n small mine).trans (step.points n small (.inl (mine ▸ apart))), last⟩

/-! ## One concentrator -/

/-- The record after a failed cycle (R28, R30). -/
abbrev Concentrator.afterFailed (k : Concentrator) (failed : Nat) (reaches : Bool) (now : HallTime) : Concentrator := { k with
  goodCount := 0, failedCount := failed
  wasLost := k.wasLost || reaches
  lostAt := if reaches then now else k.lostAt
  link := match k.link with
    | .healthy => .suspect
    | .suspect => if reaches then .lost else .suspect
    | .regaining => .lost
    | z => z }

section
variable {c : Nat} (set : ConcentratorSettings) (z : State)

/-- A failed cycle that does not reach the threshold moves the concentrator's record only. -/
theorem failedCycle_of_below (alive : (z.conc c).link ≠ .absent)
    (below : ¬ ((z.conc c).link = .suspect ∧ set.lostThreshold ≤ min ((z.conc c).failedCount + 1) 255)) :
    failedCycle c set z = z.setConc c ((z.conc c).afterFailed (min ((z.conc c).failedCount + 1) 255) false z.clock.hall) := by
  have failed : (z.conc c).failed = { z.conc c with goodCount := 0, failedCount := min ((z.conc c).failedCount + 1) 255 } := by
    rw [Concentrator.failed, saturate_eq_min]
  simp only [failedCycle, failed, Concentrator.afterFailed, Bool.or_false, Bool.false_eq_true, if_false]
  cases link : (z.conc c).link with
  | absent => exact absurd link alive
  | suspect =>
    simp only [link, true_and] at below
    simp only [below, if_false]
  | seeking | healthy | lost | regaining => rfl

theorem failedCycle_of_reached (suspect : (z.conc c).link = .suspect)
    (reached : set.lostThreshold ≤ min ((z.conc c).failedCount + 1) 255) : failedCycle c set z =
    loseConcentrator c set { z.conc c with goodCount := 0, failedCount := min ((z.conc c).failedCount + 1) 255 } z := by
  have failed : (z.conc c).failed = { z.conc c with goodCount := 0, failedCount := min ((z.conc c).failedCount + 1) 255 } := by
    rw [Concentrator.failed, saturate_eq_min]
  simp only [failedCycle, suspect, failed, reached, if_true]

theorem failedCycle_of_absent (absent : (z.conc c).link = .absent) : failedCycle c set z = z := by
  rw [failedCycle, absent]

end

theorem loseField_pt {n : Nat} (small : n < 544) {z : State} (set : z.ptSet n ≠ none) :
    ((loseField z n).pt n).live = .lost ∧ ((loseField z n).pt n).pending = none ∧
      ((loseField z n).pt n).qualified = (z.pt n).qualified := by
  obtain ⟨c, here⟩ := Option.ne_none_iff_exists'.1 set
  obtain ⟨h, t, entered⟩ := setQuality_pt small c (z.setPt n { z.pt n with pending := none, fresh := false }) .lost z.now
  rw [loseField, here]
  simp only [entered, pt_setPt_same small]
  exact ⟨trivial, trivial, trivial⟩

/-- The points of a concentrator that enters LOST (R7). -/
theorem loseConcentrator_pt {c : Nat} (near : c < 16) (set : ConcentratorSettings) (k : Concentrator) (z : State) {n : Nat} (mine : n / 32 = c)
    (configured : z.ptSet n ≠ none) : ((loseConcentrator c set k z).pt n).live = .lost ∧
      ((loseConcentrator c set k z).pt n).pending = none ∧ ((loseConcentrator c set k z).pt n).qualified = (z.pt n).qualified := by
  obtain ⟨p, here⟩ := Option.ne_none_iff_exists'.1 configured
  obtain ⟨small, x, same, shown, last⟩ := foldl_pointsOf_own (fun n small => linkLost_pt c set k z small) near
    (linkLost_settings c set k z) loseField_at mine here
  rw [loseConcentrator_eq, last, ← shown]
  exact loseField_pt small (by rw [same]; nofun)

/-- The record of a concentrator at the end of a cycle, by whether its reply was taken and whether it reaches the lost threshold, and
what becomes of its points (R28, R30, R34). -/
theorem endCycleOf_own {c : Nat} (near : c < 16) {y : FieldCycle} {set : ConcentratorSettings} {z : State}
    (served : y.serves z c = some set) :
    (c ∈ y.taken ∨ (z.conc c).link = .absent →
      endCycleOf y z c = z.setConc c ((z.conc c).endCycle (look y.thresholds c) (y.errors.count c))) ∧
    (c ∉ y.taken → (z.conc c).link ≠ .absent →
      ¬ ((z.conc c).link = .suspect ∧ set.lostThreshold ≤ min ((z.conc c).failedCount + 1) 255) →
      endCycleOf y z c = z.setConc c (((z.conc c).afterFailed (min ((z.conc c).failedCount + 1) 255) false z.clock.hall).endCycle
        (look y.thresholds c) (y.errors.count c))) ∧
    (c ∉ y.taken → (z.conc c).link = .suspect → set.lostThreshold ≤ min ((z.conc c).failedCount + 1) 255 →
      (endCycleOf y z c).conc c = ((z.conc c).afterFailed (min ((z.conc c).failedCount + 1) 255) true z.clock.hall).endCycle
        (look y.thresholds c) (y.errors.count c) ∧
      ∀ n, (endCycleOf y z c).pt n = (loseConcentrator c set
        { z.conc c with goodCount := 0, failedCount := min ((z.conc c).failedCount + 1) 255 } z).pt n) := by
  have ends : endCycleOf y z c = (if y.taken.contains c = true then z else failedCycle c set z).setConc c
      (((if y.taken.contains c = true then z else failedCycle c set z).conc c).endCycle (look y.thresholds c) (y.errors.count c)) := by
    rw [endCycleOf, served]
  have put : ∀ k l : Concentrator, (z.setConc c k).setConc c l = z.setConc c l := fun k l => by simp only [State.setConc, put_put]
  rw [List.contains_eq_mem] at ends
  refine ⟨fun either => ?_, fun missing alive below => ?_, fun missing suspect reached => ?_⟩
  · have stays : (if decide (c ∈ y.taken) = true then z else failedCycle c set z) = z := by
      rcases either with taken | absent
      · exact if_pos (decide_eq_true taken)
      · rw [failedCycle_of_absent set z absent, ite_self]
    rw [ends, stays]
  · rw [decide_eq_false missing, if_neg (by decide), failedCycle_of_below set z alive below] at ends
    rw [ends, put, conc_setConc_same near]
  · rw [decide_eq_false missing, if_neg (by decide), failedCycle_of_reached set z suspect reached] at ends
    rw [ends]
    refine ⟨?_, fun n => rfl⟩
    rw [conc_setConc_same near]
    congr 1
    rw [State.conc, loseConcentrator_field]
    refine (look_put_same _ _ near).trans ?_
    simp only [Concentrator.afterFailed, suspect, Bool.or_true, if_true]

theorem exec_fieldCycleEnd {s : State} {y : FieldCycle} (cycle : s.field.cycle = some y) (free : y.call = none) (last : y.slots ≤ y.slot) :
    exec .fieldCycleEnd s = .next (finish (y.schedule.foldl (endCycleOf y) { s with field := { s.field with cycle := none } })) := by
  change execFieldCycleEnd s = _
  simp only [execFieldCycleEnd, cycle, free, Option.isNone_none, last, and_self, if_true]

/-- Settles O47, by whether a reply of the concentrator was taken and whether it reaches its lost threshold. -/
theorem fieldCyclesEnd : Obligations.FieldCyclesEnd := by
  intro s y cycle free last once
  let x : State := { s with field := { s.field with cycle := none } }
  obtain ⟨field, others, points⟩ := foldl_endCycleOf_frame y y.schedule x
  refine ⟨_, exec_fieldCycleEnd cycle free last, ((field_block s _).trans (foldl_block _ (endCycleOf_block y) _ _)).aside, rfl, field,
    fun c _ out => others c (out.imp_right fieldServes_none), points, fun c set called configured served => ?_⟩
  have near := concentrator_near configured
  obtain ⟨z, settings, clock, record, shown, ends, showsEnd⟩ := foldl_endCycleOf_own y once called x
  have serves : y.serves z c = some set := by
    rw [fieldServes_of_not_mem z served, State.concSet, settings]
    exact configured
  have sets : ∀ n, z.ptSet n = s.ptSet n := fun n => by rw [State.ptSet, settings]; rfl
  have record : z.conc c = s.conc c := record
  have hall : z.clock.hall = s.clock.hall := congrArg Clock.hall clock
  obtain ⟨stays, below, reached⟩ := endCycleOf_own near serves
  rw [record] at stays below reached
  rw [hall] at below reached
  have marked : ∀ k : Concentrator, k.history = (s.conc c).history →
      (endCycleOf y z c).conc c = k.endCycle (look y.thresholds c) (y.errors.count c) →
      ((y.schedule.foldl (endCycleOf y) x).conc c).history = (y.errors.count c :: (s.conc c).history).take 1000 ∧
      (((y.schedule.foldl (endCycleOf y) x).conc c).marginal = true ↔
        look y.thresholds c ≠ 0 ∧ look y.thresholds c < ((y.errors.count c :: (s.conc c).history).take 1000).sum) ∧
      ∃ m, (y.schedule.foldl (endCycleOf y) x).conc c =
        { k with history := (y.errors.count c :: (s.conc c).history).take 1000, marginal := m } := by
    intro k same last
    rw [ends, last, Concentrator.endCycle, same]
    exact ⟨rfl, decide_eq_true_iff, _, rfl⟩
  let failed := min ((s.conc c).failedCount + 1) 255
  by_cases out : c ∈ y.taken ∨ (s.conc c).link = .absent
  · have ended := stays out
    obtain ⟨kept, marginal, whole⟩ := marked (s.conc c) rfl (by rw [ended, conc_setConc_same near])
    have never : ¬ (c ∉ y.taken ∧ (s.conc c).link = .suspect ∧ set.lostThreshold ≤ failed) := fun ⟨missing, suspect, _⟩ =>
      out.elim missing fun absent => by rw [absent] at suspect; cases suspect
    refine ⟨failed, false, _, rfl, (decide_eq_false never).symm, rfl, kept, marginal, fun _ => whole,
      fun missing alive => absurd out (not_or.2 ⟨missing, alive⟩), nofun, fun _ n small mine => ?_⟩
    rw [showsEnd n small mine, ended]
    exact shown n small mine
  · obtain ⟨missing, alive⟩ := not_or.1 out
    by_cases reaches : (s.conc c).link = .suspect ∧ set.lostThreshold ≤ failed
    · obtain ⟨suspect, enough⟩ := id reaches
      obtain ⟨lost, loses⟩ := reached missing suspect enough
      obtain ⟨kept, marginal, whole⟩ := marked ((s.conc c).afterFailed failed true s.clock.hall) rfl lost
      refine ⟨failed, true, _, rfl, (decide_eq_true ⟨missing, suspect, enough⟩).symm, rfl, kept, marginal,
        fun either => absurd either out, fun _ _ => whole,
        fun _ => ⟨fun v adopted => setSystemPoint_qualified (640 + c) true v adopted (by omega), fun n mine configured => ?_,
          fun k v => loseConcentrator_eq c set k v⟩, nofun⟩
      have small : n < 544 := by omega
      rw [showsEnd n small mine, loses, show (s.pt n).qualified = (z.pt n).qualified from
        congrArg Point.qualified (shown n small mine).symm]
      exact loseConcentrator_pt near set _ z mine (by rw [sets]; exact configured)
    · have ended := below missing alive reaches
      obtain ⟨kept, marginal, whole⟩ := marked ((s.conc c).afterFailed failed false s.clock.hall) rfl
        (by rw [ended, conc_setConc_same near])
      refine ⟨failed, false, _, rfl, (decide_eq_false fun all => reaches all.2).symm, rfl, kept, marginal,
        fun either => absurd either out, fun _ _ => whole, nofun, fun _ n small mine => ?_⟩
      rw [showsEnd n small mine, ended]
      exact shown n small mine

end Sys2Proof.Machine
end

section
/-! What comes back on the panel loop (R76, R77, R178), and the keys of a panel (R47, R79). -/

namespace Sys2Proof.Machine

/-! ## Judgements (R76) -/

theorem judgePanel_keyReply (p : Nat) (keys faults : Byte) (few : faults.toNat ≤ 24) :
    judgePanel p (.frame (keyReply p keys faults)) = .taken (Keys.ofByte keys) faults.toNat := by
  simp only [judgePanel, checkedBody_withCrc, few, and_self, if_true]

/-- Whatever else comes back is a CRC error (R76). -/
theorem judgePanel_other {p : Nat} {bytes : List Byte} (other : ∀ keys faults : Byte, faults.toNat ≤ 24 → bytes ≠ keyReply p keys faults) :
    judgePanel p (.frame bytes) = .crcError := by
  simp only [judgePanel]
  split
  · next address kind keys faults checked =>
    have frame := withCrc_of_checkedBody checked
    split
    · next reply =>
      obtain ⟨rfl, rfl, few⟩ := reply
      exact absurd frame (other keys faults few)
    · rfl
  · rfl

section
variable {s : State} {y : PanelCycle} {p : Nat} (cycle : s.panel.cycle = some y) (target : y.target = some p)
include cycle target

theorem exec_panelSlotEnd_of_unserved (out : s.panSet p = none ∨ p ∈ y.withdrawn) (line : LineInput) :
    exec (.panelSlotEnd line) s =
      .next { s with panel := { s.panel with cycle := some { y with target := none, slot := y.slot + 1 } } } := by
  have serves : PanelCycle.serves { y with target := none, slot := y.slot + 1 } s p = none :=
    panelServes_none (y := { y with target := none, slot := y.slot + 1 }) out
  change execPanelSlotEnd line s = _
  simp only [execPanelSlotEnd, cycle, target, serves]
  rfl

variable {set : PanelSettings} (configured : s.panSet p = some set) (served : p ∉ y.withdrawn)
include configured served

theorem exec_panelSlotEnd (line : LineInput) : exec (.panelSlotEnd line) s =
    match judgePanel p line with
    | .taken keys faults => .next (finish (takeKeyReply p set keys faults y.start
        (s.setPanelCycle { y with target := none, slot := y.slot + 1, taken := p :: y.taken })))
    | .timeout => .next ((s.setPan p { s.pan p with timeouts := bump (s.pan p).timeouts }).setPanelCycle
        { y with target := none, slot := y.slot + 1, retry := if y.retried.contains p then y.retry else y.retry ++ [p] })
    | .crcError => .next ((s.setPan p { s.pan p with crcErrors := bump (s.pan p).crcErrors }).setPanelCycle
        { y with target := none, slot := y.slot + 1, retry := if y.retried.contains p then y.retry else y.retry ++ [p] }) := by
  have serves : PanelCycle.serves { y with target := none, slot := y.slot + 1 } s p = some set :=
    (panelServes_of_not_mem (y := { y with target := none, slot := y.slot + 1 }) s served).trans configured
  change execPanelSlotEnd line s = _
  simp only [execPanelSlotEnd, cycle, target, serves] <;> cases judgePanel p line <;> rfl

/-- A failed frame (R76, R77). -/
theorem frameFailed {line : LineInput} :
    (judgePanel p line = .timeout → FrameFailed s y p line { s.pan p with timeouts := min ((s.pan p).timeouts + 1) 65535 }) ∧
    (judgePanel p line = .crcError → FrameFailed s y p line { s.pan p with crcErrors := min ((s.pan p).crcErrors + 1) 65535 }) := by
  have ends := exec_panelSlotEnd cycle target configured served line
  have listed : (if y.retried.contains p = true then y.retry else y.retry ++ [p]) = if p ∈ y.retried then y.retry else y.retry ++ [p] := by
    simp only [List.contains_eq_mem, decide_eq_true_eq]
  refine ⟨fun judged => ?_, fun judged => ?_⟩ <;>
  · rw [judged, listed] at ends
    rw [FrameFailed, ends]
    simp only [bump, saturate_eq_min]
    rfl

end

/-! ## Key presses (R47, R79) -/

theorem mem_panelWindows (s : State) (p w : Nat) : w ∈ s.panelWindows p ↔
    s.shelved w = false ∧ ∃ c, s.winSet w = some c ∧ (c.place.map fun q => q.1) = some p := by
  rw [State.panelWindows, List.mem_filter, mem_configuredWhere, Bool.not_eq_true', and_comm]
  refine and_congr_right fun _ => exists_congr fun c => and_congr_right fun _ => ?_
  cases c.place with
  | none => simp
  | some q => simp

theorem panelWindows_rising (s : State) (p : Nat) : (s.panelWindows p).Pairwise (· < ·) := (configuredWhere_rising _ _).filter _

theorem panelWindows_congr {s t : State} (settings : t.settings = s.settings) (shelf : t.win.shelf = s.win.shelf) (p : Nat) :
    t.panelWindows p = s.panelWindows p := by
  simp only [State.panelWindows, State.shelved, settings, shelf]

theorem pressKey_eq (p : Nat) (ev : WindowEvent) (x : State) :
    pressKey p ev x = (x.panelWindows p).foldl (fun z i => offer i ev (.panel p) z) x := offerAll_fst ..

/-- ACK or RESET pressed, or not: the windows it is offered to. -/
def pressed (down : Bool) (p : Nat) (ev : WindowEvent) (chosen : List Nat) (x : State) : State :=
  if down then chosen.foldl (fun z i => offer i ev (.panel p) z) x else x

section
variable (down : Bool) (p : Nat) (ev : WindowEvent) (chosen : List Nat) (x : State)

theorem pressed_winStep : WinStep x (pressed down p ev chosen x) :=
  ite_rel (foldl_rel WinStep.refl WinStep.trans _ (fun z i => offer_winStep i ev _ z) chosen x) (WinStep.refl x)

theorem pressed_winSet (w : Nat) : (pressed down p ev chosen x).winSet w = x.winSet w := by
  rw [State.winSet, (pressed_winStep ..).settings, State.winSet]

theorem pressed_shelf : (pressed down p ev chosen x).win.shelf = x.win.shelf :=
  ite_rel (foldl_rel SameShelf.refl SameShelf.trans _ (fun z i => offer_shelf i ev _ z) chosen x) (SameShelf.refl x)

variable {ev chosen} in
theorem pressed_state_of_mem (operator : ev = .ack ∨ ev = .reset) {w : Nat} (inside : w ∈ chosen) {c : WindowSettings}
    (set : x.winSet w = some c) : ((pressed down p ev chosen x).window w).state =
      if down then (c.sequence.next (x.window w).state ev).getD (x.window w).state else (x.window w).state := by
  cases down
  · rfl
  · exact foldl_offer_state operator (.panel p) inside x set

variable {chosen} in
theorem pressed_state_of_not_mem {w : Nat} (outside : w ∉ chosen) :
    ((pressed down p ev chosen x).window w).state = (x.window w).state := by
  cases down
  · rfl
  · exact foldl_offer_state_other outside x

end

/-- The presses of a reply in the order ACK, RESET, SILENCE (R79). -/
theorem pressKeys_eq (p : Nat) (old new : Keys) (x : State) : pressKeys p old new x =
    if new.silence && !old.silence then
      setSilence (pressed (new.reset && !old.reset) p .reset (x.panelWindows p) (pressed (new.ack && !old.ack) p .ack (x.panelWindows p) x))
    else pressed (new.reset && !old.reset) p .reset (x.panelWindows p) (pressed (new.ack && !old.ack) p .ack (x.panelWindows p) x) := by
  have first : (if new.ack && !old.ack then pressKey p .ack x else x) = pressed (new.ack && !old.ack) p .ack (x.panelWindows p) x := by
    rw [pressKey_eq, pressed]
  have chosen : (pressed (new.ack && !old.ack) p .ack (x.panelWindows p) x).panelWindows p = x.panelWindows p :=
    panelWindows_congr (pressed_winStep ..).settings (pressed_shelf ..) p
  have second : ∀ v : State, (if new.reset && !old.reset then pressKey p .reset v else v) =
      pressed (new.reset && !old.reset) p .reset (v.panelWindows p) v := fun v => by rw [pressKey_eq, pressed]
  rw [pressKeys]
  simp only [first, second, chosen]

end Sys2Proof.Machine
end

section
/-! A KEY REPLY taken (R76, R78 to R80) and the end of a panel cycle (R78). -/

namespace Sys2Proof.Machine

/-! ## A reply taken -/

/-- The panel's state rises at its second good cycle in a row (R78). -/
abbrev Panel.rises (x : Panel) : Bool := decide ((x.link = .seeking ∨ x.link = .lost) ∧ 2 ≤ min (x.goodCount + 1) 255)

theorem afterGood_eq (x : Panel) : x.afterGood = if x.rises then .healthy else x.link := by
  obtain ⟨link, failed, good, _⟩ := x
  simp only [Panel.afterGood, Panel.rises, saturate_eq_min]
  cases link <;> simp

theorem lampTestAfter_eq (x : Panel) (accepted : Bool) (keys : Keys) : x.lampTestAfter accepted keys =
    (keys.test && ((decide (x.link = .healthy) && accepted && !x.keys.test) || x.lampTest)) := by
  unfold Panel.lampTestAfter
  cases keys.test with
  | false => rfl
  | true =>
    show (if (x.link == .healthy && accepted && !x.keys.test) = true then true else x.lampTest) =
      (decide (x.link = .healthy) && accepted && !x.keys.test || x.lampTest)
    rw [show (x.link == .healthy) = decide (x.link = .healthy) from rfl]
    cases decide (x.link = .healthy) && accepted && !x.keys.test <;> rfl

/-- The panel's record and the cycle when a KEY REPLY has been taken. -/
abbrev KeysTaken (s : State) (y : PanelCycle) (p : Nat) (set : PanelSettings) (keys : Keys) (faults : Nat) : State :=
  { s with panel := { s.panel with
    panels := put s.panel.panels p { s.pan p with
      link := if (s.pan p).rises then .healthy else (s.pan p).link
      failedCount := 0, goodCount := min ((s.pan p).goodCount + 1) 255, lampFaults := faults, keys := keys, lastGood := y.start
      lampTest := keys.test && ((decide ((s.pan p).link = .healthy) && set.keysAccepted && !(s.pan p).keys.test) || (s.pan p).lampTest) }
    cycle := some { y with target := none, slot := y.slot + 1, taken := p :: y.taken } } }

/-- A KEY REPLY by the state of the panel (R78, R79). -/
theorem takeKeyReply_cases (s : State) (y : PanelCycle) (p : Nat) (set : PanelSettings) (keys : Keys) (faults : Nat) {u : State}
    (taken : takeKeyReply p set keys faults y.start
      (s.setPanelCycle { y with target := none, slot := y.slot + 1, taken := p :: y.taken }) = u) :
    ((s.pan p).link = .seeking → (s.pan p).rises = true → u = { KeysTaken s y p set keys faults with
      jr := s.jr.request s.clock.hall (linkEntry true p 0 y.start 0 0) }) ∧
    ((s.pan p).link = .lost → (s.pan p).rises = true → u = setSystemPoint (656 + p) false { KeysTaken s y p set keys faults with
      jr := s.jr.request s.clock.hall (linkEntry true p 2 y.start (s.pan p).lostAt 0) }) ∧
    ((s.pan p).rises = false → (s.pan p).link ≠ .healthy ∨ set.keysAccepted = false → u = KeysTaken s y p set keys faults) ∧
    ((s.pan p).link = .healthy → set.keysAccepted = true → u = pressKeys p (s.pan p).keys keys (KeysTaken s y p set keys faults)) := by
  subst taken
  let z := s.setPanelCycle { y with target := none, slot := y.slot + 1, taken := p :: y.taken }
  let x := s.pan p
  have record : z.setPan p { x with
      link := x.afterGood, failedCount := 0, goodCount := saturate 255 (x.goodCount + 1), lampFaults := faults, keys := keys,
      lampTest := x.lampTestAfter set.keysAccepted keys, lastGood := y.start } = KeysTaken s y p set keys faults := by
    rw [afterGood_eq, lampTestAfter_eq, saturate_eq_min]
    rfl
  have whole : takeKeyReply p set keys faults y.start z =
      if x.link == .healthy && set.keysAccepted then
        pressKeys p x.keys keys (match x.link, x.afterGood with
          | .seeking, .healthy => (KeysTaken s y p set keys faults).request (linkEntry true p 0 y.start 0 0)
          | .lost, .healthy => setSystemPoint (656 + p) false
              ((KeysTaken s y p set keys faults).request (linkEntry true p 2 y.start x.lostAt 0))
          | _, _ => KeysTaken s y p set keys faults)
      else match x.link, x.afterGood with
        | .seeking, .healthy => (KeysTaken s y p set keys faults).request (linkEntry true p 0 y.start 0 0)
        | .lost, .healthy => setSystemPoint (656 + p) false
            ((KeysTaken s y p set keys faults).request (linkEntry true p 2 y.start x.lostAt 0))
        | _, _ => KeysTaken s y p set keys faults := by
    rw [← record]
    rfl
  rw [whole, afterGood_eq]
  refine ⟨fun seeking rises => ?_, fun lost rises => ?_, fun stays none => ?_, fun healthy accepted => ?_⟩
  · rw [rises, show x.link = _ from seeking]
    rfl
  · rw [rises, show x.link = _ from lost]
    rfl
  · have unread : (x.link == .healthy && set.keysAccepted) = false := by
      rcases none with other | refused
      · rw [beq_false_of_ne other, Bool.false_and]
      · rw [refused, Bool.and_false]
    rw [unread, stays, if_neg (by decide), if_neg (by decide)]
    cases x.link <;> rfl
  · rw [show x.link = _ from healthy, accepted]
    cases x.rises <;> rfl

/-! ## The end of a panel cycle -/

/-- Of the panel loop only the record of panel p, of the points only its own lost point. -/
structure AtPanel (p : Nat) (s u : State) : Prop where
  clock : u.clock = s.clock
  settings : u.settings = s.settings
  panel : u.panel = { s.panel with panels := u.panel.panels }
  field : u.field = s.field
  term : u.term = s.term
  sw : u.sw = s.sw
  others : ∀ q, q ≠ p → u.pan q = s.pan q
  points : ∀ n, n ≠ 656 + p → u.pt n = s.pt n

theorem AtPanel.refl (p : Nat) (s : State) : AtPanel p s s := ⟨rfl, rfl, rfl, rfl, rfl, rfl, fun _ _ => rfl, fun _ _ => rfl⟩

theorem AtPanel.trans {p : Nat} {s t u : State} (a : AtPanel p s t) (b : AtPanel p t u) : AtPanel p s u :=
  ⟨b.clock.trans a.clock, b.settings.trans a.settings, b.panel.trans (by rw [a.panel]), b.field.trans a.field, b.term.trans a.term,
    b.sw.trans a.sw, fun q apart => (b.others q apart).trans (a.others q apart), fun n apart => (b.points n apart).trans (a.points n apart)⟩

theorem setPan_at (p : Nat) (x : Panel) (s : State) : AtPanel p s (s.setPan p x) :=
  ⟨rfl, rfl, rfl, rfl, rfl, rfl, fun q apart => (pan_setPan s p q x).trans (if_neg fun same => apart same.1.symm), fun _ _ => rfl⟩

theorem losePanel_eq (p : Nat) (z : State) : losePanel p z = setSystemPoint (656 + p) true { z with
    panel := { z.panel with
      panels := put z.panel.panels p { z.pan p with link := .lost, lampTest := false, lostAt := z.clock.hall } }
    jr := z.jr.request z.clock.hall (linkEntry true p 1 z.clock.hall (z.pan p).lastGood 3) } := rfl

theorem losePanel_panel (p : Nat) (z : State) : (losePanel p z).panel = { z.panel with
    panels := put z.panel.panels p { z.pan p with link := .lost, lampTest := false, lostAt := z.clock.hall } } := by
  rw [losePanel_eq, setSystemPoint_frame]

theorem losePanel_at (p : Nat) (z : State) : AtPanel p z (losePanel p z) := by
  have step := losePanel_block p z
  refine ⟨step.clock, step.settings, by rw [losePanel_panel], by rw [losePanel_eq, setSystemPoint_frame],
    by rw [losePanel_eq, setSystemPoint_frame], by rw [losePanel_eq, setSystemPoint_frame], fun q apart => ?_,
    fun n apart => setSystemPoint_pt_other _ _ _ apart⟩
  rw [State.pan, losePanel_panel]
  exact look_put_other _ _ (Ne.symm apart)

/-- A failed cycle of a panel falls at its third in a row (R78). -/
theorem failedPanelCycle_eq (p : Nat) (z : State) : failedPanelCycle p z =
    if decide ((z.pan p).link = .healthy ∧ 3 ≤ min ((z.pan p).failedCount + 1) 255) = true then
      losePanel p (z.setPan p { z.pan p with goodCount := 0, failedCount := min ((z.pan p).failedCount + 1) 255 })
    else z.setPan p { z.pan p with goodCount := 0, failedCount := min ((z.pan p).failedCount + 1) 255 } := by
  simp only [failedPanelCycle, saturate_eq_min, Bool.decide_and]
  rfl

theorem failedPanelCycle_at (p : Nat) (z : State) : AtPanel p z (failedPanelCycle p z) :=
  ite_rel ((setPan_at ..).trans (losePanel_at ..)) (setPan_at ..)

theorem endPanelCycleOf_at (y : PanelCycle) (s : State) (p : Nat) : AtPanel p s (endPanelCycleOf y s p) :=
  ite_rel (AtPanel.refl p s) (failedPanelCycle_at p s)

/-- A panel takes a failed cycle unless it is no longer served or its reply was taken (R78). -/
theorem endPanelCycleOf_of_out {y : PanelCycle} {s : State} {p : Nat} (out : y.serves s p = none ∨ p ∈ y.taken) : endPanelCycleOf y s p = s := by
  refine if_pos ?_
  rcases out with unserved | taken
  · rw [unserved]
    rfl
  · simp [taken]

theorem endPanelCycleOf_of_missing {y : PanelCycle} {s : State} {p : Nat} (served : y.serves s p ≠ none) (missing : p ∉ y.taken) :
    endPanelCycleOf y s p = failedPanelCycle p s := by
  refine if_neg ?_
  simp [served, missing]

theorem foldl_endPanelCycleOf_frame (y : PanelCycle) (ps : List Nat) (s : State) :
    (ps.foldl (endPanelCycleOf y) s).panel = { s.panel with panels := (ps.foldl (endPanelCycleOf y) s).panel.panels } ∧
    (ps.foldl (endPanelCycleOf y) s).field = s.field ∧ (ps.foldl (endPanelCycleOf y) s).term = s.term ∧
    (ps.foldl (endPanelCycleOf y) s).sw = s.sw ∧
    (∀ q, (q ∉ ps ∨ y.serves s q = none ∨ q ∈ y.taken) → (ps.foldl (endPanelCycleOf y) s).pan q = s.pan q) ∧
    ∀ n, (∀ q ∈ ps, n ≠ 656 + q) → (ps.foldl (endPanelCycleOf y) s).pt n = s.pt n := by
  induction ps generalizing s with
  | nil => exact ⟨rfl, rfl, rfl, rfl, fun _ _ => rfl, fun _ _ => rfl⟩
  | cons p ps ih =>
    have step := endPanelCycleOf_at y s p
    obtain ⟨panel, field, term, sw, others, points⟩ := ih (endPanelCycleOf y s p)
    have serves : ∀ q, y.serves (endPanelCycleOf y s p) q = y.serves s q := fun q => by
      simp only [PanelCycle.serves, State.panSet, step.settings]
    refine ⟨panel.trans (by rw [step.panel]; rfl), field.trans step.field, term.trans step.term, sw.trans step.sw, fun q out => ?_,
      fun n apart => ?_⟩
    · rw [List.foldl_cons, others q (by rw [serves]; exact out.imp_left fun outside behind => outside (List.mem_cons_of_mem p behind))]
      by_cases same : q = p
      · subst same
        rw [endPanelCycleOf_of_out (out.resolve_left (not_not.2 (List.mem_cons_self ..)))]
      · exact step.others q same
    · rw [List.foldl_cons, points n fun q behind => apart q (List.mem_cons_of_mem p behind)]
      exact step.points n (apart p (List.mem_cons_self ..))

/-- Each panel of a schedule without repetition ends its cycle once, from a state that shows it as s does. -/
theorem foldl_endPanelCycleOf_own (y : PanelCycle) {ps : List Nat} (once : ps.Nodup) {p : Nat} (inside : p ∈ ps) (s : State) :
    ∃ z : State, z.settings = s.settings ∧ z.clock = s.clock ∧ z.pan p = s.pan p ∧
      (ps.foldl (endPanelCycleOf y) s).pan p = (endPanelCycleOf y z p).pan p ∧
      (ps.foldl (endPanelCycleOf y) s).pt (656 + p) = (endPanelCycleOf y z p).pt (656 + p) := by
  induction ps generalizing s with
  | nil => cases inside
  | cons q ps ih =>
    obtain ⟨fresh, once⟩ := List.nodup_cons.1 once
    rw [List.foldl_cons]
    rcases List.mem_cons.1 inside with rfl | behind
    · obtain ⟨_, _, _, _, others, points⟩ := foldl_endPanelCycleOf_frame y ps (endPanelCycleOf y s p)
      exact ⟨s, rfl, rfl, rfl, others p (.inl fresh), points _ fun q behind same => fresh (by rwa [Nat.add_left_cancel same])⟩
    · have step := endPanelCycleOf_at y s q
      obtain ⟨z, settings, clock, record, last⟩ := ih once behind (endPanelCycleOf y s q)
      exact ⟨z, settings.trans step.settings, clock.trans step.clock,
        record.trans (step.others p fun same => fresh (same ▸ behind)), last⟩

theorem exec_panelCycleEnd {s : State} {y : PanelCycle} (cycle : s.panel.cycle = some y) (free : y.target = none) (last : 20 ≤ y.slot) :
    exec .panelCycleEnd s = .next (finish (y.schedule.foldl (endPanelCycleOf y) { s with panel := { s.panel with cycle := none } })) := by
  change execPanelCycleEnd s = _
  simp only [execPanelCycleEnd, cycle, free, Option.isNone_none, last, and_self, if_true]

/-- The panel that takes a failed cycle (R78). -/
theorem panelCycleFailed {p : Nat} (near : p < 16) (z : State) : ∃ (failed : Nat) (falls : Bool),
    failed = min ((z.pan p).failedCount + 1) 255 ∧ falls = decide ((z.pan p).link = .healthy ∧ 3 ≤ failed) ∧
    (falls = false → (failedPanelCycle p z).pan p = { z.pan p with goodCount := 0, failedCount := failed }) ∧
    (falls = true →
      (failedPanelCycle p z).pan p = { z.pan p with
        goodCount := 0, failedCount := failed, link := .lost, lampTest := false, lostAt := z.clock.hall } ∧
      (z.settings.adopted = true → ((failedPanelCycle p z).pt (656 + p)).qualified = true)) := by
  have same : ∀ (x : Panel), (z.setPan p x).pan p = x := fun x => (pan_setPan z p p x).trans (if_pos ⟨rfl, near⟩)
  refine ⟨_, _, rfl, rfl, fun stays => ?_, fun falls => ?_⟩
  · rw [failedPanelCycle_eq, stays, if_neg (by decide), same]
  · rw [failedPanelCycle_eq, falls, if_pos rfl]
    refine ⟨?_, fun adopted => setSystemPoint_qualified (656 + p) true _ adopted (by omega)⟩
    rw [State.pan, losePanel_panel, same]
    exact look_put_same _ _ near

theorem panel_near {s : State} {p : Nat} (configured : s.panSet p ≠ none) : p < 16 := by
  by_contra beyond
  exact configured (look_beyond _ _ (Nat.not_lt.1 beyond))

theorem pressed_iff (down up : Bool) : (down && !up) = true ↔ down = true ∧ up = false := by
  rw [Bool.and_eq_true, Bool.not_eq_true']

/-- The presses of a reply, in the words of the statement: the windows offered, and their states (R47, R79). -/
theorem keysPressed (p : Nat) (old keys : Keys) (x : State) {u : State} (after : pressKeys p old keys x = u) :
    u = { x with win := u.win, jr := u.jr } ∧
    (∃ (chosen : List Nat) (v w : State), chosen.Pairwise (· < ·) ∧
      (∀ i, i ∈ chosen ↔ x.shelved i = false ∧ ∃ c, x.winSet i = some c ∧ (c.place.map fun q => q.1) = some p) ∧
      v = (if keys.ack = true ∧ old.ack = false then chosen.foldl (fun z i => offer i .ack (.panel p) z) x else x) ∧
      w = (if keys.reset = true ∧ old.reset = false then chosen.foldl (fun z i => offer i .reset (.panel p) z) v else v) ∧
      u = if keys.silence = true ∧ old.silence = false then
        { w with win := { w.win with silence := true, chimeUntil := none } } else w) ∧
    (keys.silence = true → old.silence = false → u.win.silence = true ∧ u.win.chimeUntil = none) ∧
    (∀ w c z, x.winSet w = some c → (c.place.map fun q => q.1) = some p → x.shelved w = false →
      (keys.ack = true ∧ old.ack = false → z = (c.sequence.next (x.window w).state .ack).getD (x.window w).state) →
      (¬ (keys.ack = true ∧ old.ack = false) → z = (x.window w).state) →
      (u.window w).state = if keys.reset = true ∧ old.reset = false then (c.sequence.next z .reset).getD z else z) ∧
    ∀ w, (∀ c, x.winSet w = some c → (c.place.map fun q => q.1) = some p → x.shelved w = true) →
      (u.window w).state = (x.window w).state := by
  subst after
  let v := pressed (keys.ack && !old.ack) p .ack (x.panelWindows p) x
  let w := pressed (keys.reset && !old.reset) p .reset (x.panelWindows p) v
  have whole : pressKeys p old keys x = if keys.silence && !old.silence then setSilence w else w := pressKeys_eq p old keys x
  have states : ∀ i, ((pressKeys p old keys x).window i).state = (w.window i).state := fun i => by
    rw [whole]
    split <;> rfl
  refine ⟨(pressKeys_winStep p old keys x).frame, ⟨x.panelWindows p, v, w, panelWindows_rising x p, mem_panelWindows x p, ?_, ?_, ?_⟩,
    fun down up => ?_, fun i c z set place free moved still => ?_, fun i out => ?_⟩
  · simp only [v, pressed, pressed_iff]
  · simp only [w, pressed, pressed_iff]
  · rw [whole]
    simp only [pressed_iff]
    rfl
  · rw [whole, (pressed_iff ..).2 ⟨down, up⟩]
    exact ⟨rfl, rfl⟩
  · have inside : i ∈ x.panelWindows p := (mem_panelWindows x p i).2 ⟨free, c, set, place⟩
    have first : (v.window i).state = z := by
      refine (pressed_state_of_mem _ p x (.inl rfl) inside set).trans ?_
      simp only [pressed_iff]
      split
      · next down => exact (moved down).symm
      · next not => exact (still not).symm
    have set : v.winSet i = some c := (pressed_winSet ..).trans set
    refine (states i).trans ((pressed_state_of_mem _ p v (.inr rfl) inside set).trans ?_)
    simp only [pressed_iff, first]
  · have outside : i ∉ x.panelWindows p := fun inside => by
      obtain ⟨free, c, set, place⟩ := (mem_panelWindows x p i).1 inside
      exact absurd (free.symm.trans (out c set place)) (by decide)
    exact (states i).trans ((pressed_state_of_not_mem _ p _ v outside).trans (pressed_state_of_not_mem _ p _ x outside))

/-- A KEY REPLY moves the panel's record, its lost point, and what the windows do with its presses. -/
theorem takeKeyReply_frame (s : State) (y : PanelCycle) (p : Nat) (set : PanelSettings) (keys : Keys) (faults : Nat) {u : State}
    (taken : takeKeyReply p set keys faults y.start
      (s.setPanelCycle { y with target := none, slot := y.slot + 1, taken := p :: y.taken }) = u) :
    u.panel = (KeysTaken s y p set keys faults).panel ∧ u.field = s.field ∧ u.term = s.term ∧ u.sw = s.sw ∧
      ∀ n, n ≠ 656 + p → u.pt n = s.pt n := by
  obtain ⟨found, regained, plain, keyed⟩ := takeKeyReply_cases s y p set keys faults taken
  by_cases rises : (s.pan p).rises = true
  · rcases (of_decide_eq_true rises).1 with seeking | lost
    · rw [found seeking rises]
      exact ⟨rfl, rfl, rfl, rfl, fun _ _ => rfl⟩
    · rw [regained lost rises]
      refine ⟨by rw [setSystemPoint_frame], by rw [setSystemPoint_frame], by rw [setSystemPoint_frame], by rw [setSystemPoint_frame],
        fun n apart => setSystemPoint_pt_other _ _ _ apart⟩
  · by_cases reads : (s.pan p).link = .healthy ∧ set.keysAccepted = true
    · rw [keyed reads.1 reads.2]
      have step := pressKeys_winStep p (s.pan p).keys keys (KeysTaken s y p set keys faults)
      exact ⟨step.panel, step.field, step.term, step.sw, fun n _ => winStep_pt step n⟩
    · rw [plain (Bool.eq_false_iff.2 rises) ((not_and_or.1 reads).imp_right Bool.eq_false_iff.2)]
      exact ⟨rfl, rfl, rfl, rfl, fun _ _ => rfl⟩

/-- Settles O52, by the judgement of the reply and the state of its panel. -/
theorem keyRepliesJudged : Obligations.KeyRepliesJudged := by
  refine ⟨fun s y p line cycle target out => exec_panelSlotEnd_of_unserved cycle target out line,
    fun s y p set cycle target configured served => ⟨(frameFailed cycle target configured served).1 rfl,
      (frameFailed cycle target configured served).2 rfl, fun bytes other =>
      (frameFailed cycle target configured served).2 (judgePanel_other other), fun b faults few => ?_⟩, fun s y cycle free last once => ?_⟩
  · have ends := exec_panelSlotEnd cycle target configured served (.frame (keyReply p b faults))
    rw [judgePanel_keyReply p b faults few] at ends
    dsimp only at ends
    have aside := ((setPanelCycle_block s _).trans (takeKeyReply_block p set (Keys.ofByte b) faults.toNat y.start
      (s.setPanelCycle { y with target := none, slot := y.slot + 1, taken := p :: y.taken }))).aside
    generalize taken : takeKeyReply p set (Keys.ofByte b) faults.toNat y.start
      (s.setPanelCycle { y with target := none, slot := y.slot + 1, taken := p :: y.taken }) = u at ends aside
    obtain ⟨found, regained, plain, keyed⟩ := takeKeyReply_cases s y p set (Keys.ofByte b) faults.toNat taken
    obtain ⟨panel, field, term, sw, points⟩ := takeKeyReply_frame s y p set (Keys.ofByte b) faults.toNat taken
    have near := panel_near (s := s) (p := p) (by rw [configured]; nofun)
    refine ⟨_, (s.pan p).rises, Keys.ofByte b, KeysTaken s y p set (Keys.ofByte b) faults.toNat, u, ends, aside, rfl, rfl, rfl, rfl,
      panel, field, term, sw, points, found, fun lost rises => ⟨regained lost rises, fun adopted => ?_⟩, plain,
      fun healthy accepted => keysPressed p (s.pan p).keys (Keys.ofByte b) _ (keyed healthy accepted).symm⟩
    rw [regained lost rises]
    exact setSystemPoint_qualified (656 + p) false _ adopted (by omega)
  · let x : State := { s with panel := { s.panel with cycle := none } }
    obtain ⟨panel, field, term, sw, others, points⟩ := foldl_endPanelCycleOf_frame y y.schedule x
    refine ⟨_, exec_panelCycleEnd cycle free last, ((panel_block s _).trans (foldl_block _ (endPanelCycleOf_block y) _ _)).aside, rfl, panel,
      field, term, sw, fun n small => points n fun q _ => by omega, fun p _ out => others p ?_, fun p called configured served missing => ?_⟩
    · rcases out with outside | bare | withdrawn | taken
      · exact .inl outside
      · exact .inr (.inl (panelServes_none (.inl bare)))
      · exact .inr (.inl (panelServes_none (.inr withdrawn)))
      · exact .inr (.inr taken)
    · obtain ⟨z, settings, clock, record, ends, point⟩ := foldl_endPanelCycleOf_own y once called x
      have serves : y.serves z p ≠ none := by
        rw [panelServes_of_not_mem z served, State.panSet, settings]
        exact configured
      obtain ⟨failed, falls, count, fell, stays, goes⟩ := panelCycleFailed (panel_near configured) z
      rw [endPanelCycleOf_of_missing serves missing] at ends point
      rw [← ends, record] at stays goes
      rw [record] at count fell
      rw [← point, settings, clock] at goes
      refine ⟨failed, falls, count, fell, stays, fun down => ?_⟩
      obtain ⟨record, shown⟩ := goes down
      exact ⟨record, shown, losePanel_eq p⟩

end Sys2Proof.Machine
end

section
/-! What an adoption changes (R9, R16, R36, R59, R72, R81, R97, R121, R144, R175), block by block. -/

namespace Sys2Proof.Machine

/-! ## The order of the blocks -/

theorem changedIn_eq {α : Type} {n : Nat} [Inhabited α] [DecidableEq α] (a b : Vector α n) : changedIn a b = differing a b := rfl

theorem groupMembers_congr (old new : Tables) (g : Nat) : old.members g = new.members g ↔
    ∀ w, (∃ c, look old.windows w = some c ∧ c.group = some g) ↔ ∃ c, look new.windows w = some c ∧ c.group = some g := by
  have mem : ∀ (t : Tables) w, w ∈ t.members g ↔ ∃ c, look t.windows w = some c ∧ c.group = some g := fun t w => by
    simp only [Tables.members, mem_configuredWhere, beq_iff_eq]
  simp only [← mem]
  refine ⟨fun same w => by rw [same], fun same => ?_⟩
  exact List.Perm.eq_of_pairwise (fun a b _ _ below above => absurd below (Nat.not_lt.2 above.le))
    (configuredWhere_rising _ _) (configuredWhere_rising _ _)
    ((List.perm_ext_iff_of_nodup ((configuredWhere_rising _ _).imp Nat.ne_of_lt) ((configuredWhere_rising _ _).imp Nat.ne_of_lt)).2 same)

theorem changedGroups_touched (old new : Tables) : GroupsTouched old new (changedGroups old new) := by
  refine ⟨List.pairwise_lt_range.filter _, fun g => ?_⟩
  rw [changedGroups, List.mem_filter, List.mem_range, Bool.or_eq_true, decide_eq_true_iff, bne_iff_ne, Ne, groupMembers_congr,
    not_forall, or_comm]

theorem swapSwitches_eq (old new : Tables) (s : State) : swapSwitches old new s =
    if differing old.switches new.switches = [] then
      ((List.range 16).filter fun h => decide ((look old.channels h).mode ≠ (look new.channels h).mode)).foldl swapChannel
        ((differing old.switches new.switches).foldl (swapSwitch old) s)
    else runQueue (((List.range 16).filter fun h => decide ((look old.channels h).mode ≠ (look new.channels h).mode)).foldl swapChannel
      ((differing old.switches new.switches).foldl (swapSwitch old) s)) := by
  rw [swapSwitches, ← changedIn_eq]
  simp only [List.isEmpty_iff]
  rfl

/-- The blocks in the order of log entry 41. -/
theorem applyChanges_eq (first : Bool) (old new : Tables) (s : State) : ∃ (a b c d : State) (gs : List Nat), GroupsTouched old new gs ∧
    a = restartChatter ((differing old.points new.points).foldl (swapPoint old new) (if first then wakeSystemPoints s else s)) ∧
    b = gs.foldl (fun z g => clearGroup g z)
      ((differing old.windows new.windows).foldl (swapWindow old) ((List.range 384).foldl swapShelving a)) ∧
    c = (differing old.panels new.panels).foldl (swapPanel old new)
      ((differing old.concentrators new.concentrators).foldl (swapConcentrator old new) b) ∧
    d = ((List.range 16).filter fun h => decide ((look old.channels h).mode ≠ (look new.channels h).mode)).foldl swapChannel
      ((differing old.switches new.switches).foldl (swapSwitch old) (if first then LoopsStarted c else c)) ∧
    applyChanges first old new s = (differing old.points new.points).foldl (handSwapChange s)
      ((differing old.terms new.terms).foldl swapTerm (if differing old.switches new.switches = [] then d else runQueue d)) := by
  refine ⟨_, _, _, _, changedGroups old new, changedGroups_touched old new, rfl, rfl, rfl, rfl, ?_⟩
  simp only [applyChanges, swapGroups, swapWindows, swapSwitches_eq, changedIn_eq]
  rfl

/-! ## Points -/

section
variable (s : State)

theorem wakeSystemPoints_spec : ∃ ps : Vector Point 680, wakeSystemPoints s = { s with pts := { s.pts with points := ps } } ∧
    (∀ n, n < 544 → look ps n = s.pt n) ∧ ∀ n, 544 ≤ n → n < 680 → look ps n = { s.pt n with live := .good } := by
  refine ⟨_, rfl, fun _ small => ?_, fun _ large small => ?_⟩
  · rw [look_mapNumbered _ _ _ (by omega), if_pos small]
    rfl
  · rw [look_mapNumbered _ _ _ small, if_neg (Nat.not_lt.2 large)]
    rfl

theorem restartChatter_spec : ∃ qs : Vector Point 680, restartChatter s = { s with pts := { s.pts with
      points := qs, nextBoundary := some (s.clock.elapsed + 1000 * s.settings.live.general.chatterPeriod) } } ∧
    ∀ n, n < 680 → look qs n = { s.pt n with chatter := 0 } :=
  ⟨_, rfl, fun _ small => look_mapNumbered _ _ _ small⟩

end

theorem quality_suspect_iff (p : Point) :
    (p.quality = .lost ∨ p.quality = .wiring) ∧ p.termHeld = true ↔ (p.forced.isNone && p.live != .good && p.termHeld) = true := by
  unfold Point.quality
  cases p.forced <;> cases p.live <;> simp [LiveQuality.quality]

theorem unconfigured_eq (p : Point) (now : HallTime) : p.unconfigured now = { Point.reset with
    termHeld := decide ((p.quality = .lost ∨ p.quality = .wiring) ∧ p.termHeld = true)
    rawTime := if p.effective = true then now else p.rawTime
    qualifyTime := if p.effective = true then now else p.qualifyTime } := by
  have held : decide ((p.quality = .lost ∨ p.quality = .wiring) ∧ p.termHeld = true) = (p.forced.isNone && p.live != .good && p.termHeld) := by
    rw [Bool.eq_iff_iff, decide_eq_true_iff, quality_suspect_iff]
  rw [Point.unconfigured, held]

section
variable (s : State) (n : Nat)

/-- The sense of a kept point changes (R16). -/
theorem invertPoint_eq (b : PointSettings) {p : Point} (inverted : p = (s.pt n).inverted s.clock.hall) :
    invertPoint n b s = { WithPoint n p s with
      jr := if b.journal = true ∧ (s.pt n).frozen = none ∧ (s.pt n).forced = none then
          s.jr.request s.clock.hall (pointEntry n p.qualified p.quality s.clock.hall s.clock.hall
            { ChangeFlags.plain with standing := p.qualified, settings := true })
        else s.jr } := by
  subst inverted
  have shown : (b.journal && ((s.pt n).inverted s.now).frozen.isNone && ((s.pt n).inverted s.now).forced.isNone) = true ↔
      b.journal = true ∧ (s.pt n).frozen = none ∧ (s.pt n).forced = none := by
    simp only [Bool.and_eq_true, Option.isNone_iff_eq_none, Point.inverted, Option.map_eq_none_iff, and_assoc]
  unfold invertPoint
  by_cases writes : b.journal = true ∧ (s.pt n).frozen = none ∧ (s.pt n).forced = none
  · rw [if_pos writes]
    exact if_pos (shown.2 writes)
  · rw [if_neg writes]
    exact if_neg fun yes => writes (shown.1 yes)

variable {n} in
/-- A settable point whose entry stays configured (R16). -/
theorem pointResensed (near : n < 680) (a b : PointSettings) {x : State}
    (sense : x = if a.activeOpen = b.activeOpen then s else invertPoint n b s) :
    PointResensed n a b s (if (x.pt n).frozen.isSome ∧ b.threshold = 0 then unsuppressPoint n x else x) := by
  have clock : x.clock = s.clock := by
    rw [sense]
    split
    · rfl
    · rw [invertPoint_eq s n b rfl]
  have suppressed : (x.pt n).frozen.isSome = true ↔ (s.pt n).frozen ≠ none := by
    rw [sense, Option.isSome_iff_ne_none]
    split
    · rfl
    · rw [invertPoint_eq s n b rfl]
      have here : State.pt (WithPoint n ((s.pt n).inverted s.clock.hall) s) n = (s.pt n).inverted s.clock.hall := look_put_same _ _ near
      show (State.pt (WithPoint n ((s.pt n).inverted s.clock.hall) s) n).frozen ≠ none ↔ _
      rw [here]
      exact not_congr Option.map_eq_none_iff
  refine ⟨_, x, rfl, fun same => ?_, fun apart => ?_, fun ⟨held, free⟩ => ?_, fun stays => ?_⟩
  · rw [sense, if_pos same]
  · rw [sense, if_neg apart]
    exact invertPoint_eq s n b rfl
  · rw [← clock]
    exact if_pos (And.intro (suppressed.2 held) free)
  · exact if_neg fun both => absurd (And.intro (suppressed.1 both.1) both.2) stays

theorem linkUp_eq : linkUp s n =
    decide (n < 512 ∧ ((s.conc (n / 32)).link = .healthy ∨ (s.conc (n / 32)).link = .suspect)) := by
  rw [linkUp, Bool.decide_and, Bool.decide_or]
  rfl

variable {n} in
theorem pointSwapped (near : n < 544) (old new : Tables) : PointSwapped n (look old.points n) (look new.points n) s (swapPoint old new s n) := by
  unfold swapPoint
  refine ⟨fun gone none => ?_, fun gone some => ?_, fun some gone => ?_, fun a b first second => ?_⟩
  · rw [gone, none]
  · obtain ⟨b, here⟩ := Option.ne_none_iff_exists'.1 some
    rw [gone, here]
    show s.setPt n { Point.reset with fresh := linkUp s n, termHeld := (s.pt n).termHeld } = _
    rw [linkUp_eq]
    rfl
  · obtain ⟨a, here⟩ := Option.ne_none_iff_exists'.1 some
    rw [gone, here]
    show s.setPt n ((s.pt n).unconfigured s.now) = _
    rw [unconfigured_eq]
    rfl
  · rw [first, second]
    exact pointResensed s (by omega) a b rfl

theorem pointHandedOn (before : State) : PointHandedOn before n s (handSwapChange before s n) :=
  ⟨_, Iff.rfl, fun changed => if_pos changed, fun same faces => (if_neg same).trans (if_pos faces),
    fun same faces => (if_neg same).trans (if_neg (not_not.2 faces))⟩

end

end Sys2Proof.Machine
end

section
/-! What an adoption changes at windows, loops, switches and terms (R59, R72, R81, R36, R97, R121, R144). -/

namespace Sys2Proof.Machine

/-! ## Windows -/

section
variable (s : State) {w : Nat}

theorem shelvingSwapped : ShelvingSwapped w s (swapShelving s w) := by
  obtain ⟨silence, sounds, quiet, ends⟩ := endShelving_eq w .ended s
  refine ⟨_, silence, Iff.rfl, sounds, quiet, fun ⟨listed, out⟩ => ?_, fun keeps => ?_⟩
  · have goes : swapShelving s w = endShelving w .ended s := by
      unfold swapShelving
      rw [(shelved_iff s w).2 listed]
      cases set : s.winSet w with
      | none => rfl
      | some c =>
        simp only [out c set]
        rfl
    rw [goes, ends]
  · unfold swapShelving
    refine if_neg fun both => keeps ?_
    obtain ⟨shelved, out⟩ := Bool.and_eq_true_iff.1 both
    refine ⟨(shelved_iff s w).1 shelved, fun c set => ?_⟩
    simpa only [set, Bool.not_eq_true'] using out

theorem window_setWindow_same (near : w < 384) (x : Window) : (s.setWindow w x).window w = x :=
  (window_setWindow s w w x).trans (if_pos ⟨rfl, near⟩)

/-- A window put to QUIET, before its group hears of it (R59). -/
abbrev WindowQuieted (w : Nat) (s : State) : State :=
  WithWindow w { s.window w with state := .quiet, mark := .none, input := false, doubt := false } s

/-- The same, its return reported to the group it had (R69, R72). -/
def reportQuiet (w : Nat) (old : Option WindowSettings) (x : State) : State :=
  match old.bind fun c => c.group with
  | some g => judgeQuiet g w x
  | none => x

theorem reportQuiet_winStep (old : Option WindowSettings) (x : State) : WinStep x (reportQuiet w old x) := by
  unfold reportQuiet
  split
  · exact judgeQuiet_winStep ..
  · exact WinStep.refl x

variable {s} in
theorem swapWindow_eq (old : Tables) {new : Tables} (live : s.settings.live = new) {y : State}
    (reported : y = reportQuiet w (look old.windows w) (WindowQuieted w s)) :
    swapWindow old s w = match look new.windows w with
      | none => y
      | some c =>
        if y.inputOf c = true then offer w .active .settings
          ((y.setWindow w { y.window w with input := y.inputOf c, doubt := y.doubtOf c }).setWindow w
            { (y.setWindow w { y.window w with input := y.inputOf c, doubt := y.doubtOf c }).window w with
              alarm := y.clock.hall, standing := true })
        else y.setWindow w { y.window w with input := y.inputOf c, doubt := y.doubtOf c } := by
  have set : y.winSet w = look new.windows w := by
    rw [State.winSet, reported, (reportQuiet_winStep ..).settings]
    exact congrArg (fun t : Tables => look t.windows w) live
  rw [← set, reported]
  rfl

theorem windowSwapped (near : w < 384) (old : Tables) {new : Tables} (live : s.settings.live = new) :
    WindowSwapped w (look old.windows w) (look new.windows w) s (swapWindow old s w) := by
  obtain ⟨y, reported⟩ : ∃ y, y = reportQuiet w (look old.windows w) (WindowQuieted w s) := ⟨_, rfl⟩
  have swapped := swapWindow_eq old live reported
  have clock : y.clock = s.clock := by rw [reported, (reportQuiet_winStep ..).clock]
  refine ⟨WindowQuieted w s, y, rfl, fun g c first group => ?_, fun out => ?_, fun gone => ?_, fun c here => ?_⟩
  · rw [reported, reportQuiet, first, Option.bind_some, group]
  · rw [reported, reportQuiet]
    split
    · next g grouped =>
      obtain ⟨c, first, group⟩ := Option.bind_eq_some_iff.1 grouped
      exact absurd group (out g c first)
    · rfl
  · rw [swapped, gone]
  · rw [here] at swapped
    refine ⟨y.inputOf c, y.doubtOf c, inputOf_iff y c, doubtOf_iff y c, fun off => ?_, fun on => ?_⟩
    · rw [swapped]
      exact if_neg (by rw [off]; decide)
    · rw [swapped]
      refine (if_pos on).trans ?_
      rw [window_setWindow_same y near, clock]
      simp only [State.setWindow, put_put]

end

/-! ## Groups and loops -/

theorem groupCleared (g : Nat) (s : State) : GroupCleared g s (clearGroup g s) := by
  obtain ⟨frame, _, inside, outside⟩ := clearGroup_spec g s
  exact ⟨frame, inside, outside⟩

section
variable (s : State) (c : Nat) (old new : Tables)

theorem concentratorSwapped :
    ConcentratorSwapped c (look old.concentrators c) (look new.concentrators c) s (swapConcentrator old new s c) := by
  unfold swapConcentrator
  cases look old.concentrators c with
  | none =>
    cases look new.concentrators c with
    | none => exact ⟨fun _ some => absurd rfl some, fun some => absurd rfl some, fun _ => rfl⟩
    | some b => exact ⟨fun _ _ => rfl, fun some => absurd rfl some, fun same => absurd (same.1 rfl) (by nofun)⟩
  | some a =>
    cases look new.concentrators c with
    | none => exact ⟨nofun, fun _ _ => rfl, fun same => absurd (same.2 rfl) (by nofun)⟩
    | some b => exact ⟨nofun, nofun, fun _ => rfl⟩

theorem panelSwapped : PanelSwapped c (look old.panels c) (look new.panels c) s (swapPanel old new s c) := by
  unfold swapPanel
  cases look old.panels c with
  | none =>
    cases look new.panels c with
    | none => exact ⟨fun _ some => absurd rfl some, fun some => absurd rfl some, nofun, fun _ _ => rfl⟩
    | some b => exact ⟨fun _ _ => rfl, fun some => absurd rfl some, nofun, nofun⟩
  | some a =>
    cases look new.panels c with
    | none => exact ⟨nofun, fun _ _ => rfl, nofun, nofun⟩
    | some b =>
      refine ⟨nofun, nofun, fun a' b' _ same => ?_, nofun⟩
      cases same
      exact ⟨fun accepted => if_pos accepted, fun refused => if_neg (Bool.eq_false_iff.1 refused)⟩

end

/-! ## Switches -/

theorem changed_record (old : Option SwitchSettings) (c : SwitchSettings) (x : Switch) : SwitchRecord old c x (x.changed old c) := by
  refine ⟨c.kind.first, fun lockout => by rw [lockout]; rfl, fun other => ?_, fun gone => by rw [gone]; rfl, fun a here => ?_⟩
  · cases kind : c.kind with
    | lockout => exact absurd kind other
    | breaker | hold => rfl
  · rw [here]
    exact ⟨fun held => if_pos held, fun other => if_neg other⟩

theorem supervised_eq (x : Switch) (c : SwitchSettings) (elapsed : Nat) :
    (c.supervision = none → x.supervised c elapsed = { x with supervision := .off, postponed := 0, nextTick := 0 }) ∧
    ∀ h interval, c.supervision = some (h, interval) →
      x.supervised c elapsed = { x with supervision := .untested, postponed := 0, nextTick := elapsed + 1000 * interval } := by
  unfold Switch.supervised
  exact ⟨fun off => by rw [off], fun h interval on => by rw [on]⟩

section
variable (s : State) {i : Nat} (near : i < 48)

/-- The channels when a changed switch has lost its test (R121, R140). -/
abbrev channelsFreed (s : State) (i : Nat) : Vector Channel 16 :=
  mapNumbered (fun _ ch => if ch.inFlight = some i then { ch with inFlight := none } else ch) s.sup.channels

/-- A changed switch with its new record, its entry out of the queue, its test lost and its system points following. -/
abbrev SwitchEntered (i : Nat) (x : Switch) (s : State) : State := syncSwitchPoints i { s with
  sw := { s.sw with switches := put s.sw.switches i x, queue := s.sw.queue.filter fun e => e.switch != i }
  sup := { s.sup with channels := channelsFreed s i } }

include near in
theorem swapSwitch_eq (old : Tables) : swapSwitch old s i = match s.swSet i with
    | none => SwitchEntered i Switch.reset s
    | some c => settleSwitch i c (SwitchEntered i (({ s.swi i with testStart := none }.changed (look old.switches i) c).supervised c
        s.clock.elapsed) s) := by
  have mine : (dropTest i s).swi i = { s.swi i with testStart := none } := swi_setSwi_same near s _
  have entered : ∀ x, syncSwitchPoints i ((dropTest i s).setSwi i x) = SwitchEntered i x s := fun x => by
    simp only [dropTest, dropEntry, State.setSwi, put_put]
  have set : (dropTest i s).swSet i = s.swSet i := rfl
  rw [swapSwitch]
  simp only [entered, mine, set]
  rfl

theorem settleSwitch_of_other {c : SwitchSettings} {v : State}
    (out : (v.swi i).state ≠ .settling ∨ (∃ n, c.feedback = some n ∧ (v.pt n).quality = .lost) ∨ c.feedback = none) :
    settleSwitch i c v = v := by
  refine if_neg fun both => ?_
  obtain ⟨settling, known⟩ := Bool.and_eq_true_iff.1 both
  rcases out with other | ⟨n, feedback, lost⟩ | bare
  · exact other (beq_iff_eq.1 settling)
  · exact bne_iff_ne.1 known (by rw [State.feedbackQuality, feedback]; exact lost)
  · exact bne_iff_ne.1 known (by rw [State.feedbackQuality, bare])

include near in
theorem switchSwapped (old : Tables) {new : Tables} (live : s.settings.live = new) :
    SwitchSwapped i (look old.switches i) (look new.switches i) s (swapSwitch old s i) := by
  have set : s.swSet i = look new.switches i := congrArg (fun t : Tables => look t.switches i) live
  have swapped := swapSwitch_eq s near old
  rw [set] at swapped
  have freed : ∀ h, h < 16 → ((s.chan h).inFlight = some i → look (channelsFreed s i) h = { s.chan h with inFlight := none }) ∧
      ((s.chan h).inFlight ≠ some i → look (channelsFreed s i) h = s.chan h) := fun h small => by
    rw [look_mapNumbered _ _ _ small]
    exact ⟨fun mine => if_pos mine, fun other => if_neg other⟩
  cases here : look new.switches i with
  | none =>
    rw [here] at swapped
    exact ⟨_, Switch.reset, _, freed, rfl, fun _ => ⟨rfl, swapped⟩, nofun⟩
  | some c =>
    rw [here] at swapped
    let y := { s.swi i with testStart := none }.changed (look old.switches i) c
    obtain ⟨off, on⟩ := supervised_eq y c s.clock.elapsed
    refine ⟨_, y.supervised c s.clock.elapsed, SwitchEntered i (y.supervised c s.clock.elapsed) s, freed, rfl, nofun, fun c' same => ?_⟩
    cases same
    refine ⟨y, changed_record _ c _, off, on, fun ⟨settling, known⟩ watched => ?_, fun out => ?_⟩
    · obtain ⟨n, feedback⟩ := Option.ne_none_iff_exists'.1 watched
      obtain ⟨_, operated, rest⟩ := settleSwitch_of_settling settling feedback
      rw [swapped]
      exact ⟨operated (known n feedback), rest (known n feedback)⟩
    · rw [swapped]
      exact settleSwitch_of_other out

end

/-! ## Terms -/

theorem termSwapped {t : Nat} (near : t < 128) (s : State) : TermSwapped t s (swapTerm s t) := by
  unfold swapTerm
  refine ⟨fun bare => by rw [bare]; rfl, fun c set => ?_⟩
  rw [set]
  exact lookWhileHeld_looks near c _

/-- Settles O42, block by block. -/
theorem swapChangesTakeEffect : Obligations.SwapChangesTakeEffect := by
  refine ⟨applyChanges_eq, fun s => ?_, fun old new s live => ⟨fun n near => pointSwapped s near old new,
    fun before n => pointHandedOn s n before, fun w near => ⟨shelvingSwapped s, windowSwapped s near old live⟩,
    fun g _ => groupCleared g s, fun c _ => ⟨concentratorSwapped s c old new, panelSwapped s c old new, rfl⟩,
    fun i near => switchSwapped s near old live, fun t near => termSwapped near s⟩⟩
  obtain ⟨ps, woken, settable, system⟩ := wakeSystemPoints_spec s
  obtain ⟨qs, restarted, counts⟩ := restartChatter_spec s
  exact ⟨ps, qs, woken, settable, system, restarted, counts⟩

end Sys2Proof.Machine
end

section
/-! Validation of staged tables (R172): lists of faults, and what the entries of each table are judged for. -/

namespace Sys2Proof.Machine

/-! ## Lists of faults -/

theorem firstFails_nil : FirstFails [] (firstFault []) := rfl

/-- A fault in front of a list, as a statement and as a test. -/
theorem firstFails_cons {P : Prop} {b : Bool} {x : Reason} {l : List (Prop × Reason)} {bs : List (Bool × Reason)} (same : b = true ↔ P)
    (rest : FirstFails l (firstFault bs)) : FirstFails ((P, x) :: l) (firstFault ((b, x) :: bs)) := by
  cases b with
  | true => exact ⟨fun _ => rfl, fun no => absurd (same.1 rfl) no⟩
  | false => exact ⟨fun yes => absurd (same.2 yes) (by decide), fun _ => rest⟩

theorem checkConfigured_fails {m : List Host.Cell} {place : Nat} {l : List (Prop × Reason)} {bs : List (Bool × Reason)}
    (fails : FirstFails l (firstFault bs)) : ConfiguredFails m place l (checkConfigured m place bs) := by
  unfold checkConfigured
  refine ⟨fun zero => by rw [zero]; rfl, fun one => by rw [one]; exact fails, fun other => ?_⟩
  split
  · next zero => omega
  · next one => omega
  · rfl

/-- An entry that is read only where its configured byte is 1: elsewhere nothing of it is judged. -/
theorem configured_fails {α : Type} {m : List Host.Cell} {place : Nat} {x : α} {entry : Option α} (staged : entry = whenConfigured m place x)
    {r : Option Reason} {faults : α → List (Prop × Reason)} (unread : entry = none → r = checkConfigured m place [])
    (read : ∀ c, entry = some c → FirstFails (faults c) r) :
    ∃ l, ConfiguredFails m place l r ∧ ∀ c, entry = some c → l = faults c := by
  cases entry with
  | none =>
    refine ⟨[], ?_, nofun⟩
    rw [unread rfl]
    exact checkConfigured_fails firstFails_nil
  | some c =>
    have one : stagedByte m place = 1 := by
      by_contra other
      rw [whenConfigured, if_neg other] at staged
      cases staged
    exact ⟨faults c, ⟨fun zero => by omega, fun _ => read c rfl, fun large => by omega⟩, fun d same => by cases same; rfl⟩

/-! ## Tests of fields -/

theorem outside_iff (lo hi x : Nat) : outside lo hi x = true ↔ x < lo ∨ hi < x := decide_eq_true_iff

theorem outside_zero_iff (hi x : Nat) : outside 0 hi x = true ↔ hi < x := by
  rw [outside_iff]
  omega

theorem repeated_iff (l : List Nat) : repeated l = true ↔ ¬ l.Nodup := by
  rw [repeated, List.any_eq_true, List.nodup_iff_count_le_one]
  simp only [decide_eq_true_iff, not_forall, Nat.not_le]
  exact ⟨fun ⟨a, _, twice⟩ => ⟨a, twice⟩, fun ⟨a, twice⟩ => ⟨a, List.count_pos_iff.1 (by omega), twice⟩⟩

theorem loopAllowance_iff (g : GeneralSettings) (n : Nat) : loopAllowance g = some n ↔ LoopAllows g n := by
  unfold loopAllowance
  simp only [LoopAllows]
  split <;> simp only [Option.some.injEq, reduceCtorEq]
  case h_5 => tauto
  all_goals omega

theorem configuredWhere_isEmpty_iff {α : Type} {n : Nat} (v : Vector (Option α) n) (p : α → Bool) :
    (!(configuredWhere v p).isEmpty) = true ↔ ∃ i c, look v i = some c ∧ p c = true := by
  rw [not_isEmpty_iff]
  simp only [mem_configuredWhere]

/-! ## The general table, the concentrators, the points and the channels -/

theorem checkGeneral_fails (scope : Scope) (g : GeneralSettings) : FirstFails
    [ (scope = .full ∧ ∀ n, ¬ LoopAllows g n, .badLoop),
      (g.chatterPeriod < 1 ∨ 60 < g.chatterPeriod, .badRange),
      (g.chimeTime < 500 ∨ 5000 < g.chimeTime, .badRange),
      (g.highWater < 1 ∨ 1023 < g.highWater, .badRange),
      (4 < g.levelJournal ∨ 4 < g.levelJournalHigh ∨ 4 < g.levelOrder ∨ 4 < g.levelCondition, .badRange) ]
    (checkGeneral scope g) := by
  refine firstFails_cons ?_ (firstFails_cons (outside_iff ..) (firstFails_cons (outside_iff ..) (firstFails_cons (outside_iff ..)
    (firstFails_cons ?_ firstFails_nil))))
  · rw [Bool.and_eq_true, beq_iff_eq, Option.isNone_iff_eq_none, Option.eq_none_iff_forall_not_mem]
    simp only [Option.mem_def, loopAllowance_iff]
  · simp only [Bool.or_eq_true, outside_zero_iff, or_assoc]

/-- The loop carries no more than 16 concentrators at any setting, and there are no more (R21). -/
theorem beyondAllowance_iff (t : Tables) (e : Nat) :
    (loopAllowance t.general).getD 16 < (t.callOrder.filter fun c => decide (c ≤ e)).length ↔
      ∃ n, LoopAllows t.general n ∧
        n < ((List.range 16).filter fun c => (look t.concentrators c).isSome && decide (c ≤ e)).length := by
  have same : (t.callOrder.filter fun c => decide (c ≤ e)) =
      (List.range 16).filter fun c => (look t.concentrators c).isSome && decide (c ≤ e) := by
    rw [callOrder_eq, List.filter_filter]
    simp only [Bool.and_comm]
  have few : ((List.range 16).filter fun c => (look t.concentrators c).isSome && decide (c ≤ e)).length ≤ 16 :=
    (List.length_filter_le _ _).trans_eq List.length_range
  rw [same]
  simp only [← loopAllowance_iff]
  cases loopAllowance t.general with
  | none => exact ⟨fun many => absurd few (Nat.not_le.2 many), fun ⟨n, no, _⟩ => by cases no⟩
  | some n => exact ⟨fun many => ⟨n, rfl, many⟩, fun ⟨k, same, many⟩ => by cases same; exact many⟩

theorem checkConcentrator_fails (m : List Host.Cell) (t : Tables) {e a : Nat} (place : a = concentratorPlace e) : ConfiguredFails m a
    [ (stagedByte m (a + 1) ≠ 0 ∧ (stagedByte m (a + 1) < 2 ∨ 32 < stagedByte m (a + 1)), .badRange),
      (64 < stagedByte m (a + 2), .badRange), (999 < stagedHalf m (a + 4), .badRange),
      (∃ n, LoopAllows t.general n ∧
        n < ((List.range 16).filter fun c => (look t.concentrators c).isSome && decide (c ≤ e)).length, .badLoop) ]
    (checkConcentrator m t e) := by
  subst place
  refine checkConfigured_fails (firstFails_cons ?_ (firstFails_cons (outside_zero_iff ..) (firstFails_cons (outside_zero_iff ..)
    (firstFails_cons (decide_eq_true_iff.trans (beyondAllowance_iff t e)) firstFails_nil))))
  rw [Bool.and_eq_true, bne_iff_ne, outside_iff]

theorem liveNames_iff (live : Tables) (e : Nat) : liveNames live e = true ↔
    (∃ i c, look live.terms i = some c ∧ e ∈ c.points) ∨ ∃ i c, look live.switches i = some c ∧ c.feedback = some e := by
  simp only [liveNames, Bool.or_eq_true, configuredWhere_isEmpty_iff, List.contains_eq_mem, decide_eq_true_iff, beq_iff_eq]

/-- What the configured byte and the fields of a point's entry are judged for, before the live tables are read. -/
def pointFault (m : List Host.Cell) (t : Tables) (e : Nat) : Option Reason :=
  checkConfigured m (pointPlace e)
    [ (decide (512 ≤ e) && (look t.channels ((e - 512) / 2)).mode != .continuous, .channelMode),
      (stagedByte m (pointPlace e + 6) == 1 || stagedByte m (pointPlace e + 6) == 255 ||
        (stagedByte m (pointPlace e + 6) != 0 && decide (stagedByte m (pointPlace e + 6) ≤ stagedByte m (pointPlace e + 7))), .badRange),
      (outside 0 253 (stagedByte m (pointPlace e + 7)), .badRange),
      (outside 0 1 (stagedByte m (pointPlace e + 1)) || outside 0 1 (stagedByte m (pointPlace e + 2)), .badRange),
      (decide (e < 512) && (look t.concentrators (e / 32)).isNone, .badReference) ]

theorem checkPoint_eq (m : List Host.Cell) (scope : Scope) (live t : Tables) (e : Nat) : checkPoint m scope live t e =
    (pointFault m t e).or
      (if scope = .annunciation ∧ (look t.points e).isNone ∧ liveNames live e then some .badReference else none) := by
  change (match pointFault m t e with | some r => some r | none => _) = _
  cases pointFault m t e <;> rfl

theorem pointFault_fails (m : List Host.Cell) (t : Tables) {e a : Nat} (place : a = pointPlace e) : ConfiguredFails m a
    [ (512 ≤ e ∧ (look t.channels ((e - 512) / 2)).mode ≠ .continuous, .channelMode),
      (stagedByte m (a + 6) = 1 ∨ stagedByte m (a + 6) = 255 ∨
        (stagedByte m (a + 6) ≠ 0 ∧ stagedByte m (a + 6) ≤ stagedByte m (a + 7)), .badRange),
      (253 < stagedByte m (a + 7), .badRange), (1 < stagedByte m (a + 1) ∨ 1 < stagedByte m (a + 2), .badRange),
      (e < 512 ∧ look t.concentrators (e / 32) = none, .badReference) ] (pointFault m t e) := by
  subst place
  refine checkConfigured_fails (firstFails_cons ?_ (firstFails_cons ?_ (firstFails_cons (outside_zero_iff ..) (firstFails_cons ?_
    (firstFails_cons ?_ firstFails_nil)))))
  · rw [Bool.and_eq_true, decide_eq_true_iff, bne_iff_ne]
  · simp only [Bool.or_eq_true, Bool.and_eq_true, beq_iff_eq, bne_iff_ne, decide_eq_true_iff, or_assoc]
  · simp only [Bool.or_eq_true, outside_zero_iff]
  · rw [Bool.and_eq_true, decide_eq_true_iff, Option.isNone_iff_eq_none]

/-- Only an ANNUNCIATION adoption judges a point by the live terms and switches, and only where its own entry is without fault. -/
theorem checkPoint_fails (m : List Host.Cell) (scope : Scope) (live t : Tables) (e : Nat) :
    (∀ r, pointFault m t e = some r → checkPoint m scope live t e = some r) ∧
    (pointFault m t e = none → FirstFails
      [ (scope = .annunciation ∧ look t.points e = none ∧ ((∃ i c, look live.terms i = some c ∧ e ∈ c.points) ∨
          ∃ i c, look live.switches i = some c ∧ c.feedback = some e), .badReference) ] (checkPoint m scope live t e)) := by
  rw [checkPoint_eq, ← liveNames_iff, ← Option.isNone_iff_eq_none (o := look t.points e)]
  refine ⟨fun r fault => by rw [fault]; rfl, fun sound => ?_⟩
  rw [sound]
  exact ⟨fun lost => if_pos lost, fun fine => if_neg fine⟩

theorem checkChannel_fails (m : List Host.Cell) (scope : Scope) (live t : Tables) {e : Nat} {c : ChannelSettings} (entry : c = look t.channels e) :
    (scope = .annunciation ∧ (look live.channels e).mode = .testReturn → checkChannel m scope live t e = none) ∧
    (¬ (scope = .annunciation ∧ (look live.channels e).mode = .testReturn) → FirstFails
      [ (scope = .full ∧ 1 < stagedByte m (channelPlace e), .badRange), (1023 < c.low, .badRange),
        (c.mode = .continuous ∧ (1023 < c.high ∨ 63 < c.hysteresis), .badRange),
        (c.mode = .continuous ∧ c.high ≤ c.low + 2 * c.hysteresis, .badRange), (c.mode = .testReturn ∧ c.low = 0, .badRange) ]
      (checkChannel m scope live t e)) := by
  subst entry
  refine ⟨fun kept => if_pos kept, fun read => ?_⟩
  have judged : checkChannel m scope live t e = _ := if_neg read
  rw [judged]
  refine firstFails_cons ?_ (firstFails_cons (outside_zero_iff ..) (firstFails_cons ?_ (firstFails_cons ?_ (firstFails_cons ?_
    firstFails_nil))))
  · rw [Bool.and_eq_true, beq_iff_eq, outside_zero_iff]
  · simp only [Bool.and_eq_true, Bool.or_eq_true, beq_iff_eq, outside_zero_iff]
  · rw [Bool.and_eq_true, beq_iff_eq, decide_eq_true_iff]
  · rw [Bool.and_eq_true, beq_iff_eq, beq_iff_eq]

end Sys2Proof.Machine
end

section
/-! Validation of staged tables (R172): the windows, groups, panels, terms and switches. -/

namespace Sys2Proof.Machine

/-- A field that may name nothing fails a test where it names something that fails it. -/
theorem any_eq_true_iff {α : Type} (field : Option α) (test : α → Bool) : field.any test = true ↔ ∃ x, field = some x ∧ test x = true := by
  cases field <;> simp

theorem missing_iff {α : Type} [Inhabited α] {n : Nat} (v : Vector (Option α) n) (l : List Nat) :
    (l.any fun i => (look v i).isNone) = true ↔ ∃ i ∈ l, look v i = none := by
  simp only [List.any_eq_true, Option.isNone_iff_eq_none]

/-! ## Windows -/

theorem sourceMissing_iff (t : Tables) (n : Nat) : sourceMissing t n = true ↔ n < 544 ∧ look t.points n = none := by
  rw [sourceMissing, Bool.and_eq_true, decide_eq_true_iff, Option.isNone_iff_eq_none]

theorem mem_earlierWindows (t : Tables) (e : Nat) (p : WindowSettings → Bool) (w : Nat) :
    w ∈ earlierWindows t e p ↔ w < e ∧ ∃ d, look t.windows w = some d ∧ p d = true := by
  rw [earlierWindows, List.mem_filter, mem_configuredWhere, decide_eq_true_iff, and_comm]

/-- The earlier windows are those among the numbers below the entry. -/
theorem length_earlierWindows (t : Tables) (e : Nat) (p : WindowSettings → Bool) :
    (earlierWindows t e p).length = ((List.range e).filter fun w => (look t.windows w).any p).length := by
  have rising : (earlierWindows t e p).Pairwise (· < ·) := (configuredWhere_rising t.windows p).filter _
  have below : ∀ w ∈ earlierWindows t e p, w < e := fun w member => ((mem_earlierWindows t e p w).1 member).1
  rw [filter_range_eq rising below (fun _ => true) _ fun w less => ?_, List.filter_true]
  rw [mem_earlierWindows, any_eq_true_iff]
  exact ⟨fun member => ⟨⟨less, member⟩, rfl⟩, fun ⟨⟨_, member⟩, _⟩ => member⟩

/-- What a configured window is judged for, in order (R37). -/
def windowFaults (m : List Host.Cell) (t : Tables) (e : Nat) (c : WindowSettings) : List (Prop × Reason) :=
  [ (stagedByte m (windowPlace e + 7) < 1 ∨ 8 < stagedByte m (windowPlace e + 7) ∨ ¬ c.sources.Nodup, .badRange),
    (∃ n ∈ c.sources, 679 < n, .badReference), (∃ n ∈ c.sources, n < 544 ∧ look t.points n = none, .badReference),
    (∃ p q, c.place = some (p, q) ∧ p < 16 ∧ look t.panels p = none, .badReference),
    (2 < stagedByte m (windowPlace e + 1) ∨ 8 < c.unit ∨ (∃ g, c.group = some g ∧ 31 < g) ∨
      ∃ p q, c.place = some (p, q) ∧ (15 < p ∨ 23 < q), .badRange),
    (c.place ≠ none ∧ ∃ w d, w < e ∧ look t.windows w = some d ∧ d.place = c.place, .positionTwice),
    (∃ g, c.group = some g ∧ 64 ≤ ((List.range e).filter fun w => (look t.windows w).any fun d => d.group == some g).length,
      .badRange) ]

theorem placeTwice_iff (t : Tables) (e : Nat) (place : Option (Nat × Nat)) :
    (place.isSome && !(earlierWindows t e fun d => d.place == place).isEmpty) = true ↔
      place ≠ none ∧ ∃ w d, w < e ∧ look t.windows w = some d ∧ d.place = place := by
  simp only [Bool.and_eq_true, Option.isSome_iff_ne_none, not_isEmpty_iff, mem_earlierWindows, beq_iff_eq, exists_and_left]

theorem groupFull_iff (t : Tables) (e : Nat) (group : Option Nat) :
    (group.isSome && decide (64 ≤ (earlierWindows t e fun d => d.group == group).length)) = true ↔
      ∃ g, group = some g ∧ 64 ≤ ((List.range e).filter fun w => (look t.windows w).any fun d => d.group == some g).length := by
  rw [length_earlierWindows, Bool.and_eq_true, decide_eq_true_iff]
  cases group with
  | none => exact ⟨fun ⟨no, _⟩ => (by cases no), fun ⟨_, no, _⟩ => (by cases no)⟩
  | some g => exact ⟨fun ⟨_, full⟩ => ⟨g, rfl, full⟩, fun ⟨_, same, full⟩ => (by cases same; exact ⟨rfl, full⟩)⟩

theorem checkWindow_configured (m : List Host.Cell) (t : Tables) {e : Nat} {c : WindowSettings} (entry : look t.windows e = some c) :
    FirstFails (windowFaults m t e c) (checkWindow m t e) := by
  rw [checkWindow]
  simp only [entry]
  refine firstFails_cons ?_ (firstFails_cons ?_ (firstFails_cons ?_ (firstFails_cons ?_ (firstFails_cons ?_
    (firstFails_cons (placeTwice_iff ..) (firstFails_cons (groupFull_iff ..) firstFails_nil))))))
  · rw [Bool.or_eq_true, outside_iff, repeated_iff, or_assoc]
  · simp only [List.any_eq_true, decide_eq_true_iff]
  · simp only [List.any_eq_true, sourceMissing_iff]
  · rcases c.place with _ | ⟨p, q⟩
    · simp
    · simp
  · simp only [Bool.or_eq_true, outside_zero_iff, or_assoc]
    refine or_congr_right (or_congr_right (or_congr ?_ ?_))
    · cases c.group <;> simp [outside_zero_iff]
    · rcases c.place with _ | ⟨p, q⟩ <;> simp [outside_zero_iff]

theorem checkWindow_fails (m : List Host.Cell) {scope : Scope} {live t : Tables} (staged : t = stagedTables m scope live) {e : Nat}
    (inside : e < 384) : ∃ l, ConfiguredFails m (windowPlace e) l (checkWindow m t e) ∧
      ∀ c, look t.windows e = some c → l = windowFaults m t e c := by
  have entry : look t.windows e = stagedWindow m e := by
    subst staged
    exact look_tabulate 384 (stagedWindow m) e inside
  refine configured_fails entry (fun unread => ?_) fun c read => checkWindow_configured m t read
  rw [checkWindow]
  simp only [unread]

end Sys2Proof.Machine
end

section
/-! Validation of staged tables (R172): the groups, panels, terms and switches. -/

namespace Sys2Proof.Machine

/-! ## Groups -/

/-- A bound that a list's greatest element exceeds. -/
theorem lt_foldl_max_add_iff (l : List Nat) (x k start : Nat) : x < l.foldl max start + k ↔ x < start + k ∨ ∃ y ∈ l, x < y + k := by
  induction l generalizing start with
  | nil => simp
  | cons a l ih =>
    rw [List.foldl_cons, ih, List.exists_mem_cons_iff, ← or_assoc]
    exact or_congr_left (by omega)

/-- A set filter makes the longest one too long only where a settable point has it. -/
theorem lt_setFilterOf_add_iff (t : Tables) (x k n : Nat) (short : k ≤ x) :
    x < setFilterOf t n + k ↔ n < 544 ∧ ∃ p, look t.points n = some p ∧ x < p.setFilter + k := by
  unfold setFilterOf
  cases look t.points n with
  | none => simp [short]
  | some p =>
    by_cases settable : n < 544
    · simp [settable]
    · simp [settable, short]

/-- The set filters at the sources of a group's configured members (R62). -/
def memberFilters (t : Tables) (g : Nat) : List Nat :=
  (configuredWhere t.windows fun c => c.group == some g).flatMap fun w =>
    match look t.windows w with
    | some c => c.sources.map (setFilterOf t)
    | none => []

theorem longestFilter_eq (t : Tables) (g : Nat) : longestFilter t g = (memberFilters t g).foldl max 0 := rfl

theorem mem_memberFilters (t : Tables) (g y : Nat) : y ∈ memberFilters t g ↔
    ∃ v d n, look t.windows v = some d ∧ d.group = some g ∧ n ∈ d.sources ∧ setFilterOf t n = y := by
  simp only [memberFilters, List.mem_flatMap, mem_configuredWhere, beq_iff_eq]
  constructor
  · rintro ⟨v, ⟨d, entry, group⟩, member⟩
    rw [entry] at member
    obtain ⟨n, source, same⟩ := List.mem_map.1 member
    exact ⟨v, d, n, entry, group, source, same⟩
  · rintro ⟨v, d, n, entry, group, source, same⟩
    refine ⟨v, ⟨d, entry, group⟩, ?_⟩
    rw [entry]
    exact List.mem_map.2 ⟨n, source, same⟩

theorem lt_longestFilter_iff (t : Tables) (e x : Nat) : x < longestFilter t e + 12 ↔
    x < 12 ∨ ∃ v d n p, look t.windows v = some d ∧ d.group = some e ∧ n ∈ d.sources ∧ n < 544 ∧ look t.points n = some p ∧
      x < p.setFilter + 12 := by
  by_cases short : x < 12
  · exact iff_of_true (by omega) (Or.inl short)
  rw [longestFilter_eq, lt_foldl_max_add_iff, Nat.zero_add]
  refine or_congr_right ?_
  constructor
  · rintro ⟨y, member, long⟩
    obtain ⟨v, d, n, entry, group, source, rfl⟩ := (mem_memberFilters t e y).1 member
    obtain ⟨settable, p, point, long⟩ := (lt_setFilterOf_add_iff t x 12 n (by omega)).1 long
    exact ⟨v, d, n, p, entry, group, source, settable, point, long⟩
  · rintro ⟨v, d, n, p, entry, group, source, settable, point, long⟩
    exact ⟨setFilterOf t n, (mem_memberFilters t e _).2 ⟨v, d, n, entry, group, source, rfl⟩,
      (lt_setFilterOf_add_iff t x 12 n (by omega)).2 ⟨settable, p, point, long⟩⟩

theorem checkGroup_fails (t : Tables) (e : Nat) : FirstFails
    [ (1000 < look t.groups e, .badRange),
      (∃ w c, look t.windows w = some c ∧ c.group = some e ∧ (look t.groups e < 12 ∨ ∃ v d n p, look t.windows v = some d ∧
        d.group = some e ∧ n ∈ d.sources ∧ n < 544 ∧ look t.points n = some p ∧ look t.groups e < p.setFilter + 12),
        .settleShort) ] (checkGroup t e) := by
  refine firstFails_cons (outside_zero_iff ..) (firstFails_cons ?_ firstFails_nil)
  rw [Bool.and_eq_true, configuredWhere_isEmpty_iff, decide_eq_true_iff, lt_longestFilter_iff]
  simp only [beq_iff_eq]
  constructor
  · rintro ⟨⟨w, c, entry, group⟩, long⟩
    exact ⟨w, c, entry, group, long⟩
  · rintro ⟨w, c, entry, group, long⟩
    exact ⟨⟨w, c, entry, group⟩, long⟩

/-! ## Panels -/

theorem checkPanel_fails (m : List Host.Cell) (e : Nat) :
    ConfiguredFails m (panelPlace e) [(1 < stagedByte m (panelPlace e + 1), .badRange)] (checkPanel m e) :=
  checkConfigured_fails (firstFails_cons (outside_zero_iff ..) firstFails_nil)

/-! ## Terms -/

/-- What a configured term is judged for, in order (R85). -/
def termFaults (m : List Host.Cell) (t : Tables) (e : Nat) (c : TermSettings) : List (Prop × Reason) :=
  [ (stagedByte m (termPlace e + 4) < 1 ∨ 4 < stagedByte m (termPlace e + 4) ∨ stagedByte m (termPlace e + 16) < 1 ∨
      8 < stagedByte m (termPlace e + 16) ∨ ¬ c.outputs.Nodup, .badRange),
    (c.vote < 1 ∨ c.points.length < c.vote, .badRange),
    (10000 < c.delay ∨ 8 < c.unit ∨ 2 < stagedByte m (termPlace e + 3), .badRange), (c.unit ≠ 8 ∧ c.modes = [], .badRange),
    (∃ n ∈ c.points, 543 < n, .badReference), (∃ n ∈ c.points, look t.points n = none, .badReference),
    (∃ i ∈ c.outputs, look t.switches i = none, .badReference) ]

theorem checkTerm_configured (m : List Host.Cell) (t : Tables) {e : Nat} {c : TermSettings} (entry : look t.terms e = some c) :
    FirstFails (termFaults m t e c) (checkTerm m t e) := by
  rw [checkTerm]
  simp only [entry]
  refine firstFails_cons ?_ (firstFails_cons (outside_iff ..) (firstFails_cons ?_ (firstFails_cons ?_ (firstFails_cons ?_
    (firstFails_cons (missing_iff ..) (firstFails_cons (missing_iff ..) firstFails_nil))))))
  · simp only [Bool.or_eq_true, outside_iff, repeated_iff, or_assoc]
  · simp only [Bool.or_eq_true, outside_zero_iff, or_assoc, commonUnit]
  · rw [Bool.and_eq_true, bne_iff_ne, List.isEmpty_iff]
  · simp only [List.any_eq_true, decide_eq_true_iff]

theorem checkTerm_fails (m : List Host.Cell) {live t : Tables} (staged : t = stagedTables m .full live) {e : Nat}
    (inside : e < 128) : ∃ l, ConfiguredFails m (termPlace e) l (checkTerm m t e) ∧
      ∀ c, look t.terms e = some c → l = termFaults m t e c := by
  have entry : look t.terms e = stagedTerm m e := by
    subst staged
    exact look_tabulate 128 (stagedTerm m) e inside
  refine configured_fails entry (fun unread => ?_) fun c read => checkTerm_configured m t read
  rw [checkTerm]
  simp only [unread]

/-! ## Switches -/

/-- What a configured switch is judged for, in order (R99, R123, R136). -/
def switchFaults (m : List Host.Cell) (t : Tables) (e : Nat) (c : SwitchSettings) : List (Prop × Reason) :=
  [ (2 < stagedByte m (switchPlace e + 1) ∨ 8 < c.unit ∨ c.cls < 1 ∨ 2 < c.cls, .badRange),
    (c.kind ≠ .hold ∧ c.feedback = none, .feedbackMissing),
    (∃ n, c.feedback = some n ∧ (543 < n ∨ look t.points n = none), .badReference),
    (c.kind ≠ .hold ∧ (c.minPulse < 10 ∨ 100 < c.minPulse ∨ c.maxPulse < 40 ∨ 500 < c.maxPulse ∨
      c.maxPulse < c.minPulse + 20), .badRange),
    (c.kind = .lockout ∧ (c.resetPulse < 20 ∨ 200 < c.resetPulse), .badRange),
    (3 < stagedByte m (switchPlace e + 12) ∨ (∃ x ∈ c.successors, 47 < x.1) ∨
      (∃ i, i < c.successors.length ∧ 1 < stagedByte m (switchPlace e + 17 + 2 * i)) ∨
      ¬ (c.successors.map fun x => x.1).Nodup, .badRange),
    (c.kind ≠ .hold ∧ ∃ b, c.backup = some b ∧ 47 < b, .badRange),
    ((∃ x ∈ c.successors, look t.switches x.1 = none) ∨ (c.kind ≠ .hold ∧ ∃ b, c.backup = some b ∧ look t.switches b = none),
      .badReference),
    (∃ h i, c.supervision = some (h, i) ∧ (15 < h ∨ i < 1 ∨ 60 < i), .badRange),
    (∃ h i, c.supervision = some (h, i) ∧ (look t.channels h).mode = .continuous, .channelMode) ]

theorem checkSwitch_configured (m : List Host.Cell) (t : Tables) {e : Nat} {c : SwitchSettings} (entry : look t.switches e = some c) :
    FirstFails (switchFaults m t e c) (checkSwitch m t e) := by
  rw [checkSwitch]
  simp only [entry]
  refine firstFails_cons ?_ (firstFails_cons ?_ (firstFails_cons ?_ (firstFails_cons ?_ (firstFails_cons ?_ (firstFails_cons ?_
    (firstFails_cons ?_ (firstFails_cons ?_ (firstFails_cons ?_ (firstFails_cons ?_ firstFails_nil)))))))))
  · rw [Bool.or_eq_true, Bool.or_eq_true, outside_zero_iff, outside_zero_iff, outside_iff, or_assoc]
  · rw [Bool.and_eq_true, bne_iff_ne, Option.isNone_iff_eq_none]
  · cases c.feedback <;> simp
  · simp only [Bool.and_eq_true, Bool.or_eq_true, bne_iff_ne, outside_iff, decide_eq_true_iff, or_assoc]
  · rw [Bool.and_eq_true, beq_iff_eq, outside_iff]
  · simp only [Bool.or_eq_true, outside_zero_iff, List.any_eq_true, decide_eq_true_iff, List.mem_range, repeated_iff, or_assoc]
  · rw [Bool.and_eq_true, bne_iff_ne]
    cases c.backup <;> simp
  · rw [Bool.or_eq_true, Bool.and_eq_true, bne_iff_ne]
    simp only [List.any_eq_true, Option.isNone_iff_eq_none]
    cases c.backup <;> simp
  · rcases c.supervision with _ | ⟨h, i⟩ <;> simp [outside_iff]
  · rcases c.supervision with _ | ⟨h, i⟩ <;> simp

theorem checkSwitch_fails (m : List Host.Cell) {live t : Tables} (staged : t = stagedTables m .full live) {e : Nat}
    (inside : e < 48) : ∃ l, ConfiguredFails m (switchPlace e) l (checkSwitch m t e) ∧
      ∀ c, look t.switches e = some c → l = switchFaults m t e c := by
  have entry : look t.switches e = stagedSwitch m e := by
    subst staged
    exact look_tabulate 48 (stagedSwitch m) e inside
  refine configured_fails entry (fun unread => ?_) fun c read => checkSwitch_configured m t read
  rw [checkSwitch]
  simp only [unread]

end Sys2Proof.Machine
end

section
/-! Validation of staged tables (R172): the cascade graph (R123). -/

namespace Sys2Proof.Machine

theorem mem_cascadeEdges_iff (t : Tables) (i j : Nat) : j ∈ cascadeEdges t i ↔ CascadeEdge t i j := by
  unfold cascadeEdges CascadeEdge
  cases look t.switches i with
  | none => simp
  | some c =>
    simp only [Option.some.injEq, exists_eq_left', List.mem_append, List.mem_map]
    refine or_congr_right ?_
    cases c.kind <;> cases c.backup <;> simp [eq_comm]

/-! ## The nodes reached -/

/-- The nodes reached in at most one further step. -/
def reachedNext (t : Tables) (nodes seen : List Nat) : List Nat :=
  nodes.filter fun j => seen.contains j || seen.any fun i => (cascadeEdges t i).contains j

theorem reached_succ (t : Tables) (nodes : List Nat) (n : Nat) (seen : List Nat) :
    reached t nodes (n + 1) seen = reached t nodes n (reachedNext t nodes seen) := rfl

theorem mem_reachedNext_iff {t : Tables} {nodes seen : List Nat} {j : Nat} :
    j ∈ reachedNext t nodes seen ↔ j ∈ nodes ∧ (j ∈ seen ∨ ∃ i ∈ seen, CascadeEdge t i j) := by
  rw [reachedNext, List.mem_filter, Bool.or_eq_true, List.any_eq_true]
  simp only [List.contains_iff_mem, mem_cascadeEdges_iff]

theorem reached_eq_of_fixed {t : Tables} {nodes seen : List Nat} (fixed : reachedNext t nodes seen = seen) (n : Nat) :
    reached t nodes n seen = seen := by
  induction n with
  | zero => rfl
  | succ n ih => rw [reached_succ, fixed, ih]

theorem mem_reached_of_mem {t : Tables} {nodes : List Nat} {j : Nat} (node : j ∈ nodes) (n : Nat) {seen : List Nat} (member : j ∈ seen) :
    j ∈ reached t nodes n seen := by
  induction n generalizing seen with
  | zero => exact member
  | succ n ih => exact ih (mem_reachedNext_iff.2 ⟨node, .inl member⟩)

/-- Nothing is reached but along the edges of the graph. -/
theorem reached_sound {t : Tables} {nodes : List Nat} {i : Nat} (n : Nat) {seen : List Nat}
    (sound : ∀ j ∈ seen, Relation.TransGen (CascadeEdge t) i j) :
    ∀ j ∈ reached t nodes n seen, Relation.TransGen (CascadeEdge t) i j := by
  induction n generalizing seen with
  | zero => exact sound
  | succ n ih =>
    refine ih fun j member => ?_
    obtain ⟨_, old | ⟨a, old, edge⟩⟩ := mem_reachedNext_iff.1 member
    · exact sound j old
    · exact (sound a old).tail edge

/-- Each step adds a node or ends the search: where the steps and the nodes found together make up all nodes, the search has ended. -/
theorem reached_closed {t : Tables} {nodes : List Nat} (n : Nat) {seen : List Nat} (within : seen.Sublist nodes)
    (enough : nodes.length ≤ n + seen.length) {a b : Nat} (found : a ∈ reached t nodes n seen) (edge : CascadeEdge t a b)
    (node : b ∈ nodes) : b ∈ reached t nodes n seen := by
  induction n generalizing seen with
  | zero =>
    rw [within.eq_of_length_le (by omega)]
    exact node
  | succ n ih =>
    have grows : seen.Sublist (reachedNext t nodes seen) := by
      have kept : seen.filter (fun j => seen.contains j || seen.any fun i => (cascadeEdges t i).contains j) = seen :=
        List.filter_eq_self.2 fun j member => by simp [member]
      rw [← kept]
      conv_rhs => rw [reachedNext, kept]
      exact within.filter _
    by_cases more : seen.length < (reachedNext t nodes seen).length
    · have left : nodes.length ≤ n + (reachedNext t nodes seen).length := by omega
      exact ih List.filter_sublist left found
    · have fixed : reachedNext t nodes seen = seen := (grows.eq_of_length_le (Nat.not_lt.1 more)).symm
      rw [reached_eq_of_fixed fixed] at found ⊢
      rw [← fixed]
      exact mem_reachedNext_iff.2 ⟨node, .inr ⟨a, found, edge⟩⟩

/-! ## Cycles -/

theorem source_of_cascadeEdge {t : Tables} {i j : Nat} (edge : CascadeEdge t i j) : i ∈ configuredWhere t.switches fun _ => true := by
  obtain ⟨c, entry, _⟩ := edge
  exact (mem_configuredWhere ..).2 ⟨c, entry, rfl⟩

theorem source_of_cascadePath {t : Tables} {i j : Nat} (path : Relation.ReflTransGen (CascadeEdge t) i j)
    (last : j ∈ configuredWhere t.switches fun _ => true) : i ∈ configuredWhere t.switches fun _ => true := by
  obtain rfl | ⟨_, edge, _⟩ := path.cases_head
  · exact last
  · exact source_of_cascadeEdge edge

/-- The search from a switch's successors comes back to a switch on a cycle. -/
theorem reached_iff_cycle (t : Tables) {nodes : List Nat} (all : nodes = configuredWhere t.switches fun _ => true) {i : Nat} (node : i ∈ nodes) :
    i ∈ reached t nodes nodes.length (cascadeEdges t i) ↔ Relation.TransGen (CascadeEdge t) i i := by
  refine ⟨fun found => ?_, fun cycle => ?_⟩
  · exact reached_sound _ (fun j edge => .single ((mem_cascadeEdges_iff t i j).1 edge)) i found
  · obtain ⟨b, edge, path⟩ := Relation.TransGen.head'_iff.1 cycle
    have begins : b ∈ reachedNext t nodes (cascadeEdges t i) :=
      mem_reachedNext_iff.2 ⟨all ▸ source_of_cascadePath path (all ▸ node), .inl ((mem_cascadeEdges_iff t i b).2 edge)⟩
    obtain ⟨n, steps⟩ := Nat.exists_eq_add_one.2 (List.length_pos_of_mem node)
    rw [steps, reached_succ]
    have enough : nodes.length ≤ n + (reachedNext t nodes (cascadeEdges t i)).length := by
      have := List.length_pos_of_mem begins
      omega
    have first : b ∈ reached t nodes n (reachedNext t nodes (cascadeEdges t i)) :=
      mem_reached_of_mem (mem_reachedNext_iff.1 begins).1 n begins
    clear edge begins cycle
    induction path using Relation.ReflTransGen.head_induction_on with
    | refl => exact first
    | head edge path ih =>
      exact ih (reached_closed n List.filter_sublist enough first edge (all ▸ source_of_cascadePath path (all ▸ node)))

/-- The lowest switch on a cycle, where there is one. -/
theorem cascadeLoop_eq_some_iff (t : Tables) (i : Nat) : cascadeLoop t = some i ↔
    Relation.TransGen (CascadeEdge t) i i ∧ ∀ j, j < i → ¬ Relation.TransGen (CascadeEdge t) j j := by
  have test (j : Nat) : ((look t.switches j).any fun _ => true) = true ∧
      (reached t (configuredWhere t.switches fun _ => true) (configuredWhere t.switches fun _ => true).length
        (cascadeEdges t j)).contains j = true ↔ Relation.TransGen (CascadeEdge t) j j := by
    have node : ((look t.switches j).any fun _ => true) = true ↔ j ∈ configuredWhere t.switches fun _ => true := by
      rw [any_eq_true_iff, mem_configuredWhere]
    rw [node, List.contains_iff_mem]
    constructor
    · rintro ⟨node, found⟩
      exact (reached_iff_cycle t rfl node).1 found
    · intro cycle
      obtain ⟨_, edge, _⟩ := Relation.TransGen.head'_iff.1 cycle
      have node := source_of_cascadeEdge edge
      exact ⟨node, (reached_iff_cycle t rfl node).2 cycle⟩
  have inside (cycle : Relation.TransGen (CascadeEdge t) i i) : i ∈ List.range 48 := by
    by_contra beyond
    obtain ⟨any, _⟩ := (test i).2 cycle
    rw [look_beyond _ _ (Nat.not_lt.1 fun less => beyond (List.mem_range.2 less))] at any
    cases any
  have search : cascadeLoop t = ((List.range 48).filter fun j => (look t.switches j).any fun _ => true).find? fun j =>
      (reached t (configuredWhere t.switches fun _ => true) (configuredWhere t.switches fun _ => true).length
        (cascadeEdges t j)).contains j := by
    rw [cascadeLoop, ← configuredWhere_eq_filter]
  rw [search, List.find?_filter, List.find?_range_eq_some]
  simp only [test, decide_eq_true_iff, Bool.not_eq_true', decide_eq_false_iff_not]
  exact ⟨fun ⟨cycle, _, least⟩ => ⟨cycle, least⟩, fun ⟨cycle, least⟩ => ⟨cycle, inside cycle, least⟩⟩

end Sys2Proof.Machine
end

section
/-! Validation of staged tables (R172): the order in which tables and entries are judged. -/

namespace Sys2Proof.Machine

theorem findSome?_range_eq_some_iff {α : Type} (f : Nat → Option α) (n : Nat) (x : α) :
    (List.range n).findSome? f = some x ↔ ∃ e, e < n ∧ f e = some x ∧ ∀ i, i < e → f i = none := by
  induction n with
  | zero => simp
  | succ n ih =>
    rw [List.range_succ, List.findSome?_append, Option.or_eq_some_iff, ih, List.findSome?_eq_none_iff]
    simp only [List.mem_range, List.findSome?_singleton]
    constructor
    · rintro (⟨e, less, found, first⟩ | ⟨first, found⟩)
      · exact ⟨e, by omega, found, first⟩
      · exact ⟨n, by omega, found, first⟩
    · rintro ⟨e, less, found, first⟩
      by_cases last : e = n
      · exact .inr (last ▸ ⟨first, found⟩)
      · exact .inl ⟨e, by omega, found, first⟩

theorem firstBad_eq_some_iff (table : TableName) (check : Nat → Option Reason) (table' : TableName) (e : Nat) (r : Reason) :
    firstBad table check = some (table', e, r) ↔
      table = table' ∧ e < table.entries ∧ check e = some r ∧ ∀ i, i < e → check i = none := by
  rw [firstBad, findSome?_range_eq_some_iff]
  simp only [Option.map_eq_some_iff, Option.map_eq_none_iff, Prod.mk.injEq]
  constructor
  · rintro ⟨_, less, ⟨_, fault, same, rfl, rfl⟩, first⟩
    exact ⟨same, less, fault, first⟩
  · rintro ⟨same, less, fault, first⟩
    exact ⟨e, less, ⟨r, fault, same, rfl, rfl⟩, first⟩

theorem firstBad_eq_none_iff (table : TableName) (check : Nat → Option Reason) :
    firstBad table check = none ↔ ∀ i, i < table.entries → check i = none := by
  simp only [firstBad, List.findSome?_eq_none_iff, List.mem_range, Option.map_eq_none_iff]

theorem findSome?_cons_eq_or {α β : Type} (f : α → Option β) (a : α) (l : List α) :
    (a :: l).findSome? f = (f a).or (l.findSome? f) := by
  rw [List.findSome?_cons]
  cases f a <;> rfl

/-- Validation takes the tables of the scope in their order; a FULL adoption then searches the cascade graph. -/
theorem validate_eq (m : List Host.Cell) (scope : Scope) {live t : Tables} (staged : t = stagedTables m scope live) :
    validate m scope live = ((tablesIn scope).findSome? fun x => firstBad x (entryFault m scope live t x)).or
      (if scope = .full then (cascadeLoop t).map fun i => (TableName.switches, i, Reason.cascadeLoop) else none) := by
  subst staged
  cases scope <;> simp [validate, tablesIn, findSome?_cons_eq_or, Option.or_assoc]

theorem mem_tablesIn_full (x : TableName) : x ∈ tablesIn .full := by
  cases x <;> decide

theorem validate_eq_some_iff (m : List Host.Cell) (scope : Scope) {live t : Tables} (staged : t = stagedTables m scope live)
    (table : TableName) (e : Nat) (r : Reason) : validate m scope live = some (table, e, r) ↔
      (∃ before behind, tablesIn scope = before ++ table :: behind ∧ e < table.entries ∧
        entryFault m scope live t table e = some r ∧ (∀ i, i < e → entryFault m scope live t table i = none) ∧
        ∀ x ∈ before, ∀ i, i < x.entries → entryFault m scope live t x i = none) ∨
      (scope = .full ∧ (∀ x i, i < x.entries → entryFault m scope live t x i = none) ∧ table = .switches ∧ r = .cascadeLoop ∧
        Relation.TransGen (CascadeEdge t) e e ∧ ∀ i, i < e → ¬ Relation.TransGen (CascadeEdge t) i i) := by
  rw [validate_eq m scope staged, Option.or_eq_some_iff, List.findSome?_eq_some_iff, List.findSome?_eq_none_iff]
  simp only [firstBad_eq_some_iff, firstBad_eq_none_iff]
  refine or_congr ?_ ?_
  · constructor
    · rintro ⟨before, x, behind, split, ⟨rfl, fault⟩, sound⟩
      exact ⟨before, behind, split, fault.1, fault.2.1, fault.2.2, sound⟩
    · rintro ⟨before, behind, split, less, fault, first, sound⟩
      exact ⟨before, table, behind, split, ⟨rfl, less, fault, first⟩, sound⟩
  · cases scope with
    | annunciation => simp
    | full =>
      simp only [if_true, Option.map_eq_some_iff, Prod.mk.injEq, cascadeLoop_eq_some_iff]
      constructor
      · rintro ⟨sound, i, ⟨cycle, least⟩, rfl, rfl, rfl⟩
        exact ⟨trivial, fun x => sound x (mem_tablesIn_full x), rfl, rfl, cycle, least⟩
      · rintro ⟨_, sound, rfl, rfl, cycle, least⟩
        exact ⟨fun x _ => sound x, e, ⟨cycle, least⟩, rfl, rfl, rfl⟩

/-- Settles O10. The order of the tables is `validate_eq_some_iff`; what each table's entries are judged for is one lemma a table, from the lists
of faults that its check runs through. -/
theorem validationJudgesTables : Obligations.ValidationJudgesTables := by
  unfold Obligations.ValidationJudgesTables
  intro m scope live t staged
  refine ⟨validate_eq_some_iff m scope staged, checkGeneral_fails scope t.general,
    fun e a _ place => checkConcentrator_fails m t place,
    fun e a _ place => ⟨pointFault m t e, pointFault_fails m t place, checkPoint_fails m scope live t e⟩,
    fun e c _ entry => checkChannel_fails m scope live t entry, fun e a inside place => ?_, fun e _ => checkGroup_fails t e,
    fun e _ => checkPanel_fails m e, fun full e a inside place => ?_, fun full e a inside place => ?_⟩
  · rw [place]
    exact checkWindow_fails m staged inside
  · rw [place]
    exact checkTerm_fails m (full ▸ staged) inside
  · rw [place]
    exact checkSwitch_fails m (full ▸ staged) inside

end Sys2Proof.Machine
end
